-- ==== Sys2Proof/Word.lean ====
section
/-! DEFINITION. The word types of the MF-32: a word is 32 bits, and an address is a word address of 24 bits
(00_scope, section 4). -/

namespace Sys2Proof

/-- A word: 32 bits (00_scope, section 4). -/
abbrev Word := BitVec 32

/-- One byte lane of a word, the unit that a byte enable enables (R1). -/
abbrev Byte := BitVec 8

/-- A word address on either bus: 24 bits (00_scope, section 3). -/
abbrev Addr := BitVec 24

end Sys2Proof
end

