-- ==== Sys2Proof/Syntax.lean ====
section
/-! DEFINITION. The commands of the MF-32: one constructor per row of spec/opcode_table.json, with the operands the
row's event carries. No row gives bits, so a command is a term and not a word. -/

namespace Sys2Proof

/-- The length of a burst: 1, 2, 4 or 8 words (R1). -/
inductive BurstLen where
  | one
  | two
  | four
  | eight
  deriving DecidableEq, Repr

/-- The number of words of a burst. -/
def BurstLen.words : BurstLen → Nat
  | .one => 1
  | .two => 2
  | .four => 4
  | .eight => 8

/-- One word of a write burst: its data and its four byte enables (R1). Enable bit i enables the bits 8i+7..8i of the data
(DESIGN CHOICE, log 1). -/
structure Beat where
  data : Word
  be : BitVec 4
  deriving DecidableEq, Repr

/-- A write transaction as it arrives at the processor-side port (R1): the word address presented, the burst length, and one
beat for each word in ascending address order. -/
structure WriteBurst where
  addr : Addr
  len : BurstLen
  beats : List Beat
  deriving DecidableEq, Repr

/-- A read transaction as it arrives at the processor-side port (R1). -/
structure ReadBurst where
  addr : Addr
  len : BurstLen
  deriving DecidableEq, Repr

/-- The commands: the part's steps, each whole and indivisible, as spec/opcode_table.json lists them. -/
inductive Instr where
  /-- RESET_N is asserted. `accepted` is how many words of a write burst on the memory-side port memory had accepted (R24). -/
  | hardwareReset (accepted : Nat)
  /-- RESET_N is deasserted. `zc` is the first ZC_IN sample, the reference level (R43). -/
  | resetDeassert (zc : Bool)
  /-- The write burst that carries APPLY. -/
  | apply (b : WriteBurst)
  /-- The write burst that carries WITHDRAW. -/
  | withdraw (b : WriteBurst)
  /-- The write burst that carries LINK_ADD. -/
  | linkAdd (b : WriteBurst)
  /-- The write burst that carries LINK_REMOVE. -/
  | linkRemove (b : WriteBurst)
  /-- The write burst that carries LINK_HOLD. -/
  | linkHold (b : WriteBurst)
  /-- The write burst that carries LINK_RESUME. -/
  | linkResume (b : WriteBurst)
  /-- The write burst that carries REBUILD. -/
  | rebuild (b : WriteBurst)
  /-- The write burst that carries CONFIRM. -/
  | confirm (b : WriteBurst)
  /-- The write burst that carries DECLINE. -/
  | decline (b : WriteBurst)
  /-- The write burst that carries a code of no command. -/
  | badCodeCommand (b : WriteBurst)
  /-- A write burst that carries a command argument. -/
  | cmdArgWrite (b : WriteBurst)
  /-- A write burst that carries NOTICE_CONSUMER. -/
  | noticeConsumerWrite (b : WriteBurst)
  /-- A write burst in Anchor words 16 to 47. -/
  | configWrite (b : WriteBurst)
  /-- Any write burst. -/
  | processorWrite (b : WriteBurst)
  /-- A write burst to a protected window or word. -/
  | discardedWrite (b : WriteBurst)
  /-- A write burst that carries estimate record words 1 to 6. -/
  | estimateHeaderWrite (b : WriteBurst)
  /-- A write burst that carries an estimate commit word with VALID 1. -/
  | estimateArrival (b : WriteBurst)
  /-- A write burst that carries descriptor word 1. -/
  | descriptorRefCapture (b : WriteBurst)
  /-- A write burst that carries descriptor word 2. -/
  | descriptorNodeCapture (b : WriteBurst)
  /-- A write burst that carries a control word with OWNER MODEM. -/
  | commit (b : WriteBurst)
  /-- A write burst that carries a control word with OWNER DONE. -/
  | descriptorDone (b : WriteBurst)
  /-- A write burst that carries a control word with OWNER HOST_OWNED. -/
  | descriptorHostOwned (b : WriteBurst)
  /-- A write burst that carries a control word with OWNER REJECTED. -/
  | descriptorRejected (b : WriteBurst)
  /-- A read burst in the Alias window. -/
  | aliasRead (r : ReadBurst)
  /-- The processor's burst on the memory-side port completes. -/
  | processorBurstDone
  /-- A sample of ZC_IN at the present tick; it is an edge where it differs from the sample before it (R43). -/
  | zcEdge (level : Bool)
  /-- The capture window passes with no accepted edge. -/
  | captureWindowMiss
  /-- A slice boundary passes. -/
  | sliceBoundary
  /-- A link whose gather ends at the start announced acts at that start. -/
  | gatherEnd (link : Nat)
  /-- A link whose offer expires at the start announced acts at that start. -/
  | offerExpiry (link : Nat)
  /-- A link whose effective count the start announced reaches acts at that start. -/
  | flip (link : Nat)
  /-- An Apply Reader burst completes. -/
  | notchReadDone
  /-- A Base Writer loading-word burst completes. -/
  | baseLoadingWriteDone
  /-- The Base Writer's header burst completes. -/
  | baseHeaderWriteDone
  /-- The idle Loading Engine takes the head of the Build Queue. -/
  | jobStart
  /-- The job's header read completes. -/
  | headerReadDone
  /-- An SNR burst of the job completes. -/
  | snrBurstDone
  /-- A candidate's loading-word burst completes. -/
  | candidateBurstDone
  /-- A slot is allocated to the job that waits for one. -/
  | allocateAfterWait
  /-- A loading-word write burst of the job completes. -/
  | loadingWriteDone
  /-- The job's header burst completes. -/
  | headerWriteDone
  /-- A notice burst completes. -/
  | noticeWriteDone
  /-- Any read burst. -/
  | processorRead (r : ReadBurst)
  /-- An internal burst whose client has ended completes. -/
  | endedClientBurstDone
  deriving DecidableEq, Repr

end Sys2Proof
end

