-- ==== Sys2Proof/Machine/Bursts.lean ====
section
/-! DEFINITION. The bursts of the processor-side port (R1): alignment, the words a burst covers, byte enables and partial
writes (R16). -/

namespace Sys2Proof

/-- The first address of a burst: the address bits below the burst length are taken as zero (R1). -/
def alignedBase (a : Addr) (len : BurstLen) : Nat := a.toNat / len.words * len.words

/-- The start address of a write burst. -/
def WriteBurst.base (b : WriteBurst) : Nat := alignedBase b.addr b.len

/-- The start address of a read burst. -/
def ReadBurst.base (r : ReadBurst) : Nat := alignedBase r.addr r.len

/-- The i-th beat of a write burst; a word for which no beat is given has no byte enabled. -/
def WriteBurst.beat (b : WriteBurst) (i : Nat) : Beat := b.beats.getD i ⟨0, 0⟩

/-- The beats of a burst in ascending address order, one for each of its words. -/
def WriteBurst.words (b : WriteBurst) : List Beat := (List.range b.len.words).map b.beat

/-- The beat of a write burst at a word address, if the burst covers it. -/
def WriteBurst.beatAt (b : WriteBurst) (a : Nat) : Option Beat :=
  if b.base ≤ a ∧ a < b.base + b.len.words then some (b.beat (a - b.base)) else none

/-- All four byte enables set. -/
def Beat.isFull (x : Beat) : Bool := x.be == 0xF#4

/-- The word a burst writes at an address with all four byte enables set, if it does. -/
def WriteBurst.fullAt (b : WriteBurst) (a : Nat) : Option Word :=
  match b.beatAt a with
  | some x => if x.isFull then some x.data else none
  | none => none

/-- Whether a burst writes an address with fewer than four byte enables set: a partial write (R16). -/
def WriteBurst.partialAt (b : WriteBurst) (a : Nat) : Bool :=
  match b.beatAt a with
  | some x => !x.isFull
  | none => false

/-- A word with the bytes that a beat enables replaced by the beat's. -/
def Beat.merge (x : Beat) (old : Word) : Word :=
  let lane := fun i => if x.be.getLsbD i then x.data.extractLsb' (8 * i) 8 else old.extractLsb' (8 * i) 8
  lane 3 ++ lane 2 ++ lane 1 ++ lane 0

/-- A beat that writes a whole word: an internal burst sets all four byte enables on every word (R3). -/
def Beat.whole (w : Word) : Beat := ⟨w, 0xF#4⟩

end Sys2Proof
end

