-- ==== Sys2Proof/WellFormed.lean ====
section
/-! DEFINITION. Well-formed commands: the shape of a burst, and what a row's name says of its burst as far as the operands
alone show it. A window's place depends on the configuration, so for the window rows only what every legal base (a multiple
of 64, R34) leaves fixed is checked. The machine runs ill-formed commands too (log 6). -/

namespace Sys2Proof

/-- A write burst gives one beat for each of its words (R1). -/
def WriteBurst.shapeOk (b : WriteBurst) : Bool := b.beats.length == b.len.words

/-- The burst writes CMD_CODE (Anchor word 12, address 10Ch) with all byte enables set, and the code satisfies p (R30). -/
def WriteBurst.carriesCode (b : WriteBurst) (p : Nat → Bool) : Bool :=
  match b.fullAt 0x10C with
  | some w => p w.toNat
  | none => false

/-- The burst starts at a multiple of m plus o with a full-enable word that satisfies p. -/
def WriteBurst.firstWord (b : WriteBurst) (m o : Nat) (p : Word → Bool) : Bool :=
  b.base % m == o &&
    match b.fullAt b.base with
    | some w => p w
    | none => false

/-- Some word of the burst is written in full at an address whose remainder by m lies from lo to hi. -/
def WriteBurst.fullIn (b : WriteBurst) (m lo hi : Nat) : Bool :=
  (List.range b.len.words).any fun i =>
    (b.beat i).isFull && decide (lo ≤ (b.base + i) % m) && decide ((b.base + i) % m ≤ hi)

/-- The control word's OWNER field (bits 1 to 0 of descriptor word 0, 12.5) is o. -/
def WriteBurst.ownerIs (b : WriteBurst) (o : Nat) : Bool := b.firstWord 8 0 fun w => w.toNat % 4 == o

/-- A command is well formed. -/
def Instr.wf : Instr → Bool
  | .hardwareReset accepted => accepted ≤ 8
  | .resetDeassert _ => true
  | .apply b => b.shapeOk && b.carriesCode (· == 1)
  | .withdraw b => b.shapeOk && b.carriesCode (· == 2)
  | .linkAdd b => b.shapeOk && b.carriesCode (· == 3)
  | .linkRemove b => b.shapeOk && b.carriesCode (· == 4)
  | .linkHold b => b.shapeOk && b.carriesCode (· == 5)
  | .linkResume b => b.shapeOk && b.carriesCode (· == 6)
  | .rebuild b => b.shapeOk && b.carriesCode (· == 7)
  | .confirm b => b.shapeOk && b.carriesCode (· == 8)
  | .decline b => b.shapeOk && b.carriesCode (· == 9)
  | .badCodeCommand b => b.shapeOk && b.carriesCode fun c => c == 0 || decide (9 < c)
  | .cmdArgWrite b =>
    b.shapeOk && ((b.fullAt 0x109).isSome || (b.fullAt 0x10A).isSome || (b.fullAt 0x10B).isSome)
  | .noticeConsumerWrite b => b.shapeOk && (b.fullAt 0x108).isSome
  | .configWrite b => b.shapeOk && decide (0x110 ≤ b.base) && decide (b.base < 0x130)
  | .processorWrite b => b.shapeOk
  | .discardedWrite b => b.shapeOk
  | .estimateHeaderWrite b => b.shapeOk && b.fullIn 64 1 6
  | .estimateArrival b => b.shapeOk && b.firstWord 64 0 fun w => w.getLsbD 31
  | .descriptorRefCapture b => b.shapeOk && b.fullIn 8 1 1
  | .descriptorNodeCapture b => b.shapeOk && b.fullIn 8 2 2
  | .commit b => b.shapeOk && b.ownerIs 1
  | .descriptorDone b => b.shapeOk && b.ownerIs 2
  | .descriptorHostOwned b => b.shapeOk && b.ownerIs 0
  | .descriptorRejected b => b.shapeOk && b.ownerIs 3
  | .aliasRead _ => true
  | .processorBurstDone => true
  | .zcEdge _ => true
  | .captureWindowMiss => true
  | .sliceBoundary => true
  | .gatherEnd k => k < 32
  | .offerExpiry k => k < 32
  | .flip k => k < 32
  | .notchReadDone => true
  | .baseLoadingWriteDone => true
  | .baseHeaderWriteDone => true
  | .jobStart => true
  | .headerReadDone => true
  | .snrBurstDone => true
  | .candidateBurstDone => true
  | .allocateAfterWait => true
  | .loadingWriteDone => true
  | .headerWriteDone => true
  | .noticeWriteDone => true
  | .processorRead _ => true
  | .endedClientBurstDone => true

end Sys2Proof
end

