-- ==== Sys2Proof/Decode.lean ====
section
/-! DEFINITION. The command that a word spells. No row of spec/opcode_table.json gives bits (98_reader.md: n_rows_with_fields 0),
so no word spells a command (log 26). -/

namespace Sys2Proof

/-- The command spelled by the nbits bits of w: none, since no row of the table gives bits (log 26). -/
def decodeTableWord (_nbits _w : Nat) : Option Instr := none

end Sys2Proof
end

