-- ==== Sys2Proof/Config.lean ====
section
/-! DEFINITION. What the spec leaves open: the orders it does not fix, as uninterpreted constants. Each is applied to the
counter of choices that State holds, so that no two choices need be alike and no proof can see what one is (log 11, 12). -/

namespace Sys2Proof

/-- One activity of the tracker's loss (R56, R151): the next release of one link's sweep to the Base Map, the release of one
link's latch, or the cancellation of the Loading Engine's job. -/
inductive LossItem where
  | sweep (link : Nat)
  | latch (link : Nat)
  | job
  deriving DecidableEq, Repr

/-- One activity of a link's entry to FALLBACK (R145): its next cell change, its latch's release, or the cancellation of its
job. -/
inductive FallbackItem where
  | cell
  | latch
  | job
  deriving DecidableEq, Repr

/-- The order in which the activities of a tracker loss are taken, "in any order within the loss" (R151). FREE VALUE. What
the list leaves undone follows it in the order of the link indexes. -/
opaque Config.lossOrder : Nat → List LossItem

/-- The order in which the activities of an entry to FALLBACK are taken, "in any order within the start" (R145).
FREE VALUE. What the list leaves undone follows it. -/
opaque Config.fallbackOrder : Nat → List FallbackItem

/-- How many of the acts that the words of a burst set off are taken before the GUARD notice that the burst's partial write
raises; beyond their number, all. They fall at one arrival (R15, R17), and the spec gives no order. FREE VALUE. -/
opaque Config.guardPlace : Nat → Nat

/-- Whether the overrun report of a burst into the record under a job is taken before the estimate arrival of the same
burst: they "need no order between them" (R12). FREE VALUE. -/
opaque Config.overrunFirst : Nat → Bool

end Sys2Proof
end

