-- ==== Sys2Proof/Machine/State.lean ====
section
/-! DEFINITION. The state of the MF-32 as plain data, and the state right after reset (R42). Block by block, as 00_scope
section 2 tells the block diagram. -/

namespace Sys2Proof.Machine

/-! ### Anchor Block (02) -/

/-- The filter state of the part as a whole (R32, R36, R40). -/
inductive FilterState where
  | transparent
  | applying
  | operating
  deriving DecidableEq, Repr

/-- CODE of the RESULT word (R31, 12.7). `noCommand` is NONE. -/
inductive ResultCode where
  | noCommand
  | ok
  | badCode
  | wrongState
  | busy
  | badConfig
  | badLink
  | badNode
  | dupNode
  | tableFull
  | notLocked
  | notOffered
  | stale
  | late
  | queueFull
  deriving DecidableEq, Repr

/-- The RESULT word's three fields (R31). -/
structure Result where
  seq : BitVec 8
  code : ResultCode
  value : BitVec 16
  deriving DecidableEq, Repr

/-- The configuration shadow: Anchor words 16 to 47, entry i holding word 16 + i (R27). -/
abbrev Shadow := Vector Word 32

/-! ### Mains Tracker (03) -/

/-- The tracker state (R44). LOST is never held (R56). -/
inductive TrackState where
  | idle
  | search
  | locked
  | holdover
  deriving DecidableEq, Repr

/-- The SEARCH interval history: the count of conforming intervals, the last of them and their sum (R44). -/
structure Run where
  count : Nat
  last : Nat
  sum : Nat
  deriving DecidableEq, Repr

/-- The empty run. -/
def Run.empty : Run := ⟨0, 0, 0⟩

/-- The tracker's items (R44). `boundaries` holds boundary 1 first. `slice` none is NONE. -/
structure Tracker where
  state : TrackState
  refEdge : Option Nat
  run : Run
  lastStart : Nat
  period : Nat
  boundaries : List Nat
  slice : Option Nat
  halfCount : BitVec 16
  epoch : BitVec 8
  missCount : Nat
  strayCount : BitVec 8
  deriving DecidableEq, Repr

/-- The tracker after hardware reset and after WITHDRAW (R44). -/
def Tracker.reset : Tracker :=
  { state := .idle, refEdge := none, run := Run.empty, lastStart := 0, period := 0, boundaries := [], slice := none
    halfCount := 0, epoch := 0, missCount := 0, strayCount := 0 }

/-! ### Link Table (04) -/

/-- MODE of a link (R66). -/
inductive Mode where
  | adaptive
  | hold
  | fallback
  deriving DecidableEq, Repr

/-- SW_STATE of a link (R136). -/
inductive SwState where
  | steady
  | gathering
  | offered
  | confirmed
  deriving DecidableEq, Repr

/-- SUMMARY[s] (R70). `last` is LAST_REC and LAST_SEQ, present together. -/
structure Summary where
  arrivals : BitVec 8
  last : Option (Nat × BitVec 16)
  lastMean : BitVec 8
  lastErr : BitVec 16
  buildMean : Option (BitVec 8)
  deriving DecidableEq, Repr

/-- An empty summary (R70). -/
def Summary.empty : Summary := ⟨0, none, 0, 0, none⟩

/-- LATCH: the alias selector and the slot (R71). -/
structure Latch where
  selector : Nat
  slot : Nat
  deriving DecidableEq, Repr

/-- One link record (R65). A FREE record's fields but CHANGES carry no values; the model keeps them at those of
`Link.free` (log 19). -/
structure Link where
  isOpen : Bool
  mode : Mode
  node : BitVec 8
  cells : List Nat
  swState : SwState
  activeSet : BitVec 8
  lastIssued : BitVec 8
  pendingSetNo : BitVec 8
  pendingSet : List (Option Nat)
  nextSet : List (Option Nat)
  gatherLeft : Nat
  offerAge : Nat
  effective : BitVec 16
  streak : Nat
  summary : List Summary
  latch : Option Latch
  changes : BitVec 16
  deriving DecidableEq, Repr

/-- A FREE record with change count 0 (R65). -/
def Link.free : Link :=
  { isOpen := false, mode := .adaptive, node := 0, cells := [], swState := .steady, activeSet := 0, lastIssued := 0
    pendingSetNo := 0, pendingSet := [], nextSet := [], gatherLeft := 0, offerAge := 0, effective := 0, streak := 0
    summary := [], latch := none, changes := 0 }

/-! ### Map Pool (05) -/

/-- STATE of a slot (R85). -/
inductive SlotState where
  | free
  | building
  | staged
  | active
  | retiring
  | base
  deriving DecidableEq, Repr

/-- A slot-table record (R84). -/
structure SlotRec where
  state : SlotState
  issue : BitVec 8
  ownerLink : Nat
  ownerNode : BitVec 8
  slice : Nat
  refs : Nat
  pins : Nat
  total : Nat
  signature : Word
  deriving DecidableEq, Repr

/-- A slot-table record after hardware reset or WITHDRAW (R84). -/
def SlotRec.reset : SlotRec :=
  { state := .free, issue := 0, ownerLink := 0, ownerNode := 0, slice := 0, refs := 0, pins := 0, total := 0
    signature := 0 }

/-- The slot table and the Free List, its head first (R84, R92). -/
structure Pool where
  slots : Vector SlotRec 128
  freeList : List Nat
  deriving DecidableEq, Repr

/-- The pool after hardware reset or WITHDRAW (R84, R92). -/
def Pool.reset : Pool := { slots := Vector.replicate 128 SlotRec.reset, freeList := [] }

/-! ### Bursts and the memory path (01) -/

/-- A burst for the memory-side port: a read of so many words, or a write of beats, from a word address (R1, R3). -/
inductive MemBurst where
  | read (addr : Nat) (words : Nat)
  | write (addr : Nat) (beats : List Beat)
  deriving DecidableEq, Repr

/-- Whose burst it is and which of its client's bursts (R20). `ended` is an internal burst left on the port when its job or
operation ended (R41, R134). -/
inductive PortUse where
  | processor
  | notice
  | notchRead
  | baseLoading
  | baseHeader
  | headerRead
  | snrRead
  | candidateRead
  | loadingWrite
  | headerWrite
  | ended
  deriving DecidableEq, Repr

/-- A burst ready at the Internal Requester, or on the memory-side port. -/
structure PortBurst where
  use : PortUse
  burst : MemBurst
  deriving DecidableEq, Repr

/-- What the processor-side port handed to the processor at a completion (R2). -/
inductive Completion where
  | wrote
  | data (words : List Word)
  deriving DecidableEq, Repr

/-- A transaction of the processor, as it is presented at the processor-side port (R1). -/
inductive Transaction where
  | write (b : WriteBurst)
  | read (r : ReadBurst)
  deriving DecidableEq, Repr

/-- The arbiter and the processor-side port (R1, R21): the burst that holds the memory-side port (none is FREE), WAIT, the
processor transaction that waits for that port, the transaction that the processor presents while the processor-side port
still holds one (log 7), and what the port handed to the processor in the last event that handed it something (log 21). -/
structure Path where
  port : Option PortBurst
  wait : Nat
  waiting : Option MemBurst
  presented : Option Transaction
  completions : List Completion
  deriving DecidableEq, Repr

/-- The path after hardware reset (R24). -/
def Path.reset : Path := { port := none, wait := 0, waiting := none, presented := none, completions := [] }

/-! ### Apply Reader and Base Writer (02, 2.5) -/

/-- Where the Apply Reader and the Base Writer stand (R37, R38). -/
inductive ApplyPhase where
  | done
  | reading
  | loading
  | header
  deriving DecidableEq, Repr

/-- The notch mask (entry i holds notch word i), the notched carrier count, the phase, the index of the burst's first notch
word or of the loading-word burst, and the client's ready burst. -/
structure Applier where
  notchMask : Vector Word 48
  notched : Nat
  phase : ApplyPhase
  pos : Nat
  ready : Option PortBurst
  deriving DecidableEq, Repr

/-- No carrier marked, nothing under way (R42). -/
def Applier.reset : Applier :=
  { notchMask := Vector.replicate 48 0, notched := 0, phase := .done, pos := 0, ready := none }

/-! ### Estimate Intake and the Build Queue (06) -/

/-- The shadow of one estimate record's words 1 to 6 (R104). -/
structure HeaderShadow where
  node : Word
  sliceEpoch : Word
  measCount : Word
  meanSnr : Word
  errCount : Word
  carriers : Word
  deriving DecidableEq, Repr

/-- An emptied shadow reads 0 (R104). -/
def HeaderShadow.empty : HeaderShadow := ⟨0, 0, 0, 0, 0, 0⟩

/-- REASON of a build request (R110). -/
inductive BuildReason where
  | auto
  | request
  deriving DecidableEq, Repr

/-- A Build Queue entry (R110). -/
structure BuildReq where
  link : Nat
  slice : Nat
  record : Nat
  seq : BitVec 16
  reason : BuildReason
  deriving DecidableEq, Repr

/-! ### Loading Engine (07) -/

/-- STAGE of a job (R116). -/
inductive Stage where
  | load
  | matching
  | allocate
  | write
  deriving DecidableEq, Repr

/-- The job record (R116). `pos` is the index of the burst under way in its series (R119, R123, R127) and `candIx` that of
the candidate under examination (R123). -/
structure Job where
  link : Nat
  slice : Nat
  record : Nat
  seq : BitVec 16
  reason : BuildReason
  stage : Stage
  mean : Option (BitVec 8)
  total : Nat
  signature : Word
  candidates : List (Nat × BitVec 8)
  slot : Option Nat
  pos : Nat
  candIx : Nat
  deriving DecidableEq, Repr

/-- The Loading Engine: its job, the build buffer (loading values of the carriers computed so far, carrier 0 first, log 17)
and its ready burst. -/
structure Engine where
  job : Option Job
  buffer : List (BitVec 4)
  ready : Option PortBurst
  deriving DecidableEq, Repr

/-- An idle engine (R116). -/
def Engine.idle : Engine := { job := none, buffer := [], ready := none }

/-! ### Transmit Ring Watch (09) -/

/-- A map reference: slot and issue as written (R157). -/
structure MapRef where
  slot : BitVec 8
  issue : BitVec 8
  deriving DecidableEq, Repr

/-- A pin table entry (R158). -/
structure PinEntry where
  ref : Option MapRef
  node : Option (BitVec 8)
  pinned : Option Nat
  deriving DecidableEq, Repr

/-- An entry with every field absent (R158). -/
def PinEntry.empty : PinEntry := ⟨none, none, none⟩

/-! ### Notices (11) -/

/-- The cause of a TRACK_LOCKED notice (R64). -/
inductive LockCause where
  | acquired
  | resumed
  deriving DecidableEq, Repr

/-- The reason of a BUILD_FAILED notice (R131). -/
inductive BuildFailure where
  | overrun
  | header
  deriving DecidableEq, Repr

/-- The reject reason of a commit (R161). -/
inductive RejectReason where
  | noRef
  | badSlot
  | issue
  | unknownNode
  | notInForce
  deriving DecidableEq, Repr

/-- The window kind of a GUARD notice (R17). -/
inductive GuardWindow where
  | anchor
  | aliasWin
  | view
  | pool
  | estimate
  | transmit
  | noticeRing
  deriving DecidableEq, Repr

/-- The reason of a GUARD notice (R17). -/
inductive GuardReason where
  | protect
  | partialWrite
  deriving DecidableEq, Repr

/-- The reason of an ESTIMATE_IGNORED notice (R106). -/
inductive IgnoreReason where
  | notLocked
  | staleEpoch
  | unknownNode
  | badSlice
  | badSize
  deriving DecidableEq, Repr

/-- A notice's kind, with the link it names and its payload (R174). -/
inductive NoticeBody where
  | applyDone (baseTotal notched : Nat)
  | trackLocked (cause : LockCause) (period bridged : Nat)
  | trackHoldover (period : Nat) (stray : BitVec 8)
  | trackLost (period : Nat) (stray : BitVec 8)
  | offer (link : Nat) (node setNo mask : BitVec 8)
  | switched (link : Nat) (setNo mask : BitVec 8) (count : BitVec 16)
  | offerExpired (link : Nat) (setNo mask : BitVec 8) (streak : Nat)
  | linkFallback (link : Nat) (node : BitVec 8) (streak : Nat)
  | buildFailed (link : Nat) (why : BuildFailure) (slice record : Nat) (seq : BitVec 16) (reason : BuildReason)
      (stage : Stage)
  | poolEmpty (link slice record retiring : Nat)
  | staleRef (link : Option Nat) (descriptor : Nat) (why : RejectReason) (ref : Option MapRef)
      (node : Option (BitVec 8))
  | guardWrite (window : GuardWindow) (addr : BitVec 16) (why : GuardReason)
  | estimateIgnored (link : Option Nat) (record : Nat) (why : IgnoreReason) (seq : BitVec 16) (node : BitVec 8)
      (measCount : BitVec 16)
  deriving DecidableEq, Repr

/-- A notice: its body and its stamp, fixed when it is raised (R174). -/
structure Notice where
  body : NoticeBody
  count : BitVec 16
  epoch : BitVec 8
  deriving DecidableEq, Repr

/-- The class of a notice (R174). -/
inductive NoticeClass where
  | routine
  | urgent
  deriving DecidableEq, Repr

/-- The Notice Writer (11): staging FIFO, head first, ring indices, class record of each ring entry, URGENT count, OVERFLOW
and the client's ready burst. -/
structure NoticeWriter where
  staging : List Notice
  producer : Nat
  consumer : Nat
  classes : Vector NoticeClass 256
  urgentCount : Nat
  overflow : Bool
  ready : Option PortBurst
  deriving DecidableEq, Repr

/-- The Notice Writer after hardware reset, WITHDRAW and APPLY acceptance (R179). -/
def NoticeWriter.reset : NoticeWriter :=
  { staging := [], producer := 0, consumer := 0, classes := Vector.replicate 256 .routine, urgentCount := 0
    overflow := false, ready := none }

/-! ### The whole state -/

/-- The state of the part, the packet memory behind it, and the queue of commands that wait. -/
structure State where
  /-- RESET_N is asserted (R42). -/
  inReset : Bool
  /-- The free-running tick time (R43). -/
  tick : Nat
  /-- The level of the last ZC_IN sample, none before the first (R43). -/
  zcLevel : Option Bool
  /-- The tick of the last ZC_IN sample: there is one sample in a tick, and so at most one edge (R43). -/
  zcSampledAt : Option Nat
  filter : FilterState
  shadow : Shadow
  result : Result
  arg0 : Word
  arg1 : Word
  arg2 : Word
  tracker : Tracker
  links : Vector Link 32
  pool : Pool
  buildQueue : List BuildReq
  engine : Engine
  headers : Vector HeaderShadow 32
  pinTable : Vector PinEntry 64
  notices : NoticeWriter
  /-- The level NOTE_IRQ is driving (R178). -/
  noteIrq : Bool
  applier : Applier
  path : Path
  /-- Packet memory: (byte key, byte), the key of lane i of word a being 4a + i (log 1). -/
  memory : List Host.Cell
  /-- The links to which the last half-cycle start is announced and which have still to act at it (R143, log 10). -/
  owed : List Nat
  /-- How many open choices have been taken (log 11). -/
  choices : Nat
  /-- The commands that wait, the front first. -/
  pending : List Instr
  deriving DecidableEq, Repr

/-- The reasons for which a step can stop the machine. There is none: "The part as a whole has no error state" (R40). -/
inductive Fault where
  deriving DecidableEq, Repr

/-- The reasons for which a step can decline to give a command a meaning. -/
inductive Refusal where
  /-- Raised by exec alone, for a command that has no meaning yet. Safe: nothing is claimed of the command. -/
  | notModelled (mnemonic : String)
  deriving DecidableEq, Repr

/-- The outcome of one step of this machine. -/
abbrev Outcome := Host.Outcome State Fault Refusal

/-- The configuration shadow's defaults: the values of R28 in the fields of 12.2, and 0 elsewhere (R181). -/
def Shadow.reset : Shadow :=
  #v[0x00100000, 0, 0, 0, 0, 0, 0, 0,
     0x00100040, 0x00400020, 0x01060400, 0x34281C10, 0x64584C40, 0x0C087C70, 0x03020040, 0x00C80190,
     0x060807D0, 0x00000408, 0, 0, 0, 0, 0, 0,
     0, 0, 0, 0, 0, 0, 0, 0]

/-- RESULT after hardware reset (R31). -/
def Result.reset : Result := ⟨0, .noCommand, 0⟩

/-- The machine right after reset: RESET_N deasserted, in the state R42 gives. Memory lists nothing (log 2). -/
def State.reset : State :=
  { inReset := false
    tick := 0
    zcLevel := none
    zcSampledAt := none
    filter := .transparent
    shadow := Shadow.reset
    result := Result.reset
    arg0 := 0
    arg1 := 0
    arg2 := 0
    tracker := Tracker.reset
    links := Vector.replicate 32 Link.free
    pool := Pool.reset
    buildQueue := []
    engine := Engine.idle
    headers := Vector.replicate 32 HeaderShadow.empty
    pinTable := Vector.replicate 64 PinEntry.empty
    notices := NoticeWriter.reset
    noteIrq := false
    applier := Applier.reset
    path := Path.reset
    memory := []
    owed := []
    choices := 0
    pending := [] }

end Sys2Proof.Machine
end

