-- ==== Sys2Proof/Machine/Operands.lean ====
section
/-! DEFINITION. The operand forms: bit fields (12.1), tables by index, the parameters decoded from
the configuration shadow (12.2, R181), and the windows with their address splits (R4). -/

namespace Sys2Proof.Machine

/-! ### Bit fields and tables -/

/-- The unsigned number in bits lo + w − 1 down to lo of a word (12, opening). -/
def bits (x : Word) (lo w : Nat) : Nat := (x.extractLsb' lo w).toNat

/-- A word that holds n in bits lo + w − 1 down to lo and 0 elsewhere (R180). -/
def put (lo w n : Nat) : Word := BitVec.ofNat 32 ((n % 2 ^ w) * 2 ^ lo)

/-- The entry of a table, or a default beyond its end. -/
def tget {α : Type} {n : Nat} (v : Vector α n) (d : α) (i : Nat) : α := if h : i < n then v[i] else d

/-- The table with one entry replaced; beyond its end nothing changes. -/
def tset {α : Type} {n : Nat} (v : Vector α n) (i : Nat) (a : α) : Vector α n := v.setIfInBounds i a

/-- A function of index and entry applied to every entry of a table. -/
def tmapIdx {α β : Type} {n : Nat} (f : Nat → α → β) (v : Vector α n) : Vector β n :=
  ⟨⟨v.toList.mapIdx f⟩, by simp⟩

/-- A function applied to the entries of two tables, index by index. -/
def tzip {α β γ : Type} {n : Nat} (f : α → β → γ) (u : Vector α n) (v : Vector β n) : Vector γ n :=
  ⟨⟨List.zipWith f u.toList v.toList⟩, by simp⟩

/-! ### Records by index -/

/-- The link record of an index (R65). -/
def State.link (s : State) (k : Nat) : Link := tget s.links Link.free k

/-- The state with one link record replaced. -/
def State.setLink (s : State) (k : Nat) (L : Link) : State := { s with links := tset s.links k L }

/-- The slot-table record of a slot (R84). -/
def State.slot (s : State) (n : Nat) : SlotRec := tget s.pool.slots SlotRec.reset n

/-- The state with one slot-table record replaced. -/
def State.setSlot (s : State) (n : Nat) (r : SlotRec) : State :=
  { s with pool := { s.pool with slots := tset s.pool.slots n r } }

/-- The pin table entry of a descriptor (R158). -/
def State.pinEntry (s : State) (i : Nat) : PinEntry := tget s.pinTable PinEntry.empty i

/-- The state with one pin table entry replaced. -/
def State.setPinEntry (s : State) (i : Nat) (e : PinEntry) : State := { s with pinTable := tset s.pinTable i e }

/-- The header shadow of an estimate record (R104). -/
def State.headerOf (s : State) (r : Nat) : HeaderShadow := tget s.headers HeaderShadow.empty r

/-! ### The parameters (12.2, R181) -/

/-- Anchor word a of the shadow, for a from 16 to 47. -/
def Shadow.word (c : Shadow) (a : Nat) : Word := tget c 0 (a - 16)

/-- MEM_SIZE, in words. -/
def Shadow.memSize (c : Shadow) : Nat := (c.word 16).toNat
/-- ALIAS_BASE. -/
def Shadow.aliasBase (c : Shadow) : Nat := (c.word 17).toNat
/-- VIEW_BASE. -/
def Shadow.viewBase (c : Shadow) : Nat := (c.word 18).toNat
/-- POOL_BASE. -/
def Shadow.poolBase (c : Shadow) : Nat := (c.word 19).toNat
/-- EST_BASE. -/
def Shadow.estBase (c : Shadow) : Nat := (c.word 20).toNat
/-- TX_BASE. -/
def Shadow.txBase (c : Shadow) : Nat := (c.word 21).toNat
/-- NOTE_BASE. -/
def Shadow.noteBase (c : Shadow) : Nat := (c.word 22).toNat
/-- NOTCH_ADDR. -/
def Shadow.notchAddr (c : Shadow) : Nat := (c.word 23).toNat
/-- P: Map Pool slots. -/
def Shadow.poolSlots (c : Shadow) : Nat := bits (c.word 24) 0 16
/-- R: Estimate Ring records. -/
def Shadow.records (c : Shadow) : Nat := bits (c.word 24) 16 16
/-- D: Transmit Ring descriptors. -/
def Shadow.descriptors (c : Shadow) : Nat := bits (c.word 25) 0 16
/-- N: Notice Ring entries. -/
def Shadow.entries (c : Shadow) : Nat := bits (c.word 25) 16 16
/-- C: carriers per symbol. -/
def Shadow.carriers (c : Shadow) : Nat := bits (c.word 26) 0 16
/-- S: slices per half-cycle. -/
def Shadow.slices (c : Shadow) : Nat := bits (c.word 26) 16 8
/-- B: Base Map bits per carrier. -/
def Shadow.baseBits (c : Shadow) : Nat := bits (c.word 26) 24 8
/-- THRb, for b from 1 to 10, four to a word from Anchor word 27 on. -/
def Shadow.threshold (c : Shadow) (b : Nat) : Nat := bits (c.word (27 + (b - 1) / 4)) (8 * ((b - 1) % 4)) 8
/-- MARGIN. -/
def Shadow.margin (c : Shadow) : Nat := bits (c.word 29) 16 8
/-- DRIFT. -/
def Shadow.drift (c : Shadow) : Nat := bits (c.word 29) 24 8
/-- ERR_LIMIT. -/
def Shadow.errLimit (c : Shadow) : Nat := bits (c.word 30) 0 16
/-- G: gather window, half-cycles. -/
def Shadow.gather (c : Shadow) : Nat := bits (c.word 30) 16 8
/-- X: offer expiries before fallback. -/
def Shadow.maxExpiries (c : Shadow) : Nat := bits (c.word 30) 24 8
/-- T_CONF: offer lifetime, half-cycles. -/
def Shadow.offerLife (c : Shadow) : Nat := bits (c.word 31) 0 16
/-- TOL: capture tolerance, ticks. -/
def Shadow.tolerance (c : Shadow) : Nat := bits (c.word 31) 16 16
/-- BLANK: blanking after a half-cycle start, ticks. -/
def Shadow.blank (c : Shadow) : Nat := bits (c.word 32) 0 16
/-- L: conforming intervals to lock. -/
def Shadow.lockRun (c : Shadow) : Nat := bits (c.word 32) 16 8
/-- M: miss limit in holdover. -/
def Shadow.missLimit (c : Shadow) : Nat := bits (c.word 32) 24 8
/-- H: arbiter hold-off limit. -/
def Shadow.holdOff (c : Shadow) : Nat := bits (c.word 33) 0 8
/-- W: routine notice count for the interrupt. -/
def Shadow.irqCount (c : Shadow) : Nat := bits (c.word 33) 8 16
/-- IRQ_EN. -/
def Shadow.irqEnable (c : Shadow) : Bool := bits (c.word 33) 24 1 == 1

/-! ### Windows (R4) -/

/-- The least multiple of 64 at or above n: the sizes of the Transmit Ring and Notice Ring windows (R4). -/
def roundUp64 (n : Nat) : Nat := (n + 63) / 64 * 64

/-- The first word of the Anchor Block (R4). -/
def anchorBase : Nat := 0x100

/-- Size of the Alias window: 32 links × 16 selectors × 256 words (R4). -/
def aliasSize : Nat := 131072
/-- Size of the Link View window (R4). -/
def viewSize : Nat := 2048
/-- Size of the Map Pool window (R4). -/
def Shadow.poolSize (c : Shadow) : Nat := c.poolSlots * 256
/-- Size of the Estimate Ring window (R4). -/
def Shadow.estSize (c : Shadow) : Nat := c.records * 512
/-- Size of the Transmit Ring window (R4). -/
def Shadow.txSize (c : Shadow) : Nat := roundUp64 (c.descriptors * 8)
/-- Size of the Notice Ring window (R4). -/
def Shadow.noteSize (c : Shadow) : Nat := roundUp64 (c.entries * 4)
/-- Size of the notch list: C / 32 rounded up to a whole word (R34). -/
def Shadow.notchSize (c : Shadow) : Nat := (c.carriers + 31) / 32

/-- Where an address falls and how the decoder splits it (R4). The words are numbered within their block, record, descriptor or
entry; `outside` is every address in no active window. -/
inductive Place where
  | anchor (word : Nat)
  | aliasWin (link selector offset : Nat)
  | view (link word : Nat)
  | pool (slot word : Nat)
  | estimate (record word : Nat)
  | transmit (descriptor word : Nat)
  | noticeRing (entry word : Nat)
  | outside
  deriving DecidableEq, Repr

/-- a lies in the window of a base and a size. -/
def inWindow (a base size : Nat) : Bool := base ≤ a && a < base + size

/-- The place of an address in one of the six configured windows (R4). -/
def Shadow.place (c : Shadow) (a : Nat) : Place :=
  if inWindow a c.aliasBase aliasSize then
    .aliasWin ((a - c.aliasBase) / 4096) ((a - c.aliasBase) % 4096 / 256) ((a - c.aliasBase) % 256)
  else if inWindow a c.viewBase viewSize then .view ((a - c.viewBase) / 64) ((a - c.viewBase) % 64)
  else if inWindow a c.poolBase c.poolSize then .pool ((a - c.poolBase) / 256) ((a - c.poolBase) % 256)
  else if inWindow a c.estBase c.estSize then .estimate ((a - c.estBase) / 512) ((a - c.estBase) % 512)
  else if inWindow a c.txBase c.txSize then .transmit ((a - c.txBase) / 8) ((a - c.txBase) % 8)
  else if inWindow a c.noteBase c.noteSize then .noticeRing ((a - c.noteBase) / 4) ((a - c.noteBase) % 4)
  else .outside

/-- The Window Decoder's place of an address: the Anchor Block in every filter state, the other windows in APPLYING and
OPERATING alone (R5, R6). -/
def State.place (s : State) (a : Nat) : Place :=
  if inWindow a anchorBase 64 then .anchor (a - anchorBase)
  else match s.filter with
    | .transparent => .outside
    | .applying | .operating => s.shadow.place a

end Sys2Proof.Machine
end

