-- ==== Sys2Proof/Machine/Flags.lean ====
section
/-! DEFINITION. What the part shows: the codes of the enumerations (12.7), NOTE_IRQ and the Notice Writer's counts (R175, R178),
the live words (R25, R26, R31, R61-R63), the Link View (R80-R82) and the words of a notice (R174, R183). -/

namespace Sys2Proof.Machine

/-! ### Codes (12.7) -/

/-- Filter state: TRANSPARENT 0, APPLYING 1, OPERATING 2. -/
def FilterState.code : FilterState → Nat
  | .transparent => 0
  | .applying => 1
  | .operating => 2

/-- Tracker state: IDLE 0, SEARCH 1, LOCKED 2, HOLDOVER 3. -/
def TrackState.code : TrackState → Nat
  | .idle => 0
  | .search => 1
  | .locked => 2
  | .holdover => 3

/-- Engine stage of a job: LOAD 1, MATCH 2, ALLOCATE 3, WRITE 4. -/
def Stage.code : Stage → Nat
  | .load => 1
  | .matching => 2
  | .allocate => 3
  | .write => 4

/-- RESULT CODE. -/
def ResultCode.code : ResultCode → Nat
  | .noCommand => 0
  | .ok => 1
  | .badCode => 2
  | .wrongState => 3
  | .busy => 4
  | .badConfig => 5
  | .badLink => 6
  | .badNode => 7
  | .dupNode => 8
  | .tableFull => 9
  | .notLocked => 10
  | .notOffered => 11
  | .stale => 12
  | .late => 13
  | .queueFull => 14

/-- MODE: ADAPTIVE 0, HOLD 1, FALLBACK 2. -/
def Mode.code : Mode → Nat
  | .adaptive => 0
  | .hold => 1
  | .fallback => 2

/-- SW_STATE: STEADY 0, GATHERING 1, OFFERED 2, CONFIRMED 3. -/
def SwState.code : SwState → Nat
  | .steady => 0
  | .gathering => 1
  | .offered => 2
  | .confirmed => 3

/-- TRACK_LOCKED cause: ACQUIRED 1, RESUMED 2. -/
def LockCause.code : LockCause → Nat
  | .acquired => 1
  | .resumed => 2

/-- BUILD_FAILED reason: OVERRUN 1, HEADER 2. -/
def BuildFailure.code : BuildFailure → Nat
  | .overrun => 1
  | .header => 2

/-- Request reason: AUTO 0, REQUEST 1. -/
def BuildReason.code : BuildReason → Nat
  | .auto => 0
  | .request => 1

/-- Reject reason: NO_REF 1, BAD_SLOT 2, ISSUE 3, UNKNOWN_NODE 4, NOT_IN_FORCE 5 (12.5). -/
def RejectReason.code : RejectReason → Nat
  | .noRef => 1
  | .badSlot => 2
  | .issue => 3
  | .unknownNode => 4
  | .notInForce => 5

/-- GUARD window kind. -/
def GuardWindow.code : GuardWindow → Nat
  | .anchor => 1
  | .aliasWin => 2
  | .view => 3
  | .pool => 4
  | .estimate => 5
  | .transmit => 6
  | .noticeRing => 7

/-- GUARD reason: PROTECTED 1, PARTIAL 2. -/
def GuardReason.code : GuardReason → Nat
  | .protect => 1
  | .partialWrite => 2

/-- ESTIMATE_IGNORED reason. -/
def IgnoreReason.code : IgnoreReason → Nat
  | .notLocked => 1
  | .staleEpoch => 2
  | .unknownNode => 3
  | .badSlice => 4
  | .badSize => 5

/-- 1 for set, 0 for clear. -/
def flag (b : Bool) : Nat := if b then 1 else 0

/-! ### NOTE_IRQ (R175, R178) -/

/-- The unconsumed count: the producer index less the consumer index, mod N (R175). -/
def State.unconsumed (s : State) : Nat :=
  (s.notices.producer + s.shadow.entries - s.notices.consumer) % s.shadow.entries

/-- Whether NOTE_IRQ is to be asserted: IRQ_EN is 1, the filter state is OPERATING, and the URGENT count is above 0 or the
unconsumed count is W or more (R178). -/
def State.irqLevel (s : State) : Bool :=
  s.shadow.irqEnable && s.filter == .operating &&
    (decide (0 < s.notices.urgentCount) || decide (s.shadow.irqCount ≤ s.unconsumed))

/-! ### The live words (R25, R26, R31, R61 to R63, 12.2) -/

/-- IDENT, word 0: vendor code 0B52h and part code 0320h (R25, 12.2). -/
def ident0 : Word := put 16 16 0x0B52 ||| put 0 16 0x0320

/-- IDENT, word 1: revision 1, 32 links, 8 slices, 128 slots, 24 × 64 carriers (R25, 12.2). -/
def ident1 : Word := put 0 8 0x01 ||| put 8 6 32 ||| put 14 4 8 ||| put 18 8 128 ||| put 26 5 24

/-- The engine stage FILTER_STATUS shows: 0 for IDLE, with no job (R26). -/
def State.stageCode (s : State) : Nat :=
  match s.engine.job with
  | some j => j.stage.code
  | none => 0

/-- FILTER_STATUS (R26). In TRANSPARENT every item but the filter state reads 0. -/
def State.filterStatus (s : State) : Word :=
  match s.filter with
  | .transparent => put 0 2 s.filter.code
  | .applying | .operating =>
    put 0 2 s.filter.code ||| put 8 7 s.pool.freeList.length ||| put 16 5 s.buildQueue.length ||| put 24 3 s.stageCode
      ||| put 28 1 (flag s.notices.overflow) ||| put 29 1 (flag (0 < s.notices.urgentCount)) ||| put 30 1 (flag s.noteIrq)

/-- RESULT (R31). -/
def State.resultWord (s : State) : Word :=
  put 24 8 s.result.seq.toNat ||| put 16 8 s.result.code.code ||| put 0 16 s.result.value.toNat

/-- The tracker is LOCKED or HOLDOVER. -/
def TrackState.isLocked : TrackState → Bool
  | .locked | .holdover => true
  | .idle | .search => false

/-- TRACK_STATUS (R61): slice 15 is NONE; the miss count reads 0 but in HOLDOVER. -/
def State.trackStatus (s : State) : Word :=
  put 0 2 s.tracker.state.code ||| put 4 4 (s.tracker.slice.getD 15) ||| put 8 8 s.tracker.epoch.toNat
    ||| put 16 5 (if s.tracker.state = .holdover then s.tracker.missCount else 0)

/-- HALF_COUNT (R62): the tick figure is the ticks since the last start in LOCKED and HOLDOVER, and 0 otherwise. -/
def State.halfCountWord (s : State) : Word :=
  put 0 16 s.tracker.halfCount.toNat
    ||| put 16 16 (if s.tracker.state.isLocked then s.tick - s.tracker.lastStart else 0)

/-- PERIOD (R63). -/
def State.periodWord (s : State) : Word := put 0 16 s.tracker.period ||| put 16 8 s.tracker.strayCount.toNat

/-- The live word of an Anchor word from 0 to 7 (R7, 12.2). -/
def State.liveWord (s : State) : Nat → Word
  | 0 => ident0
  | 1 => ident1
  | 2 => s.filterStatus
  | 3 => s.resultWord
  | 4 => s.trackStatus
  | 5 => s.halfCountWord
  | 6 => s.periodWord
  | _ => put 0 8 s.notices.producer

/-! ### The Link View (R81, R82, 12.3) -/

/-- A slot entry: flag in bit 31, the slot's issue in bits 15-8, the slot in bits 7-0 (12.3). -/
def State.slotEntry (s : State) (n : Nat) : Word :=
  put 31 1 1 ||| put 8 8 (s.slot n).issue.toNat ||| put 0 8 n

/-- A slot entry, or 0 where it is absent (R82). -/
def State.optEntry (s : State) : Option Nat → Word
  | some n => s.slotEntry n
  | none => 0

/-- The latch word: a slot entry with the selector in bits 19-16 (12.3). -/
def State.latchWord (s : State) : Option Latch → Word
  | some l => s.slotEntry l.slot ||| put 16 4 l.selector
  | none => 0

/-- Bit i set for each present entry (R81). -/
def presentMask (es : List (Option Nat)) : Nat :=
  (es.mapIdx fun i e => if e.isSome then 2 ^ i else 0).sum

/-- First summary word: ARRIVALS, LAST_MEAN, BUILD_MEAN with its flag, LAST_REC with the flag of the LAST fields (12.3). -/
def Summary.word0 (m : Summary) : Word :=
  put 0 8 m.arrivals.toNat ||| put 8 8 m.lastMean.toNat ||| put 16 8 ((m.buildMean.map BitVec.toNat).getD 0)
    ||| put 24 5 ((m.last.map Prod.fst).getD 0) ||| put 30 1 (flag m.buildMean.isSome) ||| put 31 1 (flag m.last.isSome)

/-- Second summary word: LAST_SEQ and LAST_ERR (12.3). -/
def Summary.word1 (m : Summary) : Word :=
  put 0 16 ((m.last.map fun p => p.2.toNat).getD 0) ||| put 16 16 m.lastErr.toNat

/-- View word w of an OPEN record L of index k (R81, R82). -/
def State.openViewWord (s : State) (k : Nat) (L : Link) (w : Nat) : Word :=
  if w = 0 then put 0 8 1 ||| put 8 4 L.mode.code ||| put 12 4 L.swState.code ||| put 16 16 L.changes.toNat
  else if w = 1 then
    put 0 8 L.node.toNat ||| put 8 8 L.streak ||| put 16 8 L.activeSet.toNat ||| put 24 8 L.lastIssued.toNat
  else if w = 2 then put 0 8 L.pendingSetNo.toNat ||| put 8 8 L.gatherLeft ||| put 16 16 L.offerAge
  else if w = 3 then
    put 0 16 L.effective.toNat ||| put 16 8 (presentMask L.pendingSet) ||| put 24 8 (presentMask L.nextSet)
  else if w = 4 then s.latchWord L.latch
  else if w = 5 then put 0 8 k ||| put 8 8 s.shadow.slices
  else if w < 8 then 0
  else if w < 16 then s.optEntry L.cells[w - 8]?
  else if w < 24 then s.optEntry (L.pendingSet.getD (w - 16) none)
  else if w < 32 then s.optEntry (L.nextSet.getD (w - 24) none)
  else if w < 48 then
    match L.summary[(w - 32) / 2]? with
    | some m => if w % 2 = 0 then m.word0 else m.word1
    | none => 0
  else if w = 63 then put 0 16 L.changes.toNat
  else 0

/-- View word w of link k's block; every word of a FREE record reads 0 (R82). -/
def State.viewWord (s : State) (k w : Nat) : Word :=
  if (s.link k).isOpen then s.openViewWord k (s.link k) w else 0

/-! ### Notice words (R174, R183) -/

/-- The class of each kind (R174). -/
def NoticeBody.class : NoticeBody → NoticeClass
  | .applyDone .. | .trackLost .. | .offer .. | .linkFallback .. | .poolEmpty .. => .urgent
  | .trackLocked .. | .trackHoldover .. | .switched .. | .offerExpired .. | .buildFailed .. | .staleRef .. | .guardWrite ..
  | .estimateIgnored .. => .routine

/-- The code of each kind (R183). -/
def NoticeBody.kind : NoticeBody → Nat
  | .applyDone .. => 1
  | .trackLocked .. => 2
  | .trackHoldover .. => 3
  | .trackLost .. => 4
  | .offer .. => 5
  | .switched .. => 6
  | .offerExpired .. => 7
  | .linkFallback .. => 8
  | .buildFailed .. => 9
  | .poolEmpty .. => 10
  | .staleRef .. => 11
  | .guardWrite .. => 12
  | .estimateIgnored .. => 13

/-- The link a notice names, if any (R174). -/
def NoticeBody.link : NoticeBody → Option Nat
  | .applyDone .. | .trackLocked .. | .trackHoldover .. | .trackLost .. | .guardWrite .. => none
  | .offer k .. | .switched k .. | .offerExpired k .. | .linkFallback k .. | .buildFailed k .. | .poolEmpty k .. => some k
  | .staleRef k .. | .estimateIgnored k .. => k

/-- Payload word 2 (R183). -/
def NoticeBody.word2 : NoticeBody → Word
  | .applyDone total _ => put 0 16 total
  | .trackLocked cause period bridged => put 0 16 period ||| put 16 8 cause.code ||| put 24 8 bridged
  | .trackHoldover period _ => put 0 16 period
  | .trackLost period _ => put 0 16 period
  | .offer _ node setNo mask => put 0 8 node.toNat ||| put 8 8 setNo.toNat ||| put 16 8 mask.toNat
  | .switched _ setNo mask _ => put 0 8 setNo.toNat ||| put 8 8 mask.toNat
  | .offerExpired _ setNo mask streak => put 0 8 setNo.toNat ||| put 8 8 mask.toNat ||| put 16 8 streak
  | .linkFallback _ node streak => put 0 8 node.toNat ||| put 8 8 streak
  | .buildFailed _ why slice record _ reason stage =>
    put 0 8 why.code ||| put 8 8 slice ||| put 16 8 record ||| put 24 4 reason.code ||| put 28 4 stage.code
  | .poolEmpty _ slice record retiring => put 0 8 slice ||| put 8 8 record ||| put 16 8 retiring
  | .staleRef _ descriptor why ref node =>
    put 0 8 descriptor ||| put 8 8 why.code ||| put 16 8 ((node.map BitVec.toNat).getD 0) ||| put 24 1 (flag node.isSome)
      ||| put 25 1 (flag ref.isSome)
  | .guardWrite window _ why => put 0 8 window.code ||| put 8 8 why.code
  | .estimateIgnored _ record why _ node _ => put 0 8 record ||| put 8 8 why.code ||| put 16 8 node.toNat

/-- Payload word 3 (R183). -/
def NoticeBody.word3 : NoticeBody → Word
  | .applyDone _ notched => put 0 16 notched
  | .trackHoldover _ stray => put 0 8 stray.toNat
  | .trackLost _ stray => put 0 8 stray.toNat
  | .switched _ _ _ count => put 0 16 count.toNat
  | .buildFailed _ _ _ _ seq _ _ => put 0 16 seq.toNat
  | .staleRef _ _ _ ref _ =>
    put 0 8 ((ref.map fun r => r.slot.toNat).getD 0) ||| put 8 8 ((ref.map fun r => r.issue.toNat).getD 0)
  | .guardWrite _ addr _ => put 0 16 addr.toNat
  | .estimateIgnored _ _ _ seq _ meas => put 0 16 seq.toNat ||| put 16 16 meas.toNat
  | .trackLocked .. | .offer .. | .offerExpired .. | .linkFallback .. | .poolEmpty .. => 0

/-- Entry word 0: kind, class, and the link index or 255 (12.6). -/
def Notice.word0 (n : Notice) : Word :=
  put 0 8 n.body.kind ||| put 8 1 (flag (n.body.class == .urgent)) ||| put 16 8 (n.body.link.getD 255)

/-- Entry word 1: the stamp (12.6). -/
def Notice.word1 (n : Notice) : Word := put 0 16 n.count.toNat ||| put 16 8 n.epoch.toNat

/-- The four words of a notice entry (R174, R183). -/
def Notice.words (n : Notice) : List Word := [n.word0, n.word1, n.body.word2, n.body.word3]

end Sys2Proof.Machine
end

