-- ==== Sys2Proof/Machine/Formats.lean ====
section
/-! DEFINITION. The memory formats: per-carrier packing (R182), slot headers (R98, 12.4), the fields of an estimate record
(12.5) and of a transmit descriptor (12.5), and the loading computation (R120). -/

namespace Sys2Proof.Machine

/-! ### Per-carrier values (R182) -/

/-- Eight loading values packed into a loading word, the lowest carrier in the lowest bits (R182). -/
def pack8 : List Nat → Nat
  | [] => 0
  | v :: vs => v % 16 + 16 * pack8 vs

/-- Loading word j of a build buffer (R99, R182). -/
def bufferWord (buffer : List (BitVec 4)) (j : Nat) : Word :=
  BitVec.ofNat 32 (pack8 (((buffer.drop (8 * j)).take 8).map BitVec.toNat))

/-- The sum, mod 2³², of words (R99). -/
def sumWords : List Word → Word
  | [] => 0
  | w :: ws => w + sumWords ws

/-- The loading words of a build buffer for C carriers: C / 8 words (R99). -/
def bufferWords (buffer : List (BitVec 4)) (carriers : Nat) : List Word :=
  (List.range (carriers / 8)).map (bufferWord buffer)

/-- The SNR of the i-th of the carriers that a list of SNR words covers: SNR word i / 4, position i mod 4 (R182). -/
def snrAt (ws : List Word) (i : Nat) : Nat := bits (ws.getD (i / 4) 0) (8 * (i % 4)) 8

/-- The notch mask's flag of carrier c: notch word c / 32, bit c mod 32 (R182). -/
def Applier.isNotched (a : Applier) (c : Nat) : Bool := (tget a.notchMask 0 (c / 32)).getLsbD (c % 32)

/-- How many of the C carriers the mask marks (R37). -/
def Applier.countNotched (a : Applier) (carriers : Nat) : Nat := ((List.range carriers).filter a.isNotched).length

/-- The loading value of an SNR: the largest b from 1 to 10 whose THRb + MARGIN the SNR reaches, or 0 (R120). -/
def Shadow.loadingOf (c : Shadow) (snr : Nat) : Nat :=
  (List.range' 1 10).foldl (fun best b => if c.threshold b + c.margin ≤ snr then b else best) 0

/-- The loading value of carrier k with an SNR: 0 if it is notched (R120). -/
def State.loadingValue (s : State) (k snr : Nat) : Nat := if s.applier.isNotched k then 0 else s.shadow.loadingOf snr

/-- The loading values of the 32 carriers of SNR burst i (R119). -/
def State.loadBurst (s : State) (i : Nat) (ws : List Word) : List (BitVec 4) :=
  (List.range 32).map fun j => BitVec.ofNat 4 (s.loadingValue (32 * i + j) (snrAt ws j))

/-- Loading word j of the Base Map: B for each carrier not notched, 0 for a notched one (R38, R97). -/
def State.baseWord (s : State) (j : Nat) : Word :=
  BitVec.ofNat 32 (pack8 ((List.range 8).map fun i => if s.applier.isNotched (8 * j + i) then 0 else s.shadow.baseBits))

/-- The Base Map's C / 8 loading words (R38). -/
def State.baseWords (s : State) : List Word := (List.range (s.shadow.carriers / 8)).map s.baseWord

/-- The base total: B × (C − notched count) (R97). -/
def State.baseTotal (s : State) : Nat := s.shadow.baseBits * (s.shadow.carriers - s.applier.notched)

/-! ### Slot words (R83, R98) -/

/-- The address of a slot's word (R83). -/
def Shadow.slotWord (c : Shadow) (n w : Nat) : Nat := c.poolBase + n * 256 + w

/-- The eight header words of a slot (R98, 12.4). -/
def headerWords (slotNo issue ownerNode slice total carriers : Nat) (signature : Word) (setNo : Nat) : List Word :=
  [put 0 8 slotNo, put 0 8 issue, put 0 8 ownerNode, put 0 8 slice, put 0 16 total, put 0 16 carriers, signature, put 0 8 setNo]

/-! ### Estimate record words (R103, 12.5) -/

/-- VALID of a commit word. -/
def estValid (w : Word) : Bool := w.getLsbD 31
/-- SEQ of a commit word. -/
def estSeq (w : Word) : BitVec 16 := w.extractLsb' 0 16
/-- NODE of record word 1. -/
def estNode (w : Word) : BitVec 8 := w.extractLsb' 0 8
/-- SLICE of record word 2. -/
def estSlice (w : Word) : Nat := bits w 0 8
/-- EPOCH of record word 2. -/
def estEpoch (w : Word) : BitVec 8 := w.extractLsb' 8 8
/-- MEAS_COUNT of record word 3. -/
def estMeas (w : Word) : BitVec 16 := w.extractLsb' 0 16
/-- MEAN_SNR of record word 4. -/
def estMean (w : Word) : BitVec 8 := w.extractLsb' 0 8
/-- ERR_COUNT of record word 5. -/
def estErr (w : Word) : BitVec 16 := w.extractLsb' 0 16
/-- CARRIERS of record word 6. -/
def estCarriers (w : Word) : Nat := bits w 0 16

/-- The address of an estimate record's word (R103). -/
def Shadow.recordWord (c : Shadow) (r w : Nat) : Nat := c.estBase + r * 512 + w

/-! ### Transmit descriptor words (R157, 12.5) -/

/-- OWNER of a control word. -/
inductive Owner where
  | hostOwned
  | modem
  | done
  | rejected
  deriving DecidableEq, Repr

/-- The OWNER field: HOST_OWNED 0, MODEM 1, DONE 2, REJECTED 3 (12.5). -/
def controlOwner (w : Word) : Owner :=
  match bits w 0 2 with
  | 0 => .hostOwned
  | 1 => .modem
  | 2 => .done
  | _ => .rejected

/-- The control word with OWNER REJECTED and a REASON code, every other bit as written (R163, R180). -/
def rejectedControl (w : Word) (reason : Nat) : Word :=
  (w &&& ~~~(put 0 2 3 ||| put 8 4 15)) ||| put 0 2 3 ||| put 8 4 reason

/-- The map reference of descriptor word 1. -/
def mapRefOf (w : Word) : MapRef := ⟨w.extractLsb' 0 8, w.extractLsb' 8 8⟩

/-- The node of descriptor word 2. -/
def nodeOf (w : Word) : BitVec 8 := w.extractLsb' 0 8

/-- The address of a descriptor's word (R157). -/
def Shadow.descriptorWord (c : Shadow) (i w : Nat) : Nat := c.txBase + i * 8 + w

end Sys2Proof.Machine
end

