-- ==== Sys2Proof/Machine/Ops.lean ====
section
/-! DEFINITION. The named operations over the state: memory, the raising of a notice (R175), the arbiter (R19, R22, R23), the
references, pins and Free List of the Map Pool (R86 to R94), the end of a Loading Engine job (R131, R132, R134), and the change
count (R72). -/

namespace Sys2Proof.Machine

/-! ### Packet memory -/

/-- Packet memory: byte key and byte, keys rising, no byte that an unlisted key reads as (log 1, 2). -/
abbrev Memory := List Host.Cell

/-- What an unlisted byte reads as. DESIGN CHOICE: 0 (log 2). -/
def unwrittenByte : Byte := 0

/-- The key of byte lane i of the word at an address; the port carries 24 address bits (log 1, 3). -/
def byteKey (a i : Nat) : Nat := 4 * (a % 2 ^ 24) + i

/-- The byte at a key. -/
def readByte : Memory → Nat → Byte
  | [], _ => unwrittenByte
  | (a, b) :: m, k => if a = k then b else readByte m k

/-- Memory with the byte at a key replaced, in canonical form. -/
def writeByte : Memory → Nat → Byte → Memory
  | [], k, b => if b = unwrittenByte then [] else [(k, b)]
  | (a, c) :: m, k, b =>
    if k < a then (if b = unwrittenByte then (a, c) :: m else (k, b) :: (a, c) :: m)
    else if k = a then (if b = unwrittenByte then m else (k, b) :: m)
    else (a, c) :: writeByte m k b

/-- The canonical form from a key on: keys strictly rising and inside the address space, no byte that an unlisted key reads as. -/
def Memory.wfFrom : Nat → Memory → Bool
  | _, [] => true
  | lo, (a, b) :: m => decide (lo ≤ a) && decide (a < 4 * 2 ^ 24) && b != unwrittenByte && Memory.wfFrom (a + 1) m

/-- The canonical form of memory. -/
def Memory.wf (m : Memory) : Bool := Memory.wfFrom 0 m

/-- The word at an address. -/
def readWord (m : Memory) (a : Nat) : Word :=
  readByte m (byteKey a 3) ++ readByte m (byteKey a 2) ++ readByte m (byteKey a 1) ++ readByte m (byteKey a 0)

/-- n words from an address on. -/
def readWords (m : Memory) (a n : Nat) : List Word := (List.range n).map fun i => readWord m (a + i)

/-- Lane i of a beat written at an address, if its byte enable is set. -/
def writeLane (m : Memory) (a : Nat) (x : Beat) (i : Nat) : Memory :=
  if x.be.getLsbD i then writeByte m (byteKey a i) (x.data.extractLsb' (8 * i) 8) else m

/-- A beat written at an address: its enabled bytes alone (R3). -/
def writeBeat (m : Memory) (a : Nat) (x : Beat) : Memory :=
  writeLane (writeLane (writeLane (writeLane m a x 0) a x 1) a x 2) a x 3

/-- Beats written from an address on, in ascending order. -/
def writeBeats : Memory → Nat → List Beat → Memory
  | m, _, [] => m
  | m, a, x :: xs => writeBeats (writeBeat m a x) (a + 1) xs

/-- What a burst leaves in memory when memory has accepted every word (R3). -/
def MemBurst.applyTo : MemBurst → Memory → Memory
  | .read _ _, m => m
  | .write a xs, m => writeBeats m a xs

/-- What a burst leaves in memory when memory had accepted only its first words (R24). -/
def MemBurst.applyFirst (k : Nat) : MemBurst → Memory → Memory
  | .read _ _, m => m
  | .write a xs, m => writeBeats m a (xs.take k)

/-- The words a burst returns: what memory holds as it completes (R3). -/
def MemBurst.dataFrom : MemBurst → Memory → List Word
  | .read a n, m => readWords m a n
  | .write _ _, _ => []

/-! ### Notices (R174, R175) -/

/-- Whether a notice offered now is admitted to staging (R175). -/
def State.admits (s : State) : Bool :=
  decide (s.notices.staging.length + s.unconsumed < s.shadow.entries - 1) && decide (s.notices.staging.length < 8)

/-- A notice is raised: stamped with the half-cycle count and epoch as they stand, and admitted to the staging FIFO's tail, or
dropped with OVERFLOW set (R174, R175). -/
def raise (body : NoticeBody) (s : State) : State :=
  { s with notices := { s.notices with
      staging := if s.admits then s.notices.staging ++ [⟨body, s.tracker.halfCount, s.tracker.epoch⟩] else s.notices.staging
      overflow := s.notices.overflow || !s.admits } }

/-! ### The Internal Requester and the Downstream Arbiter (R18 to R23) -/

/-- The memory-side port holds a burst of a use. -/
def State.portIs (s : State) (u : PortUse) : Bool :=
  match s.path.port with
  | some p => p.use == u
  | none => false

/-- The burst of a notice: one 4-word write to the entry the producer index names (R176). -/
def State.noticeBurst (s : State) (n : Notice) : PortBurst :=
  ⟨.notice, .write (s.shadow.noteBase + s.notices.producer * 4) (n.words.map Beat.whole)⟩

/-- While the staging FIFO is not empty the Notice Writer has a burst ready, one at a time (R176). -/
def formNotice (s : State) : State :=
  { s with notices := { s.notices with
      ready := match s.notices.ready, s.notices.staging with
        | none, n :: _ => if s.portIs .notice then none else some (s.noticeBurst n)
        | r, _ => r } }

/-- The Internal Requester has a burst to offer: some client is ready (R19). -/
def State.requesterWaits (s : State) : Bool :=
  s.notices.ready.isSome || s.applier.ready.isSome || s.engine.ready.isSome

/-- WAIT is 0 while the Internal Requester does not wait (R23). -/
def clearWait (s : State) : State :=
  { s with path := { s.path with wait := if s.requesterWaits then s.path.wait else 0 } }

/-- NOTE_IRQ is decided again (R178). -/
def decideIrq (s : State) : State := { s with noteIrq := s.irqLevel }

/-- The Internal Requester is granted the port and issues the burst of its first ready client; WAIT becomes 0 (R19, R23). -/
def grantInternal (s : State) : State :=
  match s.notices.ready, s.applier.ready, s.engine.ready with
  | some b, _, _ =>
    { s with notices := { s.notices with ready := none }, path := { s.path with port := some b, wait := 0 } }
  | none, some b, _ =>
    { s with applier := { s.applier with ready := none }, path := { s.path with port := some b, wait := 0 } }
  | none, none, some b =>
    { s with engine := { s.engine with ready := none }, path := { s.path with port := some b, wait := 0 } }
  | none, none, none => s

/-- The waiting processor transaction is granted the port; WAIT rises by 1 if the Internal Requester waits (R23). -/
def grantProcessor (t : MemBurst) (s : State) : State :=
  { s with path := { s.path with
      port := some ⟨.processor, t⟩
      waiting := none
      wait := if s.requesterWaits then s.path.wait + 1 else s.path.wait } }

/-- The arbiter's decision whenever the port is FREE and a party waits (R22). -/
def arbitrate (s : State) : State :=
  if s.path.port.isSome then s
  else if s.requesterWaits && s.path.wait == s.shadow.holdOff then grantInternal s
  else match s.path.waiting with
    | some t => grantProcessor t s
    | none => if s.requesterWaits then grantInternal s else s

/-- What follows every event: NOTE_IRQ is decided, a waiting notice's burst is formed, and a FREE port is granted. -/
def settle (s : State) : State := arbitrate (clearWait (formNotice (decideIrq s)))

/-! ### The Map Pool: references, pins, the Free List (R85 to R94) -/

/-- At least one cell of an OPEN link names the slot (R85). -/
def State.cellNames (s : State) (n : Nat) : Bool :=
  s.links.toList.any fun L => L.isOpen && L.cells.contains n

/-- The state R85 gives a slot from what holds it, after a take or a release of a reference; slot 0 stays BASE (R96). -/
def State.heldState (s : State) (n : Nat) (r : SlotRec) : SlotState :=
  if r.state = .base then .base
  else if s.cellNames n then .active
  else if 0 < r.refs then .staged
  else if 0 < r.pins then .retiring
  else .free

/-- The write burst of loading words 8i to 8i + 7 of a job's slot (R127). -/
def State.loadingBurst (s : State) (n i : Nat) : PortBurst :=
  ⟨.loadingWrite, .write (s.shadow.slotWord n (8 + 8 * i))
    ((List.range 8).map fun j => Beat.whole (bufferWord s.engine.buffer (8 * i + j)))⟩

/-- The head of the Free List is allocated to the job, which enters WRITE with its first loading-word burst ready
(R91, R94, R125, R127). -/
def allocate (s : State) : State :=
  match s.engine.job, s.pool.freeList with
  | some j, n :: rest =>
    { s with
      pool :=
        { slots := tset s.pool.slots n
            { s.slot n with
              state := .building
              issue := (s.slot n).issue + 1
              ownerLink := j.link
              ownerNode := (s.link j.link).node
              slice := j.slice }
          freeList := rest }
      engine := { s.engine with
        job := some { j with slot := some n, stage := .write, pos := 0 }
        ready := some (s.loadingBurst n 0) } }
  | _, _ => s

/-- A job waits in ALLOCATE for a slot (R126). -/
def State.jobWaits (s : State) : Bool :=
  match s.engine.job with
  | some j => j.stage == .allocate && j.slot.isNone
  | none => false

/-- A job that waits for a slot is handed the head of the Free List (R94, R126). -/
def handToWaiting (s : State) : State := if s.jobWaits then allocate s else s

/-- A slot becomes FREE and joins the Free List's tail; a waiting job takes it at the same event (R93, R94). -/
def joinFree (n : Nat) (s : State) : State :=
  handToWaiting
    { s with pool :=
        { slots := tset s.pool.slots n { s.slot n with state := .free }, freeList := s.pool.freeList ++ [n] } }

/-- One reference to a slot is taken: REFS rises by 1 and the state is set again (R86, R88). The entry that names the slot is
set before. -/
def takeRef (n : Nat) (s : State) : State :=
  let r := { s.slot n with refs := (s.slot n).refs + 1 }
  s.setSlot n { r with state := s.heldState n r }

/-- One reference to a slot is released: REFS falls by 1, the state is set again, and a slot that nothing holds joins the Free
List's tail (R86, R88, R93). The entry that named the slot is cleared before. -/
def releaseRef (n : Nat) (s : State) : State :=
  let r := { s.slot n with refs := (s.slot n).refs - 1 }
  let s1 := s.setSlot n { r with state := s.heldState n r }
  if s.heldState n r = .free then joinFree n s1 else s1

/-- One pin on a slot is taken: PINS rises by 1, and the state stays (R87). -/
def takePin (n : Nat) (s : State) : State := s.setSlot n { s.slot n with pins := (s.slot n).pins + 1 }

/-- One pin on a slot is released: PINS falls by 1, and a RETIRING slot whose PINS reaches 0 joins the Free List's tail
(R87, R89). -/
def releasePin (n : Nat) (s : State) : State :=
  let s1 := s.setSlot n { s.slot n with pins := (s.slot n).pins - 1 }
  if (s.slot n).state = .retiring ∧ (s.slot n).pins ≤ 1 then joinFree n s1 else s1

/-! ### The end of a Loading Engine job (R131, R132, R134) -/

/-- A burst of the Loading Engine. -/
def PortUse.isEngine : PortUse → Bool
  | .headerRead | .snrRead | .candidateRead | .loadingWrite | .headerWrite => true
  | .processor | .notice | .notchRead | .baseLoading | .baseHeader | .ended => false

/-- A burst of the Internal Requester. -/
def PortUse.isInternal : PortUse → Bool
  | .processor => false
  | .notice | .notchRead | .baseLoading | .baseHeader | .headerRead | .snrRead | .candidateRead | .loadingWrite
  | .headerWrite | .ended => true

/-- The burst on the port is left to complete for no client, if its use satisfies p (R24, R134). -/
def orphanPort (p : PortUse → Bool) (path : Path) : Path :=
  { path with port := path.port.map fun b => if p b.use then { b with use := .ended } else b }

/-- The job ends and the engine is idle: its ready burst is withdrawn, and a burst of it on the port is left to complete
(R19, R116, R134). -/
def endJob (s : State) : State := { s with engine := Engine.idle, path := orphanPort PortUse.isEngine s.path }

/-- The job ends without a result: a slot it holds in BUILDING becomes FREE and joins the Free List's tail, its issue kept
(R90, R131, R132). -/
def dropJob (s : State) : State :=
  match s.engine.job with
  | some j =>
    match j.slot with
    | some n => joinFree n (endJob s)
    | none => endJob s
  | none => s

/-- The job is cancelled if it is for the link (R132). -/
def cancelJobOf (k : Nat) (s : State) : State :=
  match s.engine.job with
  | some j => if j.link = k then dropJob s else s
  | none => s

/-- The Build Queue without a link's entries; the others keep their order (R113). -/
def dropQueueOf (k : Nat) (s : State) : State :=
  { s with buildQueue := s.buildQueue.filter fun q => q.link != k }

/-! ### Link entries (R67, R68, R71) -/

/-- CELLS[i] of link k is set to slot n: the new reference is taken, then the old one released; a cell that names n already
keeps its one reference (R67). -/
def setCell (k i n : Nat) (s : State) : State :=
  match (s.link k).cells[i]? with
  | some old =>
    if old = n then s
    else releaseRef old (takeRef n (s.setLink k { s.link k with cells := (s.link k).cells.set i n }))
  | none => s

/-- PENDING[i] of link k becomes slot n (R68). -/
def setPending (k i n : Nat) (s : State) : State :=
  let s1 := s.setLink k { s.link k with pendingSet := (s.link k).pendingSet.set i (some n) }
  match (s.link k).pendingSet[i]? with
  | some (some old) => if old = n then s else releaseRef old (takeRef n s1)
  | some none => takeRef n s1
  | none => s

/-- NEXT[i] of link k becomes slot n (R68). -/
def setNext (k i n : Nat) (s : State) : State :=
  let s1 := s.setLink k { s.link k with nextSet := (s.link k).nextSet.set i (some n) }
  match (s.link k).nextSet[i]? with
  | some (some old) => if old = n then s else releaseRef old (takeRef n s1)
  | some none => takeRef n s1
  | none => s

/-- PENDING[i] of link k becomes absent, its reference released if it was present (R68). -/
def clearPending (k i : Nat) (s : State) : State :=
  match (s.link k).pendingSet.getD i none with
  | some old => releaseRef old (s.setLink k { s.link k with pendingSet := (s.link k).pendingSet.set i none })
  | none => s

/-- NEXT[i] of link k becomes absent, its reference released if it was present (R68). -/
def clearNext (k i : Nat) (s : State) : State :=
  match (s.link k).nextSet.getD i none with
  | some old => releaseRef old (s.setLink k { s.link k with nextSet := (s.link k).nextSet.set i none })
  | none => s

/-- An operation on each index below a bound, in ascending order. -/
def forSlices (bound : Nat) (f : Nat → State → State) (s : State) : State :=
  (List.range bound).foldl (fun t i => f i t) s

/-- Every present pending entry of link k releases its reference, in ascending slice order (R144, R148, R150). -/
def clearPendings (k : Nat) (s : State) : State := forSlices (s.link k).pendingSet.length (clearPending k) s

/-- Every present next entry of link k releases its reference, in ascending slice order (R151). -/
def clearNexts (k : Nat) (s : State) : State := forSlices (s.link k).nextSet.length (clearNext k) s

/-- Every cell of link k is set to slot 0, in ascending slice order (R145, R151). -/
def clearCells (k : Nat) (s : State) : State := forSlices (s.link k).cells.length (fun i => setCell k i 0) s

/-- The latch of link k is made absent and its pin released (R172). -/
def releaseLatch (k : Nat) (s : State) : State :=
  match (s.link k).latch with
  | some l => releasePin l.slot (s.setLink k { s.link k with latch := none })
  | none => s

/-! ### The change count (R72) -/

/-- A record after an event: CHANGES rises by 1 if the event changed a rendered field. Every field but CHANGES is rendered (R81). -/
def Link.counted (old new : Link) : Link :=
  if { old with changes := 0 } = { new with changes := 0 } then new else { new with changes := old.changes + 1 }

/-- One event: its effect, with the change count of every record it alters (R72). -/
def counting (f : State → State) (s : State) : State :=
  { f s with links := tzip Link.counted s.links (f s).links }

/-- The OPEN record with a node, if there is one; no two have the same (R73). -/
def State.findNode (s : State) (node : BitVec 8) : Option Nat :=
  (List.range 32).find? fun k => (s.link k).isOpen && (s.link k).node == node

end Sys2Proof.Machine
end

