-- ==== Sys2Proof/Machine/Switchover.lean ====
section
/-! DEFINITION. Switchover (08): set numbers, the taking of build results, offers and their expiry, fallback, CONFIRM and
DECLINE, the flip, and what a link does at a half-cycle start. -/

namespace Sys2Proof.Machine

/-! ### Sets and offers -/

/-- The pending mask of a link: bit s set for each present PENDING[s] (R81, R142). -/
def Link.pendingMask (L : Link) : BitVec 8 := BitVec.ofNat 8 (presentMask L.pendingSet)

/-- A new set number is issued: PENDING_SET_NO and LAST_ISSUED become LAST_ISSUED + 1, mod 256 (R137). -/
def Link.issueNumber (L : Link) : Link :=
  { L with pendingSetNo := L.lastIssued + 1, lastIssued := L.lastIssued + 1 }

/-- A link enters GATHERING with the whole gather window before it (R138, R140, R150). -/
def Link.startGather (L : Link) (g : Nat) : Link :=
  { L with swState := .gathering, gatherLeft := g, offerAge := 0, effective := 0 }

/-- A link enters STEADY (R69). -/
def Link.toSteady (L : Link) : Link := { L with swState := .steady, gatherLeft := 0, offerAge := 0, effective := 0 }

/-- The offer test succeeds: the link is GATHERING, and GATHER_LEFT is 0 or every pending entry is present (R142). -/
def Link.offerDue (L : Link) : Bool :=
  L.swState == .gathering && (L.gatherLeft == 0 || L.pendingSet.all Option.isSome)

/-- The offer test and, where it succeeds, the offer: OFFERED with its waits at 0, and an OFFER notice (R142). -/
def offerTest (k : Nat) (s : State) : State :=
  if (s.link k).offerDue then
    raise (.offer k (s.link k).node (s.link k).pendingSetNo (s.link k).pendingMask)
      (s.setLink k { s.link k with swState := .offered, gatherLeft := 0, offerAge := 0, effective := 0 })
  else s

/-! ### Build results (R138 to R141) -/

/-- A build result starts or renumbers a pending set: the number is issued and the gather window begins (R138, R140). A result that
follows a flip whose promoted set was offered at once overtakes that offer under the next number but one (DESIGN CHOICE, log 35). -/
def newPendingSet (k i n : Nat) (s : State) : State :=
  let s1 := setPending k i n s
  offerTest k (s1.setLink k ((s1.link k).issueNumber.startGather s.shadow.gather))

/-- Switchover takes a build result, slot n for slice i of link k, by SW_STATE. Every OPEN link not in FALLBACK takes every
result handed to it (R128, R138 to R141). -/
def takeResult (k i n : Nat) (s : State) : State :=
  if (s.link k).isOpen && (s.link k).mode != .fallback then
    match (s.link k).swState with
    | .steady => newPendingSet k i n s
    | .gathering => offerTest k (setPending k i n s)
    | .offered => newPendingSet k i n s
    | .confirmed => setNext k i n s
  else s

/-! ### Expiry and fallback (R144, R145) -/

/-- The lowest slice whose cell does not name slot 0 (R145, R151). -/
def Link.builtCell (L : Link) : Option Nat := L.cells.findIdx? (· != 0)

/-- The next cell change of link k: its lowest cell that does not name slot 0 is set to slot 0 (R145). -/
def clearNextCell (k : Nat) (s : State) : State :=
  match (s.link k).builtCell with
  | some i => setCell k i 0 s
  | none => s

/-- One activity of a link's entry to FALLBACK (R145). -/
def fallbackItem (k : Nat) : FallbackItem → State → State
  | .cell, s => clearNextCell k s
  | .latch, s => releaseLatch k s
  | .job, s => cancelJobOf k s

/-- The activities of an entry to FALLBACK: in the order given, and then what that order leaves undone (R145, log 11). -/
def fallBack (k : Nat) (order : List FallbackItem) (s : State) : State :=
  cancelJobOf k (releaseLatch k (clearCells k (order.foldl (fun t x => fallbackItem k x t) s)))

/-- A link enters FALLBACK: MODE, then its cell changes, latch release and job cancellation in an order that is free, its
queue entries, and a LINK_FALLBACK notice (R145, log 11). Pending and next entries that a result taken before it has left are discarded
(R129); after an expiry none is present (R145). -/
def enterFallback (k : Nat) (s : State) : State :=
  let s1 := dropQueueOf k (s.setLink k { s.link k with mode := .fallback })
  let s2 := fallBack k (Config.fallbackOrder s.choices) { s1 with choices := s.choices + 1 }
  let s3 := clearNexts k (clearPendings k s2)
  raise (.linkFallback k (s3.link k).node (s3.link k).streak) s3

/-- An offer expires: its pending entries are released, the link is STEADY, STREAK rises, OFFER_EXPIRED is raised, and the
expiry that brings STREAK to X brings FALLBACK (R144). -/
def expireOffer (k : Nat) (s : State) : State :=
  let mask := (s.link k).pendingMask
  let s1 := clearPendings k s
  let s2 := s1.setLink k { (s1.link k).toSteady with streak := (s1.link k).streak + 1 }
  let s3 := raise (.offerExpired k (s2.link k).pendingSetNo mask (s2.link k).streak) s2
  if (s3.link k).streak = s.shadow.maxExpiries then enterFallback k s3 else s3

/-! ### The flip (R149, R150) -/

/-- CELLS[i] takes the slot of a present PENDING[i] (R149). -/
def flipSlice (k i : Nat) (s : State) : State :=
  match (s.link k).pendingSet.getD i none with
  | some n => setCell k i n s
  | none => s

/-- After a flip: without next entries the link is STEADY; otherwise the next set is promoted under a new number and gathers, or is
offered at once (R150), where R153 speaks of GATHERING alone (DESIGN CHOICE, log 35). -/
def promoteNext (k : Nat) (s : State) : State :=
  let L := s.link k
  if L.nextSet.any Option.isSome then
    let P := { L with pendingSet := L.nextSet, nextSet := L.nextSet.map fun _ => none }
    offerTest k (s.setLink k (P.issueNumber.startGather s.shadow.gather))
  else s.setLink k L.toSteady

/-- The flip: the pending set goes into the cells, ACTIVE_SET and STREAK are set, the pending entries are released, SWITCHED is
raised, and the next set is dealt with (R149, R150). -/
def flipLink (k : Nat) (s : State) : State :=
  let mask := (s.link k).pendingMask
  let s1 := forSlices (s.link k).pendingSet.length (flipSlice k) s
  let s2 := s1.setLink k { s1.link k with activeSet := (s1.link k).pendingSetNo, streak := 0 }
  let s3 := clearPendings k s2
  let s4 := raise (.switched k (s3.link k).activeSet mask s.tracker.halfCount) s3
  promoteNext k (s4.setLink k { s4.link k with effective := 0, offerAge := 0 })

/-! ### A link at a half-cycle start (R143) -/

/-- A GATHERING or OFFERED link's wait runs by one half-cycle (R143). -/
def Link.tick (L : Link) : Link :=
  match L.swState with
  | .gathering => { L with gatherLeft := L.gatherLeft - 1 }
  | .offered => { L with offerAge := L.offerAge + 1 }
  | .steady | .confirmed => L

/-- At this start the link does more than count: its gather ends, its offer expires, or it flips (R143). -/
def Link.actsAtStart (L : Link) (offerLife : Nat) (count : BitVec 16) : Bool :=
  match L.swState with
  | .steady => false
  | .gathering => L.tick.offerDue
  | .offered => decide (offerLife ≤ L.offerAge + 1)
  | .confirmed => L.effective == count

/-- What an OPEN link does at a half-cycle start, by its SW_STATE as the start reaches it (R143). A result taken before it has overtaken
the offer (R140), and no expiry, and so no FALLBACK, follows at that start (R154, R145): the FALLBACK row of R129, "the fallback discards
the pending and next entries", is `enterFallback`'s, and has no case at that start (DESIGN CHOICE, log 33). -/
def actAtStart (k : Nat) (s : State) : State :=
  let L := s.link k
  if L.isOpen then
    match L.swState with
    | .steady => s
    | .gathering => offerTest k (s.setLink k L.tick)
    | .offered =>
      let s1 := s.setLink k L.tick
      if s.shadow.offerLife ≤ L.tick.offerAge then expireOffer k s1 else s1
    | .confirmed => if L.effective = s.tracker.halfCount then flipLink k s else s
  else s

/-- A half-cycle start is announced to every OPEN link (R57, R143). A link that only counts at it does so at once; a link whose
gather ends, whose offer expires or which flips acts in an event of its own (log 10). -/
def announceStart (s : State) : State :=
  let acts := fun (L : Link) => L.isOpen && L.actsAtStart s.shadow.offerLife s.tracker.halfCount
  { s with
    links := tmapIdx (fun _ L => if L.isOpen && !acts L then L.tick else L) s.links
    owed := (List.range 32).filter fun k => acts (s.link k) }

/-- A link to which the last start is announced and which has still to act acts at it: one event (R143). -/
def startEvent (k : Nat) (s : State) : State :=
  if !s.inReset && s.owed.contains k then
    settle (counting (actAtStart k) { s with owed := s.owed.filter (· != k) })
  else s

/-- GATHER_END: the gather window of a link ends at the start (R142, R143). A link that does not owe an act does nothing (log 5). -/
def execGatherEnd (k : Nat) (s : State) : Outcome := .next (startEvent k s)

/-- OFFER_EXPIRY: a link's offer expires at the start (R143, R144, R145). -/
def execOfferExpiry (k : Nat) (s : State) : Outcome := .next (startEvent k s)

/-- FLIP: a CONFIRMED link's set goes into force at the start whose count equals EFFECTIVE (R143, R149, R150). -/
def execFlip (k : Nat) (s : State) : Outcome := .next (startEvent k s)

/-! ### The tracker's loss, for Switchover (R151) -/

/-- The next release of an OPEN link's sweep: its lowest cell that does not name slot 0, else its lowest present pending entry, else
its lowest present next entry (R151). -/
def sweepStep (k : Nat) (s : State) : State :=
  let L := s.link k
  if L.isOpen then
    match L.builtCell, L.pendingSet.findIdx? Option.isSome, L.nextSet.findIdx? Option.isSome with
    | some i, _, _ => setCell k i 0 s
    | none, some i, _ => clearPending k i s
    | none, none, some i => clearNext k i s
    | none, none, none => s
  else s

/-- One OPEN link is swept to the Base Map: its cells, then its pending entries, then its next entries; STEADY, STREAK 0, every
summary empty (R151). -/
def sweepLink (k : Nat) (s : State) : State :=
  if (s.link k).isOpen then
    let s1 := clearNexts k (clearPendings k (clearCells k s))
    s1.setLink k { (s1.link k).toSteady with streak := 0, summary := (s1.link k).summary.map fun _ => Summary.empty }
  else s

end Sys2Proof.Machine
end

