-- ==== Sys2Proof/Machine/LinkTable.lean ====
section
/-! DEFINITION. The effects of the link commands, past the mailbox screen: LINK_ADD, LINK_REMOVE, LINK_HOLD, LINK_RESUME (04),
REBUILD (06) with the Build Queue's admission, CONFIRM and DECLINE (08). Each writes RESULT (R31). -/

namespace Sys2Proof.Machine

/-- A command is taken: SEQ rises by 1, mod 256, and CODE and VALUE are its result (R31). -/
def respond (code : ResultCode) (value : Nat) (s : State) : State :=
  { s with result := ⟨s.result.seq + 1, code, BitVec.ofNat 16 value⟩ }

/-- An argument names an OPEN record: it is below 32 and the record of that index is OPEN (R75, R77, R78, R114, R146). -/
def State.namesOpen (s : State) (arg : Word) : Bool := decide (arg.toNat < 32) && (s.link arg.toNat).isOpen

/-! ### LINK_ADD (R73, R74) -/

/-- The lowest-indexed FREE record, if there is one (R74). -/
def State.lowestFree (s : State) : Option Nat := (List.range 32).find? fun k => !(s.link k).isOpen

/-- The record that LINK_ADD opens (R74); CHANGES is counted with the event (R72). -/
def Link.opened (held : Link) (node : BitVec 8) (slices : Nat) : Link :=
  { Link.free with
    isOpen := true
    node := node
    cells := List.replicate slices 0
    pendingSet := List.replicate slices none
    nextSet := List.replicate slices none
    summary := List.replicate slices Summary.empty
    changes := held.changes }

/-- The record is opened with every cell naming slot 0, whose references rise by S (R74). -/
def openLink (k : Nat) (node : BitVec 8) (s : State) : State :=
  let s1 := s.setLink k ((s.link k).opened node s.shadow.slices)
  s1.setSlot 0 { s1.slot 0 with refs := (s1.slot 0).refs + s.shadow.slices }

/-- LINK_ADD: BAD_NODE, DUP_NODE, TABLE_FULL, or the lowest FREE record opened (R73, R74). -/
def linkAdd (s : State) : State :=
  let node : BitVec 8 := s.arg0.setWidth 8
  if s.arg0.toNat = 0 ∨ 255 ≤ s.arg0.toNat then respond .badNode 0 s
  else if (s.findNode node).isSome then respond .dupNode 0 s
  else match s.lowestFree with
    | none => respond .tableFull 0 s
    | some k => respond .ok k (counting (openLink k node) s)

/-! ### LINK_REMOVE (R75) -/

/-- The first cell that has not yet released its reference releases it (R75, step 1). -/
def dropFirstCell (k : Nat) (s : State) : State :=
  match (s.link k).cells with
  | c :: cs => releaseRef c (s.setLink k { s.link k with cells := cs })
  | [] => s

/-- LINK_REMOVE's steps 1 to 7 (R75). -/
def removeLink (k : Nat) (s : State) : State :=
  let s1 := forSlices (s.link k).cells.length (fun _ => dropFirstCell k) s
  let s2 := clearNexts k (clearPendings k s1)
  let s3 := cancelJobOf k (dropQueueOf k (releaseLatch k s2))
  { s3.setLink k { Link.free with changes := (s3.link k).changes } with owed := s3.owed.filter (· != k) }

/-- LINK_REMOVE: BAD_LINK, or the link closed (R75). -/
def linkRemove (s : State) : State :=
  if s.namesOpen s.arg0 then respond .ok 0 (counting (removeLink s.arg0.toNat) s) else respond .badLink 0 s

/-! ### LINK_HOLD and LINK_RESUME (R77, R78) -/

/-- LINK_HOLD: BAD_LINK, WRONG_STATE in FALLBACK, or MODE becomes HOLD (R77). -/
def linkHold (s : State) : State :=
  let k := s.arg0.toNat
  if !s.namesOpen s.arg0 then respond .badLink 0 s
  else if (s.link k).mode = .fallback then respond .wrongState 0 s
  else respond .ok 0 (counting (fun t => t.setLink k { t.link k with mode := .hold }) s)

/-- LINK_RESUME: BAD_LINK, or MODE becomes ADAPTIVE and STREAK 0 (R78). -/
def linkResume (s : State) : State :=
  let k := s.arg0.toNat
  if !s.namesOpen s.arg0 then respond .badLink 0 s
  else respond .ok 0 (counting (fun t => t.setLink k { t.link k with mode := .adaptive, streak := 0 }) s)

/-! ### The Build Queue's admission and REBUILD (R111, R114, R115) -/

/-- A request is for the link and slice of an entry. -/
def BuildReq.sameSlice (q r : BuildReq) : Bool := q.link == r.link && q.slice == r.slice

/-- A request is offered to the queue: updated in place, admitted at the tail, or refused with 16 entries (R111). -/
def enqueue (r : BuildReq) (q : List BuildReq) : Option (List BuildReq) :=
  if q.any (·.sameSlice r) then some (q.map fun e => if e.sameSlice r then r else e)
  else if q.length < 16 then some (q ++ [r])
  else none

/-- The requests of a REBUILD, in ascending slice order: the selected slices whose summary has a latest record (R115). -/
def rebuildRequests (k mask slices : Nat) (L : Link) : List BuildReq :=
  (List.range slices).filterMap fun i =>
    if mask.testBit i then
      match L.summary[i]? with
      | some m => m.last.map fun p => ⟨k, i, p.1, p.2, .request⟩
      | none => none
    else none

/-- Requests are offered one after another until one is refused: the queue, how many were admitted, whether one was refused
(R115). -/
def offerAll : List BuildReq → List BuildReq → Nat → List BuildReq × Nat × Bool
  | [], q, n => (q, n, false)
  | r :: rs, q, n =>
    match enqueue r q with
    | some q' => offerAll rs q' (n + 1)
    | none => (q, n, true)

/-- REBUILD: BAD_LINK, WRONG_STATE in FALLBACK, NOT_LOCKED, or requests offered, with QUEUE_FULL where one is refused
(R114, R115). The slice mask is bits 7 to 0 of ARG1. -/
def rebuild (s : State) : State :=
  let k := s.arg0.toNat
  if !s.namesOpen s.arg0 then respond .badLink 0 s
  else if (s.link k).mode = .fallback then respond .wrongState 0 s
  else if !s.tracker.state.isLocked then respond .notLocked 0 s
  else
    let done := offerAll (rebuildRequests k (bits s.arg1 0 8) s.shadow.slices (s.link k)) s.buildQueue 0
    respond (if done.2.2 then .queueFull else .ok) done.2.1 { s with buildQueue := done.1 }

/-! ### CONFIRM and DECLINE (R146 to R148) -/

/-- Checks 1 to 3 of CONFIRM and DECLINE: the refusal, if one fails (R146, R148). A set that a result has overtaken is refused with
NOT_OFFERED while the link gathers, by the order of the checks and the example of 8.12, and with STALE once the new set is on offer, where
R140, R148 and R155 say STALE without that distinction (DESIGN CHOICE, log 34). -/
def State.offerRefusal (s : State) : Option ResultCode :=
  if !s.namesOpen s.arg0 then some .badLink
  else if (s.link s.arg0.toNat).swState ≠ .offered then some .notOffered
  else if s.arg1.toNat ≠ (s.link s.arg0.toNat).pendingSetNo.toNat then some .stale
  else none

/-- CONFIRM's check 4: ARG2 is at most 65,535 and lies 1 to 200 starts ahead of the half-cycle count, mod 65,536 (R146). -/
def State.effectiveOk (s : State) : Bool :=
  let d := (s.arg2.setWidth 16 - s.tracker.halfCount).toNat
  decide (s.arg2.toNat ≤ 65535) && decide (1 ≤ d) && decide (d ≤ 200)

/-- CONFIRM: BAD_LINK, NOT_OFFERED, STALE, LATE, or CONFIRMED with EFFECTIVE set (R146, R147). -/
def confirm (s : State) : State :=
  match s.offerRefusal with
  | some r => respond r 0 s
  | none =>
    if !s.effectiveOk then respond .late 0 s
    else respond .ok 0 (counting (fun t => t.setLink s.arg0.toNat
      { t.link s.arg0.toNat with swState := .confirmed, effective := s.arg2.setWidth 16 }) s)

/-- The offered set is discarded and the link is STEADY; PENDING_SET_NO and STREAK stay (R148). -/
def discardOffer (k : Nat) (s : State) : State :=
  let s1 := clearPendings k s
  s1.setLink k (s1.link k).toSteady

/-- DECLINE: BAD_LINK, NOT_OFFERED, STALE, or the offered set discarded (R148). -/
def decline (s : State) : State :=
  match s.offerRefusal with
  | some r => respond r 0 s
  | none => respond .ok 0 (counting (discardOffer s.arg0.toNat) s)

end Sys2Proof.Machine
end

