-- ==== Sys2Proof/Machine/StartUp.lean ====
section
/-! DEFINITION. Start-up (02): APPLY's checks and acceptance, WITHDRAW, the Apply Reader and the Base Writer, hardware reset. -/

namespace Sys2Proof.Machine

/-! ### APPLY's checks (R33 to R35) -/

/-- The eight regions of check 3, as base and size (R34). -/
def Shadow.regions (c : Shadow) : List (Nat × Nat) :=
  [(anchorBase, 64), (c.aliasBase, aliasSize), (c.viewBase, viewSize), (c.poolBase, c.poolSize), (c.estBase, c.estSize),
    (c.txBase, c.txSize), (c.noteBase, c.noteSize), (c.notchAddr, c.notchSize)]

/-- Two regions share no word; a region of size 0 shares none (R34). -/
def disjointRegions (x y : Nat × Nat) : Bool := x.2 == 0 || y.2 == 0 || decide (x.1 + x.2 ≤ y.1) || decide (y.1 + y.2 ≤ x.1)

/-- No two regions of a list share a word (R34). -/
def pairwiseDisjoint : List (Nat × Nat) → Bool
  | [] => true
  | x :: xs => xs.all (disjointRegions x) && pairwiseDisjoint xs

/-- A number lies in a closed range. -/
def within (lo hi n : Nat) : Bool := decide (lo ≤ n) && decide (n ≤ hi)

/-- The thresholds are strictly ascending (R35, check 7). -/
def Shadow.thresholdsAscend (c : Shadow) : Bool :=
  (List.range' 1 9).all fun b => decide (c.threshold b < c.threshold (b + 1))

/-- Check i of APPLY, for i from 1 to 15 (R34, R35). -/
def Shadow.check (c : Shadow) : Nat → Bool
  | 1 => within 1048576 16777216 c.memSize && c.memSize % 1048576 == 0
  | 2 =>
    [c.aliasBase, c.viewBase, c.poolBase, c.estBase, c.txBase, c.noteBase].all (· % 64 == 0) && c.notchAddr % 8 == 0
      && c.regions.tail.all fun x => decide (x.1 + x.2 ≤ c.memSize)
  | 3 => pairwiseDisjoint c.regions
  | 4 => within 256 1536 c.carriers && c.carriers % 64 == 0
  | 5 => within 1 8 c.slices
  | 6 => within 1 2 c.baseBits
  | 7 => c.thresholdsAscend
  | 8 => within 16 128 c.poolSlots
  | 9 => within 4 32 c.records
  | 10 => within 16 64 c.descriptors
  | 11 => within 16 256 c.entries
  | 12 => within 4 16 c.lockRun && within 1 32 c.missLimit && within 50 800 c.tolerance && within 500 4000 c.blank
  | 13 => within 0 15 c.gather && within 20 2000 c.offerLife && within 1 7 c.maxExpiries
  | 14 => within 2 32 c.holdOff
  | 15 => within 1 (c.entries - 1) c.irqCount
  | _ => true

/-- The number of the first check that fails, if one does (R33). -/
def Shadow.firstFailing (c : Shadow) : Option Nat := (List.range' 1 15).find? fun i => !c.check i

/-! ### APPLY accepted (R36) -/

/-- The length of the Apply Reader's burst at notch word i of n: 8 words while 8 remain, then 4, then 2 (R37). -/
def notchBurstLen (i n : Nat) : Nat := if i + 8 ≤ n then 8 else if i + 4 ≤ n then 4 else 2

/-- The Apply Reader's burst at notch word i (R37). -/
def Shadow.notchBurst (c : Shadow) (i : Nat) : PortBurst :=
  ⟨.notchRead, .read (c.notchAddr + i) (notchBurstLen i (c.carriers / 32))⟩

/-- The slot table and Free List at APPLY acceptance: slot 0 BASE, slots 1 to P − 1 FREE and listed in ascending order
(R36, R84, R92). -/
def poolApplied (slots : Nat) : Pool :=
  { slots := tset Pool.reset.slots 0 { SlotRec.reset with state := .base }, freeList := List.range' 1 (slots - 1) }

/-- The Apply Reader at APPLY acceptance: the mask empty, the first read ready (R36). -/
def Shadow.applierStarted (c : Shadow) : Applier :=
  { Applier.reset with phase := .reading, ready := some (c.notchBurst 0) }

/-- The tracker at APPLY acceptance: SEARCH; PERIOD_EST, the half-cycle count and the epoch as held (R36, R44). -/
def Tracker.applied (T : Tracker) : Tracker :=
  { T with
    state := .search, refEdge := none, run := Run.empty, lastStart := 0, boundaries := [], slice := none, missCount := 0
    strayCount := 0 }

/-- What APPLY's acceptance sets (R36). -/
def acceptApply (s : State) : State :=
  { s with
    filter := .applying
    links := Vector.replicate 32 Link.free
    pool := poolApplied s.shadow.poolSlots
    buildQueue := []
    engine := Engine.idle
    headers := Vector.replicate 32 HeaderShadow.empty
    pinTable := Vector.replicate 64 PinEntry.empty
    notices := NoticeWriter.reset
    applier := s.shadow.applierStarted
    tracker := s.tracker.applied
    owed := [] }

/-- APPLY in TRANSPARENT: BAD_CONFIG with the first failing check's number, or acceptance (R33). -/
def applyCommand (s : State) : State :=
  match s.shadow.firstFailing with
  | some i => respond .badConfig i s
  | none => respond .ok 0 (acceptApply s)

/-! ### WITHDRAW accepted (R24, R41) -/

/-- What WITHDRAW's acceptance sets: everything but the shadow, RESULT, memory, the time and the processor-side port as after
hardware reset, and an internal burst on the port left to complete for no client (R24, R41). -/
def acceptWithdraw (s : State) : State :=
  { s with
    filter := .transparent
    arg0 := 0
    arg1 := 0
    arg2 := 0
    tracker := Tracker.reset
    links := Vector.replicate 32 Link.free
    pool := Pool.reset
    buildQueue := []
    engine := Engine.idle
    headers := Vector.replicate 32 HeaderShadow.empty
    pinTable := Vector.replicate 64 PinEntry.empty
    notices := NoticeWriter.reset
    noteIrq := false
    applier := Applier.reset
    path := { orphanPort PortUse.isInternal s.path with wait := 0 }
    owed := [] }

/-- WITHDRAW in APPLYING or OPERATING (R41). -/
def withdrawCommand (s : State) : State := respond .ok 0 (acceptWithdraw s)

/-! ### The end of a burst -/

/-- The burst on the port completes: memory holds its words, and the port is FREE (R3, R22). -/
def finishBurst (s : State) : State :=
  match s.path.port with
  | some p => { s with memory := p.burst.applyTo s.memory, path := { s.path with port := none } }
  | none => s

/-- The words that the burst on the port returns as it completes (R3). -/
def State.burstData (s : State) : List Word :=
  match s.path.port with
  | some p => p.burst.dataFrom s.memory
  | none => []

/-- The completion of a burst of a use, if it holds the port: one event with its effect `f` on the state after the burst, given
the words read. Otherwise nothing happens (log 5). -/
def onBurstDone (u : PortUse) (f : List Word → State → State) (s : State) : State :=
  if !s.inReset && s.portIs u then settle (counting (f s.burstData) (finishBurst s)) else s

/-! ### Apply Reader and Base Writer (R37 to R39) -/

/-- Notch words read from word i on are copied into the mask (R37). -/
def Applier.copyWords : Applier → Nat → List Word → Applier
  | a, _, [] => a
  | a, i, w :: ws => Applier.copyWords { a with notchMask := tset a.notchMask i w } (i + 1) ws

/-- The Base Writer's burst of loading words 8i to 8i + 7 of slot 0 (R38). -/
def State.baseLoadingBurst (s : State) (i : Nat) : PortBurst :=
  ⟨.baseLoading, .write (s.shadow.slotWord 0 (8 + 8 * i)) ((List.range 8).map fun j => Beat.whole (s.baseWord (8 * i + j)))⟩

/-- The Base Writer begins with the mask and the count it was handed (R37, R38). -/
def startBase (s : State) : State :=
  let s1 := { s with applier := { s.applier with
    notched := s.applier.countNotched s.shadow.carriers, phase := .loading, pos := 0 } }
  { s1 with applier := { s1.applier with ready := some (s1.baseLoadingBurst 0) } }

/-- A notch-list burst's words fill the mask; the next burst is formed, or the Base Writer begins (R37). -/
def notchRead (ws : List Word) (s : State) : State :=
  let i := s.applier.pos + ws.length
  let s1 := { s with applier := { s.applier.copyWords s.applier.pos ws with pos := i } }
  if i < s.shadow.carriers / 32 then
    { s1 with applier := { s1.applier with ready := some (s.shadow.notchBurst i) } }
  else startBase s1

/-- The Base Writer's header burst (R38). -/
def State.baseHeaderBurst (s : State) : PortBurst :=
  ⟨.baseHeader, .write (s.shadow.slotWord 0 0)
    ((headerWords 0 0 0 0 s.baseTotal s.shadow.carriers (sumWords s.baseWords) 0).map Beat.whole)⟩

/-- The Base Writer forms its header burst and records TOTAL and SIGNATURE in slot 0's record (R38). -/
def formBaseHeader (s : State) : State :=
  let s1 := s.setSlot 0 { s.slot 0 with total := s.baseTotal, signature := sumWords s.baseWords }
  { s1 with applier := { s1.applier with phase := .header, pos := 0, ready := some s.baseHeaderBurst } }

/-- A loading-word burst of the Base Writer is written; the next one, or the header, is formed (R38). -/
def baseLoadingWritten (s : State) : State :=
  let i := s.applier.pos + 1
  if i < s.shadow.carriers / 64 then
    { s with applier := { s.applier with pos := i, ready := some (s.baseLoadingBurst i) } }
  else formBaseHeader s

/-- The Base Writer's header burst is written: OPERATING is entered, and APPLY_DONE is raised (R39). -/
def baseHeaderWritten (s : State) : State :=
  raise (.applyDone s.baseTotal s.applier.notched)
    { s with filter := .operating, applier := { s.applier with phase := .done, pos := 0 } }

/-- NOTCH_READ_DONE (R37). -/
def execNotchReadDone (s : State) : Outcome := .next (onBurstDone .notchRead notchRead s)

/-- BASE_LOADING_WRITE_DONE (R38). -/
def execBaseLoadingWriteDone (s : State) : Outcome := .next (onBurstDone .baseLoading (fun _ => baseLoadingWritten) s)

/-- BASE_HEADER_WRITE_DONE (R39). -/
def execBaseHeaderWriteDone (s : State) : Outcome := .next (onBurstDone .baseHeader (fun _ => baseHeaderWritten) s)

/-! ### Hardware reset (R24, R42) -/

/-- What a transaction abandoned on the memory-side port leaves in memory: the words memory had already accepted (R24). -/
def State.abandoned (s : State) (accepted : Nat) : Memory :=
  match s.path.port with
  | some p => p.burst.applyFirst accepted s.memory
  | none => s.memory

/-- HARDWARE_RESET: both ports abandon their transactions, and every item takes its reset value while RESET_N stays asserted.
Memory keeps its contents, the tick time runs free, a tick that has had its ZC_IN sample has had it, and the commands that wait are outside
the part (R24, R42, R43). -/
def execHardwareReset (accepted : Nat) (s : State) : Outcome :=
  .next { State.reset with
    inReset := true, tick := s.tick, zcSampledAt := s.zcSampledAt, memory := s.abandoned accepted, choices := s.choices
    pending := s.pending }

/-- RESET_DEASSERT: the part begins in the state of R42, and the first ZC_IN sample, at the present tick, sets the reference level. Where the
present tick had its sample before the reset, the first sample is a later tick's, and comes with the first ZC_EDGE (R42, R43, log 16). -/
def execResetDeassert (zc : Bool) (s : State) : Outcome :=
  .next <|
    if !s.inReset then s
    else if s.zcSampledAt = some s.tick then { s with inReset := false }
    else { s with inReset := false, zcLevel := some zc, zcSampledAt := some s.tick }

end Sys2Proof.Machine
end

