-- ==== Sys2Proof/Machine/Engine.lean ====
section
/-! DEFINITION. The Loading Engine (07): job start, LOAD, MATCH, ALLOCATE, WRITE, the hand-off, and the overrun. -/

namespace Sys2Proof.Machine

/-- An operation on the state that needs the job; without one nothing happens. -/
def withJob (f : Job → State → State) (s : State) : State :=
  match s.engine.job with
  | some j => f j s
  | none => s

/-- The state with the job record replaced and the engine's ready burst set. -/
def State.setJob (s : State) (j : Job) (ready : Option PortBurst) : State :=
  { s with engine := { s.engine with job := some j, ready := ready } }

/-! ### Job start (R112, R117) -/

/-- The job made from a queue entry (R117). TOTAL and SIGNATURE have no value before the last SNR burst (R116); they stand at 0, which
nothing reads (DESIGN CHOICE, log 36). -/
def Job.ofRequest (r : BuildReq) : Job :=
  { link := r.link, slice := r.slice, record := r.record, seq := r.seq, reason := r.reason, stage := .load, mean := none
    total := 0, signature := 0, candidates := [], slot := none, pos := 0, candIx := 0 }

/-- The header read of a job: record words 0 to 7 (R118). -/
def Shadow.headerReadBurst (c : Shadow) (j : Job) : PortBurst := ⟨.headerRead, .read (c.recordWord j.record 0) 8⟩

/-- The idle engine takes the head of the queue; its header read is ready unless a burst of an ended job still holds the port
(R117). -/
def startJob (s : State) : State :=
  match s.engine.job, s.buildQueue with
  | none, r :: rest =>
    { s with
      buildQueue := rest
      engine :=
        { job := some (Job.ofRequest r)
          buffer := []
          ready := if s.portIs .ended then none else some (s.shadow.headerReadBurst (Job.ofRequest r)) } }
  | _, _ => s

/-- An idle engine with a queue that is not empty starts a job (R117). -/
def State.jobDue (s : State) : Bool := s.engine.job.isNone && !s.buildQueue.isEmpty

/-- JOB_START (R117). With a job or an empty queue nothing happens (log 5). -/
def execJobStart (s : State) : Outcome := .next (if !s.inReset && s.jobDue then settle (startJob s) else s)

/-! ### The ends of a job (R121, R124, R128, R131) -/

/-- BUILD_MEAN of the job's slice becomes MEAN (R121, R124, R128). -/
def setBuildMean (j : Job) (s : State) : State :=
  s.setLink j.link { s.link j.link with
    summary := (s.link j.link).summary.modify j.slice fun m => { m with buildMean := j.mean } }

/-- A job ends UNCHANGED: BUILD_MEAN is set, nothing is handed (R121, R124). -/
def endUnchanged (j : Job) (s : State) : State := endJob (setBuildMean j s)

/-- A job ends with a result, slot n: BUILD_MEAN is set, the engine is idle, and Switchover takes the result (R128). -/
def handOff (j : Job) (n : Nat) (s : State) : State := takeResult j.link j.slice n (endJob (setBuildMean j s))

/-- A job ends OVERRUN: its slot is freed, BUILD_FAILED is raised (R131). -/
def overrun (why : BuildFailure) (s : State) : State :=
  withJob (fun j t => raise (.buildFailed j.link why j.slice j.record j.seq j.reason j.stage) (dropJob t)) s

/-- A write into a record is reported: it ends a job on that record OVERRUN (R130). -/
def reportWrite (record : Nat) (s : State) : State :=
  withJob (fun j t => if j.record = record then overrun .overrun t else t) s

/-! ### ALLOCATE (R125, R126) -/

/-- The number of RETIRING slots in the slot table (R126). -/
def State.retiringCount (s : State) : Nat := (s.pool.slots.toList.filter fun r => r.state == .retiring).length

/-- The job enters ALLOCATE: it takes the Free List's head at once, or waits, with a POOL_EMPTY notice (R125, R126). -/
def enterAllocate (s : State) : State :=
  withJob (fun j t =>
    let t1 := t.setJob { j with stage := .allocate } none
    if t.pool.freeList.isEmpty then raise (.poolEmpty j.link j.slice j.record t.retiringCount) t1 else allocate t1) s

/-- ALLOCATE_AFTER_WAIT: a job that waits for a slot takes the Free List's head (R94, R126). The event that frees the slot does
this itself, "at the same event"; taken alone the row does what it left to do, if anything (log 14). -/
def execAllocateAfterWait (s : State) : Outcome :=
  .next (if !s.inReset && s.jobWaits && !s.pool.freeList.isEmpty then settle (allocate s) else s)

/-! ### MATCH (R121 to R124) -/

/-- The candidate list of a link for a slice: the slice's cell, the other cells, the pending entries, the next entries, each slot
once, at its first place (R122). -/
def Link.candidateSlots (L : Link) (slice : Nat) : List Nat :=
  (L.cells[slice]?.toList ++ L.cells.eraseIdx slice ++ L.pendingSet.filterMap id ++ L.nextSet.filterMap id).foldl
    (fun seen n => if seen.contains n then seen else seen ++ [n]) []

/-- The index of the first candidate, from index i on, whose TOTAL and SIGNATURE in the slot table equal the job's (R123). -/
def State.nextCandidate (s : State) (total : Nat) (signature : Word) : List (Nat × BitVec 8) → Nat → Option Nat
  | [], _ => none
  | c :: cs, i =>
    if (s.slot c.1).total = total ∧ (s.slot c.1).signature = signature then some i
    else s.nextCandidate total signature cs (i + 1)

/-- The read of loading words 8i to 8i + 7 of a candidate (R123). -/
def Shadow.candidateBurst (c : Shadow) (n i : Nat) : PortBurst := ⟨.candidateRead, .read (c.slotWord n (8 + 8 * i)) 8⟩

/-- The engine comes to the candidates from index i on: the first worth reading is read, or MATCH ends without a match
(R123, R125). -/
def examineFrom (i : Nat) (s : State) : State :=
  withJob (fun j t =>
    match t.nextCandidate j.total j.signature (j.candidates.drop i) i with
    | some x =>
      t.setJob { j with stage := .matching, candIx := x, pos := 0 }
        (some (t.shadow.candidateBurst ((j.candidates.map Prod.fst).getD x 0) 0))
    | none => enterAllocate t) s

/-- Entry to MATCH: TOTAL below the base total gives slot 0, UNCHANGED or BELOW_BASE; otherwise the candidates are formed and
examined (R121, R122). -/
def enterMatch (s : State) : State :=
  withJob (fun j t =>
    if j.total < (t.slot 0).total then
      if (t.link j.link).cells[j.slice]? = some 0 then endUnchanged j t else handOff j 0 t
    else
      let list := ((t.link j.link).candidateSlots j.slice).map fun n => (n, (t.slot n).issue)
      examineFrom 0 (t.setJob { j with stage := .matching, candidates := list, pos := 0, candIx := 0 } none)) s

/-- A link entry names a slot: a cell, a pending entry or a next entry (R124). -/
def Link.names (L : Link) (n : Nat) : Bool :=
  L.cells.contains n || L.pendingSet.contains (some n) || L.nextSet.contains (some n)

/-- A candidate that matches is re-checked and used, or void (R124). -/
def useMatch (n : Nat) (issue : BitVec 8) (s : State) : State :=
  withJob (fun j t =>
    if (t.slot n).issue = issue ∧ (t.link j.link).names n then
      if (t.link j.link).cells[j.slice]? = some n then endUnchanged j t else handOff j n t
    else examineFrom (j.candIx + 1) t) s

/-- A candidate burst's words are compared with the build buffer's (R123). -/
def candidateRead (ws : List Word) (s : State) : State :=
  withJob (fun j t =>
    match j.candidates[j.candIx]? with
    | none => t
    | some (n, issue) =>
      if ws = (List.range 8).map (fun i => bufferWord t.engine.buffer (8 * j.pos + i)) then
        if j.pos + 1 < t.shadow.carriers / 64 then
          t.setJob { j with pos := j.pos + 1 } (some (t.shadow.candidateBurst n (j.pos + 1)))
        else useMatch n issue t
      else examineFrom (j.candIx + 1) t) s

/-- CANDIDATE_BURST_DONE (R123, R124). -/
def execCandidateBurstDone (s : State) : Outcome := .next (onBurstDone .candidateRead candidateRead s)

/-! ### LOAD (R118, R119) -/

/-- The read of SNR words 8i to 8i + 7 of a job's record (R119). -/
def Shadow.snrBurst (c : Shadow) (j : Job) (i : Nat) : PortBurst := ⟨.snrRead, .read (c.recordWord j.record (8 + 8 * i)) 8⟩

/-- The header check: VALID 1 and the job's SEQ, the node of the job's link, and the job's slice (R118). -/
def headerOk (j : Job) (node : BitVec 8) (ws : List Word) : Bool :=
  estValid (ws.getD 0 0) && estSeq (ws.getD 0 0) == j.seq && estNode (ws.getD 1 0) == node && estSlice (ws.getD 2 0) == j.slice

/-- The job's header has been read: it ends OVERRUN, or MEAN is set and the SNR reads begin (R118, R119). -/
def headerRead (ws : List Word) (s : State) : State :=
  withJob (fun j t =>
    if headerOk j (t.link j.link).node ws then
      t.setJob { j with mean := some (estMean (ws.getD 4 0)), pos := 0 } (some (t.shadow.snrBurst j 0))
    else overrun .header t) s

/-- HEADER_READ_DONE (R118). -/
def execHeaderReadDone (s : State) : Outcome := .next (onBurstDone .headerRead headerRead s)

/-- An SNR burst's carriers are loaded; after the last one TOTAL and SIGNATURE are set and MATCH begins (R119). -/
def snrRead (ws : List Word) (s : State) : State :=
  withJob (fun j t =>
    let buffer := t.engine.buffer ++ t.loadBurst j.pos ws
    let t1 := { t with engine := { t.engine with buffer := buffer } }
    if j.pos + 1 < t.shadow.carriers / 32 then
      t1.setJob { j with pos := j.pos + 1 } (some (t.shadow.snrBurst j (j.pos + 1)))
    else
      enterMatch (t1.setJob
        { j with
          total := (buffer.map BitVec.toNat).sum
          signature := sumWords (bufferWords buffer t.shadow.carriers) } none)) s

/-- SNR_BURST_DONE (R119). -/
def execSnrBurstDone (s : State) : Outcome := .next (onBurstDone .snrRead snrRead s)

/-! ### WRITE and the hand-off (R127, R128) -/

/-- SET_NO of a header formed now: PENDING_SET_NO if the link is GATHERING, LAST_ISSUED + 1, mod 256, otherwise (R98). -/
def Link.expectedSet (L : Link) : BitVec 8 := if L.swState = .gathering then L.pendingSetNo else L.lastIssued + 1

/-- The header burst of a job's slot (R98, R127). -/
def State.headerBurst (s : State) (j : Job) (n : Nat) : PortBurst :=
  ⟨.headerWrite, .write (s.shadow.slotWord n 0)
    ((headerWords n (s.slot n).issue.toNat (s.slot n).ownerNode.toNat (s.slot n).slice j.total s.shadow.carriers j.signature
      (s.link j.link).expectedSet.toNat).map Beat.whole)⟩

/-- The header burst is formed, and the slot's record takes the job's TOTAL and SIGNATURE (R127). -/
def formHeader (j : Job) (n : Nat) (s : State) : State :=
  (s.setSlot n { s.slot n with total := j.total, signature := j.signature }).setJob { j with pos := 0 } (some (s.headerBurst j n))

/-- A loading-word burst of the job is written; the next one, or the header, is formed (R127). -/
def loadingWritten (s : State) : State :=
  withJob (fun j t =>
    match j.slot with
    | none => t
    | some n =>
      if j.pos + 1 < t.shadow.carriers / 64 then
        t.setJob { j with pos := j.pos + 1 } (some (t.loadingBurst n (j.pos + 1)))
      else formHeader j n t) s

/-- LOADING_WRITE_DONE (R127). -/
def execLoadingWriteDone (s : State) : Outcome := .next (onBurstDone .loadingWrite (fun _ => loadingWritten) s)

/-- The header is written: the job ends NEW and hands its slot to Switchover (R128). -/
def headerWritten (s : State) : State :=
  withJob (fun j t =>
    match j.slot with
    | none => t
    | some n => handOff j n t) s

/-- HEADER_WRITE_DONE (R128). -/
def execHeaderWriteDone (s : State) : Outcome := .next (onBurstDone .headerWrite (fun _ => headerWritten) s)

/-! ### A burst of an ended client (R41, R134) -/

/-- A job in LOAD that has read nothing yet has its header read made ready, if it is not (R117). -/
def readyHeaderRead (s : State) : State :=
  withJob (fun j t =>
    if j.stage = .load ∧ j.mean = none ∧ t.engine.ready = none then t.setJob j (some (t.shadow.headerReadBurst j)) else t) s

/-- ENDED_CLIENT_BURST_DONE: read data is discarded, write words land, the port comes free, and a new job's waiting header read
is made ready (R24, R41, R117, R134). -/
def execEndedClientBurstDone (s : State) : Outcome := .next (onBurstDone .ended (fun _ => readyHeaderRead) s)

end Sys2Proof.Machine
end

