-- ==== Sys2Proof/Machine/Estimate.lean ====
section
/-! DEFINITION. Estimate Intake (06): the header shadow, the checks of an arrival, the summaries and the automatic build
request; and the acts that a write into an estimate record sets off (R12). -/

namespace Sys2Proof.Machine

/-! ### The header shadow (R104) -/

/-- The shadow with record word w replaced, for w from 1 to 6 (R104). -/
def HeaderShadow.setWord (h : HeaderShadow) : Nat → Word → HeaderShadow
  | 1, x => { h with node := x }
  | 2, x => { h with sliceEpoch := x }
  | 3, x => { h with measCount := x }
  | 4, x => { h with meanSnr := x }
  | 5, x => { h with errCount := x }
  | 6, x => { h with carriers := x }
  | _, _ => h

/-- A full-enable write of record word w replaces the same word of the shadow (R104). -/
def shadowHeader (record w : Nat) (x : Word) (s : State) : State :=
  { s with headers := tset s.headers record ((s.headerOf record).setWord w x) }

/-! ### The checks (R105, R106) -/

/-- The first check that an arrival fails, with the link found at check 3 if there is one; or the link of a valid arrival
(R106). Check 1 is R106's: it passes in HOLDOVER, also for an arrival taken at the tick of the edge that resumes lock and before it,
which the last bullet of R109 would have refused (DESIGN CHOICE, log 32). -/
def State.checkArrival (s : State) (h : HeaderShadow) : Except (IgnoreReason × Option Nat) Nat :=
  if !s.tracker.state.isLocked then .error (.notLocked, none)
  else if estEpoch h.sliceEpoch ≠ s.tracker.epoch then .error (.staleEpoch, none)
  else match s.findNode (estNode h.node) with
    | none => .error (.unknownNode, none)
    | some k =>
      if s.shadow.slices ≤ estSlice h.sliceEpoch then .error (.badSlice, some k)
      else if estCarriers h.carriers ≠ s.shadow.carriers then .error (.badSize, some k)
      else .ok k

/-! ### Summaries and the automatic request (R107, R108) -/

/-- A summary updated by a valid arrival: ARRIVALS saturates at 255, BUILD_MEAN stays (R107). -/
def Summary.arrived (m : Summary) (record : Nat) (seq : BitVec 16) (mean : BitVec 8) (err : BitVec 16) : Summary :=
  { m with
    arrivals := if m.arrivals = 255 then 255 else m.arrivals + 1
    last := some (record, seq)
    lastMean := mean
    lastErr := err }

/-- Unbuilt: the slice's cell names slot 0, and its pending and next entries are absent (R108), also after a flip that put slot 0 into the
cell, where R109's flip bullet says that Unbuilt does not hold (DESIGN CHOICE, log 37). -/
def Link.unbuilt (L : Link) (i : Nat) : Bool :=
  L.cells[i]? == some 0 && (L.pendingSet.getD i none).isNone && (L.nextSet.getD i none).isNone

/-- Drift: BUILD_MEAN is present, and LAST_MEAN differs from it by DRIFT or more (R108). -/
def Summary.drifted (m : Summary) (drift : Nat) : Bool :=
  match m.buildMean with
  | some b => decide (drift ≤ max m.lastMean.toNat b.toNat - min m.lastMean.toNat b.toNat)
  | none => false

/-- Errors: LAST_ERR is ERR_LIMIT or more (R108). -/
def Summary.erring (m : Summary) (limit : Nat) : Bool := decide (limit ≤ m.lastErr.toNat)

/-- An automatic request is made for slice i of a link (R108). -/
def State.wantsBuild (s : State) (L : Link) (i : Nat) : Bool :=
  match L.summary[i]? with
  | some m => L.mode == .adaptive && (L.unbuilt i || m.drifted s.shadow.drift || m.erring s.shadow.errLimit)
  | none => false

/-- An automatic request is offered to the queue; where it is refused nothing changes (R111). -/
def offerAuto (r : BuildReq) (s : State) : State := { s with buildQueue := (enqueue r s.buildQueue).getD s.buildQueue }

/-- A valid arrival: the summary of its slice is updated, and then the automatic trigger is tested (R107, R108). -/
def takeEstimate (record k : Nat) (seq : BitVec 16) (h : HeaderShadow) (s : State) : State :=
  let i := estSlice h.sliceEpoch
  let s1 := s.setLink k { s.link k with
    summary := (s.link k).summary.modify i fun m => m.arrived record seq (estMean h.meanSnr) (estErr h.errCount) }
  if s1.wantsBuild (s1.link k) i then offerAuto ⟨k, i, record, seq, .auto⟩ s1 else s1

/-- An estimate arrival: a commit word with VALID 1 is written in full (R105, R106). -/
def arrival (record : Nat) (commit : Word) (s : State) : State :=
  let h := s.headerOf record
  match s.checkArrival h with
  | .ok k => counting (takeEstimate record k (estSeq commit) h) s
  | .error (why, k) =>
    raise (.estimateIgnored k record why (estSeq commit) (estNode h.node) (estMeas h.measCount)) s

/-! ### The acts of a write into a record (R12, R15) -/

/-- The header words of a burst, each shadowed, in ascending order. The burst's first address is that of record word w. -/
def headerActs (b : WriteBurst) (record w : Nat) : List (State → State) :=
  (List.range b.len.words).filterMap fun i =>
    if 1 ≤ w + i ∧ w + i ≤ 6 ∧ (b.beat i).isFull then some (shadowHeader record (w + i) (b.beat i).data) else none

/-- The commit word of a burst, if the burst writes it in full with VALID 1: an estimate arrival (R105). -/
def commitWord (b : WriteBurst) (w : Nat) : Option Word :=
  if w = 0 ∧ (b.beat 0).isFull ∧ estValid (b.beat 0).data then some (b.beat 0).data else none

/-- The arrival and the overrun report of a burst. They "need no order between them" (R12): their order is free (log 12). -/
def arriveAndReport (record : Nat) (commit : Word) (s : State) : List (State → State) :=
  if Config.overrunFirst s.choices then [reportWrite record, arrival record commit]
  else [arrival record commit, reportWrite record]

/-- The acts that a write burst into a record sets off, in their order (R12, R15). -/
def estimateActs (b : WriteBurst) (record w : Nat) (s : State) : List (State → State) :=
  headerActs b record w ++
    match commitWord b w with
    | some x => arriveAndReport record x s
    | none => [reportWrite record]

end Sys2Proof.Machine
end

