-- ==== Sys2Proof/Machine/Transmit.lean ====
section
/-! DEFINITION. Transmit Ring Watch (09): captures, the commit checks, pins and releases, and the acts that a write into a
descriptor sets off (R13, R15). -/

namespace Sys2Proof.Machine

/-! ### Captures (R159) -/

/-- The map reference of a descriptor is captured as written (R159). -/
def captureRef (i : Nat) (x : Word) (s : State) : State := s.setPinEntry i { s.pinEntry i with ref := some (mapRefOf x) }

/-- The node of a descriptor is captured as written (R159). -/
def captureNode (i : Nat) (x : Word) (s : State) : State := s.setPinEntry i { s.pinEntry i with node := some (nodeOf x) }

/-! ### Pins and checks (R161) -/

/-- The pin of entry i is released, if it holds one (R161, R165). -/
def unpin (i : Nat) (s : State) : State :=
  match (s.pinEntry i).pinned with
  | some n => releasePin n (s.setPinEntry i { s.pinEntry i with pinned := none })
  | none => s

/-- The OPEN link that a captured node names, if it names one (R161, check 5). -/
def State.nodeLink (s : State) (node : Option (BitVec 8)) : Option Nat := node.bind s.findNode

/-- The commit checks against an entry's captures: the slot of an accepted commit, or the reason of the first check that fails
with the link it names (R161, R164). -/
def State.checkCommit (s : State) (e : PinEntry) : Except (RejectReason × Option Nat) Nat :=
  match e.ref with
  | none => .error (.noRef, none)
  | some r =>
    let n := r.slot.toNat
    if s.shadow.poolSlots ≤ n then .error (.badSlot, none)
    else if r.issue ≠ (s.slot n).issue then .error (.issue, none)
    else if n = 0 then .ok 0
    else match s.nodeLink e.node with
      | none => .error (.unknownNode, none)
      | some k => if (s.link k).cells.contains n then .ok n else .error (.notInForce, some k)

/-- A commit that passes its checks: the slot is pinned, and the captured reference is consumed (R162). -/
def acceptCommit (i n : Nat) (s : State) : State :=
  takePin n (s.setPinEntry i { s.pinEntry i with ref := none, pinned := some n })

/-- A commit that fails a check: the captured reference is consumed, and STALE_REF is raised (R163, R164). -/
def rejectCommit (i : Nat) (why : RejectReason) (k : Option Nat) (s : State) : State :=
  raise (.staleRef k i why (s.pinEntry i).ref (s.pinEntry i).node)
    (s.setPinEntry i { s.pinEntry i with ref := none })

/-- A commit: the entry's pin is released, and then the commit is checked (R161). -/
def commit (i : Nat) (s : State) : State :=
  let s1 := unpin i s
  match s1.checkCommit (s1.pinEntry i) with
  | .ok n => acceptCommit i n s1
  | .error (why, k) => rejectCommit i why k s1

/-- A control transition of descriptor i, by the OWNER written (R160, R165). -/
def transition (i : Nat) (control : Word) (s : State) : State :=
  match controlOwner control with
  | .modem => commit i s
  | .done | .hostOwned | .rejected => unpin i s

/-- The control word that reaches memory: the one written, or the rewrite of a commit that fails its checks (R14, R163). The
state is that at the transition, after the captures of the same burst. -/
def State.sentControl (s : State) (i : Nat) (control : Word) : Word :=
  match controlOwner control with
  | .modem =>
    let s1 := unpin i s
    match s1.checkCommit (s1.pinEntry i) with
    | .ok _ => control
    | .error (why, _) => rejectedControl control why.code
  | .done | .hostOwned | .rejected => control

/-! ### The acts of a write into a descriptor (R13, R15) -/

/-- The captures of a burst, in ascending order. The burst's first address is that of descriptor word w. -/
def captureActs (b : WriteBurst) (i w : Nat) : List (State → State) :=
  (List.range b.len.words).filterMap fun j =>
    if !(b.beat j).isFull then none
    else if w + j = 1 then some (captureRef i (b.beat j).data)
    else if w + j = 2 then some (captureNode i (b.beat j).data)
    else none

/-- The control word of a burst, if the burst writes it in full (R160). -/
def controlWord (b : WriteBurst) (w : Nat) : Option Word :=
  if w = 0 ∧ (b.beat 0).isFull then some (b.beat 0).data else none

/-- The acts that a write burst into a descriptor sets off, in their order (R13, R15). -/
def transmitActs (b : WriteBurst) (i w : Nat) : List (State → State) :=
  captureActs b i w ++ ((controlWord b w).map (transition i)).toList

/-- The beats of a write burst into a descriptor as they are forwarded: the control word of a failed commit is rewritten, with
the byte enables of the word it replaces (R3, R14). -/
def State.sentBeats (s : State) (b : WriteBurst) (i w : Nat) : List Beat :=
  match controlWord b w with
  | some x =>
    let ready := (captureActs b i w).foldl (fun t f => f t) s
    b.words.set 0 { b.beat 0 with data := ready.sentControl i x }
  | none => b.words

end Sys2Proof.Machine
end

