-- ==== Sys2Proof/Machine/Alias.lean ====
section
/-! DEFINITION. Alias Translation (10): the slot of an alias read (R167) and the latch (R169, R170). -/

namespace Sys2Proof.Machine

/-- The slice a selector names: itself from 0 to 7, the tracker's current slice from 8 to 15, or NONE (R167, step 2). -/
def State.sliceOf (s : State) (selector : Nat) : Option Nat := if selector < 8 then some selector else s.tracker.slice

/-- Steps 2 to 4 of translation: the link's cell of the slice, or slot 0 (R167). -/
def State.cellSlot (s : State) (k selector : Nat) : Nat :=
  match s.sliceOf selector with
  | some i => if (s.link k).isOpen ∧ i < s.shadow.slices then (s.link k).cells.getD i 0 else 0
  | none => 0

/-- The latched slot, where an offset of 1 or more meets a latch with the read's selector (R167, step 1). -/
def State.latchedSlot (s : State) (k selector offset : Nat) : Option Nat :=
  match (s.link k).latch with
  | some l => if offset ≠ 0 ∧ l.selector = selector then some l.slot else none
  | none => none

/-- The slot that an alias read reaches (R167). -/
def State.aliasSlot (s : State) (k selector offset : Nat) : Nat :=
  (s.latchedSlot k selector offset).getD (s.cellSlot k selector)

/-- An offset-0 read of an OPEN link in LOCKED or HOLDOVER sets the link's latch to slot n: the new pin is taken, then the old one
released; a latch that names n already keeps its one pin (R170). -/
def setLatch (k selector n : Nat) (s : State) : State :=
  let s1 := s.setLink k { s.link k with latch := some ⟨selector, n⟩ }
  match (s.link k).latch with
  | none => takePin n s1
  | some old => if old.slot = n then s1 else releasePin old.slot (takePin n s1)

/-- An alias read sets a latch: its offset is 0, the link is OPEN, and the tracker is LOCKED or HOLDOVER (R169, R170). -/
def State.latches (s : State) (k offset : Nat) : Bool := offset == 0 && (s.link k).isOpen && s.tracker.state.isLocked

/-- What an alias read does to the latch at its arrival (R169, R170). -/
def latchRead (k selector offset : Nat) (s : State) : State :=
  if s.latches k offset then counting (setLatch k selector (s.cellSlot k selector)) s else s

end Sys2Proof.Machine
end

