-- ==== Sys2Proof/Machine/Notices.lean ====
section
/-! DEFINITION. The Notice Writer (11): the completion of a notice's burst (R176) and the consumer index (R177). -/

namespace Sys2Proof.Machine

/-- A notice's burst is written: the head leaves the FIFO, the entry's class record and the URGENT count take its class, and the
producer index advances (R176). -/
def noticeWritten (s : State) : State :=
  match s.notices.staging with
  | n :: rest =>
    { s with notices := { s.notices with
        staging := rest
        classes := tset s.notices.classes s.notices.producer n.body.class
        urgentCount := if n.body.class = .urgent then s.notices.urgentCount + 1 else s.notices.urgentCount
        producer := (s.notices.producer + 1) % s.shadow.entries } }
  | [] => s

/-- NOTICE_WRITE_DONE (R176). -/
def execNoticeWriteDone (s : State) : Outcome := .next (onBurstDone .notice (fun _ => noticeWritten) s)

/-- How far a consumer value lies ahead of the consumer index, mod N (R177). -/
def State.ahead (s : State) (c : Nat) : Nat := (c + s.shadow.entries - s.notices.consumer) % s.shadow.entries

/-- How many of the next d unconsumed entries have an URGENT class record (R177). -/
def State.urgentAmong (s : State) (d : Nat) : Nat :=
  ((List.range d).filter fun i =>
    tget s.notices.classes .routine ((s.notices.consumer + i) % s.shadow.entries) == .urgent).length

/-- NOTICE_CONSUMER is written in full: the consumer index moves to the value, or to the producer index where the value is none of
an unconsumed entry or the producer; OVERFLOW is cleared (R177). -/
def consume (x : Word) (s : State) : State :=
  let c := x.toNat
  if c < s.shadow.entries ∧ s.ahead c ≤ s.unconsumed then
    { s with notices := { s.notices with
        consumer := c, urgentCount := s.notices.urgentCount - s.urgentAmong (s.ahead c), overflow := false } }
  else
    { s with notices := { s.notices with consumer := s.notices.producer, urgentCount := 0, overflow := false } }

end Sys2Proof.Machine
end

