-- ==== Sys2Proof/Machine/Commands.lean ====
section
/-! DEFINITION. The command mailbox (02, 2.3): the argument latches (R29), the codes (12.2), the screen by filter state (R30),
and the words of a burst that the mailbox and the Notice Writer take (R8, R15). -/

namespace Sys2Proof.Machine

/-- The nine commands (R30). -/
inductive Command where
  | apply
  | withdraw
  | linkAdd
  | linkRemove
  | linkHold
  | linkResume
  | rebuild
  | confirm
  | decline
  deriving DecidableEq, Repr

/-- The command of a code, if it is one (12.2). -/
def Command.ofCode : Nat → Option Command
  | 1 => some .apply
  | 2 => some .withdraw
  | 3 => some .linkAdd
  | 4 => some .linkRemove
  | 5 => some .linkHold
  | 6 => some .linkResume
  | 7 => some .rebuild
  | 8 => some .confirm
  | 9 => some .decline
  | _ => none

/-- The availability of a command by filter state: none where it is available, else the refusal (R30). -/
def Command.screen : Command → FilterState → Option ResultCode
  | .apply, .transparent => none
  | .apply, .applying => some .busy
  | .apply, .operating => some .wrongState
  | .withdraw, .transparent => some .wrongState
  | .withdraw, .applying => none
  | .withdraw, .operating => none
  | .linkAdd, f | .linkRemove, f | .linkHold, f | .linkResume, f | .rebuild, f | .confirm, f | .decline, f =>
    match f with
    | .transparent => some .wrongState
    | .applying => some .busy
    | .operating => none

/-- A command past the screen, given to its owning block (R30). -/
def Command.run : Command → State → State
  | .apply => applyCommand
  | .withdraw => withdrawCommand
  | .linkAdd => Machine.linkAdd
  | .linkRemove => Machine.linkRemove
  | .linkHold => Machine.linkHold
  | .linkResume => Machine.linkResume
  | .rebuild => Machine.rebuild
  | .confirm => Machine.confirm
  | .decline => Machine.decline

/-- A command arrival: BAD_CODE, the screen's refusal, or the command (R30, R31). -/
def takeCommand (code : Word) (s : State) : State :=
  match Command.ofCode code.toNat with
  | none => respond .badCode 0 s
  | some c =>
    match c.screen s.filter with
    | some r => respond r 0 s
    | none => c.run s

/-- An argument or the consumer index is written in full: Anchor words 8 to 11 (R8, R29). -/
def takeMailboxData (word : Nat) (x : Word) (s : State) : State :=
  if word = 8 then consume x s
  else if word = 9 then { s with arg0 := x }
  else if word = 10 then { s with arg1 := x }
  else { s with arg2 := x }

/-- The data words of a write burst into Anchor words 8 to 15, taken in ascending order (R8, R15). The burst's first address is that
of Anchor word w. -/
def mailboxData (b : WriteBurst) (w : Nat) : List (State → State) :=
  (List.range b.len.words).filterMap fun i =>
    if 8 ≤ w + i ∧ w + i ≤ 11 ∧ (b.beat i).isFull then some (takeMailboxData (w + i) (b.beat i).data) else none

/-- CMD_CODE of a write burst into Anchor words 8 to 15, if the burst writes it in full (R30). -/
def codeWord (b : WriteBurst) (w : Nat) : Option Word :=
  if w ≤ 12 ∧ 12 < w + b.len.words ∧ (b.beat (12 - w)).isFull then some (b.beat (12 - w)).data else none

/-- The acts that a write burst into Anchor words 8 to 15 sets off: the data words, then CMD_CODE (R8, R15). -/
def mailboxActs (b : WriteBurst) (w : Nat) : List (State → State) :=
  mailboxData b w ++ ((codeWord b w).map takeCommand).toList

end Sys2Proof.Machine
end

