-- ==== Sys2Proof/Machine/Path.lean ====
section
/-! DEFINITION. The Window Decoder (01): what a transaction does at its arrival, the meanings of the write and read rows, and the
end of a processor burst. One write burst may carry several of the rows' words; the burst, and not the row's name, decides what
happens (R15, log 6), so that the write rows share one operation, and the read rows another. -/

namespace Sys2Proof.Machine

/-! ### GUARD and the snooped words (R15 to R17) -/

/-- The address of the lowest partially written snooped word of a burst, the snooped words being lo to hi and the burst's first
word w (R17). -/
def lowestPartial (b : WriteBurst) (w lo hi : Nat) : Option Nat :=
  ((List.range b.len.words).find? fun i => decide (lo ≤ w + i) && decide (w + i ≤ hi) && !(b.beat i).isFull).map (b.base + ·)

/-- A GUARD notice for a partial write; in TRANSPARENT none is raised (R17). -/
def guardPartial (window : GuardWindow) (a : Nat) (s : State) : State :=
  if s.filter = .transparent then s else raise (.guardWrite window (BitVec.ofNat 16 a) .partialWrite) s

/-- Acts taken one after another. -/
def runActs (acts : List (State → State)) (s : State) : State := acts.foldl (fun t f => f t) s

/-- The snooped words lo to hi of a passed burst set off their acts; outside TRANSPARENT a partial write among them raises GUARD,
at a free place among the acts (R15 to R17, log 12). -/
def takeSnooped (window : GuardWindow) (b : WriteBurst) (w lo hi : Nat) (acts : List (State → State)) (s : State) : State :=
  let s1 := { s with choices := s.choices + 1 }
  if s.filter = .transparent then runActs acts s1
  else match lowestPartial b w lo hi with
    | none => runActs acts s1
    | some a =>
      let p := Config.guardPlace s.choices
      runActs (acts.take p ++ guardPartial window a :: acts.drop p) s1

/-! ### Discarding and forwarding (R2, R3, R8, R11) -/

/-- A burst is discarded: it completes at its arrival, and outside TRANSPARENT a GUARD notice is raised (R2, R11, R17). -/
def discardWrite (window : GuardWindow) (b : WriteBurst) (s : State) : State :=
  let s1 :=
    if s.filter = .transparent then s else raise (.guardWrite window (BitVec.ofNat 16 b.base) .protect) s
  { s1 with path := { s1.path with completions := [.wrote] } }

/-- A processor transaction waits for the memory-side port (R21). -/
def forward (t : MemBurst) (s : State) : State := { s with path := { s.path with waiting := some t } }

/-- In TRANSPARENT each enabled byte of configuration words is written into the shadow too; the burst's first word is Anchor
word w (R8, R27). -/
def shadowWrite (b : WriteBurst) (w : Nat) (s : State) : State :=
  let entry := fun (i : Nat) (old : Word) =>
    if w ≤ i + 16 ∧ i + 16 < w + b.len.words then (b.beat (i + 16 - w)).merge old else old
  { s with shadow := tmapIdx entry s.shadow }

/-! ### The decoder's action (R5 to R14) -/

/-- What a write does at its arrival, by the place of its first word (R8, R11 to R14). -/
def takeWrite (b : WriteBurst) (s : State) : State :=
  match s.place b.base with
  | .anchor w =>
    if w < 8 then discardWrite .anchor b s
    else if w < 16 then forward (.write b.base b.words) (takeSnooped .anchor b w 8 12 (mailboxActs b w) s)
    else if w < 48 then
      if s.filter = .transparent then forward (.write b.base b.words) (shadowWrite b w s) else discardWrite .anchor b s
    else forward (.write b.base b.words) s
  | .aliasWin _ _ _ => discardWrite .aliasWin b s
  | .view _ _ => discardWrite .view b s
  | .pool _ _ => discardWrite .pool b s
  | .noticeRing _ _ => discardWrite .noticeRing b s
  | .estimate r w => forward (.write b.base b.words) (takeSnooped .estimate b w 0 6 (estimateActs b r w s) s)
  | .transmit i w =>
    if i < s.shadow.descriptors then
      forward (.write b.base (s.sentBeats b i w)) (takeSnooped .transmit b w 0 2 (transmitActs b i w) s)
    else forward (.write b.base b.words) s
  | .outside => forward (.write b.base b.words) s

/-- The part answers a read with words of its own: it completes at its arrival (R2). -/
def answer (ws : List Word) (s : State) : State := { s with path := { s.path with completions := [.data ws] } }

/-- What a read does at its arrival, by the place of its first word (R7, R9, R10). -/
def takeRead (r : ReadBurst) (s : State) : State :=
  match s.place r.base with
  | .anchor w =>
    if w < 8 then answer ((List.range r.len.words).map fun i => s.liveWord (w + i)) s
    else forward (.read r.base r.len.words) s
  | .view k w => answer ((List.range r.len.words).map fun i => s.viewWord k (w + i)) s
  | .aliasWin k selector offset =>
    forward (.read (s.shadow.slotWord (s.aliasSlot k selector offset) offset) r.len.words) (latchRead k selector offset s)
  | .pool _ _ | .estimate _ _ | .transmit _ _ | .noticeRing _ _ | .outside => forward (.read r.base r.len.words) s

/-- The processor-side port can accept a transaction: RESET_N is not asserted, and the transaction before has completed (R1). -/
def State.accepts (s : State) : Bool := !s.inReset && s.path.waiting.isNone && !s.portIs .processor

/-- What a transaction does at its arrival (R6). -/
def Transaction.take : Transaction → State → State
  | .write b, s => takeWrite b s
  | .read r, s => takeRead r s

/-- The processor presents a transaction at a port that still holds one: it stays on the port's bus until the port accepts it. With
RESET_N asserted, or with another transaction presented before it, it is turned away (R1, log 7). -/
def present (t : Transaction) (s : State) : State :=
  if !s.inReset && s.path.presented.isNone then { s with path := { s.path with presented := some t } } else s

/-- A write comes to the processor-side port: it arrives where the port accepts it, and is presented otherwise (R1, log 7). -/
def writeArrival (b : WriteBurst) (s : State) : State :=
  if s.accepts then settle (takeWrite b s) else present (.write b) s

/-- A read comes to the processor-side port: it arrives where the port accepts it, and is presented otherwise (R1, log 7). -/
def readArrival (r : ReadBurst) (s : State) : State :=
  if s.accepts then settle (takeRead r s) else present (.read r) s

/-! ### The write rows -/

/-- APPLY: a burst that writes CMD_CODE 1 (R30, R33, R36). -/
def execApply (b : WriteBurst) (s : State) : Outcome := .next (writeArrival b s)

/-- WITHDRAW: a burst that writes CMD_CODE 2 (R30, R41). -/
def execWithdraw (b : WriteBurst) (s : State) : Outcome := .next (writeArrival b s)

/-- LINK_ADD: a burst that writes CMD_CODE 3 (R30, R73, R74). -/
def execLinkAdd (b : WriteBurst) (s : State) : Outcome := .next (writeArrival b s)

/-- LINK_REMOVE: a burst that writes CMD_CODE 4 (R30, R75). -/
def execLinkRemove (b : WriteBurst) (s : State) : Outcome := .next (writeArrival b s)

/-- LINK_HOLD: a burst that writes CMD_CODE 5 (R30, R77). -/
def execLinkHold (b : WriteBurst) (s : State) : Outcome := .next (writeArrival b s)

/-- LINK_RESUME: a burst that writes CMD_CODE 6 (R30, R78). -/
def execLinkResume (b : WriteBurst) (s : State) : Outcome := .next (writeArrival b s)

/-- REBUILD: a burst that writes CMD_CODE 7 (R30, R114, R115). -/
def execRebuild (b : WriteBurst) (s : State) : Outcome := .next (writeArrival b s)

/-- CONFIRM: a burst that writes CMD_CODE 8 (R30, R146, R147). -/
def execConfirm (b : WriteBurst) (s : State) : Outcome := .next (writeArrival b s)

/-- DECLINE: a burst that writes CMD_CODE 9 (R30, R148). -/
def execDecline (b : WriteBurst) (s : State) : Outcome := .next (writeArrival b s)

/-- BAD_CODE_COMMAND: a burst that writes a CMD_CODE of no command (R30). -/
def execBadCodeCommand (b : WriteBurst) (s : State) : Outcome := .next (writeArrival b s)

/-- CMD_ARG_WRITE: a burst that writes command arguments (R29). -/
def execCmdArgWrite (b : WriteBurst) (s : State) : Outcome := .next (writeArrival b s)

/-- NOTICE_CONSUMER_WRITE: a burst that writes NOTICE_CONSUMER (R177). -/
def execNoticeConsumerWrite (b : WriteBurst) (s : State) : Outcome := .next (writeArrival b s)

/-- CONFIG_WRITE: a burst in Anchor words 16 to 47 (R8, R27). -/
def execConfigWrite (b : WriteBurst) (s : State) : Outcome := .next (writeArrival b s)

/-- PROCESSOR_WRITE: any write burst (R8 to R13). -/
def execProcessorWrite (b : WriteBurst) (s : State) : Outcome := .next (writeArrival b s)

/-- DISCARDED_WRITE: a burst to a protected window or word (R11, R17). -/
def execDiscardedWrite (b : WriteBurst) (s : State) : Outcome := .next (writeArrival b s)

/-- ESTIMATE_HEADER_WRITE: a burst that writes estimate record words 1 to 6 (R104). -/
def execEstimateHeaderWrite (b : WriteBurst) (s : State) : Outcome := .next (writeArrival b s)

/-- ESTIMATE_ARRIVAL: a burst that writes a commit word with VALID 1 (R105 to R108). -/
def execEstimateArrival (b : WriteBurst) (s : State) : Outcome := .next (writeArrival b s)

/-- DESCRIPTOR_REF_CAPTURE: a burst that writes descriptor word 1 (R159). -/
def execDescriptorRefCapture (b : WriteBurst) (s : State) : Outcome := .next (writeArrival b s)

/-- DESCRIPTOR_NODE_CAPTURE: a burst that writes descriptor word 2 (R159). -/
def execDescriptorNodeCapture (b : WriteBurst) (s : State) : Outcome := .next (writeArrival b s)

/-- COMMIT: a burst that writes a control word with OWNER MODEM (R161 to R164). -/
def execCommit (b : WriteBurst) (s : State) : Outcome := .next (writeArrival b s)

/-- DESCRIPTOR_DONE: a burst that writes a control word with OWNER DONE (R165). -/
def execDescriptorDone (b : WriteBurst) (s : State) : Outcome := .next (writeArrival b s)

/-- DESCRIPTOR_HOST_OWNED: a burst that writes a control word with OWNER HOST_OWNED (R165). -/
def execDescriptorHostOwned (b : WriteBurst) (s : State) : Outcome := .next (writeArrival b s)

/-- DESCRIPTOR_REJECTED: a burst that writes a control word with OWNER REJECTED (R165). -/
def execDescriptorRejected (b : WriteBurst) (s : State) : Outcome := .next (writeArrival b s)

/-! ### The read rows -/

/-- ALIAS_READ: a read in the Alias window (R9, R167 to R170). -/
def execAliasRead (r : ReadBurst) (s : State) : Outcome := .next (readArrival r s)

/-- PROCESSOR_READ: any read burst (R7, R10, R11). -/
def execProcessorRead (r : ReadBurst) (s : State) : Outcome := .next (readArrival r s)

/-! ### The end of a processor burst (R2, R3) -/

/-- What the processor is handed as its burst on the memory-side port completes (R2). -/
def State.processorCompletion (s : State) : Completion :=
  match s.path.port with
  | some ⟨_, .read a n⟩ => .data (readWords s.memory a n)
  | some ⟨_, .write _ _⟩ => .wrote
  | none => .wrote

/-- The processor's burst on the memory-side port completes: memory holds its words, the processor is handed the completion, and
the port is FREE (R2, R3). -/
def processorDone (s : State) : State :=
  let s1 := finishBurst s
  { s1 with path := { s1.path with completions := [s.processorCompletion] } }

/-- The processor-side port, its transaction completed, accepts the one presented: it arrives now, before the arbiter decides, so that
it is among "the parties waiting at that moment" (R1, R22, log 7). What it is handed at once follows what was handed before. -/
def acceptPresented (s : State) : State :=
  match s.path.waiting, s.path.presented with
  | none, some t =>
    let s1 := t.take { s with path := { s.path with presented := none, completions := [] } }
    { s1 with path := { s1.path with completions := s.path.completions ++ s1.path.completions } }
  | _, _ => s

/-- PROCESSOR_BURST_DONE (R1 to R3, R22). With another burst on the port, or none, nothing happens (log 5). -/
def execProcessorBurstDone (s : State) : Outcome :=
  .next (if !s.inReset && s.portIs .processor then settle (acceptPresented (processorDone s)) else s)

end Sys2Proof.Machine
end

