-- ==== Sys2Proof/Machine/Tracker.lean ====
section
/-! DEFINITION. The Mains Tracker (03): edges, search and acquisition, the capture window, holdover and loss, half-cycle starts
and slice boundaries. All at the present tick time. -/

namespace Sys2Proof.Machine

/-- The slice boundaries of a half-cycle: boundary k at k × PERIOD_EST / S ticks after its start (R58). -/
def boundariesOf (period slices : Nat) : List Nat := (List.range' 1 (slices - 1)).map fun k => k * period / slices

/-- The tracker begins a half-cycle dated t: its last start, count, boundaries and slice (R57, R58). -/
def Tracker.begin (T : Tracker) (t : Nat) (count : BitVec 16) (slices : Nat) : Tracker :=
  { T with lastStart := t, halfCount := count, boundaries := boundariesOf T.period slices, slice := some 0 }

/-! ### Search and acquisition (R47 to R49) -/

/-- The run after an interval ends in SEARCH (R48). -/
def Run.extend (r : Run) (interval tol : Nat) : Run :=
  if interval < 7500 ∨ 11000 < interval then Run.empty
  else if r.count = 0 then ⟨1, interval, interval⟩
  else if interval ≤ r.last + tol ∧ r.last ≤ interval + tol then ⟨r.count + 1, interval, r.sum + interval⟩
  else ⟨1, interval, interval⟩

/-- The tracker acquires lock at an edge at tick t, with the run that reached L (R49). -/
def Tracker.acquire (T : Tracker) (r : Run) (t lockRun slices : Nat) : Tracker :=
  { ({ T with period := r.sum / lockRun }.begin t 0 slices) with
    state := .locked, epoch := T.epoch + 1, missCount := 0, refEdge := none, run := Run.empty }

/-- An edge in SEARCH: blanked, the first reference, or the end of an interval (R46, R47, R48, R49). -/
def searchEdge (s : State) : State :=
  match s.tracker.refEdge with
  | none => { s with tracker := { s.tracker with refEdge := some s.tick } }
  | some r =>
    if s.tick - r ≤ s.shadow.blank then s
    else
      let run := s.tracker.run.extend (min (s.tick - r) 65535) s.shadow.tolerance
      if run.count = s.shadow.lockRun then
        let s1 := announceStart { s with tracker := s.tracker.acquire run s.tick s.shadow.lockRun s.shadow.slices }
        raise (.trackLocked .acquired s1.tracker.period 0) s1
      else { s with tracker := { s.tracker with refEdge := some s.tick, run := run } }

/-! ### Locked operation (R50 to R52, R54) -/

/-- The predicted start: the last start plus PERIOD_EST (R50). -/
def Tracker.predicted (T : Tracker) : Nat := T.lastStart + T.period

/-- PERIOD_EST moved one eighth of the way toward a measured interval, truncated toward zero, and kept in 7,500 to 11,000
(R51). -/
def adjustPeriod (period measured : Nat) : Nat :=
  let moved := if period ≤ measured then period + (measured - period) / 8 else period - (period - measured) / 8
  min (max moved 7500) 11000

/-- The tracker accepts an edge at tick t (R51, R54). -/
def Tracker.accept (T : Tracker) (t slices : Nat) : Tracker :=
  { ({ T with period := adjustPeriod T.period (t - T.lastStart) }.begin t (T.halfCount + 1) slices) with
    state := .locked, missCount := 0 }

/-- An edge accepted in the capture window; in HOLDOVER the lock is resumed, with a TRACK_LOCKED notice (R51, R54). -/
def acceptEdge (s : State) : State :=
  let s1 := announceStart { s with tracker := s.tracker.accept s.tick s.shadow.slices }
  if s.tracker.state = .holdover then raise (.trackLocked .resumed s1.tracker.period s.tracker.missCount) s1 else s1

/-- A stray edge: the stray count rises by 1, and saturates at 255 (R52). -/
def strayEdge (s : State) : State :=
  { s with tracker := { s.tracker with
      strayCount := if s.tracker.strayCount = 255 then 255 else s.tracker.strayCount + 1 } }

/-- An edge in LOCKED or HOLDOVER, the capture window not yet missed: blanked, stray or accepted (R46, R50). -/
def lockedEdge (s : State) : State :=
  if s.tick - s.tracker.lastStart ≤ s.shadow.blank then s
  else if s.tick + s.shadow.tolerance < s.tracker.predicted then strayEdge s
  else acceptEdge s

/-! ### Holdover and loss (R53, R55, R56) -/

/-- The capture window has been missed: its last tick lies behind and no edge was accepted (R50). -/
def State.missDue (s : State) : Bool :=
  s.tracker.state.isLocked && decide (s.tracker.predicted + s.shadow.tolerance < s.tick)

/-- The miss count that a missed window brings: 1 in LOCKED, one more in HOLDOVER (R53, R55). -/
def Tracker.nextMiss (T : Tracker) : Nat := if T.state = .locked then 1 else T.missCount + 1

/-- A half-cycle start is synthesized, dated at the predicted start (R53, R55). -/
def Tracker.synthesize (T : Tracker) (slices : Nat) : Tracker :=
  { (T.begin T.predicted (T.halfCount + 1) slices) with state := .holdover, missCount := T.nextMiss }

/-- One activity of the tracker's loss (R56, R151). -/
def lossItem : LossItem → State → State
  | .sweep k, s => sweepStep k s
  | .latch k, s => releaseLatch k s
  | .job, s => dropJob s

/-- An operation on each link index, in ascending order. -/
def forLinks (f : Nat → State → State) (s : State) : State := (List.range 32).foldl (fun t k => f k t) s

/-- The activities of a loss: in the order given, and then what that order leaves undone (R56, R132, R151, R172, log 11). -/
def sweepAll (order : List LossItem) (s : State) : State :=
  dropJob (forLinks releaseLatch (forLinks sweepLink (order.foldl (fun t x => lossItem x t) s)))

/-- The tracker enters SEARCH at a loss; PERIOD_EST, the half-cycle count, the epoch and the stray count keep their values
(R44, R56). -/
def Tracker.lose (T : Tracker) : Tracker :=
  { T with state := .search, refEdge := none, run := Run.empty, slice := none, missCount := 0 }

/-- LOST: TRACK_LOST is raised, the Build Queue is emptied, every link is swept, every latch released and the job cancelled, in
an order that is free, and the tracker enters SEARCH (R56, R113, R132, R151, R172, log 11). -/
def loseLock (s : State) : State :=
  let s1 := { raise (.trackLost s.tracker.period s.tracker.strayCount) s with buildQueue := [], choices := s.choices + 1 }
  let s2 := sweepAll (Config.lossOrder s.choices) s1
  { s2 with tracker := s2.tracker.lose }

/-- The capture window is missed (R53, R55): a start is synthesized, with TRACK_HOLDOVER at the first miss, or the miss that
reaches M is the loss. -/
def missWindow (s : State) : State :=
  if s.tracker.nextMiss < s.shadow.missLimit then
    let s1 := announceStart { s with tracker := s.tracker.synthesize s.shadow.slices }
    if s.tracker.state = .locked then raise (.trackHoldover s1.tracker.period s1.tracker.strayCount) s1 else s1
  else loseLock s

/-! ### The tracker's rows -/

/-- An edge of ZC_IN by tracker state (R45, R46, R50). A window already missed is missed first: an edge after it "is classed
under the half-cycle that the miss begins" (R50); where no step has taken that miss yet, it and the edge are one event (DESIGN CHOICE,
log 4). -/
def edge (s : State) : State :=
  let s1 := if s.missDue then missWindow s else s
  match s1.tracker.state with
  | .idle => s1
  | .search => searchEdge s1
  | .locked | .holdover => lockedEdge s1

/-- ZC_IN is sampled once in each tick, and not while RESET_N is asserted: the present tick's sample is still to come (R43). -/
def State.canSample (s : State) : Bool := !s.inReset && s.zcSampledAt != some s.tick

/-- ZC_IN is sampled at the present tick, at a level (R43). -/
def takeSample (level : Bool) (s : State) : State := { s with zcLevel := some level, zcSampledAt := some s.tick }

/-- ZC_EDGE: ZC_IN is sampled at the present tick. The first sample sets the reference level; a sample that differs from the one before
it is an edge. A tick that has had its sample has no second one (R43, log 5, 16). -/
def execZcEdge (level : Bool) (s : State) : Outcome :=
  .next <|
    if !s.canSample then s
    else if s.zcLevel = some (!level) then settle (counting edge (takeSample level s))
    else takeSample level s

/-- CAPTURE_WINDOW_MISS: the capture window passes with no accepted edge (R50, R53, R55). Before its last tick has passed
nothing happens (log 5). -/
def execCaptureWindowMiss (s : State) : Outcome :=
  .next (if !s.inReset && s.missDue then settle (counting missWindow s) else s)

/-- The next boundary of the half-cycle has been reached (R59). -/
def State.boundaryDue (s : State) : Bool :=
  s.tracker.state.isLocked &&
    match s.tracker.slice with
    | some c =>
      match s.tracker.boundaries[c]? with
      | some b => decide (s.tracker.lastStart + b ≤ s.tick)
      | none => false
    | none => false

/-- SLICE_BOUNDARY: boundary k passes, and from that tick the current slice is k; nothing else changes (R59). -/
def execSliceBoundary (s : State) : Outcome :=
  .next (if !s.inReset && s.boundaryDue then
    { s with tracker := { s.tracker with slice := s.tracker.slice.map (· + 1) } } else s)

end Sys2Proof.Machine
end

