-- ==== Sys2Proof/Machine/Dispatch.lean ====
section
/-! DEFINITION. One arm per command: the command's meaning. -/

namespace Sys2Proof.Machine

def exec (i : Instr) (s : State) : Host.Outcome State Fault Refusal :=
  match i with
  | .hardwareReset accepted => Sys2Proof.Machine.execHardwareReset accepted s
  | .resetDeassert zc => Sys2Proof.Machine.execResetDeassert zc s
  | .apply b => Sys2Proof.Machine.execApply b s
  | .withdraw b => Sys2Proof.Machine.execWithdraw b s
  | .linkAdd b => Sys2Proof.Machine.execLinkAdd b s
  | .linkRemove b => Sys2Proof.Machine.execLinkRemove b s
  | .linkHold b => Sys2Proof.Machine.execLinkHold b s
  | .linkResume b => Sys2Proof.Machine.execLinkResume b s
  | .rebuild b => Sys2Proof.Machine.execRebuild b s
  | .confirm b => Sys2Proof.Machine.execConfirm b s
  | .decline b => Sys2Proof.Machine.execDecline b s
  | .badCodeCommand b => Sys2Proof.Machine.execBadCodeCommand b s
  | .cmdArgWrite b => Sys2Proof.Machine.execCmdArgWrite b s
  | .noticeConsumerWrite b => Sys2Proof.Machine.execNoticeConsumerWrite b s
  | .configWrite b => Sys2Proof.Machine.execConfigWrite b s
  | .processorWrite b => Sys2Proof.Machine.execProcessorWrite b s
  | .discardedWrite b => Sys2Proof.Machine.execDiscardedWrite b s
  | .estimateHeaderWrite b => Sys2Proof.Machine.execEstimateHeaderWrite b s
  | .estimateArrival b => Sys2Proof.Machine.execEstimateArrival b s
  | .descriptorRefCapture b => Sys2Proof.Machine.execDescriptorRefCapture b s
  | .descriptorNodeCapture b => Sys2Proof.Machine.execDescriptorNodeCapture b s
  | .commit b => Sys2Proof.Machine.execCommit b s
  | .descriptorDone b => Sys2Proof.Machine.execDescriptorDone b s
  | .descriptorHostOwned b => Sys2Proof.Machine.execDescriptorHostOwned b s
  | .descriptorRejected b => Sys2Proof.Machine.execDescriptorRejected b s
  | .aliasRead r => Sys2Proof.Machine.execAliasRead r s
  | .processorBurstDone => Sys2Proof.Machine.execProcessorBurstDone s
  | .zcEdge level => Sys2Proof.Machine.execZcEdge level s
  | .captureWindowMiss => Sys2Proof.Machine.execCaptureWindowMiss s
  | .sliceBoundary => Sys2Proof.Machine.execSliceBoundary s
  | .gatherEnd link => Sys2Proof.Machine.execGatherEnd link s
  | .offerExpiry link => Sys2Proof.Machine.execOfferExpiry link s
  | .flip link => Sys2Proof.Machine.execFlip link s
  | .notchReadDone => Sys2Proof.Machine.execNotchReadDone s
  | .baseLoadingWriteDone => Sys2Proof.Machine.execBaseLoadingWriteDone s
  | .baseHeaderWriteDone => Sys2Proof.Machine.execBaseHeaderWriteDone s
  | .jobStart => Sys2Proof.Machine.execJobStart s
  | .headerReadDone => Sys2Proof.Machine.execHeaderReadDone s
  | .snrBurstDone => Sys2Proof.Machine.execSnrBurstDone s
  | .candidateBurstDone => Sys2Proof.Machine.execCandidateBurstDone s
  | .allocateAfterWait => Sys2Proof.Machine.execAllocateAfterWait s
  | .loadingWriteDone => Sys2Proof.Machine.execLoadingWriteDone s
  | .headerWriteDone => Sys2Proof.Machine.execHeaderWriteDone s
  | .noticeWriteDone => Sys2Proof.Machine.execNoticeWriteDone s
  | .processorRead r => Sys2Proof.Machine.execProcessorRead r s
  | .endedClientBurstDone => Sys2Proof.Machine.execEndedClientBurstDone s

end Sys2Proof.Machine
end

