-- ==== Sys2Proof/Machine/Tick.lean ====
section
/-! DEFINITION. What a step does with no command waiting: it takes the part's own event that is due at the present tick, or else
lets one tick pass (R43, R50, R59, R117, R143; DESIGN CHOICE, log 4). -/

namespace Sys2Proof.Machine

/-- One step with no command waiting (log 4, 24): a slice boundary that is reached, a capture window that is missed, the act of the
lowest link that owes one at the last start, a job start; with none of these due, one tick passes. While RESET_N is asserted the tick time
alone runs on: it is free-running (R43, log 22). -/
def idle (s : State) : State :=
  if s.inReset then { s with tick := s.tick + 1 }
  else if s.boundaryDue then
    { s with tracker := { s.tracker with slice := s.tracker.slice.map (· + 1) } }
  else if s.missDue then settle (counting missWindow s)
  else match s.owed with
    | k :: _ => startEvent k s
    | [] => if s.jobDue then settle (startJob s) else { s with tick := s.tick + 1 }

end Sys2Proof.Machine
end

