-- ==== Sys2Proof/Safety.lean ====
section
/-! DEFINITION. What the statements speak of: no stop, the bursts that carry a row's words, and the invariants of the part. -/

namespace Sys2Proof.Machine

/-! ### No stop -/

/-- The outcome is a next state: the part "has no error state" (R40). -/
def NoStop (o : Outcome) : Prop := ∃ t, o = .next t

/-! ### Bursts that are accepted and pass -/

/-- A burst taken whole: in a filter state other than TRANSPARENT it carries no partial write of the snooped words lo to hi, its
first word being w (R16, R17). -/
def NoPartial (s : State) (b : WriteBurst) (w lo hi : Nat) : Prop := s.filter = .transparent ∨ lowestPartial b w lo hi = none

/-- An accepted write burst in Anchor words 8 to 15 without a partial write of words 8 to 12. -/
def MailboxBurst (s : State) (b : WriteBurst) : Prop :=
  s.accepts = true ∧ 0x108 ≤ b.base ∧ b.base < 0x110 ∧ NoPartial s b (b.base - 0x100) 8 12

/-- A mailbox burst that gives the command of a code (R30). -/
def CommandBurst (s : State) (b : WriteBurst) (code : Nat) : Prop :=
  MailboxBurst s b ∧ ∃ x : Word, b.fullAt 0x10C = some x ∧ x.toNat = code

/-- The row of a command code: the nine commands, and BAD_CODE_COMMAND for every other code. -/
def commandRow (code : Nat) (b : WriteBurst) : Instr :=
  match code with
  | 1 => .apply b
  | 2 => .withdraw b
  | 3 => .linkAdd b
  | 4 => .linkRemove b
  | 5 => .linkHold b
  | 6 => .linkResume b
  | 7 => .rebuild b
  | 8 => .confirm b
  | 9 => .decline b
  | _ => .badCodeCommand b

/-- The state after the data words of a mailbox burst: arguments latched, the consumer index taken (R15). -/
def State.afterData (s : State) (b : WriteBurst) : State :=
  runActs (mailboxData b (b.base - 0x100)) { s with choices := s.choices + 1 }

/-- The state after the header words of a burst into an estimate record, its first word being w (R15). -/
def State.afterHeaders (s : State) (b : WriteBurst) (record w : Nat) : State :=
  runActs (headerActs b record w) { s with choices := s.choices + 1 }

/-- The state after the captures of a burst into a descriptor, its first word being w (R15). -/
def State.afterCaptures (s : State) (b : WriteBurst) (i w : Nat) : State :=
  runActs (captureActs b i w) { s with choices := s.choices + 1 }

/-- What the partial writes of a burst raise: nothing where it carries none of the snooped words lo to hi, its first word being w;
otherwise, outside TRANSPARENT, one GUARD notice with the address of the lowest such word (R16, R17). -/
def PartialGuard (s : State) (window : GuardWindow) (b : WriteBurst) (w lo hi : Nat) (guard : State → State) : Prop :=
  (s.filter = .transparent ∨ ∀ i, i < b.len.words → lo ≤ w + i → w + i ≤ hi → (b.beat i).be = 15) ∧ guard = id
    ∨ s.filter ≠ .transparent ∧ ∃ i, i < b.len.words ∧ lo ≤ w + i ∧ w + i ≤ hi ∧ (b.beat i).be ≠ 15
      ∧ (∀ j, j < i → lo ≤ w + j → (b.beat j).be = 15)
      ∧ guard = raise (.guardWrite window (BitVec.ofNat 16 (b.base + i)) .partialWrite)

/-- A burst passes as written: it waits for the memory-side port, and the port is decided (R3, R22). -/
def passOn (b : WriteBurst) (s : State) : State := settle (forward (.write b.base b.words) s)

/-- The row that a use's burst completes in (R20). -/
def doneRow : PortUse → Instr
  | .processor => .processorBurstDone
  | .notice => .noticeWriteDone
  | .notchRead => .notchReadDone
  | .baseLoading => .baseLoadingWriteDone
  | .baseHeader => .baseHeaderWriteDone
  | .headerRead => .headerReadDone
  | .snrRead => .snrBurstDone
  | .candidateRead => .candidateBurstDone
  | .loadingWrite => .loadingWriteDone
  | .headerWrite => .headerWriteDone
  | .ended => .endedClientBurstDone

/-- A burst of a use holds the memory-side port, and RESET_N is not asserted. -/
def OnPort (s : State) (u : PortUse) (m : MemBurst) : Prop := s.inReset = false ∧ s.path.port = some ⟨u, m⟩

/-- An edge of ZC_IN at the present tick (R43): the level differs from the last sample's, and this tick has had no sample yet. -/
def EdgeNow (s : State) (level : Bool) : Prop :=
  s.inReset = false ∧ s.zcLevel = some (!level) ∧ s.zcSampledAt ≠ some s.tick

/-- The state with ZC_IN sampled at the present tick. -/
def State.sampled (s : State) (level : Bool) : State := { s with zcLevel := some level, zcSampledAt := some s.tick }

/-- The row that a transaction of the processor comes in, whatever else it carries (R1). -/
def Transaction.row : Transaction → Instr
  | .write b => .processorWrite b
  | .read r => .processorRead r

/-! ### The configuration, spelled -/

/-- The parameters over the configuration words, W a being Anchor word a (12.2, R181). -/
def FieldsOfWords (c : Shadow) : Prop :=
  ∀ W : Nat → Word, (∀ i, i < 32 → W (16 + i) = tget c 0 i) →
    c.memSize = (W 16).toNat ∧ c.aliasBase = (W 17).toNat ∧ c.viewBase = (W 18).toNat ∧ c.poolBase = (W 19).toNat
      ∧ c.estBase = (W 20).toNat ∧ c.txBase = (W 21).toNat ∧ c.noteBase = (W 22).toNat ∧ c.notchAddr = (W 23).toNat
      ∧ c.poolSlots = ((W 24).extractLsb' 0 16).toNat ∧ c.records = ((W 24).extractLsb' 16 16).toNat
      ∧ c.descriptors = ((W 25).extractLsb' 0 16).toNat ∧ c.entries = ((W 25).extractLsb' 16 16).toNat
      ∧ c.carriers = ((W 26).extractLsb' 0 16).toNat ∧ c.slices = ((W 26).extractLsb' 16 8).toNat
      ∧ c.baseBits = ((W 26).extractLsb' 24 8).toNat
      ∧ (∀ i, i < 4 → c.threshold (1 + i) = ((W 27).extractLsb' (8 * i) 8).toNat
        ∧ c.threshold (5 + i) = ((W 28).extractLsb' (8 * i) 8).toNat)
      ∧ c.threshold 9 = ((W 29).extractLsb' 0 8).toNat ∧ c.threshold 10 = ((W 29).extractLsb' 8 8).toNat
      ∧ c.margin = ((W 29).extractLsb' 16 8).toNat ∧ c.drift = ((W 29).extractLsb' 24 8).toNat
      ∧ c.errLimit = ((W 30).extractLsb' 0 16).toNat ∧ c.gather = ((W 30).extractLsb' 16 8).toNat
      ∧ c.maxExpiries = ((W 30).extractLsb' 24 8).toNat ∧ c.offerLife = ((W 31).extractLsb' 0 16).toNat
      ∧ c.tolerance = ((W 31).extractLsb' 16 16).toNat ∧ c.blank = ((W 32).extractLsb' 0 16).toNat
      ∧ c.lockRun = ((W 32).extractLsb' 16 8).toNat ∧ c.missLimit = ((W 32).extractLsb' 24 8).toNat
      ∧ c.holdOff = ((W 33).extractLsb' 0 8).toNat ∧ c.irqCount = ((W 33).extractLsb' 8 16).toNat
      ∧ c.irqEnable = (W 33).getLsbD 24

/-- The seven regions that APPLY places, as base and size (R34). -/
def Shadow.placedRegions (c : Shadow) : List (Nat × Nat) :=
  [(c.aliasBase, 131072), (c.viewBase, 2048), (c.poolBase, c.poolSlots * 256), (c.estBase, c.records * 512),
    (c.txBase, (c.descriptors * 8 + 63) / 64 * 64), (c.noteBase, (c.entries * 4 + 63) / 64 * 64),
    (c.notchAddr, (c.carriers + 31) / 32)]

/-- What check i of APPLY asks of the parameters (R34, R35). -/
def CheckSpelled (c : Shadow) (i : Nat) : Prop :=
  match i with
  | 1 => 1048576 ≤ c.memSize ∧ c.memSize ≤ 16777216 ∧ c.memSize % 1048576 = 0
  | 2 =>
    (c.aliasBase % 64 = 0 ∧ c.viewBase % 64 = 0 ∧ c.poolBase % 64 = 0 ∧ c.estBase % 64 = 0 ∧ c.txBase % 64 = 0
      ∧ c.noteBase % 64 = 0) ∧ c.notchAddr % 8 = 0 ∧ ∀ x ∈ c.placedRegions, x.1 + x.2 ≤ c.memSize
  | 3 =>
    ((0x100, 64) :: c.placedRegions).Pairwise fun x y => ∀ a, ¬(x.1 ≤ a ∧ a < x.1 + x.2 ∧ y.1 ≤ a ∧ a < y.1 + y.2)
  | 4 => 256 ≤ c.carriers ∧ c.carriers ≤ 1536 ∧ c.carriers % 64 = 0
  | 5 => 1 ≤ c.slices ∧ c.slices ≤ 8
  | 6 => c.baseBits = 1 ∨ c.baseBits = 2
  | 7 => ∀ b, 1 ≤ b → b < 10 → c.threshold b < c.threshold (b + 1)
  | 8 => 16 ≤ c.poolSlots ∧ c.poolSlots ≤ 128
  | 9 => 4 ≤ c.records ∧ c.records ≤ 32
  | 10 => 16 ≤ c.descriptors ∧ c.descriptors ≤ 64
  | 11 => 16 ≤ c.entries ∧ c.entries ≤ 256
  | 12 =>
    (4 ≤ c.lockRun ∧ c.lockRun ≤ 16) ∧ (1 ≤ c.missLimit ∧ c.missLimit ≤ 32) ∧ (50 ≤ c.tolerance ∧ c.tolerance ≤ 800)
      ∧ 500 ≤ c.blank ∧ c.blank ≤ 4000
  | 13 => c.gather ≤ 15 ∧ (20 ≤ c.offerLife ∧ c.offerLife ≤ 2000) ∧ 1 ≤ c.maxExpiries ∧ c.maxExpiries ≤ 7
  | 14 => 2 ≤ c.holdOff ∧ c.holdOff ≤ 32
  | 15 => 1 ≤ c.irqCount ∧ c.irqCount ≤ c.entries - 1
  | _ => True

/-! ### What an event leaves as it was -/

/-- The tracker, the time and the comparator's samples are as they were. -/
def SameTracker (s t : State) : Prop :=
  t.tracker = s.tracker ∧ t.tick = s.tick ∧ t.zcLevel = s.zcLevel ∧ t.zcSampledAt = s.zcSampledAt

/-- The filter state, the shadow, RESULT and the latched arguments are as they were. -/
def SameMailbox (s t : State) : Prop :=
  t.filter = s.filter ∧ t.shadow = s.shadow ∧ t.result = s.result ∧ t.arg0 = s.arg0 ∧ t.arg1 = s.arg1 ∧ t.arg2 = s.arg2

/-- The slot table and the Free List, and the Loading Engine's job and build buffer, are as they were. -/
def SamePool (s t : State) : Prop := t.pool = s.pool ∧ t.engine.job = s.engine.job ∧ t.engine.buffer = s.engine.buffer

/-- The Build Queue, the header shadow and the pin table are as they were. -/
def SameIntake (s t : State) : Prop := t.buildQueue = s.buildQueue ∧ t.headers = s.headers ∧ t.pinTable = s.pinTable

/-- Staging, the ring indices, the class records, the URGENT count and OVERFLOW are as they were. -/
def SameNotices (s t : State) : Prop :=
  t.notices.staging = s.notices.staging ∧ t.notices.overflow = s.notices.overflow ∧ t.notices.producer = s.notices.producer
    ∧ t.notices.consumer = s.notices.consumer ∧ t.notices.classes = s.notices.classes
    ∧ t.notices.urgentCount = s.notices.urgentCount

/-- The notch mask, the notched count and the phase of the Apply Reader and Base Writer are as they were. -/
def SameApplier (s t : State) : Prop :=
  t.applier.notchMask = s.applier.notchMask ∧ t.applier.notched = s.applier.notched ∧ t.applier.phase = s.applier.phase
    ∧ t.applier.pos = s.applier.pos

/-- Every byte of memory reads as it did. -/
def SameMemory (s t : State) : Prop := ∀ k, readByte t.memory k = readByte s.memory k

/-! ### Invariants -/

/-- Outside TRANSPARENT the shadow passes APPLY's fifteen checks (R27, R33). -/
def State.ConfigOk (s : State) : Prop := s.filter = .transparent ∨ s.shadow.firstFailing = none

/-- In TRANSPARENT the part holds nothing and issues nothing (R32, R41, R42). -/
def State.EmptyIfTransparent (s : State) : Prop :=
  s.filter = .transparent →
    s.tracker = Tracker.reset ∧ s.links = Vector.replicate 32 Link.free ∧ s.pool = Pool.reset ∧ s.buildQueue = []
      ∧ s.engine = Engine.idle ∧ s.headers = Vector.replicate 32 HeaderShadow.empty
      ∧ s.pinTable = Vector.replicate 64 PinEntry.empty ∧ s.notices = NoticeWriter.reset ∧ s.applier = Applier.reset
      ∧ s.path.wait = 0 ∧ s.owed = []
      ∧ ∀ p, s.path.port = some p → p.use = .processor ∨ p.use = .ended

/-- NOTE_IRQ is asserted while IRQ_EN is 1, the filter state is OPERATING, and the URGENT count is above 0 or the unconsumed count, the
producer index less the consumer index mod N, is W or more; and deasserted otherwise (R175, R178). -/
def State.IrqOk (s : State) : Prop :=
  s.noteIrq = true ↔ s.shadow.irqEnable = true ∧ s.filter = .operating
    ∧ (0 < s.notices.urgentCount
      ∨ s.shadow.irqCount ≤ (s.notices.producer + s.shadow.entries - s.notices.consumer) % s.shadow.entries)

/-- A FREE record holds nothing but its change count (R65). -/
def State.FreeOk (s : State) : Prop :=
  ∀ k, (s.link k).isOpen = false → s.link k = { Link.free with changes := (s.link k).changes }

/-- How many entries of a record name a slot (R86). -/
def Link.refCount (L : Link) (n : Nat) : Nat := L.cells.count n + L.pendingSet.count (some n) + L.nextSet.count (some n)

/-- How many cells, pending entries and next entries name a slot (R86). -/
def State.refCount (s : State) (n : Nat) : Nat := (s.links.toList.map fun L => L.refCount n).sum

/-- Every slot's REFS is the number of entries that name it (R86). -/
def State.RefLaw (s : State) : Prop := ∀ n, n < 128 → (s.slot n).refs = s.refCount n

/-- How many pin-table entries pin a slot, and how many latches name it (R87). -/
def State.pinCount (s : State) (n : Nat) : Nat :=
  (s.pinTable.toList.filter fun e => e.pinned == some n).length
    + (s.links.toList.filter fun L => L.latch.map Latch.slot == some n).length

/-- Every slot's PINS is the number of pins on it (R87). -/
def State.PinLaw (s : State) : Prop := ∀ n, n < 128 → (s.slot n).pins = s.pinCount n

/-- Outside TRANSPARENT every slot stands in the state R85 gives it, slot 0 in BASE (R96) and a BUILDING slot held by nothing (R90);
the Free List holds each FREE slot once and no other (R92); the job's slot is BUILDING (R90); and nothing names a slot that the pool
does not have (R83). -/
def State.PoolLaw (s : State) : Prop :=
  s.filter ≠ .transparent →
    (s.slot 0).state = .base
      ∧ (∀ n, 0 < n → n < 128 → (s.slot n).state ≠ .base
        ∧ ((s.slot n).state = .building → (s.slot n).refs = 0 ∧ (s.slot n).pins = 0)
        ∧ ((s.slot n).state ≠ .building →
          ((s.slot n).state = .active ↔ ∃ k, (s.link k).isOpen = true ∧ n ∈ (s.link k).cells)
          ∧ ((s.slot n).state = .staged ↔ 0 < (s.slot n).refs ∧ ∀ k, (s.link k).isOpen = true → n ∉ (s.link k).cells)
          ∧ ((s.slot n).state = .retiring ↔ (s.slot n).refs = 0 ∧ 0 < (s.slot n).pins)
          ∧ ((s.slot n).state = .free ↔ (s.slot n).refs = 0 ∧ (s.slot n).pins = 0)))
      ∧ s.pool.freeList.Nodup
      ∧ (∀ n, n ∈ s.pool.freeList ↔ 0 < n ∧ n < s.shadow.poolSlots ∧ (s.slot n).state = .free)
      ∧ (∀ j n, s.engine.job = some j → j.slot = some n →
        0 < n ∧ n < s.shadow.poolSlots ∧ (s.slot n).state = .building)
      ∧ ∀ n, s.shadow.poolSlots ≤ n → s.refCount n = 0 ∧ s.pinCount n = 0

/-- The laws of the pool together, which every step keeps. -/
def State.PoolLaws (s : State) : Prop := s.ConfigOk ∧ s.FreeOk ∧ s.RefLaw ∧ s.PinLaw ∧ s.PoolLaw

/-- The slots that join the Free List while an event releases references to these slots, one after another: the release of a slot's
last reference, where no pin holds it, frees it at that release; slot 0 never joins (R88, R93, R96). -/
def State.freed (s : State) (released : List Nat) : List Nat :=
  (List.range released.length).filterMap fun i =>
    let n := released.getD i 0
    if n ≠ 0 ∧ (s.slot n).pins = 0 ∧ (s.slot n).refs = (released.take (i + 1)).count n then some n else none

/-! ### What an event brings about -/

/-- A link index other than k: its record is as it was. -/
def OtherLinks (k : Nat) (s t : State) : Prop := ∀ j, j ≠ k → t.link j = s.link j

/-- A mask shows the present entries of a set: bit i is set where entry i is present (R81, R142). -/
def MaskOf (es : List (Option Nat)) (mask : BitVec 8) : Prop :=
  ∀ i, i < 8 → (mask.getLsbD i = true ↔ ∃ n, es[i]? = some (some n))

/-- The Base Map's loading words under a notch mask: the bits 4c + 3 to 4c of word j hold B for carrier 8j + c, or 0 where the mask
marks it (R38, R97, R182). -/
def BaseMapWords (mask : Vector Word 48) (baseBits : Nat) (w : Nat → Word) : Prop :=
  ∀ j c, c < 8 → (w j).extractLsb' (4 * c) 4 =
    if (tget mask 0 ((8 * j + c) / 32)).getLsbD ((8 * j + c) % 32) then 0 else BitVec.ofNat 4 baseBits

/-- The entry of a notice, word by word: kind, class, link or 255, stamp and payload (R174, R183, 12.6). -/
def Spells (x : NoticeBody) (kind : BitVec 8) (cls : NoticeClass) (link : Option Nat) (word2 word3 : Word) : Prop :=
  x.class = cls ∧ ∀ (count : BitVec 16) (epoch : BitVec 8), Notice.words ⟨x, count, epoch⟩ =
    [0#8 ++ BitVec.ofNat 8 (link.getD 255) ++ 0#7 ++ (if cls = .urgent then 1#1 else 0#1) ++ kind, 0#8 ++ epoch ++ count, word2, word3]

/-- A half-cycle start of a count reaches every OPEN link by its switch state (R57, R143): a link that only counts at it does so at once,
and a link that does more owes its act (the model's order, log 10). -/
def StartReaches (s t : State) (count : BitVec 16) : Prop :=
  ∀ k, (s.link k).isOpen = true →
    ((s.link k).swState = .gathering → 2 ≤ (s.link k).gatherLeft → none ∈ (s.link k).pendingSet →
      t.link k = { s.link k with gatherLeft := (s.link k).gatherLeft - 1, changes := (s.link k).changes + 1 } ∧ k ∉ t.owed)
    ∧ ((s.link k).swState = .gathering → ((s.link k).gatherLeft ≤ 1 ∨ none ∉ (s.link k).pendingSet) →
      t.link k = s.link k ∧ k ∈ t.owed)
    ∧ ((s.link k).swState = .offered → (s.link k).offerAge + 1 < s.shadow.offerLife →
      t.link k = { s.link k with offerAge := (s.link k).offerAge + 1, changes := (s.link k).changes + 1 } ∧ k ∉ t.owed)
    ∧ ((s.link k).swState = .offered → s.shadow.offerLife ≤ (s.link k).offerAge + 1 → t.link k = s.link k ∧ k ∈ t.owed)
    ∧ ((s.link k).swState = .confirmed → t.link k = s.link k ∧ (k ∈ t.owed ↔ (s.link k).effective = count))
    ∧ ((s.link k).swState = .steady → t.link k = s.link k ∧ k ∉ t.owed)

/-- The slots that an event frees, one after another. With no job waiting for a slot they join the Free List's tail in this order. A job
that waits in ALLOCATE takes the list's head as the first of them joins: with the list empty, as it is while a job waits, that first slot.
Its first write of eight loading words is ready, or on the port, and the other slots join after it (R93, R94, R125 to R127). -/
def FreedJoin (s t : State) (freed : List Nat) : Prop :=
  (s.jobWaits = false ∨ freed = [] → t.pool.freeList = s.pool.freeList ++ freed)
  ∧ ∀ (j : Job) (f : Nat) (rest : List Nat) (b : PortBurst), s.engine.job = some j → j.stage = .allocate → j.slot = none →
    freed ≠ [] → s.pool.freeList ++ freed = f :: rest →
    b = ⟨.loadingWrite, .write (s.shadow.poolBase + f * 256 + 8)
      ((List.range 8).map fun c => ⟨bufferWord s.engine.buffer c, 15⟩)⟩ →
    t.pool.freeList = rest ∧ t.engine.job = some { j with stage := .write, slot := some f, pos := 0 }
      ∧ (t.engine.ready = some b ∨ t.path.port = some b)
      ∧ (t.slot f).state = .building ∧ (t.slot f).issue = (s.slot f).issue + 1 ∧ (t.slot f).ownerLink = j.link
      ∧ (t.slot f).ownerNode = (s.link j.link).node ∧ (t.slot f).slice = j.slice

/-- A job has ended with a result, slot n: BUILD_MEAN is MEAN, and Switchover has taken the slot by the link's switch state: into a new
pending set, into the set being gathered, over an offer under a new number, or into the next set of a confirmed link; the offer
test has followed (R128, R138 to R142). Another slot that the result replaces has lost a reference, and has joined the Free List's tail if
nothing holds it any more (R139 to R141). -/
def HandsResult (s t : State) (j : Job) (n : Nat) : Prop :=
  ∀ L M : Link, L = s.link j.link → L.isOpen = true → L.mode ≠ .fallback → j.slice < L.pendingSet.length →
    j.slice < L.nextSet.length →
    M = { L with summary := L.summary.modify j.slice fun p => { p with buildMean := j.mean } } →
    t.engine.job = none ∧ OtherLinks j.link s t
      ∧ (s.PoolLaws → s.filter ≠ .transparent →
        t.pool.freeList = s.pool.freeList
          ++ (match (if L.swState = .confirmed then L.nextSet else L.pendingSet)[j.slice]? with
            | some (some old) => if old = n then [] else s.freed [old]
            | _ => []))
      ∧ (L.swState = .confirmed →
        t.link j.link = Link.counted L { M with nextSet := L.nextSet.set j.slice (some n) }
        ∧ t.notices.staging = s.notices.staging)
      ∧ (L.swState = .gathering → ¬(L.gatherLeft = 0 ∨ none ∉ L.pendingSet.set j.slice (some n)) →
        t.link j.link = Link.counted L { M with pendingSet := L.pendingSet.set j.slice (some n) }
        ∧ t.notices.staging = s.notices.staging)
      ∧ (L.swState = .gathering → (L.gatherLeft = 0 ∨ none ∉ L.pendingSet.set j.slice (some n)) →
        t.link j.link =
          { M with
            pendingSet := L.pendingSet.set j.slice (some n)
            swState := .offered
            gatherLeft := 0
            offerAge := 0
            effective := 0
            changes := L.changes + 1 }
        ∧ ∃ mask, MaskOf (L.pendingSet.set j.slice (some n)) mask
          ∧ t.notices.staging = (raise (.offer j.link L.node L.pendingSetNo mask) s).notices.staging)
      ∧ (L.swState = .steady ∨ L.swState = .offered →
        ∃ offered : Bool,
        (offered = true ↔ s.shadow.gather = 0 ∨ none ∉ L.pendingSet.set j.slice (some n))
        ∧ t.link j.link =
          { M with
            pendingSet := L.pendingSet.set j.slice (some n)
            pendingSetNo := L.lastIssued + 1
            lastIssued := L.lastIssued + 1
            swState := if offered then .offered else .gathering
            gatherLeft := if offered then 0 else s.shadow.gather
            offerAge := 0
            effective := 0
            changes := L.changes + 1 }
        ∧ (offered = false → t.notices.staging = s.notices.staging)
        ∧ (offered = true → ∃ mask, MaskOf (L.pendingSet.set j.slice (some n)) mask
          ∧ t.notices.staging = (raise (.offer j.link L.node (L.lastIssued + 1) mask) s).notices.staging))

/-- The report of a write into record r: nothing where no job is on the record; otherwise the job ends OVERRUN, the engine idle, a burst
of it on the port left to complete for no client, its slot FREE at the Free List's tail, its issue kept, and BUILD_FAILED is raised (R12, R130,
R131, R134). -/
def OverrunReport (s : State) (r : Nat) (report : State → State) : Prop :=
  (∀ j, s.engine.job = some j → j.record ≠ r) ∧ report = id
  ∨ ∃ j, s.engine.job = some j ∧ j.record = r ∧ report = fun v =>
    raise (.buildFailed j.link .overrun j.slice r j.seq j.reason j.stage)
      { v with
        engine := { job := none, buffer := [], ready := none }
        path := { v.path with port := v.path.port.map fun b =>
          if b.use ∈ [.headerRead, .snrRead, .candidateRead, .loadingWrite, .headerWrite] then { b with use := .ended } else b }
        pool :=
          match j.slot with
          | some n => { slots := tset v.pool.slots n { v.slot n with state := .free }, freeList := v.pool.freeList ++ [n] }
          | none => v.pool }

/-- The tracker's loss reaches everything but the tracker: TRACK_LOST is raised, the Build Queue is emptied, the job is cancelled, every
latch is released and every OPEN link is swept to the Base Map; descriptor pins stay (R56, R113, R132, R151, R172). -/
def LossReaches (s t : State) : Prop :=
  t.notices.staging = (raise (.trackLost s.tracker.period s.tracker.strayCount) s).notices.staging
    ∧ t.buildQueue = [] ∧ t.engine.job = none
    ∧ (∀ k, (s.link k).isOpen = true → ∃ c,
      t.link k =
        { s.link k with
          cells := (s.link k).cells.map fun _ => 0
          pendingSet := (s.link k).pendingSet.map fun _ => none
          nextSet := (s.link k).nextSet.map fun _ => none
          swState := .steady
          gatherLeft := 0
          offerAge := 0
          effective := 0
          streak := 0
          summary := (s.link k).summary.map fun _ => Summary.empty
          latch := none
          changes := c })
    ∧ t.pinTable = s.pinTable ∧ t.headers = s.headers ∧ SameMailbox s t ∧ SameApplier s t ∧ SameMemory s t

/-! ### Bursts and windows, spelled -/

/-- A burst covers the aligned block of its own length that holds the address presented (R1). -/
def BlockOf (a : Addr) (len : BurstLen) (base : Nat) : Prop :=
  (len.words = match len with
    | .one => 1
    | .two => 2
    | .four => 4
    | .eight => 8)
  ∧ base % len.words = 0 ∧ base ≤ a.toNat ∧ a.toNat < base + len.words

/-- The words of a write burst: its block, a beat for each of its words in ascending order, and the words it writes in full (R1, R16). -/
def WriteSpelled (b : WriteBurst) : Prop :=
  BlockOf b.addr b.len b.base ∧ b.words.length = b.len.words
    ∧ (∀ (i : Nat) (x : Beat), i < b.len.words → b.beats[i]? = some x → b.words[i]? = some x ∧ b.beat i = x)
    ∧ ∀ (a : Nat) (x : Word), b.fullAt a = some x ↔ b.base ≤ a ∧ a < b.base + b.len.words ∧ b.beat (a - b.base) = ⟨x, 15⟩

/-- Where an address lies and how it splits, over the window bases and P, R, D and N (R4, R5): the Anchor Block in every filter state, and
the six other windows outside TRANSPARENT alone, under a configuration that passed APPLY. -/
def PlaceSpelled (s : State) (a : Nat) : Prop :=
  (∀ w, s.place a = .anchor w ↔ 0x100 ≤ a ∧ a < 0x140 ∧ w = a - 0x100)
  ∧ (s.filter = .transparent → a < 0x100 ∨ 0x140 ≤ a → s.place a = .outside)
  ∧ (s.filter ≠ .transparent → s.ConfigOk → ∀ c, c = s.shadow →
    (∀ k x o, s.place a = .aliasWin k x o ↔ c.aliasBase ≤ a ∧ a < c.aliasBase + 131072 ∧ k = (a - c.aliasBase) / 4096
      ∧ x = (a - c.aliasBase) % 4096 / 256 ∧ o = (a - c.aliasBase) % 4096 % 256)
    ∧ (∀ k w, s.place a = .view k w ↔ c.viewBase ≤ a ∧ a < c.viewBase + 2048 ∧ k = (a - c.viewBase) / 64
      ∧ w = (a - c.viewBase) % 64)
    ∧ (∀ n w, s.place a = .pool n w ↔ c.poolBase ≤ a ∧ a < c.poolBase + c.poolSlots * 256 ∧ n = (a - c.poolBase) / 256
      ∧ w = (a - c.poolBase) % 256)
    ∧ (∀ r w, s.place a = .estimate r w ↔ c.estBase ≤ a ∧ a < c.estBase + c.records * 512 ∧ r = (a - c.estBase) / 512
      ∧ w = (a - c.estBase) % 512)
    ∧ (∀ i w, s.place a = .transmit i w ↔ c.txBase ≤ a ∧ a < c.txBase + (c.descriptors * 8 + 63) / 64 * 64
      ∧ i = (a - c.txBase) / 8 ∧ w = (a - c.txBase) % 8)
    ∧ (∀ e w, s.place a = .noticeRing e w ↔ c.noteBase ≤ a ∧ a < c.noteBase + (c.entries * 4 + 63) / 64 * 64
      ∧ e = (a - c.noteBase) / 4 ∧ w = (a - c.noteBase) % 4)
    ∧ (s.place a = .outside ↔ ¬(0x100 ≤ a ∧ a < 0x140) ∧ ¬(c.aliasBase ≤ a ∧ a < c.aliasBase + 131072)
      ∧ ¬(c.viewBase ≤ a ∧ a < c.viewBase + 2048) ∧ ¬(c.poolBase ≤ a ∧ a < c.poolBase + c.poolSlots * 256)
      ∧ ¬(c.estBase ≤ a ∧ a < c.estBase + c.records * 512)
      ∧ ¬(c.txBase ≤ a ∧ a < c.txBase + (c.descriptors * 8 + 63) / 64 * 64)
      ∧ ¬(c.noteBase ≤ a ∧ a < c.noteBase + (c.entries * 4 + 63) / 64 * 64)))

end Sys2Proof.Machine
end

