-- ==== Sys2Proof/Certificates/Slice0/Obligations.lean ====
section
/-! DEFINITION. The statements for the provers, one Prop each. -/

open Sys2Proof Sys2Proof.Machine

/-! ### The step, reset and the invariants -/

/-- A step takes the command at the front of the queue, and runs it on the state with the queue's rest. On an empty queue it takes the part's
own event that is due, a slice boundary before a missed window, then the act of the first link that owes one, then a job start; with none
due, or with RESET_N asserted, one tick passes (the model's order, log 4, 24). -/
def Obligations.StepTakesFront : Prop :=
  (∀ (c : Instr) (rest : List Instr) (s : State), s.pending = c :: rest → step s = exec c { s with pending := rest })
  ∧ ∀ s : State, s.pending = [] →
    (s.inReset = true → step s = .next { s with tick := s.tick + 1 })
    ∧ ∀ boundary missed : Prop, s.inReset = false →
      (boundary ↔ (s.tracker.state = .locked ∨ s.tracker.state = .holdover) ∧ ∃ c offset, s.tracker.slice = some c
        ∧ s.tracker.boundaries[c]? = some offset ∧ s.tracker.lastStart + offset ≤ s.tick) →
      (missed ↔ (s.tracker.state = .locked ∨ s.tracker.state = .holdover)
        ∧ s.tracker.lastStart + s.tracker.period + s.shadow.tolerance < s.tick) →
      (boundary → step s = exec .sliceBoundary s)
      ∧ (¬boundary → missed → step s = exec .captureWindowMiss s)
      ∧ (¬boundary → ¬missed → ∀ k rest, s.owed = k :: rest →
        step s = exec (.gatherEnd k) s ∧ step s = exec (.offerExpiry k) s ∧ step s = exec (.flip k) s)
      ∧ (¬boundary → ¬missed → s.owed = [] → s.engine.job = none → s.buildQueue ≠ [] → step s = exec .jobStart s)
      ∧ (¬boundary → ¬missed → s.owed = [] → s.engine.job ≠ none ∨ s.buildQueue = [] →
        step s = .next { s with tick := s.tick + 1 })

/-- Every step answers a next state. -/
def Obligations.EveryStepIsNext : Prop := ∀ s : State, NoStop (step s)

/-- Hardware reset leaves every item at the value R42 gives, with memory as the words already accepted leave it. -/
def Obligations.HardwareResetState : Prop :=
  ∀ (accepted : Nat) (s : State), ∃ t, exec (.hardwareReset accepted) s = .next t ∧ t.inReset = true ∧ t.filter = .transparent
    ∧ t.shadow = Shadow.reset ∧ t.result = ⟨0, .noCommand, 0⟩ ∧ t.arg0 = 0 ∧ t.arg1 = 0 ∧ t.arg2 = 0
    ∧ t.tracker.state = .idle ∧ t.tracker.epoch = 0 ∧ t.tracker.strayCount = 0 ∧ t.tracker.missCount = 0
    ∧ t.tracker.slice = none ∧ t.tracker.halfCount = 0 ∧ t.tracker.period = 0
    ∧ (∀ k, (t.link k).isOpen = false ∧ (t.link k).changes = 0 ∧ (t.link k).latch = none)
    ∧ (∀ n, t.slot n = SlotRec.reset) ∧ t.pool.freeList = [] ∧ t.buildQueue = [] ∧ t.engine.job = none
    ∧ (∀ i, t.pinEntry i = PinEntry.empty) ∧ (∀ r, t.headerOf r = HeaderShadow.empty)
    ∧ t.notices.staging = [] ∧ t.notices.producer = 0 ∧ t.notices.consumer = 0 ∧ t.notices.urgentCount = 0
    ∧ t.notices.overflow = false ∧ t.noteIrq = false ∧ (∀ c, t.applier.isNotched c = false)
    ∧ t.path.port = none ∧ t.path.wait = 0 ∧ t.path.waiting = none ∧ t.path.presented = none ∧ t.requesterWaits = false
    ∧ t.pending = s.pending ∧ t.tick = s.tick ∧ t.zcLevel = none ∧ t.zcSampledAt = s.zcSampledAt
    ∧ t.memory = (match s.path.port with
        | some ⟨_, .write a beats⟩ => writeBeats s.memory a (beats.take accepted)
        | _ => s.memory)

/-- While RESET_N is asserted nothing but its deassertion, or another assertion, changes the part; and the deassertion begins
operation with the first ZC_IN sample as the reference level, where the present tick has had no sample yet. -/
def Obligations.ResetHolds : Prop :=
  ∀ s : State, s.inReset = true →
    (∀ c : Instr, (∀ n, c ≠ .hardwareReset n) → (∀ zc, c ≠ .resetDeassert zc) → exec c s = .next s)
    ∧ ∀ zc, exec (.resetDeassert zc) s = .next (if s.zcSampledAt = some s.tick then { s with inReset := false }
      else { s with inReset := false, zcLevel := some zc, zcSampledAt := some s.tick })

/-- The state after reset satisfies every invariant stated below. -/
def Obligations.ResetInvariants : Prop :=
  Memory.wf State.reset.memory = true ∧ State.reset.EmptyIfTransparent ∧ State.reset.IrqOk ∧ State.reset.ConfigOk
    ∧ State.reset.FreeOk ∧ State.reset.RefLaw ∧ State.reset.PinLaw ∧ State.reset.PoolLaw

/-- Every step keeps memory in its canonical form. -/
def Obligations.MemoryCanonicalKept : Prop :=
  ∀ s t : State, Memory.wf s.memory = true → step s = .next t → Memory.wf t.memory = true

/-- Every step keeps this: in TRANSPARENT the part holds nothing and issues nothing. -/
def Obligations.TransparentEmptyKept : Prop :=
  ∀ s t : State, s.EmptyIfTransparent → step s = .next t → t.EmptyIfTransparent

/-- Every step keeps NOTE_IRQ at the level R178 gives: asserted while IRQ_EN is 1, the filter state is OPERATING, and the URGENT count is
above 0 or the unconsumed count is W or more. -/
def Obligations.IrqLawKept : Prop := ∀ s t : State, s.IrqOk → step s = .next t → t.IrqOk

/-- Every step keeps every slot's REFS at the number of entries that name it; a FREE record holds nothing. -/
def Obligations.RefLawKept : Prop :=
  ∀ s t : State, s.FreeOk ∧ s.RefLaw → step s = .next t → t.FreeOk ∧ t.RefLaw

/-- Every step keeps every slot's PINS at the number of descriptor pins and latches on it, and outside TRANSPARENT a configuration that
passes APPLY's checks; and with the law of references it keeps the law of the pool: every slot in the state R85 gives it, and each
FREE slot once on the Free List. -/
def Obligations.PinLawKept : Prop :=
  (∀ s t : State, s.EmptyIfTransparent ∧ s.ConfigOk ∧ s.FreeOk ∧ s.PinLaw → step s = .next t →
    t.ConfigOk ∧ t.FreeOk ∧ t.PinLaw)
  ∧ ∀ s t : State, s.EmptyIfTransparent ∧ s.PoolLaws → step s = .next t → t.PoolLaws

/-- Outside TRANSPARENT no command but hardware reset changes the configuration shadow. -/
def Obligations.ShadowLocked : Prop :=
  ∀ (c : Instr) (s t : State), s.filter ≠ .transparent → (∀ n, c ≠ .hardwareReset n) → exec c s = .next t →
    t.shadow = s.shadow

/-- A record's CHANGES rises by 1 at an event that changes another field of it, and stays otherwise. APPLY, WITHDRAW and
hardware reset, which set every record anew, are the events that move the filter state from or to TRANSPARENT. -/
def Obligations.ChangeCount : Prop :=
  ∀ (c : Instr) (s t : State) (k : Nat), (∀ n, c ≠ .hardwareReset n) → exec c s = .next t →
    (s.filter = .transparent ↔ t.filter = .transparent) →
    if { t.link k with changes := 0 } = { s.link k with changes := 0 } then (t.link k).changes = (s.link k).changes
    else (t.link k).changes = (s.link k).changes + 1

/-! ### The mailbox -/

/-- The screen: BAD_CODE for a code of no command, then WRONG_STATE or BUSY by filter state. A command refused there changes
RESULT alone. -/
def Obligations.MailboxScreen : Prop :=
  ∀ (s : State) (b : WriteBurst) (code : Nat) (r : ResultCode), CommandBurst s b code →
    ((code = 0 ∨ 9 < code) ∧ r = .badCode
      ∨ s.filter = .transparent ∧ 2 ≤ code ∧ code ≤ 9 ∧ r = .wrongState
      ∨ s.filter = .applying ∧ (code = 1 ∨ 3 ≤ code) ∧ code ≤ 9 ∧ code ≠ 0 ∧ r = .busy
      ∨ s.filter = .operating ∧ code = 1 ∧ r = .wrongState) →
    exec (commandRow code b) s =
      .next (passOn b { s.afterData b with result := ⟨(s.afterData b).result.seq + 1, r, 0⟩ })

/-- APPLY in TRANSPARENT: with a check that fails, BAD_CONFIG with the number of the first and nothing else; with all fifteen passed,
the state of R36. Each check is spelled over the parameters (R34, R35), and each parameter over the configuration words (R181). -/
def Obligations.ApplyTaken : Prop :=
  (∀ c : Shadow, FieldsOfWords c ∧ ∀ i, 1 ≤ i → i ≤ 15 → (c.check i = true ↔ CheckSpelled c i))
  ∧ ∀ (s : State) (b : WriteBurst), CommandBurst s b 1 → s.filter = .transparent →
    (∀ i, 1 ≤ i → i ≤ 15 → s.shadow.check i = false → (∀ j, 1 ≤ j → j < i → s.shadow.check j = true) →
      exec (.apply b) s = .next (passOn b
        { s.afterData b with result := ⟨(s.afterData b).result.seq + 1, .badConfig, BitVec.ofNat 16 i⟩ }))
    ∧ ((∀ j, 1 ≤ j → j ≤ 15 → s.shadow.check j = true) →
      exec (.apply b) s = .next (passOn b
        { s.afterData b with
          filter := .applying
          result := ⟨(s.afterData b).result.seq + 1, .ok, 0⟩
          links := Vector.replicate 32 Link.free
          pool :=
            { slots := tset (Vector.replicate 128 SlotRec.reset) 0 { SlotRec.reset with state := .base }
              freeList := List.range' 1 (s.shadow.poolSlots - 1) }
          buildQueue := []
          engine := Engine.idle
          headers := Vector.replicate 32 HeaderShadow.empty
          pinTable := Vector.replicate 64 PinEntry.empty
          notices := NoticeWriter.reset
          applier :=
            { Applier.reset with
              phase := .reading
              ready := some ⟨.notchRead, .read s.shadow.notchAddr (if 8 ≤ s.shadow.carriers / 32 then 8 else
                if 4 ≤ s.shadow.carriers / 32 then 4 else 2)⟩ }
          tracker :=
            { s.tracker with
              state := .search, refEdge := none, run := Run.empty, lastStart := 0, boundaries := [], slice := none
              missCount := 0, strayCount := 0 }
          owed := [] }))

/-- WITHDRAW in APPLYING or OPERATING: the part is emptied, the shadow kept, and an internal burst on the port is left to complete
for no client. -/
def Obligations.WithdrawAccepted : Prop :=
  ∀ (s : State) (b : WriteBurst), CommandBurst s b 2 → s.filter ≠ .transparent →
    ∃ t, exec (.withdraw b) s = .next t ∧ t.filter = .transparent
      ∧ t.result = ⟨s.result.seq + 1, .ok, 0⟩ ∧ t.arg0 = 0 ∧ t.arg1 = 0 ∧ t.arg2 = 0 ∧ t.shadow = s.shadow
      ∧ t.tracker = Tracker.reset ∧ (∀ k, t.link k = Link.free) ∧ t.pool = Pool.reset ∧ t.buildQueue = []
      ∧ t.engine = Engine.idle ∧ (∀ r, t.headerOf r = HeaderShadow.empty) ∧ (∀ i, t.pinEntry i = PinEntry.empty)
      ∧ t.notices = NoticeWriter.reset ∧ t.noteIrq = false ∧ t.applier = Applier.reset ∧ t.path.wait = 0
      ∧ (match s.path.port with
          | some p => t.path.port = some { p with use := .ended } ∧ t.path.waiting = some (.write b.base b.words)
          | none => t.path.port = some ⟨.processor, .write b.base b.words⟩ ∧ t.path.waiting = none)
      ∧ SameMemory s t ∧ t.tick = s.tick

/-- LINK_ADD is refused with BAD_NODE, DUP_NODE or TABLE_FULL, in this order, and changes nothing else. -/
def Obligations.LinkAddRefused : Prop :=
  ∀ (s : State) (b : WriteBurst) (node : Nat) (r : ResultCode), CommandBurst s b 3 → s.filter = .operating →
    node = (s.afterData b).arg0.toNat →
    ((node = 0 ∨ 255 ≤ node) ∧ r = .badNode
      ∨ 1 ≤ node ∧ node ≤ 254 ∧ (∃ k, k < 32 ∧ (s.link k).isOpen = true ∧ (s.link k).node.toNat = node) ∧ r = .dupNode
      ∨ 1 ≤ node ∧ node ≤ 254 ∧ (∀ k, k < 32 → (s.link k).isOpen = true ∧ (s.link k).node.toNat ≠ node)
        ∧ r = .tableFull) →
    exec (.linkAdd b) s = .next (passOn b { s.afterData b with result := ⟨(s.afterData b).result.seq + 1, r, 0⟩ })

/-- LINK_ADD opens the lowest FREE record for the node, every cell naming slot 0, whose references rise by S. -/
def Obligations.LinkAddOpens : Prop :=
  ∀ (s : State) (b : WriteBurst) (k : Nat), CommandBurst s b 3 → s.filter = .operating →
    1 ≤ (s.afterData b).arg0.toNat → (s.afterData b).arg0.toNat ≤ 254 →
    (∀ j, j < 32 → (s.link j).isOpen = true → (s.link j).node.toNat ≠ (s.afterData b).arg0.toNat) →
    k < 32 → (s.link k).isOpen = false → (∀ j, j < k → (s.link j).isOpen = true) →
    exec (.linkAdd b) s = .next (passOn b
      { s.afterData b with
        result := ⟨(s.afterData b).result.seq + 1, .ok, BitVec.ofNat 16 k⟩
        links := tset s.links k
          { isOpen := true
            mode := .adaptive
            node := (s.afterData b).arg0.setWidth 8
            cells := List.replicate s.shadow.slices 0
            swState := .steady
            activeSet := 0
            lastIssued := 0
            pendingSetNo := 0
            pendingSet := List.replicate s.shadow.slices none
            nextSet := List.replicate s.shadow.slices none
            gatherLeft := 0
            offerAge := 0
            effective := 0
            streak := 0
            summary := List.replicate s.shadow.slices Summary.empty
            latch := none
            changes := (s.link k).changes + 1 }
        pool := { s.pool with
          slots := tset s.pool.slots 0 { s.slot 0 with refs := (s.slot 0).refs + s.shadow.slices } } })

/-- The six commands that name a link answer BAD_LINK for an index of 32 or above or of a FREE record, and change nothing else. -/
def Obligations.BadLink : Prop :=
  ∀ (s : State) (b : WriteBurst) (code : Nat), CommandBurst s b code → s.filter = .operating → 4 ≤ code → code ≤ 9 →
    (32 ≤ (s.afterData b).arg0.toNat ∨ (s.link (s.afterData b).arg0.toNat).isOpen = false) →
    exec (commandRow code b) s =
      .next (passOn b { s.afterData b with result := ⟨(s.afterData b).result.seq + 1, .badLink, 0⟩ })

/-- LINK_REMOVE closes the record and removes its queue entries and its job; other records, the pin table and memory stay. The
slots it frees join the Free List in the order of its steps: at the release of their last cell, pending entry or next entry, at the latch's
release, and at the job's cancellation. Another link's job that waits for a slot takes the first of them; a waiting job of this link does so
too, and gives it back at its cancellation, to the tail. -/
def Obligations.LinkRemoved : Prop :=
  ∀ (s : State) (b : WriteBurst) (k : Nat), CommandBurst s b 4 → s.filter = .operating →
    (s.afterData b).arg0.toNat = k → k < 32 → (s.link k).isOpen = true →
    ∃ t, exec (.linkRemove b) s = .next t ∧ t.result = ⟨s.result.seq + 1, .ok, 0⟩
      ∧ t.link k = { Link.free with changes := (s.link k).changes + 1 } ∧ OtherLinks k s t
      ∧ t.buildQueue = s.buildQueue.filter (fun q => q.link != k)
      ∧ (∀ j, s.engine.job = some j → j.link = k → t.engine.job = none ∧ t.engine.ready = none)
      ∧ (s.engine.job = none → t.engine.job = none)
      ∧ SameTracker s t ∧ SameApplier s t ∧ SameMemory s t ∧ SameNotices (s.afterData b) t ∧ t.filter = s.filter
      ∧ t.shadow = s.shadow ∧ t.arg0 = (s.afterData b).arg0 ∧ t.arg1 = (s.afterData b).arg1
      ∧ t.arg2 = (s.afterData b).arg2 ∧ t.headers = s.headers ∧ t.pinTable = s.pinTable
      ∧ ∀ released freed : List Nat, s.PoolLaws →
        released = (s.link k).cells ++ (s.link k).pendingSet.filterMap id ++ (s.link k).nextSet.filterMap id →
        freed = s.freed released
          ++ (match (s.link k).latch with
            | some l =>
              if l.slot ≠ 0 ∧ (s.slot l.slot).pins = 1 ∧ (s.slot l.slot).refs = released.count l.slot then [l.slot] else []
            | none => []) →
        (s.jobWaits = false → t.pool.freeList = s.pool.freeList ++ freed
          ++ (match s.engine.job with
            | some j => if j.link = k then j.slot.toList else []
            | none => []))
        ∧ ∀ j, s.engine.job = some j → j.stage = .allocate → j.slot = none →
          (j.link ≠ k → FreedJoin s t freed)
          ∧ (j.link = k → freed = [] → t.pool.freeList = s.pool.freeList)
          ∧ ∀ f rest, j.link = k → freed ≠ [] → s.pool.freeList ++ freed = f :: rest → t.pool.freeList = rest ++ [f]

/-- LINK_HOLD: WRONG_STATE in FALLBACK, otherwise MODE becomes HOLD. LINK_RESUME: MODE becomes ADAPTIVE and STREAK 0, from any
mode. The record is otherwise unchanged but for CHANGES, which rises where a value changed. -/
def Obligations.LinkHeldOrResumed : Prop :=
  ∀ (s : State) (b : WriteBurst) (k : Nat), s.filter = .operating → (s.afterData b).arg0.toNat = k → k < 32 →
    (s.link k).isOpen = true →
    (CommandBurst s b 5 → exec (.linkHold b) s = .next (passOn b
      (if (s.link k).mode = .fallback then
        { s.afterData b with result := ⟨(s.afterData b).result.seq + 1, .wrongState, 0⟩ }
      else
        { s.afterData b with
          result := ⟨(s.afterData b).result.seq + 1, .ok, 0⟩
          links := tset s.links k
            { s.link k with
              mode := .hold
              changes := if (s.link k).mode = .hold then (s.link k).changes else (s.link k).changes + 1 } })))
    ∧ (CommandBurst s b 6 → exec (.linkResume b) s = .next (passOn b
      { s.afterData b with
        result := ⟨(s.afterData b).result.seq + 1, .ok, 0⟩
        links := tset s.links k
          { s.link k with
            mode := .adaptive
            streak := 0
            changes :=
              if (s.link k).mode = .adaptive ∧ (s.link k).streak = 0 then (s.link k).changes
              else (s.link k).changes + 1 } }))

/-- REBUILD: BAD_LINK, WRONG_STATE in FALLBACK, then NOT_LOCKED; otherwise the requests, one for each selected slice below S whose summary
has a latest record, with that record and reason REQUEST, are offered to the queue in ascending slice order until one is refused.
The admission of one request is QueueAdmission's. -/
def Obligations.RebuildOffers : Prop :=
  ∀ (s : State) (b : WriteBurst) (k : Nat), CommandBurst s b 7 → s.filter = .operating → (s.afterData b).arg0.toNat = k →
    (32 ≤ k ∨ (s.link k).isOpen = false → exec (.rebuild b) s = .next (passOn b
      { s.afterData b with result := ⟨(s.afterData b).result.seq + 1, .badLink, 0⟩ }))
    ∧ (k < 32 → (s.link k).isOpen = true → (s.link k).mode = .fallback → exec (.rebuild b) s = .next (passOn b
      { s.afterData b with result := ⟨(s.afterData b).result.seq + 1, .wrongState, 0⟩ }))
    ∧ (k < 32 → (s.link k).isOpen = true → (s.link k).mode ≠ .fallback → s.tracker.state ≠ .locked ∧ s.tracker.state ≠ .holdover →
      exec (.rebuild b) s = .next (passOn b
        { s.afterData b with result := ⟨(s.afterData b).result.seq + 1, .notLocked, 0⟩ }))
    ∧ (k < 32 → (s.link k).isOpen = true → (s.link k).mode ≠ .fallback → s.tracker.state = .locked ∨ s.tracker.state = .holdover →
      ∃ admitted rest queue : List BuildReq,
        (admitted ++ rest).Pairwise (fun x y => x.slice < y.slice)
        ∧ (∀ r, r ∈ admitted ++ rest ↔ ∃ m record seq, r = ⟨k, r.slice, record, seq, .request⟩
          ∧ r.slice < s.shadow.slices ∧ r.slice < 8 ∧ (s.afterData b).arg1.getLsbD r.slice = true
          ∧ (s.link k).summary[r.slice]? = some m ∧ m.last = some (record, seq))
        ∧ admitted.foldlM (fun q r => enqueue r q) s.buildQueue = some queue
        ∧ (∀ r rs, rest = r :: rs → enqueue r queue = none)
        ∧ exec (.rebuild b) s = .next (passOn b
          { s.afterData b with
            buildQueue := queue
            result := ⟨(s.afterData b).result.seq + 1, if rest.isEmpty then .ok else .queueFull,
              BitVec.ofNat 16 admitted.length⟩ }))

/-- The queue's admission: an entry for the same link and slice is replaced in its place; otherwise the request joins the tail of a
queue of fewer than 16; otherwise it is refused. -/
def Obligations.QueueAdmission : Prop :=
  ∀ (r : BuildReq) (q : List BuildReq),
    ((∀ e ∈ q, ¬(e.link = r.link ∧ e.slice = r.slice)) → enqueue r q = if q.length < 16 then some (q ++ [r]) else none)
    ∧ ∀ (before after : List BuildReq) (e : BuildReq), q = before ++ e :: after → e.link = r.link → e.slice = r.slice →
        (∀ x ∈ before ++ after, ¬(x.link = r.link ∧ x.slice = r.slice)) → enqueue r q = some (before ++ r :: after)

/-- CONFIRM and DECLINE of an OPEN link: NOT_OFFERED, then STALE, then for CONFIRM LATE; a refusal changes RESULT alone. The order is that
of R146's checks: a link that gathers answers NOT_OFFERED to an overtaken set's number too, where R140, R148 and R155 say STALE (the model's
choice, log 34). -/
def Obligations.OfferAnswerRefused : Prop :=
  ∀ (s : State) (b : WriteBurst) (code k d : Nat) (r : ResultCode), CommandBurst s b code → s.filter = .operating →
    code = 8 ∨ code = 9 → (s.afterData b).arg0.toNat = k → k < 32 → (s.link k).isOpen = true →
    d = ((s.afterData b).arg2.toNat + 65536 - s.tracker.halfCount.toNat) % 65536 →
    ((s.link k).swState ≠ .offered ∧ r = .notOffered
      ∨ (s.link k).swState = .offered ∧ (s.afterData b).arg1.toNat ≠ (s.link k).pendingSetNo.toNat ∧ r = .stale
      ∨ (s.link k).swState = .offered ∧ (s.afterData b).arg1.toNat = (s.link k).pendingSetNo.toNat ∧ code = 8
        ∧ (65535 < (s.afterData b).arg2.toNat ∨ d = 0 ∨ 200 < d) ∧ r = .late) →
    exec (commandRow code b) s =
      .next (passOn b { s.afterData b with result := ⟨(s.afterData b).result.seq + 1, r, 0⟩ })

/-- CONFIRM of the set on offer with an effective count 1 to 200 starts ahead: the link is CONFIRMED. DECLINE of the set on offer: every
pending entry is absent and the link is STEADY; the set number and STREAK stay; the slots it frees join the Free List in ascending slice
order, and the first of them goes to a job that waits for one. -/
def Obligations.OfferAnswered : Prop :=
  ∀ (s : State) (b : WriteBurst) (k : Nat), s.filter = .operating → (s.afterData b).arg0.toNat = k → k < 32 →
    (s.link k).isOpen = true → (s.link k).swState = .offered → (s.afterData b).arg1.toNat = (s.link k).pendingSetNo.toNat →
    (∀ d, CommandBurst s b 8 → (s.afterData b).arg2.toNat ≤ 65535 →
      d = ((s.afterData b).arg2.toNat + 65536 - s.tracker.halfCount.toNat) % 65536 → 1 ≤ d → d ≤ 200 →
      exec (.confirm b) s = .next (passOn b
        { s.afterData b with
          result := ⟨(s.afterData b).result.seq + 1, .ok, 0⟩
          links := tset s.links k
            { s.link k with
              swState := .confirmed
              effective := (s.afterData b).arg2.setWidth 16
              changes := (s.link k).changes + 1 } }))
    ∧ (CommandBurst s b 9 → ∃ t, exec (.decline b) s = .next t ∧ t.result = ⟨s.result.seq + 1, .ok, 0⟩
      ∧ t.link k =
        { s.link k with
          swState := .steady
          gatherLeft := 0
          offerAge := 0
          effective := 0
          pendingSet := (s.link k).pendingSet.map fun _ => none
          changes := (s.link k).changes + 1 }
      ∧ OtherLinks k s t ∧ SameTracker s t ∧ SameIntake s t ∧ SameApplier s t ∧ SameMemory s t
      ∧ SameNotices (s.afterData b) t ∧ t.filter = s.filter ∧ t.shadow = s.shadow ∧ t.arg0 = (s.afterData b).arg0
      ∧ t.arg1 = (s.afterData b).arg1 ∧ t.arg2 = (s.afterData b).arg2
      ∧ (s.PoolLaws → FreedJoin s t (s.freed ((s.link k).pendingSet.filterMap id))))

/-- Arguments written in full are latched, whatever the filter state; without CMD_CODE in the burst nothing else of the part
changes but what the consumer index in the same burst changes. The data words of every mailbox burst, with CMD_CODE or without, are
taken so before the command of the same burst. -/
def Obligations.ArgumentsLatched : Prop :=
  ∀ (s : State) (b : WriteBurst), MailboxBurst s b →
    (b.fullAt 0x10C = none →
      ∃ t, exec (.cmdArgWrite b) s = .next t ∧ t.arg0 = (b.fullAt 0x109).getD s.arg0 ∧ t.arg1 = (b.fullAt 0x10A).getD s.arg1
        ∧ t.arg2 = (b.fullAt 0x10B).getD s.arg2 ∧ t.result = s.result ∧ t.filter = s.filter ∧ t.shadow = s.shadow
        ∧ SameTracker s t ∧ t.links = s.links ∧ SamePool s t ∧ SameIntake s t ∧ SameApplier s t ∧ SameMemory s t
        ∧ (b.fullAt 0x108 = none → SameNotices s t)
        ∧ (t.path.waiting = some (.write b.base b.words) ∨ t.path.port = some ⟨.processor, .write b.base b.words⟩))
    ∧ ∃ notices : NoticeWriter,
      (b.fullAt 0x108 = none → notices = s.notices)
      ∧ (∀ (x : Word) (d unconsumed : Nat), b.fullAt 0x108 = some x →
        d = (x.toNat + s.shadow.entries - s.notices.consumer) % s.shadow.entries →
        unconsumed = (s.notices.producer + s.shadow.entries - s.notices.consumer) % s.shadow.entries →
        notices =
          if x.toNat < s.shadow.entries ∧ d ≤ unconsumed then
            { s.notices with
              consumer := x.toNat
              urgentCount := s.notices.urgentCount - ((List.range d).filter fun i =>
                tget s.notices.classes .routine ((s.notices.consumer + i) % s.shadow.entries) == .urgent).length
              overflow := false }
          else { s.notices with consumer := s.notices.producer, urgentCount := 0, overflow := false })
      ∧ s.afterData b =
        { s with
          choices := s.choices + 1
          arg0 := (b.fullAt 0x109).getD s.arg0
          arg1 := (b.fullAt 0x10A).getD s.arg1
          arg2 := (b.fullAt 0x10B).getD s.arg2
          notices := notices }

/-- NOTICE_CONSUMER alone: the consumer index moves to the value, or to the producer index where the value names no unconsumed
entry; OVERFLOW is cleared and the URGENT entries consumed leave the count. -/
def Obligations.ConsumerMoves : Prop :=
  ∀ (s : State) (b : WriteBurst) (x : Word) (d unconsumed : Nat), s.accepts = true → b.len = .one → b.base = 0x108 →
    b.fullAt 0x108 = some x →
    d = (x.toNat + s.shadow.entries - s.notices.consumer) % s.shadow.entries →
    unconsumed = (s.notices.producer + s.shadow.entries - s.notices.consumer) % s.shadow.entries →
    exec (.noticeConsumerWrite b) s = .next (passOn b
      { s with
        choices := s.choices + 1
        notices :=
          if x.toNat < s.shadow.entries ∧ d ≤ unconsumed then
            { s.notices with
              consumer := x.toNat
              urgentCount := s.notices.urgentCount - ((List.range d).filter fun i =>
                tget s.notices.classes .routine ((s.notices.consumer + i) % s.shadow.entries) == .urgent).length
              overflow := false }
          else { s.notices with consumer := s.notices.producer, urgentCount := 0, overflow := false } })

/-- A partial write of one mailbox word: nothing is taken; outside TRANSPARENT one GUARD notice, reason PARTIAL, is raised. A longer burst
with a partial write takes its full words too, arguments, consumer index and command, and raises the one GUARD notice of its lowest partial
word, at a free place: before the data words, after them, or after the command (log 12; after a WITHDRAW the part is in TRANSPARENT, and none
is raised). The command's effect is that of the same command in a burst of full words, which the statements of the commands give. -/
def Obligations.MailboxPartial : Prop :=
  ∀ (s : State) (b : WriteBurst), s.accepts = true →
    (∀ (code : Nat) (x : Word), CommandBurst s b code → b.fullAt 0x10C = some x →
      exec (commandRow code b) s = .next (passOn b (takeCommand x (s.afterData b))))
    ∧
    (b.len = .one → 0x108 ≤ b.base → b.base ≤ 0x10C → b.fullAt b.base = none →
      exec (.processorWrite b) s = .next (passOn b
        (if s.filter = .transparent then { s with choices := s.choices + 1 }
        else raise (.guardWrite .anchor (BitVec.ofNat 16 b.base) .partialWrite) { s with choices := s.choices + 1 })))
    ∧ ∀ guard, 0x108 ≤ b.base → b.base < 0x110 → PartialGuard s .anchor b (b.base - 0x100) 8 12 guard →
      (b.fullAt 0x108 = none → b.fullAt 0x10C = none → exec (.processorWrite b) s = .next (passOn b (guard
        { s with
          choices := s.choices + 1
          arg0 := (b.fullAt 0x109).getD s.arg0
          arg1 := (b.fullAt 0x10A).getD s.arg1
          arg2 := (b.fullAt 0x10B).getD s.arg2 })))
      ∧ (b.fullAt 0x10C = none →
        exec (.processorWrite b) s = .next (passOn b ((guard s).afterData b))
          ∨ exec (.processorWrite b) s = .next (passOn b (guard (s.afterData b))))
      ∧ ∀ (x : Word) (t : State), b.fullAt 0x10C = some x → t = takeCommand x (s.afterData b) →
        exec (.processorWrite b) s = .next (passOn b (takeCommand x ((guard s).afterData b)))
          ∨ exec (.processorWrite b) s = .next (passOn b (takeCommand x (guard (s.afterData b))))
          ∨ exec (.processorWrite b) s = .next (passOn b (if t.filter = .transparent then t else guard t))

/-! ### The memory path -/

/-- A configuration write in TRANSPARENT: each enabled byte of each word it covers is written into the shadow, every other byte of
the shadow stays, and the burst passes to memory. -/
def Obligations.ConfigShadowed : Prop :=
  ∀ (s : State) (b : WriteBurst), s.accepts = true → s.filter = .transparent → 0x110 ≤ b.base → b.base < 0x130 →
    ∃ c : Shadow, exec (.configWrite b) s = .next (passOn b { s with shadow := c })
      ∧ ∀ a i, 16 ≤ a → a < 48 → i < 4 →
        (c.word a).extractLsb' (8 * i) 8 =
          match b.beatAt (0x100 + a) with
          | some x => if x.be.getLsbD i = true then x.data.extractLsb' (8 * i) 8 else (s.shadow.word a).extractLsb' (8 * i) 8
          | none => (s.shadow.word a).extractLsb' (8 * i) 8

/-- A write to a protected window or word reaches neither memory nor the part: it completes in the event of its arrival (the model's
reading, log 8), and outside TRANSPARENT it raises one GUARD notice, reason PROTECTED, with the window and the low 16 bits of the
burst's start address. -/
def Obligations.DiscardedWrite : Prop :=
  ∀ (s : State) (b : WriteBurst) (g : GuardWindow), s.accepts = true →
    ((∃ n, s.place b.base = .anchor n ∧ (n < 8 ∨ 16 ≤ n ∧ n < 48 ∧ s.filter ≠ .transparent)) ∧ g = .anchor
      ∨ (∃ k x o, s.place b.base = .aliasWin k x o) ∧ g = .aliasWin
      ∨ (∃ k w, s.place b.base = .view k w) ∧ g = .view
      ∨ (∃ n w, s.place b.base = .pool n w) ∧ g = .pool
      ∨ (∃ e w, s.place b.base = .noticeRing e w) ∧ g = .noticeRing) →
    (s.filter = .transparent → exec (.discardedWrite b) s =
      .next (settle { s with path := { s.path with completions := [.wrote] } }))
    ∧ (s.filter ≠ .transparent → exec (.discardedWrite b) s =
      .next (settle { raise (.guardWrite g (BitVec.ofNat 16 b.base) .protect) s with
        path := { s.path with completions := [.wrote] } }))

/-- A burst is aligned to its own length, and its words are its beats in ascending order (log 6 for a burst of fewer beats). Where an
address lies is spelled over the window bases and sizes, for every filter state. What passes: a write outside all windows, in
Anchor words 48 to 63 or in the Transmit Ring's padding, and a read of everything but the live words, the Link View and the Alias window,
wait for the memory-side port unchanged. -/
def Obligations.TrafficPasses : Prop :=
  (∀ b : WriteBurst, WriteSpelled b) ∧ (∀ r : ReadBurst, BlockOf r.addr r.len r.base)
  ∧ (∀ (s : State) (a : Nat), PlaceSpelled s a)
  ∧ ∀ s : State, s.accepts = true →
    (∀ b : WriteBurst,
      (s.place b.base = .outside ∨ (∃ n, s.place b.base = .anchor n ∧ 48 ≤ n)
        ∨ ∃ i w, s.place b.base = .transmit i w ∧ s.shadow.descriptors ≤ i) →
      exec (.processorWrite b) s = .next (passOn b s))
    ∧ ∀ r : ReadBurst,
      (s.place r.base = .outside ∨ (∃ n, s.place r.base = .anchor n ∧ 8 ≤ n) ∨ (∃ n w, s.place r.base = .pool n w)
        ∨ (∃ e w, s.place r.base = .estimate e w) ∨ (∃ i w, s.place r.base = .transmit i w)
        ∨ ∃ e w, s.place r.base = .noticeRing e w) →
      exec (.processorRead r) s =
        .next (settle { s with path := { s.path with waiting := some (.read r.base r.len.words) } })

/-- What the part answers, in the event of the read's arrival (the model's reading, log 8): the live words and the Link View as they
stand then, without the memory-side port, each word bit by bit (12.2, 12.3). A FREE record reads 0, and in TRANSPARENT every item
of FILTER_STATUS but the filter state. -/
def Obligations.ReadsAnswered : Prop :=
  ∀ (s : State) (r : ReadBurst), s.accepts = true →
    (∀ n, s.place r.base = .anchor n → n < 8 →
      exec (.processorRead r) s = .next (settle { s with path := { s.path with
        completions := [.data ((List.range r.len.words).map fun i => s.liveWord (n + i))] } }))
    ∧ (∀ k w, s.place r.base = .view k w →
      exec (.processorRead r) s = .next (settle { s with path := { s.path with
        completions := [.data ((List.range r.len.words).map fun i => s.viewWord k (w + i))] } }))
    ∧ s.liveWord 0 = 0x0B520320#32 ∧ s.liveWord 1 = 0x62022001#32
    ∧ (s.filter = .transparent → s.liveWord 2 = 0)
    ∧ (s.filter ≠ .transparent → s.liveWord 2 =
      0#1 ++ BitVec.ofBool s.noteIrq ++ BitVec.ofBool (decide (0 < s.notices.urgentCount)) ++ BitVec.ofBool s.notices.overflow ++ 0#1
        ++ (match s.engine.job with
          | none => 0#3
          | some j =>
            match j.stage with
            | .load => 1#3
            | .matching => 2#3
            | .allocate => 3#3
            | .write => 4#3)
        ++ 0#3 ++ BitVec.ofNat 5 s.buildQueue.length ++ 0#1 ++ BitVec.ofNat 7 s.pool.freeList.length ++ 0#6
        ++ (if s.filter = .applying then 1#2 else 2#2))
    ∧ s.liveWord 3 = s.result.seq ++ BitVec.ofNat 8 s.result.code.code ++ s.result.value
    ∧ ([.noCommand, .ok, .badCode, .wrongState, .busy, .badConfig, .badLink, .badNode, .dupNode, .tableFull, .notLocked,
      .notOffered, .stale, .late, .queueFull] : List ResultCode).map ResultCode.code = List.range 15
    ∧ s.liveWord 4 =
      0#11 ++ (if s.tracker.state = .holdover then BitVec.ofNat 5 s.tracker.missCount else 0#5) ++ s.tracker.epoch
        ++ BitVec.ofNat 4 (s.tracker.slice.getD 15) ++ 0#2
        ++ (match s.tracker.state with
          | .idle => 0#2
          | .search => 1#2
          | .locked => 2#2
          | .holdover => 3#2)
    ∧ s.liveWord 5 =
      (if s.tracker.state = .locked ∨ s.tracker.state = .holdover then BitVec.ofNat 16 (s.tick - s.tracker.lastStart) else 0#16)
        ++ s.tracker.halfCount
    ∧ s.liveWord 6 = 0#8 ++ s.tracker.strayCount ++ BitVec.ofNat 16 s.tracker.period
    ∧ s.liveWord 7 = 0#24 ++ BitVec.ofNat 8 s.notices.producer
    ∧ (∀ k w, (s.link k).isOpen = false → s.viewWord k w = 0)
    ∧ ∀ (k : Nat) (L : Link) (entry : Option Nat → Word), L = s.link k → L.isOpen = true → k < 32 →
      (∀ n, entry (some n) = 1#1 ++ 0#15 ++ (s.slot n).issue ++ BitVec.ofNat 8 n) → entry none = 0 →
      s.viewWord k 0 =
        L.changes
          ++ (match L.swState with
            | .steady => 0#4
            | .gathering => 1#4
            | .offered => 2#4
            | .confirmed => 3#4)
          ++ (match L.mode with
            | .adaptive => 0#4
            | .hold => 1#4
            | .fallback => 2#4)
          ++ 1#8
      ∧ s.viewWord k 1 = L.lastIssued ++ L.activeSet ++ BitVec.ofNat 8 L.streak ++ L.node
      ∧ s.viewWord k 2 = BitVec.ofNat 16 L.offerAge ++ BitVec.ofNat 8 L.gatherLeft ++ L.pendingSetNo
      ∧ (∃ pending next, MaskOf L.pendingSet pending ∧ MaskOf L.nextSet next
        ∧ s.viewWord k 3 = next ++ pending ++ L.effective)
      ∧ (L.latch = none → s.viewWord k 4 = 0)
      ∧ (∀ l, L.latch = some l →
        s.viewWord k 4 = 1#1 ++ 0#11 ++ BitVec.ofNat 4 l.selector ++ (s.slot l.slot).issue ++ BitVec.ofNat 8 l.slot)
      ∧ s.viewWord k 5 = 0#16 ++ BitVec.ofNat 8 s.shadow.slices ++ BitVec.ofNat 8 k
      ∧ (∀ i, i < 8 → s.viewWord k (8 + i) = entry L.cells[i]? ∧ s.viewWord k (16 + i) = entry (L.pendingSet.getD i none)
        ∧ s.viewWord k (24 + i) = entry (L.nextSet.getD i none))
      ∧ (∀ i m, i < 8 → L.summary[i]? = some m →
        s.viewWord k (32 + 2 * i) =
          BitVec.ofBool m.last.isSome ++ BitVec.ofBool m.buildMean.isSome ++ 0#1
            ++ BitVec.ofNat 5 (match m.last with
              | some p => p.1
              | none => 0)
            ++ m.buildMean.getD 0 ++ m.lastMean ++ m.arrivals
        ∧ s.viewWord k (33 + 2 * i) =
          m.lastErr
            ++ (match m.last with
              | some p => p.2
              | none => 0#16))
      ∧ (∀ i, i < 8 → L.summary[i]? = none → s.viewWord k (32 + 2 * i) = 0 ∧ s.viewWord k (33 + 2 * i) = 0)
      ∧ s.viewWord k 63 = 0#16 ++ L.changes
      ∧ ∀ w, w = 6 ∨ w = 7 ∨ 48 ≤ w ∧ w ≤ 62 → s.viewWord k w = 0

/-- The processor-side port accepts a transaction while RESET_N is not asserted and none of the processor's waits for the memory-side port
or holds it. A burst's end is taken by the row of its use alone, and leaves in memory the enabled bytes of its words and nothing else; the
processor is handed a read's words or a write's completion. A transaction that meets a port that still holds one is presented there, and no
second (the model's reading, log 7); as the one before it completes it arrives, before the arbiter decides. -/
def Obligations.BurstCompletes : Prop :=
  ∀ s : State,
    (s.accepts = true ↔ s.inReset = false ∧ s.path.waiting = none ∧ ∀ m, s.path.port ≠ some ⟨.processor, m⟩)
    ∧ (∀ u, s.portIs u = true ↔ ∃ m, s.path.port = some ⟨u, m⟩)
    ∧ (s.inReset = false → s.accepts = false → ∀ x : Transaction,
      (s.path.presented = none → exec x.row s = .next { s with path := { s.path with presented := some x } })
      ∧ (s.path.presented ≠ none → exec x.row s = .next s))
    ∧ ∀ u : PortUse,
    (s.portIs u = false → exec (doneRow u) s = .next s)
    ∧ ∀ m, OnPort s u m →
      (∃ t, exec (doneRow u) s = .next t ∧ t.memory = m.applyTo s.memory
        ∧ (∀ a n, m = .read a n → t.memory = s.memory)
        ∧ (Memory.wf s.memory = true → ∀ a beats, m = .write a beats →
          (∀ k, (∀ p, p < beats.length → ∀ i, i < 4 → byteKey (a + p) i ≠ k) → readByte t.memory k = readByte s.memory k)
          ∧ (beats.length ≤ 8 → ∀ p x i, beats[p]? = some x → i < 4 → readByte t.memory (byteKey (a + p) i) =
            if x.be.getLsbD i = true then x.data.extractLsb' (8 * i) 8 else readByte s.memory (byteKey (a + p) i))))
      ∧ (u = .processor → ∀ c, c = (match m with
          | .read a n => Completion.data ((List.range n).map fun i => readWord s.memory (a + i))
          | .write _ _ => .wrote) →
        (s.path.presented = none ∨ s.path.waiting ≠ none → exec .processorBurstDone s = .next (settle
          { s with
            memory := m.applyTo s.memory
            path := { s.path with port := none, completions := [c] } }))
        ∧ ∀ x, s.path.presented = some x → s.path.waiting = none →
          ∃ v, exec x.row
            { s with
              memory := m.applyTo s.memory
              path := { s.path with port := none, presented := none, completions := [] } } = .next v
            ∧ exec .processorBurstDone s = .next { v with path := { v.path with completions := c :: v.path.completions } })

/-- The arbiter decides once NOTE_IRQ is at its level, a waiting notice's burst is formed, and WAIT is 0 if no client has a burst ready;
nothing else is changed before it (at the end of every event: the model's reading, log 18, 20). A held port stays; at WAIT = H the Internal
Requester is granted; else a waiting processor transaction is, and WAIT rises if the Internal Requester waits; else the Internal Requester
is. Its grant issues the Notice Writer's burst, else the Apply Reader's or Base Writer's, else the Loading Engine's, and WAIT becomes 0. -/
def Obligations.ArbiterGrants : Prop :=
  ∀ s u : State, u = clearWait (formNotice (decideIrq s)) →
    u =
      { s with
        noteIrq := u.noteIrq
        notices := { s.notices with ready := u.notices.ready }
        path := { s.path with wait := if u.requesterWaits then s.path.wait else 0 } }
    ∧ (u.requesterWaits = true ↔ u.notices.ready ≠ none ∨ s.applier.ready ≠ none ∨ s.engine.ready ≠ none)
    ∧ u.IrqOk
    ∧ (∀ p, s.notices.ready = some p → u.notices.ready = some p)
    ∧ (s.notices.ready = none → s.notices.staging = [] ∨ s.portIs .notice = true → u.notices.ready = none)
    ∧ (∀ x rest, s.notices.ready = none → s.notices.staging = x :: rest → s.portIs .notice = false →
      u.notices.ready = some ⟨.notice, .write (s.shadow.noteBase + s.notices.producer * 4)
        [⟨x.word0, 15⟩, ⟨x.word1, 15⟩, ⟨x.body.word2, 15⟩, ⟨x.body.word3, 15⟩]⟩)
    ∧ (u.path.port.isSome = true → settle s = u)
    ∧ (∀ t, u.path.port = none → u.path.waiting = some t → ¬(u.requesterWaits = true ∧ u.path.wait = u.shadow.holdOff) →
      settle s = { u with path := { u.path with
        port := some ⟨.processor, t⟩
        waiting := none
        wait := if u.requesterWaits then u.path.wait + 1 else 0 } })
    ∧ (∀ p, u.path.port = none →
      (u.path.waiting = none ∨ u.path.wait = u.shadow.holdOff) →
      (u.notices.ready = some p → settle s =
        { u with notices := { u.notices with ready := none }, path := { u.path with port := some p, wait := 0 } })
      ∧ (u.notices.ready = none → u.applier.ready = some p → settle s =
        { u with applier := { u.applier with ready := none }, path := { u.path with port := some p, wait := 0 } })
      ∧ (u.notices.ready = none → u.applier.ready = none → u.engine.ready = some p → settle s =
        { u with engine := { u.engine with ready := none }, path := { u.path with port := some p, wait := 0 } }))
    ∧ (u.path.waiting = none → u.requesterWaits = false → settle s = u)

/-! ### The Mains Tracker -/

/-- ZC_IN is sampled once in a tick, and a sample that does not differ from the one before it is no edge. In SEARCH: the first edge becomes
the reference, an edge within BLANK of the reference is ignored, and any other ends an interval that updates the run; the L-th conforming
interval acquires lock, and the start of count 0 reaches the links: those that only count at it do so at once, and those that do more owe
their acts, so that staging takes the tracker's notice alone (the model's order, log 10, 13). -/
def Obligations.SearchEdges : Prop :=
  (∀ (s : State) (level : Bool), s.inReset = false →
    (s.zcSampledAt = some s.tick → exec (.zcEdge level) s = .next s)
    ∧ (s.zcSampledAt ≠ some s.tick → s.zcLevel ≠ some (!level) → exec (.zcEdge level) s = .next (s.sampled level)))
  ∧ ∀ (s : State) (level : Bool), EdgeNow s level → s.tracker.state = .search →
    (s.tracker.refEdge = none → exec (.zcEdge level) s = .next (settle
      { s.sampled level with tracker := { s.tracker with refEdge := some s.tick } }))
    ∧ (∀ r, s.tracker.refEdge = some r → s.tick - r ≤ s.shadow.blank →
      exec (.zcEdge level) s = .next (settle (s.sampled level)))
    ∧ ∀ (r len : Nat) (run : Run), s.tracker.refEdge = some r → s.shadow.blank < s.tick - r → len = min (s.tick - r) 65535 →
      (run = if len < 7500 ∨ 11000 < len then Run.empty
        else if s.tracker.run.count = 0 then ⟨1, len, len⟩
        else if len ≤ s.tracker.run.last + s.shadow.tolerance ∧ s.tracker.run.last ≤ len + s.shadow.tolerance then
          ⟨s.tracker.run.count + 1, len, s.tracker.run.sum + len⟩
        else ⟨1, len, len⟩) →
      (run.count ≠ s.shadow.lockRun → exec (.zcEdge level) s = .next (settle
        { s.sampled level with tracker := { s.tracker with refEdge := some s.tick, run := run } }))
      ∧ (run.count = s.shadow.lockRun → ∃ t, exec (.zcEdge level) s = .next t
        ∧ t.tracker =
          { s.tracker with
            state := .locked
            refEdge := none
            run := Run.empty
            lastStart := s.tick
            period := run.sum / s.shadow.lockRun
            boundaries := boundariesOf (run.sum / s.shadow.lockRun) s.shadow.slices
            slice := some 0
            halfCount := 0
            epoch := s.tracker.epoch + 1
            missCount := 0 }
        ∧ t.notices.staging =
          (raise (.trackLocked .acquired (run.sum / s.shadow.lockRun) 0) { s with tracker := t.tracker }).notices.staging
        ∧ StartReaches s t 0
        ∧ SameMailbox s t ∧ SamePool s t ∧ SameIntake s t ∧ SameApplier s t ∧ SameMemory s t)

/-- In LOCKED and HOLDOVER, the window not yet missed: an edge within BLANK of the last start is ignored; an edge before the window is a
stray; any other is accepted, moves PERIOD_EST by an eighth, and begins a half-cycle at its own tick, with TRACK_LOCKED RESUMED from
HOLDOVER. The start reaches the links: those that only count at it do so at once, and those that do more owe their acts, which are events of
their own, so that staging takes the tracker's notice alone, before theirs (the model's order, log 10, 13). An edge after the window is an
edge of the half-cycle that the miss begins, in one event with the miss where no step has taken it yet (the model's, log 4): blanked, stray
or accepted there; or, where the miss reaches M, the reference edge of SEARCH. -/
def Obligations.LockedEdges : Prop :=
  (∀ (s : State) (level : Bool) (predicted measured : Nat), EdgeNow s level →
    s.tracker.state = .locked ∨ s.tracker.state = .holdover →
    predicted = s.tracker.lastStart + s.tracker.period → s.tick ≤ predicted + s.shadow.tolerance →
    measured = s.tick - s.tracker.lastStart →
    (measured ≤ s.shadow.blank → exec (.zcEdge level) s = .next (settle (s.sampled level)))
    ∧ (s.shadow.blank < measured → s.tick + s.shadow.tolerance < predicted → exec (.zcEdge level) s = .next (settle
      { s.sampled level with tracker := { s.tracker with
          strayCount := if s.tracker.strayCount = 255 then 255 else s.tracker.strayCount + 1 } }))
    ∧ ∀ period, s.shadow.blank < measured → predicted ≤ s.tick + s.shadow.tolerance →
      period = min (max (if s.tracker.period ≤ measured then s.tracker.period + (measured - s.tracker.period) / 8
        else s.tracker.period - (s.tracker.period - measured) / 8) 7500) 11000 →
      ∃ t, exec (.zcEdge level) s = .next t
        ∧ t.tracker =
          { s.tracker with
            state := .locked
            lastStart := s.tick
            period := period
            boundaries := boundariesOf period s.shadow.slices
            slice := some 0
            halfCount := s.tracker.halfCount + 1
            missCount := 0 }
        ∧ t.notices.staging = (if s.tracker.state = .holdover then
            (raise (.trackLocked .resumed period s.tracker.missCount) { s with tracker := t.tracker }).notices.staging
          else s.notices.staging)
        ∧ StartReaches s t (s.tracker.halfCount + 1)
        ∧ SameMailbox s t ∧ SamePool s t ∧ SameIntake s t ∧ SameApplier s t ∧ SameMemory s t)
  ∧ ∀ (s : State) (level : Bool) (predicted measured misses : Nat), EdgeNow s level →
    s.tracker.state = .locked ∨ s.tracker.state = .holdover →
    predicted = s.tracker.lastStart + s.tracker.period → predicted + s.shadow.tolerance < s.tick → measured = s.tick - predicted →
    misses = (if s.tracker.state = .locked then 1 else s.tracker.missCount + 1) →
    (s.shadow.missLimit ≤ misses → ∃ t, exec (.zcEdge level) s = .next t
      ∧ t.tracker =
        { s.tracker with state := .search, refEdge := some s.tick, run := Run.empty, slice := none, missCount := 0 }
      ∧ LossReaches s t ∧ t.tick = s.tick ∧ t.zcLevel = some level ∧ t.zcSampledAt = some s.tick)
    ∧ ∀ T : Tracker, misses < s.shadow.missLimit →
      T =
        { s.tracker with
          state := .holdover
          lastStart := predicted
          boundaries := boundariesOf s.tracker.period s.shadow.slices
          slice := some 0
          halfCount := s.tracker.halfCount + 1
          missCount := misses } →
      ∃ t, exec (.zcEdge level) s = .next t
        ∧ (measured ≤ s.shadow.blank → t.tracker = T)
        ∧ (s.shadow.blank < measured → s.tick + s.shadow.tolerance < predicted + s.tracker.period →
          t.tracker = { T with strayCount := if s.tracker.strayCount = 255 then 255 else s.tracker.strayCount + 1 })
        ∧ (measured ≤ s.shadow.blank ∨ s.tick + s.shadow.tolerance < predicted + s.tracker.period →
          t.notices.staging = (if s.tracker.state = .locked then
              (raise (.trackHoldover s.tracker.period s.tracker.strayCount) { s with tracker := T }).notices.staging
            else s.notices.staging)
          ∧ StartReaches s t (s.tracker.halfCount + 1))
        ∧ (∀ period, s.shadow.blank < measured → predicted + s.tracker.period ≤ s.tick + s.shadow.tolerance →
          period = min (max (if s.tracker.period ≤ measured then s.tracker.period + (measured - s.tracker.period) / 8
            else s.tracker.period - (s.tracker.period - measured) / 8) 7500) 11000 →
          t.tracker =
            { T with
              state := .locked
              lastStart := s.tick
              period := period
              boundaries := boundariesOf period s.shadow.slices
              halfCount := T.halfCount + 1
              missCount := 0 }
          ∧ t.notices.staging = (raise (.trackLocked .resumed period misses)
            { (if s.tracker.state = .locked then
                raise (.trackHoldover s.tracker.period s.tracker.strayCount) { s with tracker := T }
              else s) with tracker := t.tracker }).notices.staging)
        ∧ t.tick = s.tick ∧ t.zcLevel = some level ∧ t.zcSampledAt = some s.tick
        ∧ SameMailbox s t ∧ SamePool s t ∧ SameIntake s t ∧ SameApplier s t ∧ SameMemory s t

/-- A missed window that does not reach M synthesizes a start at the predicted start. The start reaches every OPEN link by its switch
state: a link that only counts at it does so at once, and a link that does more owes its act (the model's order, log 10). -/
def Obligations.WindowMissed : Prop :=
  ∀ (s : State) (misses predicted : Nat), s.inReset = false → s.tracker.state = .locked ∨ s.tracker.state = .holdover →
    predicted = s.tracker.lastStart + s.tracker.period → predicted + s.shadow.tolerance < s.tick →
    misses = (if s.tracker.state = .locked then 1 else s.tracker.missCount + 1) → misses < s.shadow.missLimit →
    ∃ t, exec .captureWindowMiss s = .next t
      ∧ t.tracker =
        { s.tracker with
          state := .holdover
          lastStart := predicted
          boundaries := boundariesOf s.tracker.period s.shadow.slices
          slice := some 0
          halfCount := s.tracker.halfCount + 1
          missCount := misses }
      ∧ t.notices.staging = (if s.tracker.state = .locked then
          (raise (.trackHoldover s.tracker.period s.tracker.strayCount) { s with tracker := t.tracker }).notices.staging
        else s.notices.staging)
      ∧ (∀ k, (s.link k).isOpen = true →
        ((s.link k).swState = .gathering → 2 ≤ (s.link k).gatherLeft → none ∈ (s.link k).pendingSet →
          t.link k = { s.link k with
            gatherLeft := (s.link k).gatherLeft - 1, changes := (s.link k).changes + 1 } ∧ k ∉ t.owed)
        ∧ ((s.link k).swState = .gathering → ((s.link k).gatherLeft ≤ 1 ∨ none ∉ (s.link k).pendingSet) →
          t.link k = s.link k ∧ k ∈ t.owed)
        ∧ ((s.link k).swState = .offered → (s.link k).offerAge + 1 < s.shadow.offerLife →
          t.link k = { s.link k with
            offerAge := (s.link k).offerAge + 1, changes := (s.link k).changes + 1 } ∧ k ∉ t.owed)
        ∧ ((s.link k).swState = .offered → s.shadow.offerLife ≤ (s.link k).offerAge + 1 →
          t.link k = s.link k ∧ k ∈ t.owed)
        ∧ ((s.link k).swState = .confirmed →
          t.link k = s.link k ∧ (k ∈ t.owed ↔ (s.link k).effective = s.tracker.halfCount + 1))
        ∧ ((s.link k).swState = .steady → t.link k = s.link k ∧ k ∉ t.owed))
      ∧ SameMailbox s t ∧ SamePool s t ∧ SameIntake s t ∧ SameApplier s t ∧ SameMemory s t

/-- The miss that reaches M: TRACK_LOST, SEARCH, the Build Queue emptied, the job cancelled, every latch released and every OPEN link
swept to the Base Map. Descriptor pins stay. -/
def Obligations.LockLost : Prop :=
  ∀ s : State, s.inReset = false → s.tracker.state = .locked ∨ s.tracker.state = .holdover →
    s.tracker.lastStart + s.tracker.period + s.shadow.tolerance < s.tick →
    s.shadow.missLimit ≤ (if s.tracker.state = .locked then 1 else s.tracker.missCount + 1) →
    ∃ t, exec .captureWindowMiss s = .next t
      ∧ t.tracker =
        { s.tracker with state := .search, refEdge := none, run := Run.empty, slice := none, missCount := 0 }
      ∧ LossReaches s t

/-- Boundary k lies at k × PERIOD_EST / S after the start, and from its tick the current slice is k; nothing else changes. -/
def Obligations.BoundaryPasses : Prop :=
  (∀ period slices k, 1 ≤ k → k < slices → (boundariesOf period slices)[k - 1]? = some (k * period / slices))
  ∧ ∀ (s : State) (c offset : Nat), s.inReset = false → s.tracker.state = .locked ∨ s.tracker.state = .holdover →
    s.tracker.slice = some c → s.tracker.boundaries[c]? = some offset →
    (s.tracker.lastStart + offset ≤ s.tick →
      exec .sliceBoundary s = .next { s with tracker := { s.tracker with slice := some (c + 1) } })
    ∧ (s.tick < s.tracker.lastStart + offset → exec .sliceBoundary s = .next s)

/-! ### Estimate Intake -/

/-- Record words 1 to 6 written in full replace the same words of the header shadow, in every burst, with a commit word or without; and
without one and with no job on the record nothing else of the part changes, but for the one GUARD notice of the lowest partial write
of words 0 to 6, if the burst carries one. -/
def Obligations.HeaderWordsShadowed : Prop :=
  ∀ (s : State) (b : WriteBurst) (r w : Nat), s.accepts = true → s.place b.base = .estimate r w → r < 32 →
    ∃ h : HeaderShadow,
      h.node = (b.fullAt (s.shadow.recordWord r 1)).getD (s.headerOf r).node
      ∧ h.sliceEpoch = (b.fullAt (s.shadow.recordWord r 2)).getD (s.headerOf r).sliceEpoch
      ∧ h.measCount = (b.fullAt (s.shadow.recordWord r 3)).getD (s.headerOf r).measCount
      ∧ h.meanSnr = (b.fullAt (s.shadow.recordWord r 4)).getD (s.headerOf r).meanSnr
      ∧ h.errCount = (b.fullAt (s.shadow.recordWord r 5)).getD (s.headerOf r).errCount
      ∧ h.carriers = (b.fullAt (s.shadow.recordWord r 6)).getD (s.headerOf r).carriers
      ∧ s.afterHeaders b r w = { s with choices := s.choices + 1, headers := tset s.headers r h }
      ∧ ∀ guard, PartialGuard s .estimate b w 0 6 guard → commitWord b w = none →
        (∀ j, s.engine.job = some j → j.record ≠ r) →
        exec (.estimateHeaderWrite b) s = .next (passOn b
            (guard { s with choices := s.choices + 1, headers := tset s.headers r h }))
          ∧ exec (.processorWrite b) s = .next (passOn b
            (guard { s with choices := s.choices + 1, headers := tset s.headers r h }))

/-- A write into the record under the job, whatever its byte enables and words, ends the job OVERRUN: its slot becomes FREE at the
Free List's tail with its issue kept, and BUILD_FAILED is raised. A burst without a full commit word of VALID 1 is no arrival: its full
header words are shadowed, it passes as written, the job's burst on the port is left to complete for no client, a partial write of words 0
to 6 raises its GUARD notice too, before or after BUILD_FAILED (log 12), and nothing else changes. Of a burst that is an arrival too,
EstimateIgnored and EstimateTaken say the rest. -/
def Obligations.RecordOverrun : Prop :=
  ∀ (s u : State) (b : WriteBurst) (r w : Nat) (j : Job) (row : Instr) (h : HeaderShadow) (guard report : State → State),
    s.accepts = true → s.place b.base = .estimate r w → PartialGuard s .estimate b w 0 6 guard → s.engine.job = some j →
    j.record = r → OverrunReport s r report →
    h =
      { node := (b.fullAt (s.shadow.estBase + r * 512 + 1)).getD (s.headerOf r).node
        sliceEpoch := (b.fullAt (s.shadow.estBase + r * 512 + 2)).getD (s.headerOf r).sliceEpoch
        measCount := (b.fullAt (s.shadow.estBase + r * 512 + 3)).getD (s.headerOf r).measCount
        meanSnr := (b.fullAt (s.shadow.estBase + r * 512 + 4)).getD (s.headerOf r).meanSnr
        errCount := (b.fullAt (s.shadow.estBase + r * 512 + 5)).getD (s.headerOf r).errCount
        carriers := (b.fullAt (s.shadow.estBase + r * 512 + 6)).getD (s.headerOf r).carriers } →
    u = { s with choices := s.choices + 1, headers := tset s.headers r h } →
    row = .processorWrite b ∨ row = .estimateHeaderWrite b ∨ row = .estimateArrival b →
    (w ≠ 0 ∨ b.fullAt b.base = none ∨ (∃ x, b.fullAt b.base = some x ∧ x.getLsbD 31 = false) →
      exec row s = .next (passOn b (report (guard u))) ∨ exec row s = .next (passOn b (guard (report u))))
    ∧ ∃ t, exec row s = .next t ∧ t.engine.job = none ∧ t.engine.ready = none
      ∧ (j.slot = none → t.pool = s.pool)
      ∧ (∀ n, j.slot = some n → t.pool =
        { slots := tset s.pool.slots n { s.slot n with state := .free }, freeList := s.pool.freeList ++ [n] })
      ∧ t.headers = u.headers ∧ t.pinTable = s.pinTable
      ∧ SameTracker s t ∧ SameMailbox s t ∧ SameApplier s t ∧ SameMemory s t

/-- An arrival that fails a check raises ESTIMATE_IGNORED with the first failing check's reason, and the link where check 3 passed;
nothing else of the part changes, but for the GUARD notice of a partial write in the same burst, and, where a job is on the record, for the
overrun that the same burst reports: the three in any order (log 12). -/
def Obligations.EstimateIgnored : Prop :=
  ∀ (s u : State) (b : WriteBurst) (r : Nat) (x : Word) (h : HeaderShadow) (why : IgnoreReason) (link : Option Nat)
    (guard report ignored : State → State),
    s.accepts = true → s.place b.base = .estimate r 0 → PartialGuard s .estimate b 0 0 6 guard → b.fullAt b.base = some x →
    x.getLsbD 31 = true → OverrunReport s r report →
    u = s.afterHeaders b r 0 → h = u.headerOf r →
    (s.tracker.state ≠ .locked ∧ s.tracker.state ≠ .holdover ∧ why = .notLocked ∧ link = none
      ∨ (s.tracker.state = .locked ∨ s.tracker.state = .holdover)
        ∧ (h.sliceEpoch.extractLsb' 8 8 ≠ s.tracker.epoch ∧ why = .staleEpoch ∧ link = none
          ∨ h.sliceEpoch.extractLsb' 8 8 = s.tracker.epoch
            ∧ ((∀ k, (s.link k).isOpen = true → (s.link k).node ≠ h.node.extractLsb' 0 8) ∧ why = .unknownNode ∧ link = none
              ∨ ∃ k, link = some k ∧ (s.link k).isOpen = true ∧ (s.link k).node = h.node.extractLsb' 0 8
                ∧ (∀ i, (s.link i).isOpen = true → (s.link i).node = h.node.extractLsb' 0 8 → i = k)
                ∧ (s.shadow.slices ≤ h.sliceEpoch.toNat % 256 ∧ why = .badSlice
                  ∨ h.sliceEpoch.toNat % 256 < s.shadow.slices ∧ h.carriers.toNat % 65536 ≠ s.shadow.carriers
                    ∧ why = .badSize)))) →
    ignored = raise (.estimateIgnored link r why (x.extractLsb' 0 16) (h.node.extractLsb' 0 8) (h.measCount.extractLsb' 0 16)) →
    ∃ order : List (State → State), order.Perm [guard, report, ignored]
      ∧ exec (.estimateArrival b) s = .next (passOn b (order.foldl (fun v act => act v) u))

/-- A valid arrival updates the summary of its slice, CHANGES rising if it changed, and then requests a build where the link is
ADAPTIVE and Unbuilt, Drift or Errors holds (Unbuilt by R108's table after a flip to slot 0 too, the model's choice, log 37). A partial
write in the same burst raises its GUARD notice, and where a job is on the record the same burst reports its overrun, in either order
(log 12). -/
def Obligations.EstimateTaken : Prop :=
  ∀ (s u : State) (b : WriteBurst) (r k i : Nat) (x : Word) (h : HeaderShadow) (m m' : Summary)
    (guard report : State → State),
    s.accepts = true → s.place b.base = .estimate r 0 → PartialGuard s .estimate b 0 0 6 guard → b.fullAt b.base = some x →
    x.getLsbD 31 = true → OverrunReport s r report →
    u = s.afterHeaders b r 0 → h = u.headerOf r → s.tracker.state = .locked ∨ s.tracker.state = .holdover →
    h.sliceEpoch.extractLsb' 8 8 = s.tracker.epoch → (s.link k).isOpen = true →
    (s.link k).node = h.node.extractLsb' 0 8 →
    (∀ j, (s.link j).isOpen = true → (s.link j).node = h.node.extractLsb' 0 8 → j = k) →
    i = h.sliceEpoch.toNat % 256 → i < s.shadow.slices → h.carriers.toNat % 65536 = s.shadow.carriers →
    (s.link k).summary[i]? = some m →
    m' =
      { m with
        arrivals := if m.arrivals = 255 then 255 else m.arrivals + 1
        last := some (r, x.extractLsb' 0 16)
        lastMean := h.meanSnr.extractLsb' 0 8
        lastErr := h.errCount.extractLsb' 0 16 } →
    ∃ (wanted : Bool) (v : State),
      (wanted = true ↔ (s.link k).mode = .adaptive
        ∧ ((s.link k).cells[i]? = some 0 ∧ (s.link k).pendingSet.getD i none = none ∧ (s.link k).nextSet.getD i none = none
          ∨ (∃ mean, m.buildMean = some mean
            ∧ (mean.toNat + s.shadow.drift ≤ m'.lastMean.toNat ∨ m'.lastMean.toNat + s.shadow.drift ≤ mean.toNat))
          ∨ s.shadow.errLimit ≤ m'.lastErr.toNat))
      ∧ v =
        { u with
          links := tset s.links k
            { s.link k with
              summary := (s.link k).summary.set i m'
              changes := if m' = m then (s.link k).changes else (s.link k).changes + 1 }
          buildQueue :=
            if wanted then (enqueue ⟨k, i, r, x.extractLsb' 0 16, .auto⟩ s.buildQueue).getD s.buildQueue
            else s.buildQueue }
      ∧ (exec (.estimateArrival b) s = .next (passOn b (guard (report v)))
        ∨ exec (.estimateArrival b) s = .next (passOn b (report (guard v))))

/-! ### Transmit Ring Watch -/

/-- Descriptor words 1 and 2 written in full are captured as written, in every burst, with a control word or without; and without one
nothing else of the part changes, but for the one GUARD notice of the lowest partial write of words 0 to 2, if the burst carries
one. -/
def Obligations.DescriptorCaptured : Prop :=
  ∀ (s : State) (b : WriteBurst) (i w : Nat) (e : PinEntry), s.accepts = true → s.place b.base = .transmit i w →
    i < s.shadow.descriptors →
    e =
      { s.pinEntry i with
        ref := match b.fullAt (s.shadow.descriptorWord i 1) with
          | some x => some ⟨x.extractLsb' 0 8, x.extractLsb' 8 8⟩
          | none => (s.pinEntry i).ref
        node := match b.fullAt (s.shadow.descriptorWord i 2) with
          | some x => some (x.extractLsb' 0 8)
          | none => (s.pinEntry i).node } →
    s.afterCaptures b i w = { s with choices := s.choices + 1, pinTable := tset s.pinTable i e }
      ∧ ∀ guard, PartialGuard s .transmit b w 0 2 guard → controlWord b w = none →
        exec (.descriptorRefCapture b) s =
            .next (passOn b (guard { s with choices := s.choices + 1, pinTable := tset s.pinTable i e }))
          ∧ exec (.descriptorNodeCapture b) s =
            .next (passOn b (guard { s with choices := s.choices + 1, pinTable := tset s.pinTable i e }))
          ∧ exec (.processorWrite b) s =
            .next (passOn b (guard { s with choices := s.choices + 1, pinTable := tset s.pinTable i e }))

/-- A commit whose reference passes the checks, against the state after the entry's old pin is released: the control word passes as
written, the slot is pinned and the reference is consumed. A partial write in the same burst raises its GUARD notice. -/
def Obligations.CommitAccepted : Prop :=
  ∀ (s u v : State) (b : WriteBurst) (i : Nat) (x : Word) (r : MapRef) (guard : State → State), s.accepts = true →
    s.place b.base = .transmit i 0 → i < s.shadow.descriptors → PartialGuard s .transmit b 0 0 2 guard →
    b.fullAt b.base = some x →
    x.extractLsb' 0 2 = 1 → u = s.afterCaptures b i 0 → v = unpin i u → (u.pinEntry i).ref = some r →
    r.slot.toNat < s.shadow.poolSlots → r.issue = (v.slot r.slot.toNat).issue →
    (r.slot = 0 ∨ ∃ k node, (u.pinEntry i).node = some node ∧ (s.link k).isOpen = true ∧ (s.link k).node = node
      ∧ (∀ j, (s.link j).isOpen = true → (s.link j).node = node → j = k) ∧ r.slot.toNat ∈ (s.link k).cells) →
    exec (.commit b) s = .next (passOn b (guard
      { v with
        pool := { v.pool with
          slots := tset v.pool.slots r.slot.toNat
            { v.slot r.slot.toNat with pins := (v.slot r.slot.toNat).pins + 1 } }
        pinTable := tset v.pinTable i { v.pinEntry i with ref := none, pinned := some r.slot.toNat } }))

/-- A commit that fails a check: the control word that reaches memory has OWNER REJECTED and the first failing check's REASON, every
other bit and word as written; the reference is consumed, no pin is taken, and STALE_REF is raised, before or after the GUARD notice of a
partial write in the same burst, if it carries one (log 12). -/
def Obligations.CommitRejected : Prop :=
  (∀ (x : Word) (c : Nat), c < 16 → (rejectedControl x c).extractLsb' 0 2 = 3 ∧ (rejectedControl x c).extractLsb' 8 4 = BitVec.ofNat 4 c
      ∧ (rejectedControl x c).extractLsb' 2 6 = x.extractLsb' 2 6 ∧ (rejectedControl x c).extractLsb' 12 20 = x.extractLsb' 12 20)
  ∧ ∀ (s u v w : State) (b : WriteBurst) (i : Nat) (x : Word) (why : RejectReason) (link : Option Nat)
    (guard stale : State → State), s.accepts = true →
    s.place b.base = .transmit i 0 → i < s.shadow.descriptors → PartialGuard s .transmit b 0 0 2 guard →
    b.fullAt b.base = some x →
    x.extractLsb' 0 2 = 1 → u = s.afterCaptures b i 0 → v = unpin i u →
    ((u.pinEntry i).ref = none ∧ why = .noRef ∧ link = none
      ∨ ∃ r, (u.pinEntry i).ref = some r
        ∧ (s.shadow.poolSlots ≤ r.slot.toNat ∧ why = .badSlot ∧ link = none
          ∨ r.slot.toNat < s.shadow.poolSlots
            ∧ (r.issue ≠ (v.slot r.slot.toNat).issue ∧ why = .issue ∧ link = none
              ∨ r.issue = (v.slot r.slot.toNat).issue ∧ r.slot ≠ 0
                ∧ ((∀ k, (s.link k).isOpen = true → (u.pinEntry i).node ≠ some (s.link k).node) ∧ why = .unknownNode
                    ∧ link = none
                  ∨ ∃ k node, (u.pinEntry i).node = some node ∧ (s.link k).isOpen = true ∧ (s.link k).node = node
                    ∧ (∀ j, (s.link j).isOpen = true → (s.link j).node = node → j = k)
                    ∧ r.slot.toNat ∉ (s.link k).cells ∧ why = .notInForce ∧ link = some k)))) →
    stale = raise (.staleRef link i why (u.pinEntry i).ref (u.pinEntry i).node) →
    w = { v with pinTable := tset v.pinTable i { v.pinEntry i with ref := none } } →
    exec (.commit b) s = .next (settle (forward
        (.write b.base (b.words.set 0 ⟨rejectedControl x why.code, (b.beat 0).be⟩)) (guard (stale w))))
      ∨ exec (.commit b) s = .next (settle (forward
        (.write b.base (b.words.set 0 ⟨rejectedControl x why.code, (b.beat 0).be⟩)) (stale (guard w))))

/-- DONE, HOST_OWNED and REJECTED pass as written and release the entry's pin: PINS falls by 1, and a RETIRING slot that loses its last
pin becomes FREE at the Free List's tail; a job that waits for a slot then takes the list's head, its first burst of eight loading words
ready. A partial write in the same burst raises its GUARD notice. -/
def Obligations.DescriptorReleased : Prop :=
  ∀ (s u : State) (b : WriteBurst) (i : Nat) (x : Word) (row : Instr) (guard : State → State), s.accepts = true →
    s.place b.base = .transmit i 0 → i < s.shadow.descriptors → PartialGuard s .transmit b 0 0 2 guard →
    b.fullAt b.base = some x →
    (x.extractLsb' 0 2 = 2 ∧ row = .descriptorDone b ∨ x.extractLsb' 0 2 = 0 ∧ row = .descriptorHostOwned b
      ∨ x.extractLsb' 0 2 = 3 ∧ row = .descriptorRejected b) →
    u = s.afterCaptures b i 0 →
    ((u.pinEntry i).pinned = none → exec row s = .next (passOn b (guard u)))
    ∧ ∀ n, (u.pinEntry i).pinned = some n →
      ((s.slot n).state ≠ .retiring ∨ 2 ≤ (s.slot n).pins → exec row s = .next (passOn b (guard
        { u with
          pinTable := tset u.pinTable i { u.pinEntry i with pinned := none }
          pool := { u.pool with slots := tset u.pool.slots n { u.slot n with pins := (u.slot n).pins - 1 } } })))
      ∧ ((s.slot n).state = .retiring → (s.slot n).pins ≤ 1 → s.jobWaits = false → n < 128 → exec row s = .next (passOn b (guard
        { u with
          pinTable := tset u.pinTable i { u.pinEntry i with pinned := none }
          pool :=
            { slots := tset u.pool.slots n { u.slot n with pins := (u.slot n).pins - 1, state := .free }
              freeList := u.pool.freeList ++ [n] } })))
      ∧ ∀ (j : Job) (f : Nat) (rest : List Nat) (slots : Vector SlotRec 128), (s.slot n).state = .retiring → (s.slot n).pins ≤ 1 →
        s.engine.job = some j → j.stage = .allocate → j.slot = none → n < 128 → s.pool.freeList ++ [n] = f :: rest →
        slots = tset u.pool.slots n { u.slot n with pins := (u.slot n).pins - 1, state := .free } →
        exec row s = .next (passOn b (guard
          { u with
            pinTable := tset u.pinTable i { u.pinEntry i with pinned := none }
            pool :=
              { slots := tset slots f
                  { tget slots SlotRec.reset f with
                    state := .building
                    issue := (s.slot f).issue + 1
                    ownerLink := j.link
                    ownerNode := (s.link j.link).node
                    slice := j.slice }
                freeList := rest }
            engine :=
              { s.engine with
                job := some { j with stage := .write, slot := some f, pos := 0 }
                ready := some ⟨.loadingWrite, .write (s.shadow.poolBase + f * 256 + 8)
                  ((List.range 8).map fun c => ⟨bufferWord s.engine.buffer c, 15⟩)⟩ } }))

/-! ### Alias Translation -/

/-- An alias read goes to the latched slot at an offset of 1 or more with the latch's selector; otherwise to the link's cell of the
slice named, or slot 0. At offset 0, for an OPEN link in LOCKED or HOLDOVER, it sets the latch, the new pin before the old one's
release: a RETIRING slot that loses its last pin joins the Free List's tail, and a job that waits for a slot takes the list's head. Any other
read changes nothing of the part. -/
def Obligations.AliasTranslated : Prop :=
  ∀ (s : State) (r : ReadBurst) (k sel off n : Nat) (slice : Option Nat), s.accepts = true →
    s.place r.base = .aliasWin k sel off → slice = (if sel < 8 then some sel else s.tracker.slice) →
    n = (match slice with
      | some i => if (s.link k).isOpen = true ∧ i < s.shadow.slices then (s.link k).cells.getD i 0 else 0
      | none => 0) →
    (∀ l, off ≠ 0 → (s.link k).latch = some l → l.selector = sel →
      exec (.aliasRead r) s =
        .next (settle (forward (.read (s.shadow.poolBase + l.slot * 256 + off) r.len.words) s)))
    ∧ ((off ≠ 0 ∧ (∀ l, (s.link k).latch = some l → l.selector ≠ sel)
        ∨ off = 0 ∧ ((s.link k).isOpen = false ∨ s.tracker.state = .idle ∨ s.tracker.state = .search)) →
      exec (.aliasRead r) s = .next (settle (forward (.read (s.shadow.poolBase + n * 256 + off) r.len.words) s)))
    ∧ (off = 0 → (s.link k).isOpen = true → s.tracker.state = .locked ∨ s.tracker.state = .holdover →
      ((s.link k).latch = none → exec (.aliasRead r) s = .next (settle (forward (.read (s.shadow.poolBase + n * 256) r.len.words)
        { s with
          links := tset s.links k { s.link k with latch := some ⟨sel, n⟩, changes := (s.link k).changes + 1 }
          pool := { s.pool with slots := tset s.pool.slots n { s.slot n with pins := (s.slot n).pins + 1 } } })))
      ∧ (∀ l, (s.link k).latch = some l → l.slot = n →
        exec (.aliasRead r) s = .next (settle (forward (.read (s.shadow.poolBase + n * 256) r.len.words)
          { s with
            links := tset s.links k
              { s.link k with
                latch := some ⟨sel, n⟩
                changes := if l.selector = sel then (s.link k).changes else (s.link k).changes + 1 } })))
      ∧ ∀ (l : Latch) (u : State) (slots : Vector SlotRec 128), (s.link k).latch = some l → l.slot ≠ n →
        u = { s with
          links := tset s.links k { s.link k with latch := some ⟨sel, n⟩, changes := (s.link k).changes + 1 } } →
        slots = tset (tset s.pool.slots n { s.slot n with pins := (s.slot n).pins + 1 }) l.slot
          { s.slot l.slot with pins := (s.slot l.slot).pins - 1 } →
        ((s.slot l.slot).state ≠ .retiring ∨ 2 ≤ (s.slot l.slot).pins → exec (.aliasRead r) s =
          .next (settle (forward (.read (s.shadow.poolBase + n * 256) r.len.words) { u with pool := { s.pool with slots := slots } })))
        ∧ ∀ freed, (s.slot l.slot).state = .retiring → (s.slot l.slot).pins ≤ 1 →
          freed = tset slots l.slot { s.slot l.slot with pins := (s.slot l.slot).pins - 1, state := .free } →
          (s.jobWaits = false → exec (.aliasRead r) s =
            .next (settle (forward (.read (s.shadow.poolBase + n * 256) r.len.words)
              { u with pool := { slots := freed, freeList := s.pool.freeList ++ [l.slot] } })))
          ∧ ∀ (j : Job) (f : Nat) (rest : List Nat), s.engine.job = some j → j.stage = .allocate → j.slot = none →
            s.pool.freeList ++ [l.slot] = f :: rest → exec (.aliasRead r) s =
              .next (settle (forward (.read (s.shadow.poolBase + n * 256) r.len.words)
                { u with
                  pool :=
                    { slots := tset freed f
                        { tget freed SlotRec.reset f with
                          state := .building
                          issue := (s.slot f).issue + 1
                          ownerLink := j.link
                          ownerNode := (s.link j.link).node
                          slice := j.slice }
                      freeList := rest }
                  engine :=
                    { s.engine with
                      job := some { j with stage := .write, slot := some f, pos := 0 }
                      ready := some ⟨.loadingWrite, .write (s.shadow.poolBase + f * 256 + 8)
                        ((List.range 8).map fun c => ⟨bufferWord s.engine.buffer c, 15⟩)⟩ } })))

/-! ### Switchover -/

/-- A link that owes its act at the last start and is GATHERING, its gather window or its empty places at an end, offers its set: it is
OFFERED with its waits at 0, and an OFFER notice carries its node, set number and pending mask. -/
def Obligations.GatherEnds : Prop :=
  ∀ (s : State) (k : Nat), s.inReset = false → k ∈ s.owed → (s.link k).isOpen = true → (s.link k).swState = .gathering →
    ((s.link k).gatherLeft ≤ 1 ∨ none ∉ (s.link k).pendingSet) →
    ∃ mask : BitVec 8, (∀ i, i < 8 → (mask.getLsbD i = true ↔ ∃ n, (s.link k).pendingSet[i]? = some (some n)))
      ∧ exec (.gatherEnd k) s = .next (settle (raise (.offer k (s.link k).node (s.link k).pendingSetNo mask)
        { s with
          owed := s.owed.filter (· != k)
          links := tset s.links k
            { s.link k with
              swState := .offered, gatherLeft := 0, offerAge := 0, effective := 0, changes := (s.link k).changes + 1 } }))

/-- An offer that reaches T_CONF expires: its pending entries are absent, the link is STEADY, STREAK rises and OFFER_EXPIRED is raised. The
expiry that brings STREAK to X brings FALLBACK too: cells at slot 0, pending and next entries absent, latch released, queue entries and job
gone, and LINK_FALLBACK after OFFER_EXPIRED. The slots that the set frees join the Free List in ascending slice order, the first going to a
job that waits for one; with no job waiting, before those that the fallback frees. -/
def Obligations.OfferExpires : Prop :=
  ∀ (s : State) (k : Nat), s.inReset = false → k ∈ s.owed → (s.link k).isOpen = true → (s.link k).swState = .offered →
    s.shadow.offerLife ≤ (s.link k).offerAge + 1 →
    ∃ t mask, exec (.offerExpiry k) s = .next t
      ∧ (∀ i, i < 8 → (BitVec.getLsbD (w := 8) mask i = true ↔ ∃ n, (s.link k).pendingSet[i]? = some (some n)))
      ∧ ((s.link k).streak + 1 ≠ s.shadow.maxExpiries →
        t.link k =
          { s.link k with
            swState := .steady
            gatherLeft := 0
            offerAge := 0
            effective := 0
            streak := (s.link k).streak + 1
            pendingSet := (s.link k).pendingSet.map fun _ => none
            changes := (s.link k).changes + 1 }
        ∧ t.buildQueue = s.buildQueue
        ∧ t.notices.staging =
          (raise (.offerExpired k (s.link k).pendingSetNo mask ((s.link k).streak + 1)) s).notices.staging
        ∧ (s.PoolLaws → s.filter ≠ .transparent → FreedJoin s t (s.freed ((s.link k).pendingSet.filterMap id))))
      ∧ ((s.link k).streak + 1 = s.shadow.maxExpiries →
        t.link k =
          { s.link k with
            mode := .fallback
            swState := .steady
            gatherLeft := 0
            offerAge := 0
            effective := 0
            streak := (s.link k).streak + 1
            cells := (s.link k).cells.map fun _ => 0
            pendingSet := (s.link k).pendingSet.map fun _ => none
            nextSet := (s.link k).nextSet.map fun _ => none
            latch := none
            changes := (s.link k).changes + 1 }
        ∧ t.buildQueue = s.buildQueue.filter (fun q => q.link != k)
        ∧ (∀ j, s.engine.job = some j → j.link = k → t.engine.job = none)
        ∧ t.notices.staging =
          (raise (.linkFallback k (s.link k).node ((s.link k).streak + 1))
            (raise (.offerExpired k (s.link k).pendingSetNo mask ((s.link k).streak + 1)) s)).notices.staging
        ∧ (s.PoolLaws → s.filter ≠ .transparent → s.jobWaits = false →
          ∃ later, t.pool.freeList = s.pool.freeList ++ s.freed ((s.link k).pendingSet.filterMap id) ++ later))
      ∧ OtherLinks k s t ∧ SameTracker s t ∧ SameMailbox s t ∧ SameApplier s t ∧ SameMemory s t
      ∧ t.headers = s.headers ∧ t.pinTable = s.pinTable

/-- A CONFIRMED link flips at the start whose count equals EFFECTIVE: each present pending entry goes into its cell, ACTIVE_SET and STREAK
are set, the pending entries are absent, and SWITCHED is raised. Without next entries the link is STEADY; otherwise they become the pending
set under the next number, which gathers or is offered at once. The slots that the cells leave and nothing else holds join the Free List in
ascending slice order, and the first of them goes to a job that waits for one. -/
def Obligations.LinkFlips : Prop :=
  ∀ (s : State) (k : Nat), s.inReset = false → k ∈ s.owed → (s.link k).isOpen = true → (s.link k).swState = .confirmed →
    (s.link k).effective = s.tracker.halfCount →
    ∃ t mask cells, exec (.flip k) s = .next t
      ∧ (∀ i, i < 8 → (BitVec.getLsbD (w := 8) mask i = true ↔ ∃ n, (s.link k).pendingSet[i]? = some (some n)))
      ∧ (∀ i : Nat, (cells : List Nat)[i]? =
        match (s.link k).pendingSet.getD i none with
        | some n => (s.link k).cells[i]?.map fun _ => n
        | none => (s.link k).cells[i]?)
      ∧ ((∀ n, some n ∉ (s.link k).nextSet) →
        t.link k =
          { s.link k with
            swState := .steady
            gatherLeft := 0
            offerAge := 0
            effective := 0
            cells := cells
            activeSet := (s.link k).pendingSetNo
            streak := 0
            pendingSet := (s.link k).pendingSet.map fun _ => none
            changes := (s.link k).changes + 1 }
        ∧ t.notices.staging = (raise (.switched k (s.link k).pendingSetNo mask s.tracker.halfCount) s).notices.staging)
      ∧ (∀ n, some n ∈ (s.link k).nextSet →
        ∃ offered : Bool, (offered = true ↔ s.shadow.gather = 0 ∨ none ∉ (s.link k).nextSet)
        ∧ t.link k =
          { s.link k with
            swState := if offered then .offered else .gathering
            gatherLeft := if offered then 0 else s.shadow.gather
            offerAge := 0
            effective := 0
            cells := cells
            activeSet := (s.link k).pendingSetNo
            streak := 0
            pendingSetNo := (s.link k).lastIssued + 1
            lastIssued := (s.link k).lastIssued + 1
            pendingSet := (s.link k).nextSet
            nextSet := (s.link k).nextSet.map fun _ => none
            changes := (s.link k).changes + 1 }
        ∧ (offered = false → t.notices.staging =
          (raise (.switched k (s.link k).pendingSetNo mask s.tracker.halfCount) s).notices.staging)
        ∧ (offered = true → ∃ next, MaskOf (s.link k).nextSet next ∧ t.notices.staging =
          (raise (.offer k (s.link k).node ((s.link k).lastIssued + 1) next)
            (raise (.switched k (s.link k).pendingSetNo mask s.tracker.halfCount) s)).notices.staging))
      ∧ (s.PoolLaws → s.filter ≠ .transparent → (s.link k).pendingSet.length ≤ (s.link k).cells.length →
        FreedJoin s t (s.freed ((List.range (s.link k).pendingSet.length).filterMap fun i =>
          match (s.link k).pendingSet.getD i none, (s.link k).cells[i]? with
          | some n, some c => if c = n then none else some c
          | _, _ => none)))
      ∧ OtherLinks k s t ∧ SameTracker s t ∧ SameMailbox s t ∧ SameIntake s t ∧ SameApplier s t ∧ SameMemory s t

/-- A job that ends NEW sets BUILD_MEAN and hands its slot to Switchover, which takes it by the link's switch state: into a new pending
set, into the set being gathered, over an offer under a new number, or into the next set of a confirmed link. A slot that it replaces there
loses a reference, and joins the Free List's tail where nothing else holds it. -/
def Obligations.ResultTaken : Prop :=
  ∀ (s : State) (m : MemBurst) (j : Job) (n : Nat), OnPort s .headerWrite m → s.engine.job = some j → j.slot = some n →
    ∃ t, exec .headerWriteDone s = .next t ∧ t.engine.job = none ∧ OtherLinks j.link s t ∧ HandsResult s t j n
      ∧ t.memory = m.applyTo s.memory ∧ SameTracker s t ∧ SameMailbox s t ∧ SameIntake s t ∧ SameApplier s t

/-! ### Start-up -/

/-- A notch-list burst's words fill the mask from the burst's first word on, and the next burst is made ready; after the last one the
notched carriers are counted and the Base Writer's first burst, of the Base Map's first eight loading words, is made ready. -/
def Obligations.NotchListRead : Prop :=
  ∀ (s : State) (a n : Nat), OnPort s .notchRead (.read a n) →
    ∃ (mask : Vector Word 48) (next : Applier), exec .notchReadDone s =
        .next (settle { s with path := { s.path with port := none }, applier := next })
      ∧ (∀ i, i < 48 → tget mask 0 i =
        if s.applier.pos ≤ i ∧ i < s.applier.pos + n then readWord s.memory (a + (i - s.applier.pos))
        else tget s.applier.notchMask 0 i)
      ∧ next.notchMask = mask
      ∧ (s.applier.pos + n < s.shadow.carriers / 32 → next.pos = s.applier.pos + n ∧ next.phase = s.applier.phase
        ∧ next.ready = some ⟨.notchRead, .read (s.shadow.notchAddr + (s.applier.pos + n))
          (if s.applier.pos + n + 8 ≤ s.shadow.carriers / 32 then 8
            else if s.applier.pos + n + 4 ≤ s.shadow.carriers / 32 then 4 else 2)⟩)
      ∧ (s.shadow.carriers / 32 ≤ s.applier.pos + n → next.phase = .loading ∧ next.pos = 0
        ∧ next.notched = ((List.range s.shadow.carriers).filter fun c => (tget mask 0 (c / 32)).getLsbD (c % 32)).length
        ∧ ∃ w : Nat → Word, BaseMapWords mask s.shadow.baseBits w
          ∧ next.ready = some ⟨.baseLoading, .write (s.shadow.poolBase + 8) ((List.range 8).map fun i => ⟨w i, 15⟩)⟩)

/-- The Base Writer: each burst of eight of the Base Map's loading words is followed by the next, the last by the header, formed with slot
0's TOTAL and SIGNATURE, the sum of those words, recorded; the header's completion enters OPERATING and raises APPLY_DONE. A loading
word holds B for a carrier, or 0 for a notched one. -/
def Obligations.BaseMapWritten : Prop :=
  ∀ (s : State) (m : MemBurst), ∃ w : Nat → Word, BaseMapWords s.applier.notchMask s.shadow.baseBits w
    ∧ (OnPort s .baseLoading m → s.applier.pos + 1 < s.shadow.carriers / 64 → exec .baseLoadingWriteDone s = .next (settle
      { s with
        memory := m.applyTo s.memory
        path := { s.path with port := none }
        applier :=
          { s.applier with
            pos := s.applier.pos + 1
            ready := some ⟨.baseLoading, .write (s.shadow.poolBase + (8 + 8 * (s.applier.pos + 1)))
              ((List.range 8).map fun i => ⟨w (8 * (s.applier.pos + 1) + i), 15⟩)⟩ } }))
    ∧ (∀ (total : Nat) (sum : Word), OnPort s .baseLoading m → s.shadow.carriers / 64 ≤ s.applier.pos + 1 →
      total = s.shadow.baseBits * (s.shadow.carriers - s.applier.notched) →
      sum = ((List.range (s.shadow.carriers / 8)).map w).foldr (· + ·) 0 →
      exec .baseLoadingWriteDone s = .next (settle
        { s with
          memory := m.applyTo s.memory
          path := { s.path with port := none }
          pool := { s.pool with slots := tset s.pool.slots 0 { s.slot 0 with total := total, signature := sum } }
          applier :=
            { s.applier with
              phase := .header
              pos := 0
              ready := some ⟨.baseHeader, .write s.shadow.poolBase
                ([0, 0, 0, 0, BitVec.ofNat 32 (total % 65536), BitVec.ofNat 32 (s.shadow.carriers % 65536), sum, 0].map
                  fun x => ⟨x, 15⟩)⟩ } }))
    ∧ (OnPort s .baseHeader m → exec .baseHeaderWriteDone s = .next (settle
      (raise (.applyDone (s.shadow.baseBits * (s.shadow.carriers - s.applier.notched)) s.applier.notched)
        { s with
          memory := m.applyTo s.memory
          path := { s.path with port := none }
          filter := .operating
          applier := { s.applier with phase := .done, pos := 0 } })))

/-! ### The Loading Engine -/

/-- The idle engine takes the queue's head, its header read ready unless an ended job's burst still holds the port; that burst's end makes
it ready. That TOTAL and SIGNATURE stand at 0 until the last SNR burst and that the build buffer is empty at the start are the model's (log
36, 17), as is which ended bursts the header read waits for (log 30). A job that waits in ALLOCATE takes the Free List's head, its first
burst of eight loading words ready, packed from the build buffer. -/
def Obligations.JobStarts : Prop :=
  ∀ s : State,
    (∀ r rest, s.inReset = false → s.engine.job = none → s.buildQueue = r :: rest → exec .jobStart s = .next (settle
      { s with
        buildQueue := rest
        engine :=
          { job := some
              { link := r.link, slice := r.slice, record := r.record, seq := r.seq, reason := r.reason, stage := .load
                mean := none, total := 0, signature := 0, candidates := [], slot := none, pos := 0, candIx := 0 }
            buffer := []
            ready := if s.portIs .ended then none
              else some ⟨.headerRead, .read (s.shadow.estBase + r.record * 512) 8⟩ } }))
    ∧ (∀ m j, OnPort s .ended m → s.engine.job = some j → j.stage = .load → j.mean = none → s.engine.ready = none →
      exec .endedClientBurstDone s = .next (settle
        { s with
          memory := m.applyTo s.memory
          path := { s.path with port := none }
          engine := { s.engine with ready := some ⟨.headerRead, .read (s.shadow.estBase + j.record * 512) 8⟩ } }))
    ∧ (∀ m, OnPort s .ended m → s.engine.job = none → exec .endedClientBurstDone s = .next (settle
      { s with memory := m.applyTo s.memory, path := { s.path with port := none } }))
    ∧ ∀ j n rest, s.inReset = false → s.engine.job = some j → j.stage = .allocate → j.slot = none →
      s.pool.freeList = n :: rest → exec .allocateAfterWait s = .next (settle
        { s with
          pool :=
            { slots := tset s.pool.slots n
                { s.slot n with
                  state := .building
                  issue := (s.slot n).issue + 1
                  ownerLink := j.link
                  ownerNode := (s.link j.link).node
                  slice := j.slice }
              freeList := rest }
          engine := { s.engine with
            job := some { j with slot := some n, stage := .write, pos := 0 }
            ready := some ⟨.loadingWrite, .write (s.shadow.poolBase + n * 256 + 8)
              ((List.range 8).map fun i => ⟨bufferWord s.engine.buffer i, 15⟩)⟩ } })

/-- The header check, on the words memory returns: VALID with the job's SEQ, the link's NODE and the job's SLICE let the SNR reads begin
with MEAN set; otherwise the job ends OVERRUN with BUILD_FAILED, reason HEADER. -/
def Obligations.HeaderChecked : Prop :=
  ∀ (s : State) (a : Nat) (j : Job) (w : Nat → Word) (ok : Bool), OnPort s .headerRead (.read a 8) → s.engine.job = some j →
    w = (fun i => readWord s.memory (a + i)) →
    (ok = true ↔ (w 0).getLsbD 31 = true ∧ (w 0).extractLsb' 0 16 = j.seq ∧ (w 1).extractLsb' 0 8 = (s.link j.link).node
      ∧ (w 2).toNat % 256 = j.slice) →
    (ok = true → exec .headerReadDone s = .next (settle
      { s with
        path := { s.path with port := none }
        engine := { s.engine with
          job := some { j with mean := some ((w 4).extractLsb' 0 8), pos := 0 }
          ready := some ⟨.snrRead, .read (s.shadow.estBase + j.record * 512 + 8) 8⟩ } }))
    ∧ (ok = false → ∃ t, exec .headerReadDone s = .next t ∧ t.engine.job = none ∧ t.links = s.links
      ∧ t.notices.staging = (raise (.buildFailed j.link .header j.slice j.record j.seq j.reason j.stage) s).notices.staging
      ∧ (j.slot = none → t.pool = s.pool) ∧ SameTracker s t ∧ SameMailbox s t ∧ SameIntake s t ∧ SameApplier s t
      ∧ SameMemory s t)

/-- An SNR burst gives its 32 carriers their loading values: 0 for a notched one, else the largest b whose THRb + MARGIN the SNR
reaches, or 0. After the last burst TOTAL is judged: below the base total the job ends UNCHANGED with the Base Map in force, and otherwise
hands over slot 0. Else the candidates are the link's slots, the slice's cell first, then the other cells, the pending and the next
entries, each once and with its issue: the first of equal TOTAL and SIGNATURE is read, and with none the job takes the Free List's head, or
waits for a slot. -/
def Obligations.SnrLoaded : Prop :=
  ∀ (s : State) (a : Nat) (j : Job), OnPort s .snrRead (.read a 8) → s.engine.job = some j →
    ∃ vals : List (BitVec 4), vals.length = 32
      ∧ (∀ i v snr c, vals[i]? = some v → c = 32 * j.pos + i → snr = bits (readWord s.memory (a + i / 4)) (8 * (i % 4)) 8 →
        (s.applier.isNotched c = true → v = 0)
        ∧ (s.applier.isNotched c = false →
          (v.toNat = 0 ∨ v.toNat ≤ 10 ∧ s.shadow.threshold v.toNat + s.shadow.margin ≤ snr)
          ∧ ∀ b, 1 ≤ b → b ≤ 10 → s.shadow.threshold b + s.shadow.margin ≤ snr → b ≤ v.toNat))
      ∧ (j.pos + 1 < s.shadow.carriers / 32 → exec .snrBurstDone s = .next (settle
        { s with
          path := { s.path with port := none }
          engine :=
            { job := some { j with pos := j.pos + 1 }
              buffer := s.engine.buffer ++ vals
              ready := some ⟨.snrRead, .read (s.shadow.estBase + j.record * 512 + (8 + 8 * (j.pos + 1))) 8⟩ } }))
      ∧ ∀ (total : Nat) (sum : Word) (buffer : List (BitVec 4)) (L : Link) (cands : List (Nat × BitVec 8)),
        s.shadow.carriers / 32 ≤ j.pos + 1 → buffer = s.engine.buffer ++ vals →
        total = (buffer.map BitVec.toNat).sum →
        sum = ((List.range (s.shadow.carriers / 8)).map (bufferWord buffer)).foldr (· + ·) 0 → L = s.link j.link →
        cands = ((L.cells[j.slice]?.toList ++ L.cells.eraseIdx j.slice ++ L.pendingSet.filterMap id
          ++ L.nextSet.filterMap id).eraseDups.map fun n => (n, (s.slot n).issue)) →
        (total < (s.slot 0).total → L.cells[j.slice]? = some 0 →
          ∃ t, exec .snrBurstDone s = .next t ∧ t.engine.job = none ∧ t.pool = s.pool ∧ SameNotices s t
            ∧ t.link j.link = Link.counted L
              { L with summary := L.summary.modify j.slice fun p => { p with buildMean := j.mean } }
            ∧ OtherLinks j.link s t ∧ SameTracker s t ∧ SameMailbox s t ∧ SameIntake s t ∧ SameMemory s t)
        ∧ (total < (s.slot 0).total → L.cells[j.slice]? ≠ some 0 →
          ∃ t, exec .snrBurstDone s = .next t ∧ t.engine.job = none ∧ OtherLinks j.link s t ∧ HandsResult s t j 0
            ∧ SameTracker s t ∧ SameMailbox s t ∧ SameIntake s t ∧ SameApplier s t ∧ SameMemory s t)
        ∧ ((s.slot 0).total ≤ total → ∀ (i n : Nat) (issue : BitVec 8), cands[i]? = some (n, issue) →
          (s.slot n).total = total → (s.slot n).signature = sum →
          (∀ (k : Nat) (x : Nat × BitVec 8), k < i → cands[k]? = some x →
            ¬((s.slot x.1).total = total ∧ (s.slot x.1).signature = sum)) →
          exec .snrBurstDone s = .next (settle
            { s with
              path := { s.path with port := none }
              engine :=
                { job := some
                    { j with
                      stage := .matching, total := total, signature := sum, candidates := cands, candIx := i, pos := 0 }
                  buffer := buffer
                  ready := some ⟨.candidateRead, .read (s.shadow.poolBase + n * 256 + 8) 8⟩ } }))
        ∧ ((s.slot 0).total ≤ total →
          (∀ x ∈ cands, ¬((s.slot x.1).total = total ∧ (s.slot x.1).signature = sum)) →
          (∀ n rest, s.pool.freeList = n :: rest → exec .snrBurstDone s = .next (settle
            { s with
              path := { s.path with port := none }
              pool :=
                { slots := tset s.pool.slots n
                    { s.slot n with
                      state := .building
                      issue := (s.slot n).issue + 1
                      ownerLink := j.link
                      ownerNode := (s.link j.link).node
                      slice := j.slice }
                  freeList := rest }
              engine :=
                { job := some
                    { j with
                      stage := .write, total := total, signature := sum, candidates := cands, candIx := 0, slot := some n
                      pos := 0 }
                  buffer := buffer
                  ready := some ⟨.loadingWrite, .write (s.shadow.poolBase + n * 256 + 8)
                    ((List.range 8).map fun i => ⟨bufferWord buffer i, 15⟩)⟩ } }))
          ∧ (s.pool.freeList = [] → exec .snrBurstDone s = .next (settle (raise
            (.poolEmpty j.link j.slice j.record (s.pool.slots.toList.filter fun r => r.state == .retiring).length)
            { s with
              path := { s.path with port := none }
              engine :=
                { job := some
                    { j with
                      stage := .allocate, total := total, signature := sum, candidates := cands, candIx := 0, pos := 0 }
                  buffer := buffer
                  ready := none } }))))

/-- A candidate's burst is compared with the build buffer: equal, the next burst is read, and after the last one a candidate still named
under the issue noted is used: UNCHANGED where it is the map in force, and else handed to Switchover (FOUND), whatever the switch
state. Otherwise the next later candidate of equal TOTAL and SIGNATURE is read; with none the job takes the Free List's head, or, the list
empty, waits in ALLOCATE, and POOL_EMPTY is raised. -/
def Obligations.CandidateCompared : Prop :=
  ∀ (s : State) (a n : Nat) (issue : BitVec 8) (j : Job) (L : Link) (equal : Bool), OnPort s .candidateRead (.read a 8) →
    s.engine.job = some j → j.candidates[j.candIx]? = some (n, issue) → L = s.link j.link →
    (equal = true ↔ ∀ i, i < 8 → readWord s.memory (a + i) = bufferWord s.engine.buffer (8 * j.pos + i)) →
    (equal = true → j.pos + 1 < s.shadow.carriers / 64 → exec .candidateBurstDone s = .next (settle
      { s with
        path := { s.path with port := none }
        engine := { s.engine with
          job := some { j with pos := j.pos + 1 }
          ready := some ⟨.candidateRead, .read (s.shadow.poolBase + n * 256 + (8 + 8 * (j.pos + 1))) 8⟩ } }))
    ∧ (equal = true → s.shadow.carriers / 64 ≤ j.pos + 1 → (s.slot n).issue = issue → L.cells[j.slice]? = some n →
      ∃ t, exec .candidateBurstDone s = .next t ∧ t.engine.job = none ∧ t.pool = s.pool ∧ SameNotices s t
        ∧ t.link j.link = Link.counted L
          { L with summary := L.summary.modify j.slice fun p => { p with buildMean := j.mean } }
        ∧ OtherLinks j.link s t ∧ SameTracker s t ∧ SameMailbox s t ∧ SameIntake s t ∧ SameMemory s t)
    ∧ (equal = true → s.shadow.carriers / 64 ≤ j.pos + 1 → (s.slot n).issue = issue → L.cells[j.slice]? ≠ some n →
      n ∈ L.cells ∨ some n ∈ L.pendingSet ∨ some n ∈ L.nextSet →
      ∃ t, exec .candidateBurstDone s = .next t ∧ t.engine.job = none ∧ OtherLinks j.link s t ∧ HandsResult s t j n
        ∧ SameTracker s t ∧ SameMailbox s t ∧ SameIntake s t ∧ SameApplier s t ∧ SameMemory s t)
    ∧ (equal = false
        ∨ s.shadow.carriers / 64 ≤ j.pos + 1
          ∧ ((s.slot n).issue ≠ issue ∨ n ∉ L.cells ∧ some n ∉ L.pendingSet ∧ some n ∉ L.nextSet) →
      (∀ (i n' : Nat) (issue' : BitVec 8), j.candIx < i → j.candidates[i]? = some (n', issue') →
        (s.slot n').total = j.total → (s.slot n').signature = j.signature →
        (∀ (k : Nat) (x : Nat × BitVec 8), j.candIx < k → k < i → j.candidates[k]? = some x →
          ¬((s.slot x.1).total = j.total ∧ (s.slot x.1).signature = j.signature)) →
        exec .candidateBurstDone s = .next (settle
          { s with
            path := { s.path with port := none }
            engine := { s.engine with
              job := some { j with stage := .matching, candIx := i, pos := 0 }
              ready := some ⟨.candidateRead, .read (s.shadow.poolBase + n' * 256 + 8) 8⟩ } }))
      ∧ ((∀ x ∈ j.candidates.drop (j.candIx + 1),
          ¬((s.slot x.1).total = j.total ∧ (s.slot x.1).signature = j.signature)) →
        (∀ f rest, s.pool.freeList = f :: rest → exec .candidateBurstDone s = .next (settle
          { s with
            path := { s.path with port := none }
            pool :=
              { slots := tset s.pool.slots f
                  { s.slot f with
                    state := .building
                    issue := (s.slot f).issue + 1
                    ownerLink := j.link
                    ownerNode := L.node
                    slice := j.slice }
                freeList := rest }
            engine := { s.engine with
              job := some { j with stage := .write, slot := some f, pos := 0 }
              ready := some ⟨.loadingWrite, .write (s.shadow.poolBase + f * 256 + 8)
                ((List.range 8).map fun i => ⟨bufferWord s.engine.buffer i, 15⟩)⟩ } }))
        ∧ (s.pool.freeList = [] →
          exec .candidateBurstDone s = .next (settle (raise
            (.poolEmpty j.link j.slice j.record (s.pool.slots.toList.filter fun r => r.state == .retiring).length)
            { s with
              path := { s.path with port := none }
              engine := { s.engine with job := some { j with stage := .allocate }, ready := none } })))))

/-- Each loading-word burst of a job's slot is followed by the next, packed from the build buffer; the last is followed by the header,
formed with the slot's record taking the job's TOTAL and SIGNATURE. -/
def Obligations.SlotWritten : Prop :=
  (∀ (buffer : List (BitVec 4)) (i c : Nat), c < 8 →
    (bufferWord buffer i).extractLsb' (4 * c) 4 = buffer.getD (8 * i + c) 0)
  ∧ ∀ (s : State) (m : MemBurst) (j : Job) (n : Nat), OnPort s .loadingWrite m → s.engine.job = some j → j.slot = some n →
    (j.pos + 1 < s.shadow.carriers / 64 → exec .loadingWriteDone s = .next (settle
      { s with
        memory := m.applyTo s.memory
        path := { s.path with port := none }
        engine := { s.engine with
          job := some { j with pos := j.pos + 1 }
          ready := some ⟨.loadingWrite, .write (s.shadow.poolBase + n * 256 + (8 + 8 * (j.pos + 1)))
            ((List.range 8).map fun i => ⟨bufferWord s.engine.buffer (8 * (j.pos + 1) + i), 15⟩)⟩ } }))
    ∧ (s.shadow.carriers / 64 ≤ j.pos + 1 → n < 128 → exec .loadingWriteDone s = .next (settle
      { s with
        memory := m.applyTo s.memory
        path := { s.path with port := none }
        pool := { s.pool with slots := tset s.pool.slots n { s.slot n with total := j.total, signature := j.signature } }
        engine := { s.engine with
          job := some { j with pos := 0 }
          ready := some ⟨.headerWrite, .write (s.shadow.poolBase + n * 256)
            ([BitVec.ofNat 32 (n % 256), (s.slot n).issue.setWidth 32, (s.slot n).ownerNode.setWidth 32,
              BitVec.ofNat 32 ((s.slot n).slice % 256), BitVec.ofNat 32 (j.total % 65536),
              BitVec.ofNat 32 (s.shadow.carriers % 65536), j.signature,
              (if (s.link j.link).swState = .gathering then (s.link j.link).pendingSetNo
                else (s.link j.link).lastIssued + 1).setWidth 32].map fun w => ⟨w, 15⟩)⟩ } }))

/-! ### Notices -/

/-- A notice's burst is four whole words at the entry the producer index names. At its completion the head leaves staging, the entry's
class record takes its class, an URGENT notice raises the URGENT count, and the producer index advances mod N. Each kind's four words are
spelled bit by bit. -/
def Obligations.NoticeWritten : Prop :=
  (∀ total notched, Spells (.applyDone total notched) 1 .urgent none (0#16 ++ BitVec.ofNat 16 total) (0#16 ++ BitVec.ofNat 16 notched))
  ∧ (∀ period bridged,
    Spells (.trackLocked .acquired period bridged) 2 .routine none (BitVec.ofNat 8 bridged ++ 1#8 ++ BitVec.ofNat 16 period) 0
    ∧ Spells (.trackLocked .resumed period bridged) 2 .routine none (BitVec.ofNat 8 bridged ++ 2#8 ++ BitVec.ofNat 16 period) 0)
  ∧ (∀ period stray, Spells (.trackHoldover period stray) 3 .routine none (0#16 ++ BitVec.ofNat 16 period) (0#24 ++ stray)
    ∧ Spells (.trackLost period stray) 4 .urgent none (0#16 ++ BitVec.ofNat 16 period) (0#24 ++ stray))
  ∧ (∀ k node setNo mask, Spells (.offer k node setNo mask) 5 .urgent (some k) (0#8 ++ mask ++ setNo ++ node) 0)
  ∧ (∀ k setNo mask count, Spells (.switched k setNo mask count) 6 .routine (some k) (0#16 ++ mask ++ setNo) (0#16 ++ count))
  ∧ (∀ k setNo mask streak, Spells (.offerExpired k setNo mask streak) 7 .routine (some k)
    (0#8 ++ BitVec.ofNat 8 streak ++ mask ++ setNo) 0)
  ∧ (∀ k node streak, Spells (.linkFallback k node streak) 8 .urgent (some k) (0#16 ++ BitVec.ofNat 8 streak ++ node) 0)
  ∧ (∀ k why slice record seq reason stage, Spells (.buildFailed k why slice record seq reason stage) 9 .routine (some k)
    ((match stage with
      | .load => 1#4
      | .matching => 2#4
      | .allocate => 3#4
      | .write => 4#4)
      ++ (match reason with
        | .auto => 0#4
        | .request => 1#4)
      ++ BitVec.ofNat 8 record ++ BitVec.ofNat 8 slice
      ++ (match why with
        | .overrun => 1#8
        | .header => 2#8))
    (0#16 ++ seq))
  ∧ (∀ k slice record retiring, Spells (.poolEmpty k slice record retiring) 10 .urgent (some k)
    (0#8 ++ BitVec.ofNat 8 retiring ++ BitVec.ofNat 8 record ++ BitVec.ofNat 8 slice) 0)
  ∧ (∀ k descriptor why ref node, Spells (.staleRef k descriptor why ref node) 11 .routine k
    (0#6 ++ BitVec.ofBool ref.isSome ++ BitVec.ofBool node.isSome ++ node.getD 0
      ++ (match why with
        | .noRef => 1#8
        | .badSlot => 2#8
        | .issue => 3#8
        | .unknownNode => 4#8
        | .notInForce => 5#8)
      ++ BitVec.ofNat 8 descriptor)
    (match ref with
      | some r => 0#16 ++ r.issue ++ r.slot
      | none => 0))
  ∧ (∀ window addr why, Spells (.guardWrite window addr why) 12 .routine none
    (0#16
      ++ (match why with
        | .protect => 1#8
        | .partialWrite => 2#8)
      ++ (match window with
        | .anchor => 1#8
        | .aliasWin => 2#8
        | .view => 3#8
        | .pool => 4#8
        | .estimate => 5#8
        | .transmit => 6#8
        | .noticeRing => 7#8))
    (0#16 ++ addr))
  ∧ (∀ k record why seq node meas, Spells (.estimateIgnored k record why seq node meas) 13 .routine k
    (0#8 ++ node
      ++ (match why with
        | .notLocked => 1#8
        | .staleEpoch => 2#8
        | .unknownNode => 3#8
        | .badSlice => 4#8
        | .badSize => 5#8)
      ++ BitVec.ofNat 8 record)
    (meas ++ seq))
  ∧
  (∀ (s : State) (x : Notice) (rest : List Notice), s.notices.staging = x :: rest → s.notices.ready = none →
    s.portIs .notice = false →
    (formNotice s).notices.ready =
      some ⟨.notice, .write (s.shadow.noteBase + s.notices.producer * 4)
        [⟨x.word0, 15⟩, ⟨x.word1, 15⟩, ⟨x.body.word2, 15⟩, ⟨x.body.word3, 15⟩]⟩)
  ∧ ∀ (s : State) (m : MemBurst) (x : Notice) (rest : List Notice), OnPort s .notice m → s.notices.staging = x :: rest →
    exec .noticeWriteDone s = .next (settle
      { s with
        memory := m.applyTo s.memory
        path := { s.path with port := none }
        notices := { s.notices with
          staging := rest
          classes := tset s.notices.classes s.notices.producer x.body.class
          urgentCount := if x.body.class = .urgent then s.notices.urgentCount + 1 else s.notices.urgentCount
          producer := (s.notices.producer + 1) % s.shadow.entries } })

/-- A notice is admitted while staged and unconsumed notices, the producer index less the consumer index mod N, together are fewer than
N − 1 and fewer than 8 are staged; otherwise it is dropped and OVERFLOW is set. Either way it changes nothing else. -/
def Obligations.NoticeAdmission : Prop :=
  ∀ (s : State) (x : NoticeBody) (unconsumed : Nat),
    unconsumed = (s.notices.producer + s.shadow.entries - s.notices.consumer) % s.shadow.entries →
    (s.notices.staging.length + unconsumed < s.shadow.entries - 1 → s.notices.staging.length < 8 →
      raise x s = { s with notices := { s.notices with
        staging := s.notices.staging ++ [⟨x, s.tracker.halfCount, s.tracker.epoch⟩] } })
    ∧ (¬(s.notices.staging.length + unconsumed < s.shadow.entries - 1 ∧ s.notices.staging.length < 8) →
      raise x s = { s with notices := { s.notices with overflow := true } })
end

