-- ==== Sys2Proof/Laws/State.lean ====
section
/-! SUPPORT. Field by field, what each named update of the state leaves: one lemma per field and update, all by rfl. -/

namespace Sys2Proof.Machine

/-! ### setLink -/

@[simp] theorem State.setLink_inReset (s : State) (k : Nat) (L : Link) : (s.setLink k L).inReset = s.inReset := rfl
@[simp] theorem State.setLink_tick (s : State) (k : Nat) (L : Link) : (s.setLink k L).tick = s.tick := rfl
@[simp] theorem State.setLink_zcLevel (s : State) (k : Nat) (L : Link) : (s.setLink k L).zcLevel = s.zcLevel := rfl
@[simp] theorem State.setLink_zcSampledAt (s : State) (k : Nat) (L : Link) : (s.setLink k L).zcSampledAt = s.zcSampledAt := rfl
@[simp] theorem State.setLink_filter (s : State) (k : Nat) (L : Link) : (s.setLink k L).filter = s.filter := rfl
@[simp] theorem State.setLink_shadow (s : State) (k : Nat) (L : Link) : (s.setLink k L).shadow = s.shadow := rfl
@[simp] theorem State.setLink_result (s : State) (k : Nat) (L : Link) : (s.setLink k L).result = s.result := rfl
@[simp] theorem State.setLink_arg0 (s : State) (k : Nat) (L : Link) : (s.setLink k L).arg0 = s.arg0 := rfl
@[simp] theorem State.setLink_arg1 (s : State) (k : Nat) (L : Link) : (s.setLink k L).arg1 = s.arg1 := rfl
@[simp] theorem State.setLink_arg2 (s : State) (k : Nat) (L : Link) : (s.setLink k L).arg2 = s.arg2 := rfl
@[simp] theorem State.setLink_tracker (s : State) (k : Nat) (L : Link) : (s.setLink k L).tracker = s.tracker := rfl
@[simp] theorem State.setLink_links (s : State) (k : Nat) (L : Link) : (s.setLink k L).links = tset s.links k L := rfl
@[simp] theorem State.setLink_pool (s : State) (k : Nat) (L : Link) : (s.setLink k L).pool = s.pool := rfl
@[simp] theorem State.setLink_buildQueue (s : State) (k : Nat) (L : Link) : (s.setLink k L).buildQueue = s.buildQueue := rfl
@[simp] theorem State.setLink_engine (s : State) (k : Nat) (L : Link) : (s.setLink k L).engine = s.engine := rfl
@[simp] theorem State.setLink_headers (s : State) (k : Nat) (L : Link) : (s.setLink k L).headers = s.headers := rfl
@[simp] theorem State.setLink_pinTable (s : State) (k : Nat) (L : Link) : (s.setLink k L).pinTable = s.pinTable := rfl
@[simp] theorem State.setLink_notices (s : State) (k : Nat) (L : Link) : (s.setLink k L).notices = s.notices := rfl
@[simp] theorem State.setLink_noteIrq (s : State) (k : Nat) (L : Link) : (s.setLink k L).noteIrq = s.noteIrq := rfl
@[simp] theorem State.setLink_applier (s : State) (k : Nat) (L : Link) : (s.setLink k L).applier = s.applier := rfl
@[simp] theorem State.setLink_path (s : State) (k : Nat) (L : Link) : (s.setLink k L).path = s.path := rfl
@[simp] theorem State.setLink_memory (s : State) (k : Nat) (L : Link) : (s.setLink k L).memory = s.memory := rfl
@[simp] theorem State.setLink_owed (s : State) (k : Nat) (L : Link) : (s.setLink k L).owed = s.owed := rfl
@[simp] theorem State.setLink_choices (s : State) (k : Nat) (L : Link) : (s.setLink k L).choices = s.choices := rfl
@[simp] theorem State.setLink_pending (s : State) (k : Nat) (L : Link) : (s.setLink k L).pending = s.pending := rfl

/-! ### setSlot -/

@[simp] theorem State.setSlot_inReset (s : State) (n : Nat) (r : SlotRec) : (s.setSlot n r).inReset = s.inReset := rfl
@[simp] theorem State.setSlot_tick (s : State) (n : Nat) (r : SlotRec) : (s.setSlot n r).tick = s.tick := rfl
@[simp] theorem State.setSlot_zcLevel (s : State) (n : Nat) (r : SlotRec) : (s.setSlot n r).zcLevel = s.zcLevel := rfl
@[simp] theorem State.setSlot_zcSampledAt (s : State) (n : Nat) (r : SlotRec) : (s.setSlot n r).zcSampledAt = s.zcSampledAt := rfl
@[simp] theorem State.setSlot_filter (s : State) (n : Nat) (r : SlotRec) : (s.setSlot n r).filter = s.filter := rfl
@[simp] theorem State.setSlot_shadow (s : State) (n : Nat) (r : SlotRec) : (s.setSlot n r).shadow = s.shadow := rfl
@[simp] theorem State.setSlot_result (s : State) (n : Nat) (r : SlotRec) : (s.setSlot n r).result = s.result := rfl
@[simp] theorem State.setSlot_arg0 (s : State) (n : Nat) (r : SlotRec) : (s.setSlot n r).arg0 = s.arg0 := rfl
@[simp] theorem State.setSlot_arg1 (s : State) (n : Nat) (r : SlotRec) : (s.setSlot n r).arg1 = s.arg1 := rfl
@[simp] theorem State.setSlot_arg2 (s : State) (n : Nat) (r : SlotRec) : (s.setSlot n r).arg2 = s.arg2 := rfl
@[simp] theorem State.setSlot_tracker (s : State) (n : Nat) (r : SlotRec) : (s.setSlot n r).tracker = s.tracker := rfl
@[simp] theorem State.setSlot_links (s : State) (n : Nat) (r : SlotRec) : (s.setSlot n r).links = s.links := rfl
@[simp] theorem State.setSlot_pool (s : State) (n : Nat) (r : SlotRec) : (s.setSlot n r).pool = { s.pool with slots := tset s.pool.slots n r } := rfl
@[simp] theorem State.setSlot_buildQueue (s : State) (n : Nat) (r : SlotRec) : (s.setSlot n r).buildQueue = s.buildQueue := rfl
@[simp] theorem State.setSlot_engine (s : State) (n : Nat) (r : SlotRec) : (s.setSlot n r).engine = s.engine := rfl
@[simp] theorem State.setSlot_headers (s : State) (n : Nat) (r : SlotRec) : (s.setSlot n r).headers = s.headers := rfl
@[simp] theorem State.setSlot_pinTable (s : State) (n : Nat) (r : SlotRec) : (s.setSlot n r).pinTable = s.pinTable := rfl
@[simp] theorem State.setSlot_notices (s : State) (n : Nat) (r : SlotRec) : (s.setSlot n r).notices = s.notices := rfl
@[simp] theorem State.setSlot_noteIrq (s : State) (n : Nat) (r : SlotRec) : (s.setSlot n r).noteIrq = s.noteIrq := rfl
@[simp] theorem State.setSlot_applier (s : State) (n : Nat) (r : SlotRec) : (s.setSlot n r).applier = s.applier := rfl
@[simp] theorem State.setSlot_path (s : State) (n : Nat) (r : SlotRec) : (s.setSlot n r).path = s.path := rfl
@[simp] theorem State.setSlot_memory (s : State) (n : Nat) (r : SlotRec) : (s.setSlot n r).memory = s.memory := rfl
@[simp] theorem State.setSlot_owed (s : State) (n : Nat) (r : SlotRec) : (s.setSlot n r).owed = s.owed := rfl
@[simp] theorem State.setSlot_choices (s : State) (n : Nat) (r : SlotRec) : (s.setSlot n r).choices = s.choices := rfl
@[simp] theorem State.setSlot_pending (s : State) (n : Nat) (r : SlotRec) : (s.setSlot n r).pending = s.pending := rfl

/-! ### setPinEntry -/

@[simp] theorem State.setPinEntry_inReset (s : State) (i : Nat) (e : PinEntry) : (s.setPinEntry i e).inReset = s.inReset := rfl
@[simp] theorem State.setPinEntry_tick (s : State) (i : Nat) (e : PinEntry) : (s.setPinEntry i e).tick = s.tick := rfl
@[simp] theorem State.setPinEntry_zcLevel (s : State) (i : Nat) (e : PinEntry) : (s.setPinEntry i e).zcLevel = s.zcLevel := rfl
@[simp] theorem State.setPinEntry_zcSampledAt (s : State) (i : Nat) (e : PinEntry) : (s.setPinEntry i e).zcSampledAt = s.zcSampledAt := rfl
@[simp] theorem State.setPinEntry_filter (s : State) (i : Nat) (e : PinEntry) : (s.setPinEntry i e).filter = s.filter := rfl
@[simp] theorem State.setPinEntry_shadow (s : State) (i : Nat) (e : PinEntry) : (s.setPinEntry i e).shadow = s.shadow := rfl
@[simp] theorem State.setPinEntry_result (s : State) (i : Nat) (e : PinEntry) : (s.setPinEntry i e).result = s.result := rfl
@[simp] theorem State.setPinEntry_arg0 (s : State) (i : Nat) (e : PinEntry) : (s.setPinEntry i e).arg0 = s.arg0 := rfl
@[simp] theorem State.setPinEntry_arg1 (s : State) (i : Nat) (e : PinEntry) : (s.setPinEntry i e).arg1 = s.arg1 := rfl
@[simp] theorem State.setPinEntry_arg2 (s : State) (i : Nat) (e : PinEntry) : (s.setPinEntry i e).arg2 = s.arg2 := rfl
@[simp] theorem State.setPinEntry_tracker (s : State) (i : Nat) (e : PinEntry) : (s.setPinEntry i e).tracker = s.tracker := rfl
@[simp] theorem State.setPinEntry_links (s : State) (i : Nat) (e : PinEntry) : (s.setPinEntry i e).links = s.links := rfl
@[simp] theorem State.setPinEntry_pool (s : State) (i : Nat) (e : PinEntry) : (s.setPinEntry i e).pool = s.pool := rfl
@[simp] theorem State.setPinEntry_buildQueue (s : State) (i : Nat) (e : PinEntry) : (s.setPinEntry i e).buildQueue = s.buildQueue := rfl
@[simp] theorem State.setPinEntry_engine (s : State) (i : Nat) (e : PinEntry) : (s.setPinEntry i e).engine = s.engine := rfl
@[simp] theorem State.setPinEntry_headers (s : State) (i : Nat) (e : PinEntry) : (s.setPinEntry i e).headers = s.headers := rfl
@[simp] theorem State.setPinEntry_pinTable (s : State) (i : Nat) (e : PinEntry) : (s.setPinEntry i e).pinTable = tset s.pinTable i e := rfl
@[simp] theorem State.setPinEntry_notices (s : State) (i : Nat) (e : PinEntry) : (s.setPinEntry i e).notices = s.notices := rfl
@[simp] theorem State.setPinEntry_noteIrq (s : State) (i : Nat) (e : PinEntry) : (s.setPinEntry i e).noteIrq = s.noteIrq := rfl
@[simp] theorem State.setPinEntry_applier (s : State) (i : Nat) (e : PinEntry) : (s.setPinEntry i e).applier = s.applier := rfl
@[simp] theorem State.setPinEntry_path (s : State) (i : Nat) (e : PinEntry) : (s.setPinEntry i e).path = s.path := rfl
@[simp] theorem State.setPinEntry_memory (s : State) (i : Nat) (e : PinEntry) : (s.setPinEntry i e).memory = s.memory := rfl
@[simp] theorem State.setPinEntry_owed (s : State) (i : Nat) (e : PinEntry) : (s.setPinEntry i e).owed = s.owed := rfl
@[simp] theorem State.setPinEntry_choices (s : State) (i : Nat) (e : PinEntry) : (s.setPinEntry i e).choices = s.choices := rfl
@[simp] theorem State.setPinEntry_pending (s : State) (i : Nat) (e : PinEntry) : (s.setPinEntry i e).pending = s.pending := rfl

/-! ### setJob -/

@[simp] theorem State.setJob_inReset (s : State) (j : Job) (b : Option PortBurst) : (s.setJob j b).inReset = s.inReset := rfl
@[simp] theorem State.setJob_tick (s : State) (j : Job) (b : Option PortBurst) : (s.setJob j b).tick = s.tick := rfl
@[simp] theorem State.setJob_zcLevel (s : State) (j : Job) (b : Option PortBurst) : (s.setJob j b).zcLevel = s.zcLevel := rfl
@[simp] theorem State.setJob_zcSampledAt (s : State) (j : Job) (b : Option PortBurst) : (s.setJob j b).zcSampledAt = s.zcSampledAt := rfl
@[simp] theorem State.setJob_filter (s : State) (j : Job) (b : Option PortBurst) : (s.setJob j b).filter = s.filter := rfl
@[simp] theorem State.setJob_shadow (s : State) (j : Job) (b : Option PortBurst) : (s.setJob j b).shadow = s.shadow := rfl
@[simp] theorem State.setJob_result (s : State) (j : Job) (b : Option PortBurst) : (s.setJob j b).result = s.result := rfl
@[simp] theorem State.setJob_arg0 (s : State) (j : Job) (b : Option PortBurst) : (s.setJob j b).arg0 = s.arg0 := rfl
@[simp] theorem State.setJob_arg1 (s : State) (j : Job) (b : Option PortBurst) : (s.setJob j b).arg1 = s.arg1 := rfl
@[simp] theorem State.setJob_arg2 (s : State) (j : Job) (b : Option PortBurst) : (s.setJob j b).arg2 = s.arg2 := rfl
@[simp] theorem State.setJob_tracker (s : State) (j : Job) (b : Option PortBurst) : (s.setJob j b).tracker = s.tracker := rfl
@[simp] theorem State.setJob_links (s : State) (j : Job) (b : Option PortBurst) : (s.setJob j b).links = s.links := rfl
@[simp] theorem State.setJob_pool (s : State) (j : Job) (b : Option PortBurst) : (s.setJob j b).pool = s.pool := rfl
@[simp] theorem State.setJob_buildQueue (s : State) (j : Job) (b : Option PortBurst) : (s.setJob j b).buildQueue = s.buildQueue := rfl
@[simp] theorem State.setJob_engine (s : State) (j : Job) (b : Option PortBurst) : (s.setJob j b).engine = { s.engine with job := some j, ready := b } := rfl
@[simp] theorem State.setJob_headers (s : State) (j : Job) (b : Option PortBurst) : (s.setJob j b).headers = s.headers := rfl
@[simp] theorem State.setJob_pinTable (s : State) (j : Job) (b : Option PortBurst) : (s.setJob j b).pinTable = s.pinTable := rfl
@[simp] theorem State.setJob_notices (s : State) (j : Job) (b : Option PortBurst) : (s.setJob j b).notices = s.notices := rfl
@[simp] theorem State.setJob_noteIrq (s : State) (j : Job) (b : Option PortBurst) : (s.setJob j b).noteIrq = s.noteIrq := rfl
@[simp] theorem State.setJob_applier (s : State) (j : Job) (b : Option PortBurst) : (s.setJob j b).applier = s.applier := rfl
@[simp] theorem State.setJob_path (s : State) (j : Job) (b : Option PortBurst) : (s.setJob j b).path = s.path := rfl
@[simp] theorem State.setJob_memory (s : State) (j : Job) (b : Option PortBurst) : (s.setJob j b).memory = s.memory := rfl
@[simp] theorem State.setJob_owed (s : State) (j : Job) (b : Option PortBurst) : (s.setJob j b).owed = s.owed := rfl
@[simp] theorem State.setJob_choices (s : State) (j : Job) (b : Option PortBurst) : (s.setJob j b).choices = s.choices := rfl
@[simp] theorem State.setJob_pending (s : State) (j : Job) (b : Option PortBurst) : (s.setJob j b).pending = s.pending := rfl

/-! ### respond -/

@[simp] theorem respond_inReset (c : ResultCode) (v : Nat) (s : State) : (respond c v s).inReset = s.inReset := rfl
@[simp] theorem respond_tick (c : ResultCode) (v : Nat) (s : State) : (respond c v s).tick = s.tick := rfl
@[simp] theorem respond_zcLevel (c : ResultCode) (v : Nat) (s : State) : (respond c v s).zcLevel = s.zcLevel := rfl
@[simp] theorem respond_zcSampledAt (c : ResultCode) (v : Nat) (s : State) : (respond c v s).zcSampledAt = s.zcSampledAt := rfl
@[simp] theorem respond_filter (c : ResultCode) (v : Nat) (s : State) : (respond c v s).filter = s.filter := rfl
@[simp] theorem respond_shadow (c : ResultCode) (v : Nat) (s : State) : (respond c v s).shadow = s.shadow := rfl
@[simp] theorem respond_result (c : ResultCode) (v : Nat) (s : State) : (respond c v s).result = ⟨s.result.seq + 1, c, BitVec.ofNat 16 v⟩ := rfl
@[simp] theorem respond_arg0 (c : ResultCode) (v : Nat) (s : State) : (respond c v s).arg0 = s.arg0 := rfl
@[simp] theorem respond_arg1 (c : ResultCode) (v : Nat) (s : State) : (respond c v s).arg1 = s.arg1 := rfl
@[simp] theorem respond_arg2 (c : ResultCode) (v : Nat) (s : State) : (respond c v s).arg2 = s.arg2 := rfl
@[simp] theorem respond_tracker (c : ResultCode) (v : Nat) (s : State) : (respond c v s).tracker = s.tracker := rfl
@[simp] theorem respond_links (c : ResultCode) (v : Nat) (s : State) : (respond c v s).links = s.links := rfl
@[simp] theorem respond_pool (c : ResultCode) (v : Nat) (s : State) : (respond c v s).pool = s.pool := rfl
@[simp] theorem respond_buildQueue (c : ResultCode) (v : Nat) (s : State) : (respond c v s).buildQueue = s.buildQueue := rfl
@[simp] theorem respond_engine (c : ResultCode) (v : Nat) (s : State) : (respond c v s).engine = s.engine := rfl
@[simp] theorem respond_headers (c : ResultCode) (v : Nat) (s : State) : (respond c v s).headers = s.headers := rfl
@[simp] theorem respond_pinTable (c : ResultCode) (v : Nat) (s : State) : (respond c v s).pinTable = s.pinTable := rfl
@[simp] theorem respond_notices (c : ResultCode) (v : Nat) (s : State) : (respond c v s).notices = s.notices := rfl
@[simp] theorem respond_noteIrq (c : ResultCode) (v : Nat) (s : State) : (respond c v s).noteIrq = s.noteIrq := rfl
@[simp] theorem respond_applier (c : ResultCode) (v : Nat) (s : State) : (respond c v s).applier = s.applier := rfl
@[simp] theorem respond_path (c : ResultCode) (v : Nat) (s : State) : (respond c v s).path = s.path := rfl
@[simp] theorem respond_memory (c : ResultCode) (v : Nat) (s : State) : (respond c v s).memory = s.memory := rfl
@[simp] theorem respond_owed (c : ResultCode) (v : Nat) (s : State) : (respond c v s).owed = s.owed := rfl
@[simp] theorem respond_choices (c : ResultCode) (v : Nat) (s : State) : (respond c v s).choices = s.choices := rfl
@[simp] theorem respond_pending (c : ResultCode) (v : Nat) (s : State) : (respond c v s).pending = s.pending := rfl

/-! ### forward -/

@[simp] theorem forward_inReset (t : MemBurst) (s : State) : (forward t s).inReset = s.inReset := rfl
@[simp] theorem forward_tick (t : MemBurst) (s : State) : (forward t s).tick = s.tick := rfl
@[simp] theorem forward_zcLevel (t : MemBurst) (s : State) : (forward t s).zcLevel = s.zcLevel := rfl
@[simp] theorem forward_zcSampledAt (t : MemBurst) (s : State) : (forward t s).zcSampledAt = s.zcSampledAt := rfl
@[simp] theorem forward_filter (t : MemBurst) (s : State) : (forward t s).filter = s.filter := rfl
@[simp] theorem forward_shadow (t : MemBurst) (s : State) : (forward t s).shadow = s.shadow := rfl
@[simp] theorem forward_result (t : MemBurst) (s : State) : (forward t s).result = s.result := rfl
@[simp] theorem forward_arg0 (t : MemBurst) (s : State) : (forward t s).arg0 = s.arg0 := rfl
@[simp] theorem forward_arg1 (t : MemBurst) (s : State) : (forward t s).arg1 = s.arg1 := rfl
@[simp] theorem forward_arg2 (t : MemBurst) (s : State) : (forward t s).arg2 = s.arg2 := rfl
@[simp] theorem forward_tracker (t : MemBurst) (s : State) : (forward t s).tracker = s.tracker := rfl
@[simp] theorem forward_links (t : MemBurst) (s : State) : (forward t s).links = s.links := rfl
@[simp] theorem forward_pool (t : MemBurst) (s : State) : (forward t s).pool = s.pool := rfl
@[simp] theorem forward_buildQueue (t : MemBurst) (s : State) : (forward t s).buildQueue = s.buildQueue := rfl
@[simp] theorem forward_engine (t : MemBurst) (s : State) : (forward t s).engine = s.engine := rfl
@[simp] theorem forward_headers (t : MemBurst) (s : State) : (forward t s).headers = s.headers := rfl
@[simp] theorem forward_pinTable (t : MemBurst) (s : State) : (forward t s).pinTable = s.pinTable := rfl
@[simp] theorem forward_notices (t : MemBurst) (s : State) : (forward t s).notices = s.notices := rfl
@[simp] theorem forward_noteIrq (t : MemBurst) (s : State) : (forward t s).noteIrq = s.noteIrq := rfl
@[simp] theorem forward_applier (t : MemBurst) (s : State) : (forward t s).applier = s.applier := rfl
@[simp] theorem forward_path (t : MemBurst) (s : State) : (forward t s).path = { s.path with waiting := some t } := rfl
@[simp] theorem forward_memory (t : MemBurst) (s : State) : (forward t s).memory = s.memory := rfl
@[simp] theorem forward_owed (t : MemBurst) (s : State) : (forward t s).owed = s.owed := rfl
@[simp] theorem forward_choices (t : MemBurst) (s : State) : (forward t s).choices = s.choices := rfl
@[simp] theorem forward_pending (t : MemBurst) (s : State) : (forward t s).pending = s.pending := rfl

/-! ### answer -/

@[simp] theorem answer_inReset (ws : List Word) (s : State) : (answer ws s).inReset = s.inReset := rfl
@[simp] theorem answer_tick (ws : List Word) (s : State) : (answer ws s).tick = s.tick := rfl
@[simp] theorem answer_zcLevel (ws : List Word) (s : State) : (answer ws s).zcLevel = s.zcLevel := rfl
@[simp] theorem answer_zcSampledAt (ws : List Word) (s : State) : (answer ws s).zcSampledAt = s.zcSampledAt := rfl
@[simp] theorem answer_filter (ws : List Word) (s : State) : (answer ws s).filter = s.filter := rfl
@[simp] theorem answer_shadow (ws : List Word) (s : State) : (answer ws s).shadow = s.shadow := rfl
@[simp] theorem answer_result (ws : List Word) (s : State) : (answer ws s).result = s.result := rfl
@[simp] theorem answer_arg0 (ws : List Word) (s : State) : (answer ws s).arg0 = s.arg0 := rfl
@[simp] theorem answer_arg1 (ws : List Word) (s : State) : (answer ws s).arg1 = s.arg1 := rfl
@[simp] theorem answer_arg2 (ws : List Word) (s : State) : (answer ws s).arg2 = s.arg2 := rfl
@[simp] theorem answer_tracker (ws : List Word) (s : State) : (answer ws s).tracker = s.tracker := rfl
@[simp] theorem answer_links (ws : List Word) (s : State) : (answer ws s).links = s.links := rfl
@[simp] theorem answer_pool (ws : List Word) (s : State) : (answer ws s).pool = s.pool := rfl
@[simp] theorem answer_buildQueue (ws : List Word) (s : State) : (answer ws s).buildQueue = s.buildQueue := rfl
@[simp] theorem answer_engine (ws : List Word) (s : State) : (answer ws s).engine = s.engine := rfl
@[simp] theorem answer_headers (ws : List Word) (s : State) : (answer ws s).headers = s.headers := rfl
@[simp] theorem answer_pinTable (ws : List Word) (s : State) : (answer ws s).pinTable = s.pinTable := rfl
@[simp] theorem answer_notices (ws : List Word) (s : State) : (answer ws s).notices = s.notices := rfl
@[simp] theorem answer_noteIrq (ws : List Word) (s : State) : (answer ws s).noteIrq = s.noteIrq := rfl
@[simp] theorem answer_applier (ws : List Word) (s : State) : (answer ws s).applier = s.applier := rfl
@[simp] theorem answer_path (ws : List Word) (s : State) : (answer ws s).path = { s.path with completions := [.data ws] } := rfl
@[simp] theorem answer_memory (ws : List Word) (s : State) : (answer ws s).memory = s.memory := rfl
@[simp] theorem answer_owed (ws : List Word) (s : State) : (answer ws s).owed = s.owed := rfl
@[simp] theorem answer_choices (ws : List Word) (s : State) : (answer ws s).choices = s.choices := rfl
@[simp] theorem answer_pending (ws : List Word) (s : State) : (answer ws s).pending = s.pending := rfl

/-! ### present -/

@[simp] theorem present_inReset (t : Transaction) (s : State) : (present t s).inReset = s.inReset := by unfold present; split <;> rfl
@[simp] theorem present_tick (t : Transaction) (s : State) : (present t s).tick = s.tick := by unfold present; split <;> rfl
@[simp] theorem present_zcLevel (t : Transaction) (s : State) : (present t s).zcLevel = s.zcLevel := by unfold present; split <;> rfl
@[simp] theorem present_zcSampledAt (t : Transaction) (s : State) : (present t s).zcSampledAt = s.zcSampledAt := by unfold present; split <;> rfl
@[simp] theorem present_filter (t : Transaction) (s : State) : (present t s).filter = s.filter := by unfold present; split <;> rfl
@[simp] theorem present_shadow (t : Transaction) (s : State) : (present t s).shadow = s.shadow := by unfold present; split <;> rfl
@[simp] theorem present_result (t : Transaction) (s : State) : (present t s).result = s.result := by unfold present; split <;> rfl
@[simp] theorem present_arg0 (t : Transaction) (s : State) : (present t s).arg0 = s.arg0 := by unfold present; split <;> rfl
@[simp] theorem present_arg1 (t : Transaction) (s : State) : (present t s).arg1 = s.arg1 := by unfold present; split <;> rfl
@[simp] theorem present_arg2 (t : Transaction) (s : State) : (present t s).arg2 = s.arg2 := by unfold present; split <;> rfl
@[simp] theorem present_tracker (t : Transaction) (s : State) : (present t s).tracker = s.tracker := by unfold present; split <;> rfl
@[simp] theorem present_links (t : Transaction) (s : State) : (present t s).links = s.links := by unfold present; split <;> rfl
@[simp] theorem present_pool (t : Transaction) (s : State) : (present t s).pool = s.pool := by unfold present; split <;> rfl
@[simp] theorem present_buildQueue (t : Transaction) (s : State) : (present t s).buildQueue = s.buildQueue := by unfold present; split <;> rfl
@[simp] theorem present_engine (t : Transaction) (s : State) : (present t s).engine = s.engine := by unfold present; split <;> rfl
@[simp] theorem present_headers (t : Transaction) (s : State) : (present t s).headers = s.headers := by unfold present; split <;> rfl
@[simp] theorem present_pinTable (t : Transaction) (s : State) : (present t s).pinTable = s.pinTable := by unfold present; split <;> rfl
@[simp] theorem present_notices (t : Transaction) (s : State) : (present t s).notices = s.notices := by unfold present; split <;> rfl
@[simp] theorem present_noteIrq (t : Transaction) (s : State) : (present t s).noteIrq = s.noteIrq := by unfold present; split <;> rfl
@[simp] theorem present_applier (t : Transaction) (s : State) : (present t s).applier = s.applier := by unfold present; split <;> rfl
@[simp] theorem present_memory (t : Transaction) (s : State) : (present t s).memory = s.memory := by unfold present; split <;> rfl
@[simp] theorem present_owed (t : Transaction) (s : State) : (present t s).owed = s.owed := by unfold present; split <;> rfl
@[simp] theorem present_choices (t : Transaction) (s : State) : (present t s).choices = s.choices := by unfold present; split <;> rfl
@[simp] theorem present_pending (t : Transaction) (s : State) : (present t s).pending = s.pending := by unfold present; split <;> rfl
/-- With RESET_N deasserted and nothing presented before it, a transaction at a busy port is presented. -/
theorem present_path {t : Transaction} {s : State} (hr : s.inReset = false) (h : s.path.presented = none) :
    present t s = { s with path := { s.path with presented := some t } } := by unfold present; simp [hr, h]

/-! ### raise -/

@[simp] theorem raise_inReset (x : NoticeBody) (s : State) : (raise x s).inReset = s.inReset := rfl
@[simp] theorem raise_tick (x : NoticeBody) (s : State) : (raise x s).tick = s.tick := rfl
@[simp] theorem raise_zcLevel (x : NoticeBody) (s : State) : (raise x s).zcLevel = s.zcLevel := rfl
@[simp] theorem raise_zcSampledAt (x : NoticeBody) (s : State) : (raise x s).zcSampledAt = s.zcSampledAt := rfl
@[simp] theorem raise_filter (x : NoticeBody) (s : State) : (raise x s).filter = s.filter := rfl
@[simp] theorem raise_shadow (x : NoticeBody) (s : State) : (raise x s).shadow = s.shadow := rfl
@[simp] theorem raise_result (x : NoticeBody) (s : State) : (raise x s).result = s.result := rfl
@[simp] theorem raise_arg0 (x : NoticeBody) (s : State) : (raise x s).arg0 = s.arg0 := rfl
@[simp] theorem raise_arg1 (x : NoticeBody) (s : State) : (raise x s).arg1 = s.arg1 := rfl
@[simp] theorem raise_arg2 (x : NoticeBody) (s : State) : (raise x s).arg2 = s.arg2 := rfl
@[simp] theorem raise_tracker (x : NoticeBody) (s : State) : (raise x s).tracker = s.tracker := rfl
@[simp] theorem raise_links (x : NoticeBody) (s : State) : (raise x s).links = s.links := rfl
@[simp] theorem raise_pool (x : NoticeBody) (s : State) : (raise x s).pool = s.pool := rfl
@[simp] theorem raise_buildQueue (x : NoticeBody) (s : State) : (raise x s).buildQueue = s.buildQueue := rfl
@[simp] theorem raise_engine (x : NoticeBody) (s : State) : (raise x s).engine = s.engine := rfl
@[simp] theorem raise_headers (x : NoticeBody) (s : State) : (raise x s).headers = s.headers := rfl
@[simp] theorem raise_pinTable (x : NoticeBody) (s : State) : (raise x s).pinTable = s.pinTable := rfl
@[simp] theorem raise_noteIrq (x : NoticeBody) (s : State) : (raise x s).noteIrq = s.noteIrq := rfl
@[simp] theorem raise_applier (x : NoticeBody) (s : State) : (raise x s).applier = s.applier := rfl
@[simp] theorem raise_path (x : NoticeBody) (s : State) : (raise x s).path = s.path := rfl
@[simp] theorem raise_memory (x : NoticeBody) (s : State) : (raise x s).memory = s.memory := rfl
@[simp] theorem raise_owed (x : NoticeBody) (s : State) : (raise x s).owed = s.owed := rfl
@[simp] theorem raise_choices (x : NoticeBody) (s : State) : (raise x s).choices = s.choices := rfl
@[simp] theorem raise_pending (x : NoticeBody) (s : State) : (raise x s).pending = s.pending := rfl
@[simp] theorem raise_staging (x : NoticeBody) (s : State) : (raise x s).notices.staging =
    if s.admits then s.notices.staging ++ [⟨x, s.tracker.halfCount, s.tracker.epoch⟩] else s.notices.staging := rfl
@[simp] theorem raise_overflow (x : NoticeBody) (s : State) :
    (raise x s).notices.overflow = (s.notices.overflow || !s.admits) := rfl
@[simp] theorem raise_producer (x : NoticeBody) (s : State) : (raise x s).notices.producer = s.notices.producer := rfl
@[simp] theorem raise_consumer (x : NoticeBody) (s : State) : (raise x s).notices.consumer = s.notices.consumer := rfl
@[simp] theorem raise_classes (x : NoticeBody) (s : State) : (raise x s).notices.classes = s.notices.classes := rfl
@[simp] theorem raise_urgentCount (x : NoticeBody) (s : State) : (raise x s).notices.urgentCount = s.notices.urgentCount := rfl
@[simp] theorem raise_ready (x : NoticeBody) (s : State) : (raise x s).notices.ready = s.notices.ready := rfl

/-! ### decideIrq -/

@[simp] theorem decideIrq_inReset (s : State) : (decideIrq s).inReset = s.inReset := rfl
@[simp] theorem decideIrq_tick (s : State) : (decideIrq s).tick = s.tick := rfl
@[simp] theorem decideIrq_zcLevel (s : State) : (decideIrq s).zcLevel = s.zcLevel := rfl
@[simp] theorem decideIrq_zcSampledAt (s : State) : (decideIrq s).zcSampledAt = s.zcSampledAt := rfl
@[simp] theorem decideIrq_filter (s : State) : (decideIrq s).filter = s.filter := rfl
@[simp] theorem decideIrq_shadow (s : State) : (decideIrq s).shadow = s.shadow := rfl
@[simp] theorem decideIrq_result (s : State) : (decideIrq s).result = s.result := rfl
@[simp] theorem decideIrq_arg0 (s : State) : (decideIrq s).arg0 = s.arg0 := rfl
@[simp] theorem decideIrq_arg1 (s : State) : (decideIrq s).arg1 = s.arg1 := rfl
@[simp] theorem decideIrq_arg2 (s : State) : (decideIrq s).arg2 = s.arg2 := rfl
@[simp] theorem decideIrq_tracker (s : State) : (decideIrq s).tracker = s.tracker := rfl
@[simp] theorem decideIrq_links (s : State) : (decideIrq s).links = s.links := rfl
@[simp] theorem decideIrq_pool (s : State) : (decideIrq s).pool = s.pool := rfl
@[simp] theorem decideIrq_buildQueue (s : State) : (decideIrq s).buildQueue = s.buildQueue := rfl
@[simp] theorem decideIrq_engine (s : State) : (decideIrq s).engine = s.engine := rfl
@[simp] theorem decideIrq_headers (s : State) : (decideIrq s).headers = s.headers := rfl
@[simp] theorem decideIrq_pinTable (s : State) : (decideIrq s).pinTable = s.pinTable := rfl
@[simp] theorem decideIrq_notices (s : State) : (decideIrq s).notices = s.notices := rfl
@[simp] theorem decideIrq_noteIrq (s : State) : (decideIrq s).noteIrq = s.irqLevel := rfl
@[simp] theorem decideIrq_applier (s : State) : (decideIrq s).applier = s.applier := rfl
@[simp] theorem decideIrq_path (s : State) : (decideIrq s).path = s.path := rfl
@[simp] theorem decideIrq_memory (s : State) : (decideIrq s).memory = s.memory := rfl
@[simp] theorem decideIrq_owed (s : State) : (decideIrq s).owed = s.owed := rfl
@[simp] theorem decideIrq_choices (s : State) : (decideIrq s).choices = s.choices := rfl
@[simp] theorem decideIrq_pending (s : State) : (decideIrq s).pending = s.pending := rfl

/-! ### clearWait -/

@[simp] theorem clearWait_inReset (s : State) : (clearWait s).inReset = s.inReset := rfl
@[simp] theorem clearWait_tick (s : State) : (clearWait s).tick = s.tick := rfl
@[simp] theorem clearWait_zcLevel (s : State) : (clearWait s).zcLevel = s.zcLevel := rfl
@[simp] theorem clearWait_zcSampledAt (s : State) : (clearWait s).zcSampledAt = s.zcSampledAt := rfl
@[simp] theorem clearWait_filter (s : State) : (clearWait s).filter = s.filter := rfl
@[simp] theorem clearWait_shadow (s : State) : (clearWait s).shadow = s.shadow := rfl
@[simp] theorem clearWait_result (s : State) : (clearWait s).result = s.result := rfl
@[simp] theorem clearWait_arg0 (s : State) : (clearWait s).arg0 = s.arg0 := rfl
@[simp] theorem clearWait_arg1 (s : State) : (clearWait s).arg1 = s.arg1 := rfl
@[simp] theorem clearWait_arg2 (s : State) : (clearWait s).arg2 = s.arg2 := rfl
@[simp] theorem clearWait_tracker (s : State) : (clearWait s).tracker = s.tracker := rfl
@[simp] theorem clearWait_links (s : State) : (clearWait s).links = s.links := rfl
@[simp] theorem clearWait_pool (s : State) : (clearWait s).pool = s.pool := rfl
@[simp] theorem clearWait_buildQueue (s : State) : (clearWait s).buildQueue = s.buildQueue := rfl
@[simp] theorem clearWait_engine (s : State) : (clearWait s).engine = s.engine := rfl
@[simp] theorem clearWait_headers (s : State) : (clearWait s).headers = s.headers := rfl
@[simp] theorem clearWait_pinTable (s : State) : (clearWait s).pinTable = s.pinTable := rfl
@[simp] theorem clearWait_notices (s : State) : (clearWait s).notices = s.notices := rfl
@[simp] theorem clearWait_noteIrq (s : State) : (clearWait s).noteIrq = s.noteIrq := rfl
@[simp] theorem clearWait_applier (s : State) : (clearWait s).applier = s.applier := rfl
@[simp] theorem clearWait_path (s : State) : (clearWait s).path = { s.path with wait := if s.requesterWaits then s.path.wait else 0 } := rfl
@[simp] theorem clearWait_memory (s : State) : (clearWait s).memory = s.memory := rfl
@[simp] theorem clearWait_owed (s : State) : (clearWait s).owed = s.owed := rfl
@[simp] theorem clearWait_choices (s : State) : (clearWait s).choices = s.choices := rfl
@[simp] theorem clearWait_pending (s : State) : (clearWait s).pending = s.pending := rfl

/-! ### formNotice -/

@[simp] theorem formNotice_inReset (s : State) : (formNotice s).inReset = s.inReset := rfl
@[simp] theorem formNotice_tick (s : State) : (formNotice s).tick = s.tick := rfl
@[simp] theorem formNotice_zcLevel (s : State) : (formNotice s).zcLevel = s.zcLevel := rfl
@[simp] theorem formNotice_zcSampledAt (s : State) : (formNotice s).zcSampledAt = s.zcSampledAt := rfl
@[simp] theorem formNotice_filter (s : State) : (formNotice s).filter = s.filter := rfl
@[simp] theorem formNotice_shadow (s : State) : (formNotice s).shadow = s.shadow := rfl
@[simp] theorem formNotice_result (s : State) : (formNotice s).result = s.result := rfl
@[simp] theorem formNotice_arg0 (s : State) : (formNotice s).arg0 = s.arg0 := rfl
@[simp] theorem formNotice_arg1 (s : State) : (formNotice s).arg1 = s.arg1 := rfl
@[simp] theorem formNotice_arg2 (s : State) : (formNotice s).arg2 = s.arg2 := rfl
@[simp] theorem formNotice_tracker (s : State) : (formNotice s).tracker = s.tracker := rfl
@[simp] theorem formNotice_links (s : State) : (formNotice s).links = s.links := rfl
@[simp] theorem formNotice_pool (s : State) : (formNotice s).pool = s.pool := rfl
@[simp] theorem formNotice_buildQueue (s : State) : (formNotice s).buildQueue = s.buildQueue := rfl
@[simp] theorem formNotice_engine (s : State) : (formNotice s).engine = s.engine := rfl
@[simp] theorem formNotice_headers (s : State) : (formNotice s).headers = s.headers := rfl
@[simp] theorem formNotice_pinTable (s : State) : (formNotice s).pinTable = s.pinTable := rfl
@[simp] theorem formNotice_noteIrq (s : State) : (formNotice s).noteIrq = s.noteIrq := rfl
@[simp] theorem formNotice_applier (s : State) : (formNotice s).applier = s.applier := rfl
@[simp] theorem formNotice_path (s : State) : (formNotice s).path = s.path := rfl
@[simp] theorem formNotice_memory (s : State) : (formNotice s).memory = s.memory := rfl
@[simp] theorem formNotice_owed (s : State) : (formNotice s).owed = s.owed := rfl
@[simp] theorem formNotice_choices (s : State) : (formNotice s).choices = s.choices := rfl
@[simp] theorem formNotice_pending (s : State) : (formNotice s).pending = s.pending := rfl
@[simp] theorem formNotice_producer (s : State) : (formNotice s).notices.producer = s.notices.producer := rfl
@[simp] theorem formNotice_consumer (s : State) : (formNotice s).notices.consumer = s.notices.consumer := rfl
@[simp] theorem formNotice_classes (s : State) : (formNotice s).notices.classes = s.notices.classes := rfl
@[simp] theorem formNotice_urgentCount (s : State) : (formNotice s).notices.urgentCount = s.notices.urgentCount := rfl
@[simp] theorem formNotice_staging (s : State) : (formNotice s).notices.staging = s.notices.staging := rfl
@[simp] theorem formNotice_overflow (s : State) : (formNotice s).notices.overflow = s.notices.overflow := rfl

/-! ### dropQueueOf -/

@[simp] theorem dropQueueOf_inReset (k : Nat) (s : State) : (dropQueueOf k s).inReset = s.inReset := rfl
@[simp] theorem dropQueueOf_tick (k : Nat) (s : State) : (dropQueueOf k s).tick = s.tick := rfl
@[simp] theorem dropQueueOf_zcLevel (k : Nat) (s : State) : (dropQueueOf k s).zcLevel = s.zcLevel := rfl
@[simp] theorem dropQueueOf_zcSampledAt (k : Nat) (s : State) : (dropQueueOf k s).zcSampledAt = s.zcSampledAt := rfl
@[simp] theorem dropQueueOf_filter (k : Nat) (s : State) : (dropQueueOf k s).filter = s.filter := rfl
@[simp] theorem dropQueueOf_shadow (k : Nat) (s : State) : (dropQueueOf k s).shadow = s.shadow := rfl
@[simp] theorem dropQueueOf_result (k : Nat) (s : State) : (dropQueueOf k s).result = s.result := rfl
@[simp] theorem dropQueueOf_arg0 (k : Nat) (s : State) : (dropQueueOf k s).arg0 = s.arg0 := rfl
@[simp] theorem dropQueueOf_arg1 (k : Nat) (s : State) : (dropQueueOf k s).arg1 = s.arg1 := rfl
@[simp] theorem dropQueueOf_arg2 (k : Nat) (s : State) : (dropQueueOf k s).arg2 = s.arg2 := rfl
@[simp] theorem dropQueueOf_tracker (k : Nat) (s : State) : (dropQueueOf k s).tracker = s.tracker := rfl
@[simp] theorem dropQueueOf_links (k : Nat) (s : State) : (dropQueueOf k s).links = s.links := rfl
@[simp] theorem dropQueueOf_pool (k : Nat) (s : State) : (dropQueueOf k s).pool = s.pool := rfl
@[simp] theorem dropQueueOf_buildQueue (k : Nat) (s : State) : (dropQueueOf k s).buildQueue = s.buildQueue.filter fun q => q.link != k := rfl
@[simp] theorem dropQueueOf_engine (k : Nat) (s : State) : (dropQueueOf k s).engine = s.engine := rfl
@[simp] theorem dropQueueOf_headers (k : Nat) (s : State) : (dropQueueOf k s).headers = s.headers := rfl
@[simp] theorem dropQueueOf_pinTable (k : Nat) (s : State) : (dropQueueOf k s).pinTable = s.pinTable := rfl
@[simp] theorem dropQueueOf_notices (k : Nat) (s : State) : (dropQueueOf k s).notices = s.notices := rfl
@[simp] theorem dropQueueOf_noteIrq (k : Nat) (s : State) : (dropQueueOf k s).noteIrq = s.noteIrq := rfl
@[simp] theorem dropQueueOf_applier (k : Nat) (s : State) : (dropQueueOf k s).applier = s.applier := rfl
@[simp] theorem dropQueueOf_path (k : Nat) (s : State) : (dropQueueOf k s).path = s.path := rfl
@[simp] theorem dropQueueOf_memory (k : Nat) (s : State) : (dropQueueOf k s).memory = s.memory := rfl
@[simp] theorem dropQueueOf_owed (k : Nat) (s : State) : (dropQueueOf k s).owed = s.owed := rfl
@[simp] theorem dropQueueOf_choices (k : Nat) (s : State) : (dropQueueOf k s).choices = s.choices := rfl
@[simp] theorem dropQueueOf_pending (k : Nat) (s : State) : (dropQueueOf k s).pending = s.pending := rfl

/-! ### offerAuto -/

@[simp] theorem offerAuto_inReset (r : BuildReq) (s : State) : (offerAuto r s).inReset = s.inReset := rfl
@[simp] theorem offerAuto_tick (r : BuildReq) (s : State) : (offerAuto r s).tick = s.tick := rfl
@[simp] theorem offerAuto_zcLevel (r : BuildReq) (s : State) : (offerAuto r s).zcLevel = s.zcLevel := rfl
@[simp] theorem offerAuto_zcSampledAt (r : BuildReq) (s : State) : (offerAuto r s).zcSampledAt = s.zcSampledAt := rfl
@[simp] theorem offerAuto_filter (r : BuildReq) (s : State) : (offerAuto r s).filter = s.filter := rfl
@[simp] theorem offerAuto_shadow (r : BuildReq) (s : State) : (offerAuto r s).shadow = s.shadow := rfl
@[simp] theorem offerAuto_result (r : BuildReq) (s : State) : (offerAuto r s).result = s.result := rfl
@[simp] theorem offerAuto_arg0 (r : BuildReq) (s : State) : (offerAuto r s).arg0 = s.arg0 := rfl
@[simp] theorem offerAuto_arg1 (r : BuildReq) (s : State) : (offerAuto r s).arg1 = s.arg1 := rfl
@[simp] theorem offerAuto_arg2 (r : BuildReq) (s : State) : (offerAuto r s).arg2 = s.arg2 := rfl
@[simp] theorem offerAuto_tracker (r : BuildReq) (s : State) : (offerAuto r s).tracker = s.tracker := rfl
@[simp] theorem offerAuto_links (r : BuildReq) (s : State) : (offerAuto r s).links = s.links := rfl
@[simp] theorem offerAuto_pool (r : BuildReq) (s : State) : (offerAuto r s).pool = s.pool := rfl
@[simp] theorem offerAuto_buildQueue (r : BuildReq) (s : State) : (offerAuto r s).buildQueue = (enqueue r s.buildQueue).getD s.buildQueue := rfl
@[simp] theorem offerAuto_engine (r : BuildReq) (s : State) : (offerAuto r s).engine = s.engine := rfl
@[simp] theorem offerAuto_headers (r : BuildReq) (s : State) : (offerAuto r s).headers = s.headers := rfl
@[simp] theorem offerAuto_pinTable (r : BuildReq) (s : State) : (offerAuto r s).pinTable = s.pinTable := rfl
@[simp] theorem offerAuto_notices (r : BuildReq) (s : State) : (offerAuto r s).notices = s.notices := rfl
@[simp] theorem offerAuto_noteIrq (r : BuildReq) (s : State) : (offerAuto r s).noteIrq = s.noteIrq := rfl
@[simp] theorem offerAuto_applier (r : BuildReq) (s : State) : (offerAuto r s).applier = s.applier := rfl
@[simp] theorem offerAuto_path (r : BuildReq) (s : State) : (offerAuto r s).path = s.path := rfl
@[simp] theorem offerAuto_memory (r : BuildReq) (s : State) : (offerAuto r s).memory = s.memory := rfl
@[simp] theorem offerAuto_owed (r : BuildReq) (s : State) : (offerAuto r s).owed = s.owed := rfl
@[simp] theorem offerAuto_choices (r : BuildReq) (s : State) : (offerAuto r s).choices = s.choices := rfl
@[simp] theorem offerAuto_pending (r : BuildReq) (s : State) : (offerAuto r s).pending = s.pending := rfl

/-! ### shadowHeader -/

@[simp] theorem shadowHeader_inReset (r w : Nat) (x : Word) (s : State) : (shadowHeader r w x s).inReset = s.inReset := rfl
@[simp] theorem shadowHeader_tick (r w : Nat) (x : Word) (s : State) : (shadowHeader r w x s).tick = s.tick := rfl
@[simp] theorem shadowHeader_zcLevel (r w : Nat) (x : Word) (s : State) : (shadowHeader r w x s).zcLevel = s.zcLevel := rfl
@[simp] theorem shadowHeader_zcSampledAt (r w : Nat) (x : Word) (s : State) : (shadowHeader r w x s).zcSampledAt = s.zcSampledAt := rfl
@[simp] theorem shadowHeader_filter (r w : Nat) (x : Word) (s : State) : (shadowHeader r w x s).filter = s.filter := rfl
@[simp] theorem shadowHeader_shadow (r w : Nat) (x : Word) (s : State) : (shadowHeader r w x s).shadow = s.shadow := rfl
@[simp] theorem shadowHeader_result (r w : Nat) (x : Word) (s : State) : (shadowHeader r w x s).result = s.result := rfl
@[simp] theorem shadowHeader_arg0 (r w : Nat) (x : Word) (s : State) : (shadowHeader r w x s).arg0 = s.arg0 := rfl
@[simp] theorem shadowHeader_arg1 (r w : Nat) (x : Word) (s : State) : (shadowHeader r w x s).arg1 = s.arg1 := rfl
@[simp] theorem shadowHeader_arg2 (r w : Nat) (x : Word) (s : State) : (shadowHeader r w x s).arg2 = s.arg2 := rfl
@[simp] theorem shadowHeader_tracker (r w : Nat) (x : Word) (s : State) : (shadowHeader r w x s).tracker = s.tracker := rfl
@[simp] theorem shadowHeader_links (r w : Nat) (x : Word) (s : State) : (shadowHeader r w x s).links = s.links := rfl
@[simp] theorem shadowHeader_pool (r w : Nat) (x : Word) (s : State) : (shadowHeader r w x s).pool = s.pool := rfl
@[simp] theorem shadowHeader_buildQueue (r w : Nat) (x : Word) (s : State) : (shadowHeader r w x s).buildQueue = s.buildQueue := rfl
@[simp] theorem shadowHeader_engine (r w : Nat) (x : Word) (s : State) : (shadowHeader r w x s).engine = s.engine := rfl
@[simp] theorem shadowHeader_pinTable (r w : Nat) (x : Word) (s : State) : (shadowHeader r w x s).pinTable = s.pinTable := rfl
@[simp] theorem shadowHeader_notices (r w : Nat) (x : Word) (s : State) : (shadowHeader r w x s).notices = s.notices := rfl
@[simp] theorem shadowHeader_noteIrq (r w : Nat) (x : Word) (s : State) : (shadowHeader r w x s).noteIrq = s.noteIrq := rfl
@[simp] theorem shadowHeader_applier (r w : Nat) (x : Word) (s : State) : (shadowHeader r w x s).applier = s.applier := rfl
@[simp] theorem shadowHeader_path (r w : Nat) (x : Word) (s : State) : (shadowHeader r w x s).path = s.path := rfl
@[simp] theorem shadowHeader_memory (r w : Nat) (x : Word) (s : State) : (shadowHeader r w x s).memory = s.memory := rfl
@[simp] theorem shadowHeader_owed (r w : Nat) (x : Word) (s : State) : (shadowHeader r w x s).owed = s.owed := rfl
@[simp] theorem shadowHeader_choices (r w : Nat) (x : Word) (s : State) : (shadowHeader r w x s).choices = s.choices := rfl
@[simp] theorem shadowHeader_pending (r w : Nat) (x : Word) (s : State) : (shadowHeader r w x s).pending = s.pending := rfl

/-! ### shadowWrite -/

@[simp] theorem shadowWrite_inReset (b : WriteBurst) (w : Nat) (s : State) : (shadowWrite b w s).inReset = s.inReset := rfl
@[simp] theorem shadowWrite_tick (b : WriteBurst) (w : Nat) (s : State) : (shadowWrite b w s).tick = s.tick := rfl
@[simp] theorem shadowWrite_zcLevel (b : WriteBurst) (w : Nat) (s : State) : (shadowWrite b w s).zcLevel = s.zcLevel := rfl
@[simp] theorem shadowWrite_zcSampledAt (b : WriteBurst) (w : Nat) (s : State) : (shadowWrite b w s).zcSampledAt = s.zcSampledAt := rfl
@[simp] theorem shadowWrite_filter (b : WriteBurst) (w : Nat) (s : State) : (shadowWrite b w s).filter = s.filter := rfl
@[simp] theorem shadowWrite_result (b : WriteBurst) (w : Nat) (s : State) : (shadowWrite b w s).result = s.result := rfl
@[simp] theorem shadowWrite_arg0 (b : WriteBurst) (w : Nat) (s : State) : (shadowWrite b w s).arg0 = s.arg0 := rfl
@[simp] theorem shadowWrite_arg1 (b : WriteBurst) (w : Nat) (s : State) : (shadowWrite b w s).arg1 = s.arg1 := rfl
@[simp] theorem shadowWrite_arg2 (b : WriteBurst) (w : Nat) (s : State) : (shadowWrite b w s).arg2 = s.arg2 := rfl
@[simp] theorem shadowWrite_tracker (b : WriteBurst) (w : Nat) (s : State) : (shadowWrite b w s).tracker = s.tracker := rfl
@[simp] theorem shadowWrite_links (b : WriteBurst) (w : Nat) (s : State) : (shadowWrite b w s).links = s.links := rfl
@[simp] theorem shadowWrite_pool (b : WriteBurst) (w : Nat) (s : State) : (shadowWrite b w s).pool = s.pool := rfl
@[simp] theorem shadowWrite_buildQueue (b : WriteBurst) (w : Nat) (s : State) : (shadowWrite b w s).buildQueue = s.buildQueue := rfl
@[simp] theorem shadowWrite_engine (b : WriteBurst) (w : Nat) (s : State) : (shadowWrite b w s).engine = s.engine := rfl
@[simp] theorem shadowWrite_headers (b : WriteBurst) (w : Nat) (s : State) : (shadowWrite b w s).headers = s.headers := rfl
@[simp] theorem shadowWrite_pinTable (b : WriteBurst) (w : Nat) (s : State) : (shadowWrite b w s).pinTable = s.pinTable := rfl
@[simp] theorem shadowWrite_notices (b : WriteBurst) (w : Nat) (s : State) : (shadowWrite b w s).notices = s.notices := rfl
@[simp] theorem shadowWrite_noteIrq (b : WriteBurst) (w : Nat) (s : State) : (shadowWrite b w s).noteIrq = s.noteIrq := rfl
@[simp] theorem shadowWrite_applier (b : WriteBurst) (w : Nat) (s : State) : (shadowWrite b w s).applier = s.applier := rfl
@[simp] theorem shadowWrite_path (b : WriteBurst) (w : Nat) (s : State) : (shadowWrite b w s).path = s.path := rfl
@[simp] theorem shadowWrite_memory (b : WriteBurst) (w : Nat) (s : State) : (shadowWrite b w s).memory = s.memory := rfl
@[simp] theorem shadowWrite_owed (b : WriteBurst) (w : Nat) (s : State) : (shadowWrite b w s).owed = s.owed := rfl
@[simp] theorem shadowWrite_choices (b : WriteBurst) (w : Nat) (s : State) : (shadowWrite b w s).choices = s.choices := rfl
@[simp] theorem shadowWrite_pending (b : WriteBurst) (w : Nat) (s : State) : (shadowWrite b w s).pending = s.pending := rfl

/-! ### counting -/

@[simp] theorem counting_inReset (f : State → State) (s : State) : (counting f s).inReset = (f s).inReset := rfl
@[simp] theorem counting_tick (f : State → State) (s : State) : (counting f s).tick = (f s).tick := rfl
@[simp] theorem counting_zcLevel (f : State → State) (s : State) : (counting f s).zcLevel = (f s).zcLevel := rfl
@[simp] theorem counting_zcSampledAt (f : State → State) (s : State) : (counting f s).zcSampledAt = (f s).zcSampledAt := rfl
@[simp] theorem counting_filter (f : State → State) (s : State) : (counting f s).filter = (f s).filter := rfl
@[simp] theorem counting_shadow (f : State → State) (s : State) : (counting f s).shadow = (f s).shadow := rfl
@[simp] theorem counting_result (f : State → State) (s : State) : (counting f s).result = (f s).result := rfl
@[simp] theorem counting_arg0 (f : State → State) (s : State) : (counting f s).arg0 = (f s).arg0 := rfl
@[simp] theorem counting_arg1 (f : State → State) (s : State) : (counting f s).arg1 = (f s).arg1 := rfl
@[simp] theorem counting_arg2 (f : State → State) (s : State) : (counting f s).arg2 = (f s).arg2 := rfl
@[simp] theorem counting_tracker (f : State → State) (s : State) : (counting f s).tracker = (f s).tracker := rfl
@[simp] theorem counting_links (f : State → State) (s : State) : (counting f s).links = tzip Link.counted s.links (f s).links := rfl
@[simp] theorem counting_pool (f : State → State) (s : State) : (counting f s).pool = (f s).pool := rfl
@[simp] theorem counting_buildQueue (f : State → State) (s : State) : (counting f s).buildQueue = (f s).buildQueue := rfl
@[simp] theorem counting_engine (f : State → State) (s : State) : (counting f s).engine = (f s).engine := rfl
@[simp] theorem counting_headers (f : State → State) (s : State) : (counting f s).headers = (f s).headers := rfl
@[simp] theorem counting_pinTable (f : State → State) (s : State) : (counting f s).pinTable = (f s).pinTable := rfl
@[simp] theorem counting_notices (f : State → State) (s : State) : (counting f s).notices = (f s).notices := rfl
@[simp] theorem counting_noteIrq (f : State → State) (s : State) : (counting f s).noteIrq = (f s).noteIrq := rfl
@[simp] theorem counting_applier (f : State → State) (s : State) : (counting f s).applier = (f s).applier := rfl
@[simp] theorem counting_path (f : State → State) (s : State) : (counting f s).path = (f s).path := rfl
@[simp] theorem counting_memory (f : State → State) (s : State) : (counting f s).memory = (f s).memory := rfl
@[simp] theorem counting_owed (f : State → State) (s : State) : (counting f s).owed = (f s).owed := rfl
@[simp] theorem counting_choices (f : State → State) (s : State) : (counting f s).choices = (f s).choices := rfl
@[simp] theorem counting_pending (f : State → State) (s : State) : (counting f s).pending = (f s).pending := rfl

end Sys2Proof.Machine
end

