-- ==== Sys2Proof/Laws/Memory.lean ====
section
/-! SUPPORT. Memory: what a read gives after a write, and that every memory operation keeps the canonical form. -/

namespace Sys2Proof.Machine

/-! ### One byte -/

/-- A listed key below the form's bound reads as unwritten. -/
theorem readByte_below {m : Memory} {lo k : Nat} (h : Memory.wfFrom lo m = true) (hk : k < lo) :
    readByte m k = unwrittenByte := by
  induction m generalizing lo with
  | nil => rfl
  | cons c m ih =>
    obtain ⟨a, b⟩ := c
    simp only [Memory.wfFrom, Bool.and_eq_true, decide_eq_true_eq] at h
    have hne : a ≠ k := by omega
    simp only [readByte, hne, if_false]
    exact ih h.2 (by omega)

/-- A read after a write of one byte, in canonical memory. -/
theorem readByte_writeByte {m : Memory} {lo : Nat} (h : Memory.wfFrom lo m = true) (k j : Nat) (b : Byte) :
    readByte (writeByte m k b) j = if k = j then b else readByte m j := by
  induction m generalizing lo with
  | nil =>
    by_cases hb : b = unwrittenByte <;> simp [writeByte, readByte, hb]
  | cons c m ih =>
    obtain ⟨a, v⟩ := c
    have hw := h
    simp only [Memory.wfFrom, Bool.and_eq_true, decide_eq_true_eq] at h
    have hbelow : ∀ i, i < a + 1 → readByte m i = unwrittenByte := fun i hi => readByte_below h.2 hi
    unfold writeByte
    by_cases h1 : k < a
    · rw [if_pos h1]
      by_cases hb : b = unwrittenByte
      · rw [if_pos hb]
        by_cases hkj : k = j
        · subst hkj
          have : a ≠ k := by omega
          simp [readByte, this, hb, hbelow k (by omega)]
        · simp [hkj]
      · rw [if_neg hb]
        by_cases hkj : k = j <;> simp [readByte, hkj]
    · rw [if_neg h1]
      by_cases h2 : k = a
      · rw [if_pos h2]
        subst h2
        by_cases hb : b = unwrittenByte
        · rw [if_pos hb]
          by_cases hkj : k = j
          · subst hkj
            simp [hb, hbelow k (by omega)]
          · simp [readByte, hkj]
        · rw [if_neg hb]
          by_cases hkj : k = j <;> simp [readByte, hkj]
      · rw [if_neg h2]
        by_cases haj : a = j
        · have : k ≠ j := by omega
          simp [readByte, haj, this]
        · simp only [readByte, haj, if_false]
          exact ih h.2

/-- A write of one byte inside the address space keeps the canonical form. -/
theorem wfFrom_writeByte {m : Memory} {lo : Nat} (h : Memory.wfFrom lo m = true) {k : Nat} (hk : lo ≤ k)
    (hmax : k < 4 * 2 ^ 24) (b : Byte) : Memory.wfFrom lo (writeByte m k b) = true := by
  induction m generalizing lo with
  | nil =>
    by_cases hb : b = unwrittenByte <;> simp [writeByte, Memory.wfFrom, hb, hk]
    omega
  | cons c m ih =>
    obtain ⟨a, v⟩ := c
    have hw := h
    simp only [Memory.wfFrom, Bool.and_eq_true, decide_eq_true_eq] at h
    obtain ⟨⟨⟨h1, h2⟩, h3⟩, h4⟩ := h
    unfold writeByte
    by_cases c1 : k < a
    · rw [if_pos c1]
      by_cases hb : b = unwrittenByte
      · rw [if_pos hb]; exact hw
      · rw [if_neg hb]
        simp only [Memory.wfFrom, Bool.and_eq_true, decide_eq_true_eq]
        refine ⟨⟨⟨hk, hmax⟩, by simpa using hb⟩, ⟨⟨by omega, h2⟩, h3⟩, h4⟩
    · rw [if_neg c1]
      by_cases c2 : k = a
      · rw [if_pos c2]
        by_cases hb : b = unwrittenByte
        · rw [if_pos hb]
          clear ih hw
          have mono : ∀ (m : Memory) (x y : Nat), x ≤ y → Memory.wfFrom y m = true → Memory.wfFrom x m = true := by
            intro m x y hxy hm
            cases m with
            | nil => rfl
            | cons c m =>
              obtain ⟨p, q⟩ := c
              simp only [Memory.wfFrom, Bool.and_eq_true, decide_eq_true_eq] at hm ⊢
              exact ⟨⟨⟨by omega, hm.1.1.2⟩, hm.1.2⟩, hm.2⟩
          exact mono m lo (a + 1) (by omega) h4
        · rw [if_neg hb]
          simp only [Memory.wfFrom, Bool.and_eq_true, decide_eq_true_eq]
          subst c2
          exact ⟨⟨⟨hk, hmax⟩, by simpa using hb⟩, h4⟩
      · rw [if_neg c2]
        simp only [Memory.wfFrom, Bool.and_eq_true, decide_eq_true_eq]
        exact ⟨⟨⟨h1, h2⟩, h3⟩, ih h4 (by omega)⟩

/-! ### Words and bursts -/

theorem byteKey_lt (a : Nat) {i : Nat} (hi : i < 4) : byteKey a i < 4 * 2 ^ 24 := by
  have : a % 2 ^ 24 < 2 ^ 24 := Nat.mod_lt _ (by decide)
  unfold byteKey; omega

/-- A lane of a beat keeps the canonical form. -/
theorem wf_writeLane {m : Memory} (h : m.wf = true) (a : Nat) (x : Beat) {i : Nat} (hi : i < 4) :
    (writeLane m a x i).wf = true := by
  unfold writeLane
  split
  · exact wfFrom_writeByte h (Nat.zero_le _) (byteKey_lt a hi) _
  · exact h

/-- A beat keeps the canonical form. -/
theorem wf_writeBeat {m : Memory} (h : m.wf = true) (a : Nat) (x : Beat) : (writeBeat m a x).wf = true :=
  wf_writeLane (wf_writeLane (wf_writeLane (wf_writeLane h a x (by decide)) a x (by decide)) a x (by decide)) a x
    (by decide)

/-- Beats keep the canonical form. -/
theorem wf_writeBeats {m : Memory} (h : m.wf = true) (a : Nat) (xs : List Beat) : (writeBeats m a xs).wf = true := by
  induction xs generalizing m a with
  | nil => exact h
  | cons x xs ih => exact ih (wf_writeBeat h a x) (a + 1)

/-- A burst keeps the canonical form. -/
theorem wf_applyTo {m : Memory} (h : m.wf = true) (u : MemBurst) : (u.applyTo m).wf = true := by
  cases u with
  | read _ _ => exact h
  | write a xs => exact wf_writeBeats h a xs

/-- A burst cut short keeps the canonical form. -/
theorem wf_applyFirst {m : Memory} (h : m.wf = true) (k : Nat) (u : MemBurst) : (u.applyFirst k m).wf = true := by
  cases u with
  | read _ _ => exact h
  | write a xs => exact wf_writeBeats h a _

/-- Memory after reset is canonical. -/
theorem wf_reset : Memory.wf State.reset.memory = true := rfl

/-- A read of one byte after one lane is written. -/
theorem readByte_writeLane {m : Memory} (h : m.wf = true) (a : Nat) (x : Beat) (i j : Nat) :
    readByte (writeLane m a x i) j =
      if x.be.getLsbD i = true ∧ byteKey a i = j then x.data.extractLsb' (8 * i) 8 else readByte m j := by
  unfold writeLane
  split
  · rename_i hb
    rw [readByte_writeByte h]
    simp [hb]
  · rename_i hb
    simp [hb]

/-- A byte of no word of a beat is as it was. -/
theorem readByte_writeBeat_ne {m : Memory} (h : m.wf = true) (a : Nat) (x : Beat) {j : Nat}
    (hj : ∀ i, i < 4 → byteKey a i ≠ j) : readByte (writeBeat m a x) j = readByte m j := by
  have l0 := wf_writeLane h a x (i := 0) (by decide)
  have l1 := wf_writeLane l0 a x (i := 1) (by decide)
  have l2 := wf_writeLane l1 a x (i := 2) (by decide)
  unfold writeBeat
  rw [readByte_writeLane l2, readByte_writeLane l1, readByte_writeLane l0, readByte_writeLane h]
  simp [hj 0, hj 1, hj 2, hj 3]

/-- Lane i of the word a beat is written to: the beat's byte where it is enabled, else the byte held. -/
theorem readByte_writeBeat_same {m : Memory} (h : m.wf = true) (a : Nat) (x : Beat) {i : Nat} (hi : i < 4) :
    readByte (writeBeat m a x) (byteKey a i) =
      if x.be.getLsbD i = true then x.data.extractLsb' (8 * i) 8 else readByte m (byteKey a i) := by
  have l0 := wf_writeLane h a x (i := 0) (by decide)
  have l1 := wf_writeLane l0 a x (i := 1) (by decide)
  have l2 := wf_writeLane l1 a x (i := 2) (by decide)
  have key : ∀ p, (byteKey a p = byteKey a i) = (p = i) := by intro p; simp [byteKey]
  unfold writeBeat
  rw [readByte_writeLane l2, readByte_writeLane l1, readByte_writeLane l0, readByte_writeLane h]
  simp only [key]
  obtain rfl | rfl | rfl | rfl : i = 0 ∨ i = 1 ∨ i = 2 ∨ i = 3 := by omega
  all_goals simp

/-- A byte that lies in no word of a burst is as it was. -/
theorem readByte_writeBeats_ne {m : Memory} (h : m.wf = true) (a : Nat) (xs : List Beat) {j : Nat}
    (hj : ∀ p, p < xs.length → ∀ i, i < 4 → byteKey (a + p) i ≠ j) : readByte (writeBeats m a xs) j = readByte m j := by
  induction xs generalizing m a with
  | nil => rfl
  | cons x xs ih =>
    rw [writeBeats, ih (wf_writeBeat h a x)]
    · exact readByte_writeBeat_ne h a x fun i hi => by simpa using hj 0 (by simp) i hi
    · intro p hp i hi
      have := hj (p + 1) (by simpa using hp) i hi
      rwa [Nat.add_assoc, Nat.add_comm 1 p]

end Sys2Proof.Machine
end

