-- ==== Sys2Proof/Laws/Tables.lean ====
section
/-! SUPPORT. Tables by index: what a read gives after a write, a map or a zip, and the same for the records of the state. -/

namespace Sys2Proof.Machine

variable {α β γ : Type} {n : Nat}

/-! ### Tables -/

/-- A read of the entry written, inside the table. -/
theorem tget_tset_same (v : Vector α n) (d a : α) {i : Nat} (h : i < n) : tget (tset v i a) d i = a := by
  simp [tget, tset, h]

/-- A read of another entry. -/
theorem tget_tset_ne (v : Vector α n) (d a : α) {i j : Nat} (h : i ≠ j) : tget (tset v i a) d j = tget v d j := by
  unfold tget tset
  split
  · rw [Vector.getElem_setIfInBounds_ne _ h]
  · rfl

/-- A read after a write. -/
theorem tget_tset (v : Vector α n) (d a : α) (i j : Nat) :
    tget (tset v i a) d j = if i = j ∧ j < n then a else tget v d j := by
  by_cases h : i = j
  · subst h
    by_cases hn : i < n
    · simp [hn, tget_tset_same]
    · simp [hn, tget]
  · simp [h, tget_tset_ne]

/-- Beyond the end of a table a read gives the default. -/
theorem tget_beyond (v : Vector α n) (d : α) {i : Nat} (h : n ≤ i) : tget v d i = d := by
  simp [tget, Nat.not_lt.2 h]

/-- Every entry of a constant table. -/
theorem tget_replicate (a : α) (i : Nat) : tget (Vector.replicate n a) a i = a := by
  unfold tget; split <;> simp

/-- Tables that read alike everywhere are equal. -/
theorem tget_ext {u v : Vector α n} (d : α) (h : ∀ i, i < n → tget u d i = tget v d i) : u = v := by
  apply Vector.ext
  intro i hi
  simpa [tget, hi] using h i hi

/-- A write of the entry held changes nothing. -/
theorem tset_tget (v : Vector α n) (d : α) (i : Nat) : tset v i (tget v d i) = v := by
  apply tget_ext d
  intro j _
  rw [tget_tset]
  split
  · rename_i h; rw [h.1]
  · rfl

/-- The entries of a table as a list, one by one. -/
theorem toList_getElem (v : Vector α n) (d : α) {i : Nat} (h : i < n) : v.toList[i]? = some (tget v d i) := by
  simp [tget, h]

/-- A written table as a list. -/
theorem toList_tset (v : Vector α n) (i : Nat) (a : α) : (tset v i a).toList = v.toList.set i a := by
  simp [tset, Vector.setIfInBounds, Vector.toList]

theorem toList_tmapIdx (f : Nat → α → β) (v : Vector α n) : (tmapIdx f v).toList = v.toList.mapIdx f := by
  simp [tmapIdx, Vector.toList]

theorem toList_tzip (f : α → β → γ) (u : Vector α n) (v : Vector β n) :
    (tzip f u v).toList = List.zipWith f u.toList v.toList := by
  simp [tzip, Vector.toList]

/-- A read of a mapped table. -/
theorem tget_tmapIdx (f : Nat → α → β) (v : Vector α n) (d : α) (e : β) {i : Nat} (h : i < n) :
    tget (tmapIdx f v) e i = f i (tget v d i) := by
  simp [tget, tmapIdx, h]

/-- A read of two zipped tables. -/
theorem tget_tzip (f : α → β → γ) (u : Vector α n) (v : Vector β n) (c : α) (d : β) (e : γ) {i : Nat} (h : i < n) :
    tget (tzip f u v) e i = f (tget u c i) (tget v d i) := by
  simp [tget, tzip, h]

/-! ### The records of the state -/

/-- A link record after one is replaced (R65). -/
theorem link_setLink (s : State) (k j : Nat) (L : Link) :
    (s.setLink k L).link j = if k = j ∧ j < 32 then L else s.link j := tget_tset ..

/-- Another link record is as it was. -/
theorem link_setLink_ne (s : State) {k j : Nat} (L : Link) (h : k ≠ j) : (s.setLink k L).link j = s.link j :=
  tget_tset_ne _ _ _ h

/-- The link record replaced. -/
theorem link_setLink_same (s : State) {k : Nat} (L : Link) (h : k < 32) : (s.setLink k L).link k = L :=
  tget_tset_same _ _ _ h

/-- A slot record after one is replaced (R84). -/
theorem slot_setSlot (s : State) (n m : Nat) (r : SlotRec) :
    (s.setSlot n r).slot m = if n = m ∧ m < 128 then r else s.slot m := tget_tset ..

/-- A pin table entry after one is replaced (R158). -/
theorem pinEntry_setPinEntry (s : State) (i j : Nat) (e : PinEntry) :
    (s.setPinEntry i e).pinEntry j = if i = j ∧ j < 64 then e else s.pinEntry j := tget_tset ..

@[simp] theorem slot_setLink (s : State) (k n : Nat) (L : Link) : (s.setLink k L).slot n = s.slot n := rfl
@[simp] theorem slot_setPinEntry (s : State) (i n : Nat) (e : PinEntry) : (s.setPinEntry i e).slot n = s.slot n := rfl
@[simp] theorem link_setSlot (s : State) (n k : Nat) (r : SlotRec) : (s.setSlot n r).link k = s.link k := rfl
@[simp] theorem link_setPinEntry (s : State) (i k : Nat) (e : PinEntry) : (s.setPinEntry i e).link k = s.link k := rfl
@[simp] theorem pinEntry_setLink (s : State) (k i : Nat) (L : Link) : (s.setLink k L).pinEntry i = s.pinEntry i := rfl
@[simp] theorem pinEntry_setSlot (s : State) (n i : Nat) (r : SlotRec) : (s.setSlot n r).pinEntry i = s.pinEntry i := rfl
@[simp] theorem slot_raise (x : NoticeBody) (s : State) (n : Nat) : (raise x s).slot n = s.slot n := rfl
@[simp] theorem link_raise (x : NoticeBody) (s : State) (k : Nat) : (raise x s).link k = s.link k := rfl
@[simp] theorem pinEntry_raise (x : NoticeBody) (s : State) (i : Nat) : (raise x s).pinEntry i = s.pinEntry i := rfl

/-- A link index beyond the table reads a FREE record. -/
theorem link_beyond (s : State) {k : Nat} (h : 32 ≤ k) : s.link k = Link.free := tget_beyond _ _ h

/-! ### The change count (R72) -/

/-- A record that an event left as it was keeps its change count. -/
@[simp] theorem counted_self (L : Link) : Link.counted L L = L := by simp [Link.counted]

/-- A record that an event changed in a rendered field gains one change. -/
theorem counted_changed {L M : Link} (h : { L with changes := 0 } ≠ { M with changes := 0 }) :
    Link.counted L M = { M with changes := L.changes + 1 } := by
  unfold Link.counted; rw [if_neg h]

/-- A link record after an event. -/
theorem link_counting (f : State → State) (s : State) (k : Nat) :
    (counting f s).link k = if k < 32 then Link.counted (s.link k) ((f s).link k) else Link.free := by
  by_cases h : k < 32
  · rw [if_pos h]
    exact tget_tzip _ _ _ _ _ _ h
  · rw [if_neg h]
    exact link_beyond _ (Nat.not_lt.1 h)

/-- An event that leaves the Link Table as it was is its effect alone. -/
theorem counting_eq {f : State → State} {s : State} (h : (f s).links = s.links) : counting f s = f s := by
  have hl : tzip Link.counted s.links (f s).links = (f s).links := by
    apply tget_ext Link.free
    intro i hi
    rw [h, tget_tzip _ _ _ Link.free Link.free _ hi, counted_self]
  simp only [counting, hl]

/-- An event that replaces one record adds its change to that record alone. -/
theorem counting_one {f : State → State} {s : State} {k : Nat} {M : Link} (h : (f s).links = tset s.links k M) :
    counting f s = { f s with links := tset s.links k (Link.counted (s.link k) M) } := by
  have hl : tzip Link.counted s.links (f s).links = tset s.links k (Link.counted (s.link k) M) := by
    apply tget_ext Link.free
    intro i hi
    rw [h, tget_tzip _ _ _ Link.free Link.free _ hi, tget_tset, tget_tset]
    by_cases hk : k = i
    · subst hk; simp [hi, State.link]
    · simp [hk]
  simp only [counting, hl]

/-- A replaced record that is replaced again. -/
theorem tset_tset (v : Vector α n) (i : Nat) (a c : α) : tset (tset v i a) i c = tset v i c := by
  apply tget_ext a
  intro j hj
  simp only [tget_tset]
  split <;> rfl

/-- The change count is all that the counting of an event adds to a record. -/
theorem counted_fields (L M : Link) : ∃ c, Link.counted L M = { M with changes := c } := by
  unfold Link.counted
  split
  · exact ⟨M.changes, rfl⟩
  · exact ⟨_, rfl⟩

end Sys2Proof.Machine
end

