-- ==== Sys2Proof/Laws/Path.lean ====
section
/-! SUPPORT. What follows every event (settle) and the arbiter: which fields they touch, and what they do to them. -/

namespace Sys2Proof.Machine

/-! ### The arbiter touches the ready bursts and the path alone -/

theorem arbitrate_frame (s : State) : ∃ n a e p, arbitrate s =
    { s with
      notices := { s.notices with ready := n }
      applier := { s.applier with ready := a }
      engine := { s.engine with ready := e }
      path := p } ∧ p.completions = s.path.completions ∧ p.presented = s.path.presented := by
  unfold arbitrate grantInternal grantProcessor
  repeat' split
  all_goals exact ⟨_, _, _, _, rfl, rfl, rfl⟩

/-- Settling touches NOTE_IRQ, the ready bursts and the path alone, and hands the processor nothing. -/
theorem settle_frame (s : State) : ∃ n a e p, settle s =
    { s with
      noteIrq := s.irqLevel
      notices := { s.notices with ready := n }
      applier := { s.applier with ready := a }
      engine := { s.engine with ready := e }
      path := p } ∧ p.completions = s.path.completions ∧ p.presented = s.path.presented := by
  obtain ⟨n, a, e, p, h, hc⟩ := arbitrate_frame (clearWait (formNotice (decideIrq s)))
  exact ⟨n, a, e, p, h, hc⟩

@[simp] theorem settle_inReset (s : State) : (settle s).inReset = s.inReset := by
  obtain ⟨_, _, _, _, h, _⟩ := settle_frame s; rw [h]
@[simp] theorem settle_tick (s : State) : (settle s).tick = s.tick := by
  obtain ⟨_, _, _, _, h, _⟩ := settle_frame s; rw [h]
@[simp] theorem settle_zcLevel (s : State) : (settle s).zcLevel = s.zcLevel := by
  obtain ⟨_, _, _, _, h, _⟩ := settle_frame s; rw [h]
@[simp] theorem settle_zcSampledAt (s : State) : (settle s).zcSampledAt = s.zcSampledAt := by
  obtain ⟨_, _, _, _, h, _⟩ := settle_frame s; rw [h]
@[simp] theorem settle_filter (s : State) : (settle s).filter = s.filter := by
  obtain ⟨_, _, _, _, h, _⟩ := settle_frame s; rw [h]
@[simp] theorem settle_shadow (s : State) : (settle s).shadow = s.shadow := by
  obtain ⟨_, _, _, _, h, _⟩ := settle_frame s; rw [h]
@[simp] theorem settle_result (s : State) : (settle s).result = s.result := by
  obtain ⟨_, _, _, _, h, _⟩ := settle_frame s; rw [h]
@[simp] theorem settle_arg0 (s : State) : (settle s).arg0 = s.arg0 := by
  obtain ⟨_, _, _, _, h, _⟩ := settle_frame s; rw [h]
@[simp] theorem settle_arg1 (s : State) : (settle s).arg1 = s.arg1 := by
  obtain ⟨_, _, _, _, h, _⟩ := settle_frame s; rw [h]
@[simp] theorem settle_arg2 (s : State) : (settle s).arg2 = s.arg2 := by
  obtain ⟨_, _, _, _, h, _⟩ := settle_frame s; rw [h]
@[simp] theorem settle_tracker (s : State) : (settle s).tracker = s.tracker := by
  obtain ⟨_, _, _, _, h, _⟩ := settle_frame s; rw [h]
@[simp] theorem settle_links (s : State) : (settle s).links = s.links := by
  obtain ⟨_, _, _, _, h, _⟩ := settle_frame s; rw [h]
@[simp] theorem settle_pool (s : State) : (settle s).pool = s.pool := by
  obtain ⟨_, _, _, _, h, _⟩ := settle_frame s; rw [h]
@[simp] theorem settle_buildQueue (s : State) : (settle s).buildQueue = s.buildQueue := by
  obtain ⟨_, _, _, _, h, _⟩ := settle_frame s; rw [h]
@[simp] theorem settle_headers (s : State) : (settle s).headers = s.headers := by
  obtain ⟨_, _, _, _, h, _⟩ := settle_frame s; rw [h]
@[simp] theorem settle_pinTable (s : State) : (settle s).pinTable = s.pinTable := by
  obtain ⟨_, _, _, _, h, _⟩ := settle_frame s; rw [h]
@[simp] theorem settle_memory (s : State) : (settle s).memory = s.memory := by
  obtain ⟨_, _, _, _, h, _⟩ := settle_frame s; rw [h]
@[simp] theorem settle_owed (s : State) : (settle s).owed = s.owed := by
  obtain ⟨_, _, _, _, h, _⟩ := settle_frame s; rw [h]
@[simp] theorem settle_choices (s : State) : (settle s).choices = s.choices := by
  obtain ⟨_, _, _, _, h, _⟩ := settle_frame s; rw [h]
@[simp] theorem settle_pending (s : State) : (settle s).pending = s.pending := by
  obtain ⟨_, _, _, _, h, _⟩ := settle_frame s; rw [h]
@[simp] theorem settle_notices_staging (s : State) : (settle s).notices.staging = s.notices.staging := by
  obtain ⟨_, _, _, _, h, _⟩ := settle_frame s; rw [h]
@[simp] theorem settle_notices_producer (s : State) : (settle s).notices.producer = s.notices.producer := by
  obtain ⟨_, _, _, _, h, _⟩ := settle_frame s; rw [h]
@[simp] theorem settle_notices_consumer (s : State) : (settle s).notices.consumer = s.notices.consumer := by
  obtain ⟨_, _, _, _, h, _⟩ := settle_frame s; rw [h]
@[simp] theorem settle_notices_classes (s : State) : (settle s).notices.classes = s.notices.classes := by
  obtain ⟨_, _, _, _, h, _⟩ := settle_frame s; rw [h]
@[simp] theorem settle_notices_urgentCount (s : State) : (settle s).notices.urgentCount = s.notices.urgentCount := by
  obtain ⟨_, _, _, _, h, _⟩ := settle_frame s; rw [h]
@[simp] theorem settle_notices_overflow (s : State) : (settle s).notices.overflow = s.notices.overflow := by
  obtain ⟨_, _, _, _, h, _⟩ := settle_frame s; rw [h]
@[simp] theorem settle_applier_notchMask (s : State) : (settle s).applier.notchMask = s.applier.notchMask := by
  obtain ⟨_, _, _, _, h, _⟩ := settle_frame s; rw [h]
@[simp] theorem settle_applier_notched (s : State) : (settle s).applier.notched = s.applier.notched := by
  obtain ⟨_, _, _, _, h, _⟩ := settle_frame s; rw [h]
@[simp] theorem settle_applier_phase (s : State) : (settle s).applier.phase = s.applier.phase := by
  obtain ⟨_, _, _, _, h, _⟩ := settle_frame s; rw [h]
@[simp] theorem settle_applier_pos (s : State) : (settle s).applier.pos = s.applier.pos := by
  obtain ⟨_, _, _, _, h, _⟩ := settle_frame s; rw [h]
@[simp] theorem settle_engine_job (s : State) : (settle s).engine.job = s.engine.job := by
  obtain ⟨_, _, _, _, h, _⟩ := settle_frame s; rw [h]
@[simp] theorem settle_engine_buffer (s : State) : (settle s).engine.buffer = s.engine.buffer := by
  obtain ⟨_, _, _, _, h, _⟩ := settle_frame s; rw [h]
@[simp] theorem settle_noteIrq (s : State) : (settle s).noteIrq = s.irqLevel := by
  obtain ⟨_, _, _, _, h, _⟩ := settle_frame s; rw [h]
@[simp] theorem settle_completions (s : State) : (settle s).path.completions = s.path.completions := by
  obtain ⟨_, _, _, _, h, hc⟩ := settle_frame s; rw [h]; exact hc.1
@[simp] theorem settle_presented (s : State) : (settle s).path.presented = s.path.presented := by
  obtain ⟨_, _, _, _, h, hc⟩ := settle_frame s; rw [h]; exact hc.2
@[simp] theorem settle_link (s : State) (k : Nat) : (settle s).link k = s.link k := by simp [State.link]
@[simp] theorem settle_slot (s : State) (n : Nat) : (settle s).slot n = s.slot n := by simp [State.slot]
@[simp] theorem settle_pinEntry (s : State) (i : Nat) : (settle s).pinEntry i = s.pinEntry i := by simp [State.pinEntry]
@[simp] theorem settle_irqLevel (s : State) : (settle s).irqLevel = s.irqLevel := by
  obtain ⟨_, _, _, _, h, _⟩ := settle_frame s; rw [h]; rfl

/-- A ready burst of the Loading Engine stays ready, or is granted the port. -/
theorem settle_engine_ready (s : State) {b : PortBurst} (h : s.engine.ready = some b) :
    (settle s).engine.ready = some b ∨ (settle s).path.port = some b := by
  have hr : (clearWait (formNotice (decideIrq s))).engine.ready = some b := h
  unfold settle
  generalize clearWait (formNotice (decideIrq s)) = u at hr
  unfold arbitrate grantInternal grantProcessor
  repeat' split
  all_goals first
    | exact Or.inl hr
    | exact Or.inr (by simp_all)

/-- The level of NOTE_IRQ, spelled (R178). -/
theorem irqLevel_iff (s : State) : s.irqLevel = true ↔ s.shadow.irqEnable = true ∧ s.filter = .operating
    ∧ (0 < s.notices.urgentCount
      ∨ s.shadow.irqCount ≤ (s.notices.producer + s.shadow.entries - s.notices.consumer) % s.shadow.entries) := by
  unfold State.irqLevel State.unconsumed
  simp only [Bool.and_eq_true, Bool.or_eq_true, decide_eq_true_eq, beq_iff_eq, and_assoc]

/-! ### The arbiter (R22, R23) -/

/-- A port that is held is not granted. -/
theorem arbitrate_held {s : State} (h : s.path.port.isSome = true) : arbitrate s = s := by
  unfold arbitrate; rw [if_pos h]

/-- The Internal Requester is granted at the hold-off limit. -/
theorem arbitrate_holdOff {s : State} (h : s.path.port = none) (hr : s.requesterWaits = true)
    (hw : s.path.wait = s.shadow.holdOff) : arbitrate s = grantInternal s := by
  unfold arbitrate; simp [h, hr, hw]

/-- Below the hold-off limit, or with no internal burst, a waiting processor transaction is granted. -/
theorem arbitrate_processor {s : State} {t : MemBurst} (h : s.path.port = none) (ht : s.path.waiting = some t)
    (hw : s.requesterWaits = false ∨ s.path.wait ≠ s.shadow.holdOff) : arbitrate s = grantProcessor t s := by
  unfold arbitrate
  obtain hw | hw := hw <;> simp [h, hw, ht]

/-- With no processor transaction waiting, the Internal Requester is granted. -/
theorem arbitrate_internal {s : State} (h : s.path.port = none) (ht : s.path.waiting = none)
    (hr : s.requesterWaits = true) : arbitrate s = grantInternal s := by
  unfold arbitrate
  simp [h, ht, hr]

/-- With nobody waiting nothing is granted. -/
theorem arbitrate_none {s : State} (ht : s.path.waiting = none) (hr : s.requesterWaits = false) : arbitrate s = s := by
  unfold arbitrate
  split
  · rfl
  · simp [ht, hr]

end Sys2Proof.Machine
end

