-- ==== Sys2Proof/Laws/Bursts.lean ====
section
/-! SUPPORT. What a write burst into a snooped block does at its arrival: the decoder's case, the data words, and the trigger word. -/

namespace Sys2Proof.Machine

/-- NOTE_IRQ is at its level where it is what the part decides. -/
theorem irqOk_iff (s : State) : s.IrqOk ↔ s.noteIrq = s.irqLevel := by
  unfold State.IrqOk
  rw [← irqLevel_iff, ← Bool.eq_iff_iff]

/-- After every event that settles, NOTE_IRQ is at its level. -/
theorem settle_irqOk (s : State) : (settle s).IrqOk := (irqOk_iff _).2 (by simp)

/-! ### Words of a burst -/

/-- The word a burst writes in full at an address it covers. -/
theorem fullAt_covered (b : WriteBurst) {i : Nat} (h : i < b.len.words) :
    b.fullAt (b.base + i) = if (b.beat i).isFull then some (b.beat i).data else none := by
  have h1 : b.beatAt (b.base + i) = some (b.beat i) := by
    unfold WriteBurst.beatAt
    rw [if_pos ⟨by omega, by omega⟩]
    simp
  simp [WriteBurst.fullAt, h1]

/-- A burst writes nothing at an address it does not cover. -/
theorem fullAt_outside (b : WriteBurst) {a : Nat} (h : a < b.base ∨ b.base + b.len.words ≤ a) : b.fullAt a = none := by
  have h1 : b.beatAt a = none := by
    unfold WriteBurst.beatAt
    rw [if_neg (by omega)]
  simp [WriteBurst.fullAt, h1]

theorem words_pos (l : BurstLen) : 0 < l.words := by cases l <;> decide

theorem words_le (l : BurstLen) : l.words ≤ 8 := by cases l <;> decide

/-- The burst starts at a multiple of its length. -/
theorem base_aligned (b : WriteBurst) : b.base % b.len.words = 0 := by
  simp [WriteBurst.base, alignedBase]

/-- Acts taken one after another, in two parts. -/
theorem runActs_append (xs ys : List (State → State)) (s : State) : runActs (xs ++ ys) s = runActs ys (runActs xs s) := by
  simp [runActs]

/-! ### The decoder's case -/

/-- An address of the Anchor Block is one in every filter state. -/
theorem place_anchor (s : State) {a : Nat} (h : 0x100 ≤ a) (h2 : a < 0x140) : s.place a = .anchor (a - 0x100) := by
  have : inWindow a anchorBase 64 = true := by
    simp only [inWindow, Bool.and_eq_true, decide_eq_true_eq]
    exact ⟨h, h2⟩
  unfold State.place
  rw [if_pos this]
  rfl

/-- A burst without a partial snooped word sets off its acts in their order. -/
theorem takeSnooped_whole {s : State} {b : WriteBurst} {w lo hi : Nat} (g : GuardWindow) (acts : List (State → State))
    (h : NoPartial s b w lo hi) : takeSnooped g b w lo hi acts s = runActs acts { s with choices := s.choices + 1 } := by
  unfold takeSnooped
  by_cases hf : s.filter = .transparent
  · rw [if_pos hf]
  · rw [if_neg hf]
    have h' := h.resolve_left hf
    rw [h']

/-- What the lowest partial snooped word is, if there is one. -/
theorem lowestPartial_cases {s : State} {g : GuardWindow} {b : WriteBurst} {w lo hi : Nat} {guard : State → State}
    (h : PartialGuard s g b w lo hi guard) : NoPartial s b w lo hi ∧ guard = id
      ∨ s.filter ≠ .transparent ∧ ∃ i, lowestPartial b w lo hi = some (b.base + i)
        ∧ guard = raise (.guardWrite g (BitVec.ofNat 16 (b.base + i)) .partialWrite) := by
  have full : ∀ x : Beat, x.isFull = true ↔ x.be = 15 := fun x => by simp [Beat.isFull]
  rcases h with ⟨h, hg⟩ | ⟨hf, i, h1, h2, h3, h4, h5, hg⟩
  · refine Or.inl ⟨h.imp_right fun hn => ?_, hg⟩
    unfold lowestPartial
    rw [Option.map_eq_none_iff, List.find?_eq_none]
    intro i hi hp
    simp only [Bool.and_eq_true, decide_eq_true_eq, Bool.not_eq_true'] at hp
    have hb := (full _).2 (hn i (List.mem_range.1 hi) hp.1.1 hp.1.2)
    rw [hb] at hp
    exact absurd hp.2 (by decide)
  · refine Or.inr ⟨hf, i, ?_, hg⟩
    unfold lowestPartial
    have hb : (b.beat i).isFull = false := Bool.eq_false_iff.2 fun he => h4 ((full _).1 he)
    have hx : (List.range b.len.words).find? (fun i => decide (lo ≤ w + i) && decide (w + i ≤ hi) && !(b.beat i).isFull) = some i := by
      rw [List.find?_range_eq_some]
      refine ⟨by simp [h2, h3, hb], List.mem_range.2 h1, fun j hj => ?_⟩
      by_cases hl : lo ≤ w + j
      · simp [(full _).2 (h5 j hj hl)]
      · simp [hl]
    rw [hx]
    rfl

/-- What a burst's partial writes raise is one notice, or nothing. -/
theorem PartialGuard.cases {s : State} {g : GuardWindow} {b : WriteBurst} {w lo hi : Nat} {guard : State → State}
    (h : PartialGuard s g b w lo hi guard) : guard = id ∨ ∃ x, guard = raise x := by
  rcases lowestPartial_cases h with ⟨_, h⟩ | ⟨_, _, _, h⟩
  · exact Or.inl h
  · exact Or.inr ⟨_, h⟩

/-- The snooped words of a burst set off their acts in their order, with the GUARD notice of a partial write among them at some
place. -/
theorem takeSnooped_partial {s : State} {g : GuardWindow} {b : WriteBurst} {w lo hi : Nat} {guard : State → State}
    {acts : List (State → State)} (h : PartialGuard s g b w lo hi guard) (hk : ∀ f ∈ acts, ∀ t, (f t).filter = t.filter) :
    ∃ before after, before ++ after = acts
      ∧ takeSnooped g b w lo hi acts s = runActs after (guard (runActs before { s with choices := s.choices + 1 })) := by
  have keep : ∀ (l : List (State → State)) (t : State), (∀ f ∈ l, ∀ t, (f t).filter = t.filter) → (runActs l t).filter = t.filter := by
    intro l
    induction l with
    | nil => intro t _; rfl
    | cons f l ih =>
      intro t hl
      exact (ih (f t) fun x hx => hl x (List.mem_cons_of_mem _ hx)).trans (hl f List.mem_cons_self t)
  rcases lowestPartial_cases h with ⟨hn, rfl⟩ | ⟨hf, i, hl, rfl⟩
  · exact ⟨acts, [], List.append_nil _, takeSnooped_whole g acts hn⟩
  · refine ⟨acts.take (Config.guardPlace s.choices), acts.drop (Config.guardPlace s.choices), List.take_append_drop _ _, ?_⟩
    unfold takeSnooped
    rw [if_neg hf, hl]
    simp only [runActs_append]
    show runActs _ (guardPartial g (b.base + i) _) = _
    unfold guardPartial
    rw [if_neg (by rw [keep _ _ fun f hx => hk f (List.mem_of_mem_take hx)]; exact hf)]

/-- A mailbox burst: its data words, and then its command. -/
theorem takeWrite_mailbox {s : State} {b : WriteBurst} (h : MailboxBurst s b) : takeWrite b s =
    forward (.write b.base b.words)
      (match codeWord b (b.base - 0x100) with
      | some x => takeCommand x (s.afterData b)
      | none => s.afterData b) := by
  obtain ⟨_, h1, h2, h3⟩ := h
  unfold takeWrite
  rw [place_anchor s (by omega) (by omega)]
  have hw : ¬(b.base - 0x100 < 8) := by omega
  have hw2 : b.base - 0x100 < 16 := by omega
  simp only [hw, hw2, if_true, if_false]
  rw [takeSnooped_whole .anchor _ h3, mailboxActs, runActs_append]
  cases codeWord b (b.base - 0x100) <;> rfl

/-- The command of a mailbox burst is its full-enable word at 10Ch. -/
theorem codeWord_eq {b : WriteBurst} (h : 0x100 ≤ b.base) : codeWord b (b.base - 0x100) = b.fullAt 0x10C := by
  unfold codeWord
  by_cases hc : b.base ≤ 0x10C ∧ 0x10C < b.base + b.len.words
  · have e : (0x10C : Nat) = b.base + (12 - (b.base - 0x100)) := by omega
    rw [e, fullAt_covered b (by omega)]
    have h1 : b.base - 0x100 ≤ 12 := by omega
    have h2 : 12 < b.base - 0x100 + b.len.words := by omega
    simp [h1, h2]
  · rw [fullAt_outside b (by omega), if_neg (by omega)]

/-- An accepted write. -/
theorem writeArrival_accepts {s : State} (b : WriteBurst) (h : s.accepts = true) :
    writeArrival b s = settle (takeWrite b s) := by simp [writeArrival, h]

/-- An accepted read. -/
theorem readArrival_accepts {s : State} (r : ReadBurst) (h : s.accepts = true) :
    readArrival r s = settle (takeRead r s) := by simp [readArrival, h]

/-- A command burst: its data words, and then its command, and the burst passes. -/
theorem writeArrival_command {s : State} {b : WriteBurst} {code : Nat} (h : CommandBurst s b code) :
    ∃ x : Word, x.toNat = code ∧ writeArrival b s = passOn b (takeCommand x (s.afterData b)) := by
  obtain ⟨hm, x, hx, hc⟩ := h
  refine ⟨x, hc, ?_⟩
  rw [writeArrival_accepts b hm.1, takeWrite_mailbox hm, codeWord_eq (by have := hm.2.1; omega), hx]
  rfl

/-! ### The data words of a mailbox burst -/

/-- The data words change the arguments, the consumer index with the URGENT count and OVERFLOW, and the counter of choices. -/
theorem afterData_frame (s : State) (b : WriteBurst) : ∃ a0 a1 a2 c u o, s.afterData b =
    { s with
      choices := s.choices + 1
      arg0 := a0
      arg1 := a1
      arg2 := a2
      notices := { s.notices with consumer := c, urgentCount := u, overflow := o } } := by
  have key : ∀ (l : List Nat) (t : State),
      (∃ a0 a1 a2 c u o, t = { s with
        choices := s.choices + 1, arg0 := a0, arg1 := a1, arg2 := a2
        notices := { s.notices with consumer := c, urgentCount := u, overflow := o } }) →
      ∃ a0 a1 a2 c u o, runActs (l.filterMap fun i =>
        if 8 ≤ b.base - 0x100 + i ∧ b.base - 0x100 + i ≤ 11 ∧ (b.beat i).isFull then
          some (takeMailboxData (b.base - 0x100 + i) (b.beat i).data) else none) t = { s with
        choices := s.choices + 1, arg0 := a0, arg1 := a1, arg2 := a2
        notices := { s.notices with consumer := c, urgentCount := u, overflow := o } } := by
    intro l
    induction l with
    | nil => intro t h; exact h
    | cons i l ih =>
      intro t h
      rw [List.filterMap_cons]
      split
      · exact ih t h
      · rename_i f hf
        split at hf
        · obtain rfl := Option.some.inj hf
          obtain ⟨a0, a1, a2, c, u, o, rfl⟩ := h
          refine ih _ ?_
          unfold takeMailboxData consume
          dsimp only
          repeat' split
          all_goals exact ⟨_, _, _, _, _, _, rfl⟩
        · cases hf
  exact key _ _ ⟨_, _, _, _, _, _, rfl⟩

/-! ### A notice among the data words of a mailbox burst -/

/-- A notice raised before acts that take no account of it is raised after them. -/
theorem runActs_raise {x : NoticeBody} {acts : List (State → State)} (h : ∀ f ∈ acts, ∀ u, f (raise x u) = raise x (f u)) (t : State) :
    runActs acts (raise x t) = raise x (runActs acts t) := by
  induction acts generalizing t with
  | nil => rfl
  | cons f l ih =>
    show runActs l (f (raise x t)) = _
    rw [h f List.mem_cons_self]
    exact ih (fun g hg => h g (List.mem_cons_of_mem _ hg)) _

/-- The data words of a mailbox burst after its first, and all of them where it carries no consumer index, take no account of a
notice. -/
theorem mailboxData_raise (b : WriteBurst) (w : Nat) {p : Nat} (x : NoticeBody)
    (hp : 0 < p ∨ ∀ i, i < b.len.words → w + i = 8 → (b.beat i).isFull = false) :
    ∀ f ∈ (mailboxData b w).drop p, ∀ u, f (raise x u) = raise x (f u) := by
  have hargs : ∀ (word : Nat) (y : Word), word ≠ 8 → ∀ u, takeMailboxData word y (raise x u) = raise x (takeMailboxData word y u) := by
    intro word y hw u
    unfold takeMailboxData
    rw [if_neg hw, if_neg hw]
    repeat' split
    all_goals rfl
  have hl : ∀ (l : List Nat) (q : Nat), l.Pairwise (· < ·) → (∀ i ∈ l, i < b.len.words) →
      (0 < q ∨ ∀ i ∈ l, w + i = 8 → (b.beat i).isFull = false) →
      ∀ f ∈ (l.filterMap fun i => if 8 ≤ w + i ∧ w + i ≤ 11 ∧ (b.beat i).isFull then
        some (takeMailboxData (w + i) (b.beat i).data) else none).drop q, ∀ u, f (raise x u) = raise x (f u) := by
    intro l
    induction l with
    | nil => intro _ _ _ _ f hf; simp at hf
    | cons i l ih =>
      intro q hs hb hq f hf
      obtain ⟨hlt, hs⟩ := List.pairwise_cons.1 hs
      have hb' := fun j hj => hb j (List.mem_cons_of_mem i hj)
      rw [List.filterMap_cons] at hf
      split at hf
      · exact ih q hs hb' (hq.imp_right fun h j hj => h j (List.mem_cons_of_mem _ hj)) f hf
      · rename_i g hg
        split at hg
        · rename_i hc
          obtain rfl := Option.some.inj hg
          have hrest : ∀ j ∈ l, w + j = 8 → (b.beat j).isFull = false := fun j hj e => by have := hlt j hj; omega
          cases q with
          | zero =>
            rw [List.drop_zero] at hf
            rcases List.mem_cons.1 hf with rfl | hf
            · refine hargs _ _ fun e => ?_
              have := (hq.resolve_left (Nat.lt_irrefl 0)) i List.mem_cons_self e
              rw [this] at hc
              exact absurd hc.2.2 (by decide)
            · exact ih 0 hs hb' (Or.inr hrest) f hf
          | succ q => exact ih q hs hb' (Or.inr hrest) f hf
        · cases hg
  exact hl _ p List.pairwise_lt_range (fun i hi => List.mem_range.1 hi) (hp.imp_right fun h i hi e => h i (List.mem_range.1 hi) e)

@[simp] theorem afterData_inReset (s : State) (b : WriteBurst) : (s.afterData b).inReset = s.inReset := by
  obtain ⟨_, _, _, _, _, _, h⟩ := afterData_frame s b; rw [h]
@[simp] theorem afterData_tick (s : State) (b : WriteBurst) : (s.afterData b).tick = s.tick := by
  obtain ⟨_, _, _, _, _, _, h⟩ := afterData_frame s b; rw [h]
@[simp] theorem afterData_zcLevel (s : State) (b : WriteBurst) : (s.afterData b).zcLevel = s.zcLevel := by
  obtain ⟨_, _, _, _, _, _, h⟩ := afterData_frame s b; rw [h]
@[simp] theorem afterData_zcSampledAt (s : State) (b : WriteBurst) : (s.afterData b).zcSampledAt = s.zcSampledAt := by
  obtain ⟨_, _, _, _, _, _, h⟩ := afterData_frame s b; rw [h]
@[simp] theorem afterData_filter (s : State) (b : WriteBurst) : (s.afterData b).filter = s.filter := by
  obtain ⟨_, _, _, _, _, _, h⟩ := afterData_frame s b; rw [h]
@[simp] theorem afterData_shadow (s : State) (b : WriteBurst) : (s.afterData b).shadow = s.shadow := by
  obtain ⟨_, _, _, _, _, _, h⟩ := afterData_frame s b; rw [h]
@[simp] theorem afterData_result (s : State) (b : WriteBurst) : (s.afterData b).result = s.result := by
  obtain ⟨_, _, _, _, _, _, h⟩ := afterData_frame s b; rw [h]
@[simp] theorem afterData_tracker (s : State) (b : WriteBurst) : (s.afterData b).tracker = s.tracker := by
  obtain ⟨_, _, _, _, _, _, h⟩ := afterData_frame s b; rw [h]
@[simp] theorem afterData_links (s : State) (b : WriteBurst) : (s.afterData b).links = s.links := by
  obtain ⟨_, _, _, _, _, _, h⟩ := afterData_frame s b; rw [h]
@[simp] theorem afterData_pool (s : State) (b : WriteBurst) : (s.afterData b).pool = s.pool := by
  obtain ⟨_, _, _, _, _, _, h⟩ := afterData_frame s b; rw [h]
@[simp] theorem afterData_buildQueue (s : State) (b : WriteBurst) : (s.afterData b).buildQueue = s.buildQueue := by
  obtain ⟨_, _, _, _, _, _, h⟩ := afterData_frame s b; rw [h]
@[simp] theorem afterData_engine (s : State) (b : WriteBurst) : (s.afterData b).engine = s.engine := by
  obtain ⟨_, _, _, _, _, _, h⟩ := afterData_frame s b; rw [h]
@[simp] theorem afterData_headers (s : State) (b : WriteBurst) : (s.afterData b).headers = s.headers := by
  obtain ⟨_, _, _, _, _, _, h⟩ := afterData_frame s b; rw [h]
@[simp] theorem afterData_pinTable (s : State) (b : WriteBurst) : (s.afterData b).pinTable = s.pinTable := by
  obtain ⟨_, _, _, _, _, _, h⟩ := afterData_frame s b; rw [h]
@[simp] theorem afterData_noteIrq (s : State) (b : WriteBurst) : (s.afterData b).noteIrq = s.noteIrq := by
  obtain ⟨_, _, _, _, _, _, h⟩ := afterData_frame s b; rw [h]
@[simp] theorem afterData_applier (s : State) (b : WriteBurst) : (s.afterData b).applier = s.applier := by
  obtain ⟨_, _, _, _, _, _, h⟩ := afterData_frame s b; rw [h]
@[simp] theorem afterData_path (s : State) (b : WriteBurst) : (s.afterData b).path = s.path := by
  obtain ⟨_, _, _, _, _, _, h⟩ := afterData_frame s b; rw [h]
@[simp] theorem afterData_memory (s : State) (b : WriteBurst) : (s.afterData b).memory = s.memory := by
  obtain ⟨_, _, _, _, _, _, h⟩ := afterData_frame s b; rw [h]
@[simp] theorem afterData_owed (s : State) (b : WriteBurst) : (s.afterData b).owed = s.owed := by
  obtain ⟨_, _, _, _, _, _, h⟩ := afterData_frame s b; rw [h]
@[simp] theorem afterData_pending (s : State) (b : WriteBurst) : (s.afterData b).pending = s.pending := by
  obtain ⟨_, _, _, _, _, _, h⟩ := afterData_frame s b; rw [h]
@[simp] theorem afterData_staging (s : State) (b : WriteBurst) : (s.afterData b).notices.staging = s.notices.staging := by
  obtain ⟨_, _, _, _, _, _, h⟩ := afterData_frame s b; rw [h]
@[simp] theorem afterData_producer (s : State) (b : WriteBurst) : (s.afterData b).notices.producer = s.notices.producer := by
  obtain ⟨_, _, _, _, _, _, h⟩ := afterData_frame s b; rw [h]
@[simp] theorem afterData_classes (s : State) (b : WriteBurst) : (s.afterData b).notices.classes = s.notices.classes := by
  obtain ⟨_, _, _, _, _, _, h⟩ := afterData_frame s b; rw [h]
@[simp] theorem afterData_ready (s : State) (b : WriteBurst) : (s.afterData b).notices.ready = s.notices.ready := by
  obtain ⟨_, _, _, _, _, _, h⟩ := afterData_frame s b; rw [h]
@[simp] theorem afterData_link (s : State) (b : WriteBurst) (k : Nat) : (s.afterData b).link k = s.link k := by
  simp [State.link]
@[simp] theorem afterData_slot (s : State) (b : WriteBurst) (n : Nat) : (s.afterData b).slot n = s.slot n := by
  simp [State.slot]

end Sys2Proof.Machine
end

