-- ==== Sys2Proof/Laws/Pool.lean ====
section
/-! SUPPORT. The Map Pool's operations and the link entries that hold its slots: which fields each touches, what it makes of the link
record, and what it makes of REFS and PINS. A free slot may be handed to a waiting job at the same event (R94), so the pool and the
engine are the two parts that a release may change. -/

namespace Sys2Proof.Machine

variable {α : Type} {n : Nat}

/-! ### Allocation and the Free List (R91 to R94) -/

/-- Allocation touches the pool and the engine alone. -/
theorem allocate_frame (s : State) : ∃ p e, allocate s = { s with pool := p, engine := e } := by
  unfold allocate
  split
  · exact ⟨_, _, rfl⟩
  · exact ⟨s.pool, s.engine, rfl⟩

theorem handToWaiting_frame (s : State) : ∃ p e, handToWaiting s = { s with pool := p, engine := e } := by
  unfold handToWaiting
  split
  · exact allocate_frame s
  · exact ⟨s.pool, s.engine, rfl⟩

/-- A slot's way to the Free List touches the pool and the engine alone. -/
theorem joinFree_frame (m : Nat) (s : State) : ∃ p e, joinFree m s = { s with pool := p, engine := e } := by
  unfold joinFree
  exact handToWaiting_frame _

/-- With no job that waits a freed slot joins the Free List's tail. -/
theorem joinFree_idle (m : Nat) {s : State} (h : s.jobWaits = false) : joinFree m s =
    { s with pool :=
      { slots := tset s.pool.slots m { s.slot m with state := .free }, freeList := s.pool.freeList ++ [m] } } := by
  have hw : State.jobWaits { s with pool :=
      { slots := tset s.pool.slots m { s.slot m with state := .free }, freeList := s.pool.freeList ++ [m] } } = false := h
  unfold joinFree handToWaiting
  rw [if_neg (by rw [hw]; decide)]

/-- A job that waits takes the head of the Free List that a freed slot joins, its first loading-word burst ready (R94, R125, R127). -/
theorem joinFree_waits {m f : Nat} {s : State} {j : Job} {rest : List Nat} {freed : Vector SlotRec 128}
    (hj : s.engine.job = some j) (hst : j.stage = .allocate) (hs : j.slot = none) (hl : s.pool.freeList ++ [m] = f :: rest)
    (hf : freed = tset s.pool.slots m { s.slot m with state := .free }) : joinFree m s =
    { s with
      pool :=
        { slots := tset freed f
            { tget freed SlotRec.reset f with
              state := .building
              issue := (s.slot f).issue + 1
              ownerLink := j.link
              ownerNode := (s.link j.link).node
              slice := j.slice }
          freeList := rest }
      engine :=
        { s.engine with
          job := some { j with stage := .write, slot := some f, pos := 0 }
          ready := some ⟨.loadingWrite, .write (s.shadow.poolBase + f * 256 + 8)
            ((List.range 8).map fun c => ⟨bufferWord s.engine.buffer c, 15⟩)⟩ } } := by
  have hi : (tget freed SlotRec.reset f).issue = (s.slot f).issue := by
    rw [hf, tget_tset]
    split
    · rename_i h; rw [← h.1]
    · rfl
  rw [← hi, hf]
  unfold joinFree handToWaiting State.jobWaits allocate
  simp only [hj, hst, hs, hl, State.slot, State.link, State.loadingBurst, Shadow.slotWord, Beat.whole]
  simp

/-- A slot record replaced by one of the same REFS and PINS changes no slot's REFS. -/
theorem refs_tset (v : Vector SlotRec 128) (m x : Nat) (r : SlotRec) (h : r.refs = (tget v SlotRec.reset m).refs) :
    (tget (tset v m r) SlotRec.reset x).refs = (tget v SlotRec.reset x).refs := by
  rw [tget_tset]
  split
  · rename_i hx; rw [h, hx.1]
  · rfl

theorem pins_tset (v : Vector SlotRec 128) (m x : Nat) (r : SlotRec) (h : r.pins = (tget v SlotRec.reset m).pins) :
    (tget (tset v m r) SlotRec.reset x).pins = (tget v SlotRec.reset x).pins := by
  rw [tget_tset]
  split
  · rename_i hx; rw [h, hx.1]
  · rfl

@[simp] theorem refs_allocate (s : State) (x : Nat) : ((allocate s).slot x).refs = (s.slot x).refs := by
  unfold allocate
  split
  · exact refs_tset _ _ _ _ rfl
  · rfl

@[simp] theorem pins_allocate (s : State) (x : Nat) : ((allocate s).slot x).pins = (s.slot x).pins := by
  unfold allocate
  split
  · exact pins_tset _ _ _ _ rfl
  · rfl

@[simp] theorem refs_handToWaiting (s : State) (x : Nat) : ((handToWaiting s).slot x).refs = (s.slot x).refs := by
  unfold handToWaiting; split <;> simp

@[simp] theorem pins_handToWaiting (s : State) (x : Nat) : ((handToWaiting s).slot x).pins = (s.slot x).pins := by
  unfold handToWaiting; split <;> simp

@[simp] theorem refs_joinFree (m : Nat) (s : State) (x : Nat) : ((joinFree m s).slot x).refs = (s.slot x).refs := by
  unfold joinFree
  rw [refs_handToWaiting]
  exact refs_tset _ _ _ _ rfl

@[simp] theorem pins_joinFree (m : Nat) (s : State) (x : Nat) : ((joinFree m s).slot x).pins = (s.slot x).pins := by
  unfold joinFree
  rw [pins_handToWaiting]
  exact pins_tset _ _ _ _ rfl

/-! ### References (R86, R88) -/

/-- A take touches the slot's record alone. -/
theorem takeRef_frame (m : Nat) (s : State) : ∃ p, takeRef m s = { s with pool := p } := ⟨_, rfl⟩

/-- A release touches the pool and, where a waiting job takes the slot, the engine. -/
theorem releaseRef_frame (m : Nat) (s : State) : ∃ p e, releaseRef m s = { s with pool := p, engine := e } := by
  unfold releaseRef
  dsimp only
  split
  · exact joinFree_frame _ _
  · exact ⟨_, s.engine, rfl⟩

/-- REFS of the slot taken rises by 1, and no other slot's changes. -/
theorem refs_takeRef (m : Nat) (s : State) (x : Nat) :
    ((takeRef m s).slot x).refs = if m = x ∧ x < 128 then (s.slot x).refs + 1 else (s.slot x).refs := by
  unfold takeRef
  rw [slot_setSlot]
  split
  · rename_i h; simp [h.1]
  · rfl

/-- REFS of the slot released falls by 1, and no other slot's changes. -/
theorem refs_releaseRef (m : Nat) (s : State) (x : Nat) :
    ((releaseRef m s).slot x).refs = if m = x ∧ x < 128 then (s.slot x).refs - 1 else (s.slot x).refs := by
  have key : ∀ r : SlotRec, r.refs = (s.slot m).refs - 1 →
      ((s.setSlot m r).slot x).refs = if m = x ∧ x < 128 then (s.slot x).refs - 1 else (s.slot x).refs := by
    intro r hr
    rw [slot_setSlot]
    split
    · rename_i h; rw [hr, h.1]
    · rfl
  unfold releaseRef
  dsimp only
  split
  · rw [refs_joinFree]; exact key _ rfl
  · exact key _ rfl

@[simp] theorem pins_takeRef (m : Nat) (s : State) (x : Nat) : ((takeRef m s).slot x).pins = (s.slot x).pins := by
  unfold takeRef; exact pins_tset _ _ _ _ rfl

@[simp] theorem pins_releaseRef (m : Nat) (s : State) (x : Nat) : ((releaseRef m s).slot x).pins = (s.slot x).pins := by
  unfold releaseRef
  dsimp only
  split
  · rw [pins_joinFree]; exact pins_tset _ _ _ _ rfl
  · exact pins_tset _ _ _ _ rfl

/-! ### Pins (R87, R89) -/

theorem takePin_frame (m : Nat) (s : State) : ∃ p, takePin m s = { s with pool := p } := ⟨_, rfl⟩

theorem releasePin_frame (m : Nat) (s : State) : ∃ p e, releasePin m s = { s with pool := p, engine := e } := by
  unfold releasePin
  dsimp only
  split
  · exact joinFree_frame _ _
  · exact ⟨_, s.engine, rfl⟩

/-- PINS of the slot taken rises by 1, and no other slot's changes. -/
theorem pins_takePin (m : Nat) (s : State) (x : Nat) :
    ((takePin m s).slot x).pins = if m = x ∧ x < 128 then (s.slot x).pins + 1 else (s.slot x).pins := by
  unfold takePin
  rw [slot_setSlot]
  split
  · rename_i h; simp [h.1]
  · rfl

/-- PINS of the slot released falls by 1, and no other slot's changes. -/
theorem pins_releasePin (m : Nat) (s : State) (x : Nat) :
    ((releasePin m s).slot x).pins = if m = x ∧ x < 128 then (s.slot x).pins - 1 else (s.slot x).pins := by
  have key : ((s.setSlot m { s.slot m with pins := (s.slot m).pins - 1 }).slot x).pins =
      if m = x ∧ x < 128 then (s.slot x).pins - 1 else (s.slot x).pins := by
    rw [slot_setSlot]
    split
    · rename_i h; simp [h.1]
    · rfl
  unfold releasePin
  dsimp only
  split
  · rw [pins_joinFree]; exact key
  · exact key

@[simp] theorem refs_takePin (m : Nat) (s : State) (x : Nat) : ((takePin m s).slot x).refs = (s.slot x).refs := by
  unfold takePin; exact refs_tset _ _ _ _ rfl

@[simp] theorem refs_releasePin (m : Nat) (s : State) (x : Nat) : ((releasePin m s).slot x).refs = (s.slot x).refs := by
  unfold releasePin
  dsimp only
  split
  · rw [refs_joinFree]; exact refs_tset _ _ _ _ rfl
  · exact refs_tset _ _ _ _ rfl

/-- The release of a pin on a slot that is not RETIRING, or has other pins, lowers PINS and does nothing else (R87). -/
theorem releasePin_held (m : Nat) {s : State} (h : (s.slot m).state ≠ .retiring ∨ 2 ≤ (s.slot m).pins) :
    releasePin m s = s.setSlot m { s.slot m with pins := (s.slot m).pins - 1 } := by
  unfold releasePin
  dsimp only
  rw [if_neg]
  rintro ⟨h1, h2⟩
  rcases h with h | h
  · exact h h1
  · omega

/-- The release of the last pin on a RETIRING slot frees it (R89). -/
theorem releasePin_last (m : Nat) {s : State} (h : (s.slot m).state = .retiring) (hp : (s.slot m).pins ≤ 1) :
    releasePin m s = joinFree m (s.setSlot m { s.slot m with pins := (s.slot m).pins - 1 }) := by
  unfold releasePin
  exact if_pos ⟨h, hp⟩

/-! ### The end of a job (R131, R132) -/

/-- The end of a job without a result leaves the engine idle and touches the pool, the engine and the path alone. -/
theorem dropJob_frame (s : State) : ∃ p x, dropJob s = { s with pool := p, engine := (dropJob s).engine, path := x } := by
  unfold dropJob
  split
  · split
    · obtain ⟨p, e, h⟩ := joinFree_frame (by assumption) (endJob s)
      rw [h]
      exact ⟨p, _, rfl⟩
    · exact ⟨s.pool, _, rfl⟩
  · exact ⟨s.pool, s.path, rfl⟩

/-- After a drop there is no job. -/
@[simp] theorem job_dropJob (s : State) : (dropJob s).engine.job = none := by
  unfold dropJob
  split
  · split
    · rw [joinFree_idle]
      · rfl
      · rfl
    · rfl
  · assumption

@[simp] theorem refs_dropJob (s : State) (x : Nat) : ((dropJob s).slot x).refs = (s.slot x).refs := by
  unfold dropJob
  split
  · split
    · rw [refs_joinFree]; rfl
    · rfl
  · rfl

@[simp] theorem pins_dropJob (s : State) (x : Nat) : ((dropJob s).slot x).pins = (s.slot x).pins := by
  unfold dropJob
  split
  · split
    · rw [pins_joinFree]; rfl
    · rfl
  · rfl

/-- The cancellation of a link's job touches the pool, the engine and the path alone. -/
theorem cancelJobOf_frame (k : Nat) (s : State) : ∃ p e x, cancelJobOf k s = { s with pool := p, engine := e, path := x } := by
  unfold cancelJobOf
  split
  · split
    · obtain ⟨p, x, h⟩ := dropJob_frame s
      exact ⟨p, _, x, h⟩
    · exact ⟨s.pool, s.engine, s.path, rfl⟩
  · exact ⟨s.pool, s.engine, s.path, rfl⟩

@[simp] theorem refs_cancelJobOf (k : Nat) (s : State) (x : Nat) : ((cancelJobOf k s).slot x).refs = (s.slot x).refs := by
  unfold cancelJobOf; split
  · split <;> simp
  · rfl

@[simp] theorem pins_cancelJobOf (k : Nat) (s : State) (x : Nat) : ((cancelJobOf k s).slot x).pins = (s.slot x).pins := by
  unfold cancelJobOf; split
  · split <;> simp
  · rfl

/-! ### Link entries (R67, R68, R71) -/

/-- A record put back as it is held changes nothing. -/
theorem setLink_self (s : State) (k : Nat) : s.setLink k (s.link k) = s := by
  simp only [State.setLink, State.link, tset_tget]

/-- What setting a cell does: the cell, the pool, and the engine where a waiting job takes the slot released. -/
theorem setCell_frame (k i m : Nat) (s : State) : ∃ p e, setCell k i m s =
    { s with
      links := tset s.links k { s.link k with cells := (s.link k).cells.set i m }
      pool := p
      engine := e } := by
  unfold setCell
  split
  · rename_i old h
    split
    · rename_i hm
      refine ⟨s.pool, s.engine, ?_⟩
      have : (s.link k).cells.set i m = (s.link k).cells := by
        rw [← hm]
        obtain ⟨hi, he⟩ := List.getElem?_eq_some_iff.1 h
        rw [← he]; exact List.set_getElem_self hi
      rw [this]
      exact (setLink_self s k).symm
    · obtain ⟨p, e, h2⟩ := releaseRef_frame old (takeRef m (s.setLink k { s.link k with cells := (s.link k).cells.set i m }))
      exact ⟨p, e, h2⟩
  · rename_i h
    refine ⟨s.pool, s.engine, ?_⟩
    rw [List.set_eq_of_length_le (List.getElem?_eq_none_iff.1 h)]
    exact (setLink_self s k).symm

theorem setPending_frame (k i m : Nat) (s : State) : ∃ p e, setPending k i m s =
    { s with
      links := tset s.links k { s.link k with pendingSet := (s.link k).pendingSet.set i (some m) }
      pool := p
      engine := e } := by
  unfold setPending
  dsimp only
  split
  · rename_i old h
    split
    · rename_i hm
      refine ⟨s.pool, s.engine, ?_⟩
      have : (s.link k).pendingSet.set i (some m) = (s.link k).pendingSet := by
        rw [← hm]
        obtain ⟨hi, he⟩ := List.getElem?_eq_some_iff.1 h
        rw [← he]; exact List.set_getElem_self hi
      rw [this]
      exact (setLink_self s k).symm
    · obtain ⟨p, e, h2⟩ :=
        releaseRef_frame old (takeRef m (s.setLink k { s.link k with pendingSet := (s.link k).pendingSet.set i (some m) }))
      exact ⟨p, e, h2⟩
  · exact ⟨_, s.engine, rfl⟩
  · rename_i h
    refine ⟨s.pool, s.engine, ?_⟩
    rw [List.set_eq_of_length_le (List.getElem?_eq_none_iff.1 h)]
    exact (setLink_self s k).symm

theorem setNext_frame (k i m : Nat) (s : State) : ∃ p e, setNext k i m s =
    { s with
      links := tset s.links k { s.link k with nextSet := (s.link k).nextSet.set i (some m) }
      pool := p
      engine := e } := by
  unfold setNext
  dsimp only
  split
  · rename_i old h
    split
    · rename_i hm
      refine ⟨s.pool, s.engine, ?_⟩
      have : (s.link k).nextSet.set i (some m) = (s.link k).nextSet := by
        rw [← hm]
        obtain ⟨hi, he⟩ := List.getElem?_eq_some_iff.1 h
        rw [← he]; exact List.set_getElem_self hi
      rw [this]
      exact (setLink_self s k).symm
    · obtain ⟨p, e, h2⟩ :=
        releaseRef_frame old (takeRef m (s.setLink k { s.link k with nextSet := (s.link k).nextSet.set i (some m) }))
      exact ⟨p, e, h2⟩
  · exact ⟨_, s.engine, rfl⟩
  · rename_i h
    refine ⟨s.pool, s.engine, ?_⟩
    rw [List.set_eq_of_length_le (List.getElem?_eq_none_iff.1 h)]
    exact (setLink_self s k).symm

/-- A list of entries in which the i-th is absent already. -/
theorem set_none_of_getD {es : List (Option Nat)} {i : Nat} (h : es.getD i none = none) : es.set i none = es := by
  apply List.ext_getElem?
  intro j
  rw [List.getElem?_set]
  split
  · rename_i hij
    subst hij
    rw [List.getD_eq_getElem?_getD] at h
    split
    · rename_i hlt
      cases he : es[i]? with
      | none => rw [List.getElem?_eq_none_iff] at he; omega
      | some o => rw [he] at h; simp at h; rw [h]
    · rename_i hge
      exact (List.getElem?_eq_none_iff.2 (by omega)).symm
  · rfl

theorem clearPending_frame (k i : Nat) (s : State) : ∃ p e, clearPending k i s =
    { s with
      links := tset s.links k { s.link k with pendingSet := (s.link k).pendingSet.set i none }
      pool := p
      engine := e } := by
  unfold clearPending
  split
  · rename_i old h
    exact releaseRef_frame old _
  · rename_i h
    refine ⟨s.pool, s.engine, ?_⟩
    rw [set_none_of_getD h]
    exact (setLink_self s k).symm

theorem clearNext_frame (k i : Nat) (s : State) : ∃ p e, clearNext k i s =
    { s with
      links := tset s.links k { s.link k with nextSet := (s.link k).nextSet.set i none }
      pool := p
      engine := e } := by
  unfold clearNext
  split
  · rename_i old h
    exact releaseRef_frame old _
  · rename_i h
    refine ⟨s.pool, s.engine, ?_⟩
    rw [set_none_of_getD h]
    exact (setLink_self s k).symm

theorem releaseLatch_frame (k : Nat) (s : State) : ∃ p e, releaseLatch k s =
    { s with links := tset s.links k { s.link k with latch := none }, pool := p, engine := e } := by
  unfold releaseLatch
  split
  · rename_i l h
    exact releasePin_frame l.slot _
  · rename_i h
    refine ⟨s.pool, s.engine, ?_⟩
    have : { s.link k with latch := none } = s.link k := by rw [← h]
    rw [this]
    exact (setLink_self s k).symm

/-! ### Every entry of a link -/

/-- An operation that puts one entry of a link, taken on each index below a bound, is taken on all. The operation touches the link's
record, the pool and the engine alone, and makes of the record what `g` makes of it. -/
theorem forSlices_frame {f : Nat → State → State} {g : Nat → Link → Link} {k : Nat} (hk : k < 32)
    (hf : ∀ i s, ∃ p e, f i s = { s with links := tset s.links k (g i (s.link k)), pool := p, engine := e })
    (b : Nat) (s : State) : ∃ p e, forSlices b f s =
      { s with
        links := tset s.links k ((List.range b).foldl (fun L i => g i L) (s.link k))
        pool := p
        engine := e } := by
  unfold forSlices
  generalize List.range b = l
  induction l generalizing s with
  | nil => exact ⟨s.pool, s.engine, (setLink_self s k).symm⟩
  | cons i l ih =>
    obtain ⟨p, e, h⟩ := hf i s
    simp only [List.foldl_cons]
    obtain ⟨p', e', h'⟩ := ih (f i s)
    refine ⟨p', e', ?_⟩
    rw [h', h]
    have hl : State.link { s with links := tset s.links k (g i (s.link k)), pool := p, engine := e } k = g i (s.link k) :=
      tget_tset_same _ _ _ hk
    rw [hl]
    simp only [tset_tset]

/-- Setting every place of a list, one by one, up to a bound that covers it. -/
theorem foldl_set_all (a : α) (es : List α) (b : Nat) (h : es.length ≤ b) :
    (List.range b).foldl (fun l i => l.set i a) es = es.map fun _ => a := by
  have key : ∀ c, ((List.range c).foldl (fun l i => l.set i a) es).length = es.length ∧
      ∀ j, ((List.range c).foldl (fun l i => l.set i a) es)[j]? =
        if j < c then es[j]?.map (fun _ => a) else es[j]? := by
    intro c
    induction c with
    | zero => exact ⟨rfl, fun j => by simp⟩
    | succ c ih =>
      obtain ⟨hl, hg⟩ := ih
      rw [List.range_succ, List.foldl_append]
      simp only [List.foldl_cons, List.foldl_nil]
      refine ⟨by rw [List.length_set, hl], fun j => ?_⟩
      rw [List.getElem?_set]
      by_cases hj : c = j
      · subst hj
        rw [if_pos rfl, hl, if_pos (Nat.lt_succ_self c)]
        by_cases hc : c < es.length
        · rw [if_pos hc, List.getElem?_eq_getElem hc]; rfl
        · rw [if_neg hc, List.getElem?_eq_none (by omega)]; rfl
      · rw [if_neg hj, hg]
        by_cases h1 : j < c
        · rw [if_pos h1, if_pos (by omega)]
        · rw [if_neg h1, if_neg (by omega)]
  apply List.ext_getElem?
  intro j
  rw [(key b).2 j, List.getElem?_map]
  split
  · rfl
  · rw [List.getElem?_eq_none (by omega)]; rfl

/-- A field set again and again on a record is a field set once. -/
theorem foldl_cells (b a : Nat) (L : Link) :
    (List.range b).foldl (fun M i => { M with cells := M.cells.set i a }) L =
      { L with cells := (List.range b).foldl (fun l i => l.set i a) L.cells } := by
  generalize List.range b = l
  induction l generalizing L with
  | nil => rfl
  | cons i l ih => simp only [List.foldl_cons]; rw [ih]

theorem foldl_pendingSet (b : Nat) (L : Link) :
    (List.range b).foldl (fun M i => { M with pendingSet := M.pendingSet.set i none }) L =
      { L with pendingSet := (List.range b).foldl (fun l i => l.set i none) L.pendingSet } := by
  generalize List.range b = l
  induction l generalizing L with
  | nil => rfl
  | cons i l ih => simp only [List.foldl_cons]; rw [ih]

theorem foldl_nextSet (b : Nat) (L : Link) :
    (List.range b).foldl (fun M i => { M with nextSet := M.nextSet.set i none }) L =
      { L with nextSet := (List.range b).foldl (fun l i => l.set i none) L.nextSet } := by
  generalize List.range b = l
  induction l generalizing L with
  | nil => rfl
  | cons i l ih => simp only [List.foldl_cons]; rw [ih]

/-- Every pending entry of a link is absent afterwards. -/
theorem clearPendings_frame {k : Nat} (hk : k < 32) (s : State) : ∃ p e, clearPendings k s =
    { s with
      links := tset s.links k { s.link k with pendingSet := (s.link k).pendingSet.map fun _ => none }
      pool := p
      engine := e } := by
  obtain ⟨p, e, h⟩ := forSlices_frame (f := clearPending k)
    (g := fun i L => { L with pendingSet := L.pendingSet.set i none }) hk (fun i s => clearPending_frame k i s)
    (s.link k).pendingSet.length s
  refine ⟨p, e, ?_⟩
  unfold clearPendings
  rw [h, foldl_pendingSet, foldl_set_all _ _ _ (Nat.le_refl _)]

/-- Every next entry of a link is absent afterwards. -/
theorem clearNexts_frame {k : Nat} (hk : k < 32) (s : State) : ∃ p e, clearNexts k s =
    { s with
      links := tset s.links k { s.link k with nextSet := (s.link k).nextSet.map fun _ => none }
      pool := p
      engine := e } := by
  obtain ⟨p, e, h⟩ := forSlices_frame (f := clearNext k)
    (g := fun i L => { L with nextSet := L.nextSet.set i none }) hk (fun i s => clearNext_frame k i s)
    (s.link k).nextSet.length s
  refine ⟨p, e, ?_⟩
  unfold clearNexts
  rw [h, foldl_nextSet, foldl_set_all _ _ _ (Nat.le_refl _)]

/-- Every pending entry and every next entry of a link is absent afterwards. -/
theorem clearEntries_frame {k : Nat} (hk : k < 32) (s : State) : ∃ p e, clearNexts k (clearPendings k s) =
    { s with
      links := tset s.links k
        { s.link k with
          pendingSet := (s.link k).pendingSet.map fun _ => none
          nextSet := (s.link k).nextSet.map fun _ => none }
      pool := p
      engine := e } := by
  obtain ⟨_, _, h1⟩ := clearPendings_frame hk s
  obtain ⟨p, e, h2⟩ := clearNexts_frame hk (clearPendings k s)
  have hl : (clearPendings k s).link k = { s.link k with pendingSet := (s.link k).pendingSet.map fun _ => none } := by
    rw [h1]; exact tget_tset_same _ _ _ hk
  refine ⟨p, e, ?_⟩
  rw [h2, hl, h1, tset_tset]

/-- Every cell of a link names slot 0 afterwards. -/
theorem clearCells_frame {k : Nat} (hk : k < 32) (s : State) : ∃ p e, clearCells k s =
    { s with
      links := tset s.links k { s.link k with cells := (s.link k).cells.map fun _ => 0 }
      pool := p
      engine := e } := by
  obtain ⟨p, e, h⟩ := forSlices_frame (f := fun i => setCell k i 0)
    (g := fun i L => { L with cells := L.cells.set i 0 }) hk (fun i s => setCell_frame k i 0 s)
    (s.link k).cells.length s
  refine ⟨p, e, ?_⟩
  unfold clearCells
  rw [h, foldl_cells, foldl_set_all _ _ _ (Nat.le_refl _)]

/-! ### Offers -/

/-- The offer test touches the link's record and the notices alone. -/
theorem offerTest_frame (k : Nat) (s : State) : ∃ L n, offerTest k s = { s with links := tset s.links k L, notices := n } := by
  unfold offerTest
  split
  · exact ⟨_, _, rfl⟩
  · exact ⟨s.link k, s.notices, (setLink_self s k).symm⟩

/-- Where the offer test fails nothing happens. -/
theorem offerTest_fails {k : Nat} {s : State} (h : (s.link k).offerDue = false) : offerTest k s = s := by
  unfold offerTest; rw [h]; rfl

end Sys2Proof.Machine
end

