-- ==== Sys2Proof/Laws/Events.lean ====
section
/-! SUPPORT. What each larger operation touches: the fields an event may change are named in an equation, and so every other field is as
it was. An event about one link touches that link's record alone. -/

namespace Sys2Proof.Machine

/-! ### Switchover (08) -/

theorem newPendingSet_frame {k : Nat} (hk : k < 32) (i m : Nat) (s : State) : ∃ L p e n, newPendingSet k i m s =
    { s with links := tset s.links k L, pool := p, engine := e, notices := n } := by
  unfold newPendingSet
  obtain ⟨p, e, h⟩ := setPending_frame k i m s
  dsimp only
  obtain ⟨L, n, h2⟩ := offerTest_frame k
    ((setPending k i m s).setLink k (((setPending k i m s).link k).issueNumber.startGather s.shadow.gather))
  refine ⟨L, p, e, n, ?_⟩
  rw [h2]
  have hs : (State.setLink (setPending k i m s) k
      (((setPending k i m s).link k).issueNumber.startGather s.shadow.gather)).links =
      tset (tset s.links k { s.link k with pendingSet := (s.link k).pendingSet.set i (some m) }) k
        (((setPending k i m s).link k).issueNumber.startGather s.shadow.gather) := by rw [h]; rfl
  rw [hs, tset_tset, tset_tset, h]
  rfl

/-- The taking of a build result touches the link's record, the pool, the engine and the notices alone (R138 to R141). -/
theorem takeResult_frame (k i m : Nat) (s : State) : ∃ L p e n, takeResult k i m s =
    { s with links := tset s.links k L, pool := p, engine := e, notices := n } := by
  have self : ∃ L p e n, s = { s with links := tset s.links k L, pool := p, engine := e, notices := n } :=
    ⟨s.link k, s.pool, s.engine, s.notices, (setLink_self s k).symm⟩
  unfold takeResult
  split
  · rename_i hc
    have hk : k < 32 := by
      by_contra hb
      rw [link_beyond s (by omega)] at hc
      simp [Link.free] at hc
    split
    · exact newPendingSet_frame hk i m s
    · obtain ⟨p, e, h⟩ := setPending_frame k i m s
      obtain ⟨L, n, h2⟩ := offerTest_frame k (setPending k i m s)
      refine ⟨L, p, e, n, ?_⟩
      rw [h2, h, tset_tset]
    · exact newPendingSet_frame hk i m s
    · obtain ⟨p, e, h⟩ := setNext_frame k i m s
      exact ⟨_, p, e, s.notices, h⟩
  · exact self

theorem clearNextCell_frame (k : Nat) (s : State) : ∃ L p e, clearNextCell k s =
    { s with links := tset s.links k L, pool := p, engine := e } := by
  unfold clearNextCell
  split
  · rename_i i _
    obtain ⟨p, e, h⟩ := setCell_frame k i 0 s
    exact ⟨_, p, e, h⟩
  · exact ⟨s.link k, s.pool, s.engine, (setLink_self s k).symm⟩

theorem fallbackItem_frame (k : Nat) (x : FallbackItem) (s : State) : ∃ L p e y, fallbackItem k x s =
    { s with links := tset s.links k L, pool := p, engine := e, path := y } := by
  cases x
  · obtain ⟨L, p, e, h⟩ := clearNextCell_frame k s
    exact ⟨L, p, e, s.path, h⟩
  · obtain ⟨p, e, h⟩ := releaseLatch_frame k s
    exact ⟨_, p, e, s.path, h⟩
  · obtain ⟨p, e, y, h⟩ := cancelJobOf_frame k s
    refine ⟨s.link k, p, e, y, ?_⟩
    rw [show tset s.links k (s.link k) = s.links from tset_tget _ _ _]
    exact h

/-- The activities of an entry to FALLBACK, in any order, touch the link's record, the pool, the engine and the path alone. -/
theorem fallBack_frame {k : Nat} (hk : k < 32) (order : List FallbackItem) (s : State) : ∃ L p e y, fallBack k order s =
    { s with links := tset s.links k L, pool := p, engine := e, path := y } := by
  have hfold : ∀ (l : List FallbackItem) (t : State), ∃ L p e y, l.foldl (fun u x => fallbackItem k x u) t =
      { t with links := tset t.links k L, pool := p, engine := e, path := y } := by
    intro l
    induction l with
    | nil =>
      intro t
      refine ⟨t.link k, t.pool, t.engine, t.path, ?_⟩
      rw [show tset t.links k (t.link k) = t.links from tset_tget _ _ _]
      rfl
    | cons x l ih =>
      intro t
      obtain ⟨L, p, e, y, h⟩ := fallbackItem_frame k x t
      obtain ⟨L', p', e', y', h'⟩ := ih (fallbackItem k x t)
      refine ⟨L', p', e', y', ?_⟩
      rw [List.foldl_cons, h', h, tset_tset]
  unfold fallBack
  obtain ⟨L, p, e, y, h⟩ := hfold order s
  obtain ⟨p1, e1, h1⟩ := clearCells_frame hk (order.foldl (fun u x => fallbackItem k x u) s)
  obtain ⟨p2, e2, h2⟩ := releaseLatch_frame k (clearCells k (order.foldl (fun u x => fallbackItem k x u) s))
  obtain ⟨p3, e3, y3, h3⟩ :=
    cancelJobOf_frame k (releaseLatch k (clearCells k (order.foldl (fun u x => fallbackItem k x u) s)))
  rw [h3, h2, h1, h]
  simp only [tset_tset]
  exact ⟨_, _, _, _, rfl⟩

/-- Whatever its order, an entry to FALLBACK ends with every cell at slot 0 and the latch absent, and changes no other field of the
record (R145). -/
theorem fallBack_link {k : Nat} (hk : k < 32) (order : List FallbackItem) (s : State) : (fallBack k order s).link k =
    { s.link k with cells := (s.link k).cells.map fun _ => 0, latch := none } := by
  have hone : ∀ (x : FallbackItem) (t : State), ∃ c l, (fallbackItem k x t).link k = { t.link k with cells := c, latch := l }
      ∧ c.length = (t.link k).cells.length := by
    intro x t
    cases x
    · show ∃ c l, (clearNextCell k t).link k = _ ∧ _
      unfold clearNextCell
      split
      · rename_i i _
        obtain ⟨p, e, h⟩ := setCell_frame k i 0 t
        rw [h]
        exact ⟨(t.link k).cells.set i 0, (t.link k).latch, tget_tset_same _ _ _ hk, List.length_set ..⟩
      · exact ⟨_, _, rfl, rfl⟩
    · obtain ⟨p, e, h⟩ := releaseLatch_frame k t
      show ∃ c l, (releaseLatch k t).link k = _ ∧ _
      rw [h]
      exact ⟨(t.link k).cells, none, tget_tset_same _ _ _ hk, rfl⟩
    · obtain ⟨p, e, y, h⟩ := cancelJobOf_frame k t
      show ∃ c l, (cancelJobOf k t).link k = _ ∧ _
      rw [h]
      exact ⟨_, _, rfl, rfl⟩
  have hfold : ∀ (l : List FallbackItem) (t : State), ∃ c la,
      (l.foldl (fun u x => fallbackItem k x u) t).link k = { t.link k with cells := c, latch := la }
      ∧ c.length = (t.link k).cells.length := by
    intro l
    induction l with
    | nil => intro t; exact ⟨_, _, rfl, rfl⟩
    | cons x l ih =>
      intro t
      obtain ⟨c, la, h, hl⟩ := hone x t
      obtain ⟨c', la', h', hl'⟩ := ih (fallbackItem k x t)
      refine ⟨c', la', ?_, ?_⟩
      · rw [List.foldl_cons, h', h]
      · rw [hl', h]; exact hl
  have hmap : ∀ {a b : List Nat}, a.length = b.length → (a.map fun _ => 0) = b.map fun _ => 0 := by
    intro a b h
    apply List.ext_getElem
    · simp [h]
    · intro i _ _; simp
  unfold fallBack
  obtain ⟨c, la, h, hl⟩ := hfold order s
  obtain ⟨p1, e1, h1⟩ := clearCells_frame hk (order.foldl (fun u x => fallbackItem k x u) s)
  obtain ⟨p2, e2, h2⟩ := releaseLatch_frame k (clearCells k (order.foldl (fun u x => fallbackItem k x u) s))
  obtain ⟨p3, e3, y3, h3⟩ :=
    cancelJobOf_frame k (releaseLatch k (clearCells k (order.foldl (fun u x => fallbackItem k x u) s)))
  have e1 : (clearCells k (order.foldl (fun u x => fallbackItem k x u) s)).link k =
      { (order.foldl (fun u x => fallbackItem k x u) s).link k with
        cells := ((order.foldl (fun u x => fallbackItem k x u) s).link k).cells.map fun _ => 0 } := by
    rw [h1]; exact tget_tset_same _ _ _ hk
  have e2 : (releaseLatch k (clearCells k (order.foldl (fun u x => fallbackItem k x u) s))).link k =
      { (clearCells k (order.foldl (fun u x => fallbackItem k x u) s)).link k with latch := none } := by
    rw [h2]; exact tget_tset_same _ _ _ hk
  have e3 : (cancelJobOf k (releaseLatch k (clearCells k (order.foldl (fun u x => fallbackItem k x u) s)))).link k =
      (releaseLatch k (clearCells k (order.foldl (fun u x => fallbackItem k x u) s))).link k := by
    rw [h3]; rfl
  rw [e3, e2, e1, h]
  dsimp only
  rw [hmap hl]

/-- The entry to FALLBACK touches the link's record, the pool, the engine, the path, the queue, the notices and the counter of choices
alone. -/
theorem enterFallback_frame {k : Nat} (hk : k < 32) (s : State) : ∃ L p e y n, enterFallback k s =
    { s with
      links := tset s.links k L
      pool := p
      engine := e
      path := y
      buildQueue := s.buildQueue.filter fun q => q.link != k
      notices := n
      choices := s.choices + 1 } := by
  unfold enterFallback
  dsimp only
  obtain ⟨L, p, e, y, h⟩ := fallBack_frame hk (Config.fallbackOrder s.choices)
    { dropQueueOf k (s.setLink k { s.link k with mode := .fallback }) with choices := s.choices + 1 }
  obtain ⟨p2, e2, h2⟩ := clearEntries_frame hk (fallBack k (Config.fallbackOrder s.choices)
    { dropQueueOf k (s.setLink k { s.link k with mode := .fallback }) with choices := s.choices + 1 })
  rw [h2, h]
  simp only [raise, dropQueueOf, State.setLink, tset_tset]
  exact ⟨_, _, _, _, _, rfl⟩

/-- The expiry of an offer touches the link's record, the pool, the engine, the path, the queue, the notices and the counter of choices
alone (R144). -/
theorem expireOffer_frame {k : Nat} (hk : k < 32) (s : State) : ∃ L p e y q n c, expireOffer k s =
    { s with
      links := tset s.links k L
      pool := p
      engine := e
      path := y
      buildQueue := q
      notices := n
      choices := c } := by
  unfold expireOffer
  dsimp only
  obtain ⟨p, e, h⟩ := clearPendings_frame hk s
  split
  · obtain ⟨L, p', e', y, n, h2⟩ := enterFallback_frame hk
      (raise (.offerExpired k (State.link (State.setLink (clearPendings k s) k
          { ((clearPendings k s).link k).toSteady with streak := ((clearPendings k s).link k).streak + 1 }) k).pendingSetNo
        (s.link k).pendingMask (State.link (State.setLink (clearPendings k s) k
          { ((clearPendings k s).link k).toSteady with streak := ((clearPendings k s).link k).streak + 1 }) k).streak)
        (State.setLink (clearPendings k s) k
          { ((clearPendings k s).link k).toSteady with streak := ((clearPendings k s).link k).streak + 1 }))
    rw [h2, h]
    simp only [raise, State.setLink, tset_tset]
    exact ⟨_, _, _, _, _, _, _, rfl⟩
  · rw [h]
    simp only [raise, State.setLink, tset_tset]
    exact ⟨_, _, _, s.path, s.buildQueue, _, s.choices, rfl⟩

theorem flipSlice_frame (k i : Nat) (s : State) : ∃ p e, flipSlice k i s =
    { s with
      links := tset s.links k
        { s.link k with
          cells := match (s.link k).pendingSet.getD i none with
            | some m => (s.link k).cells.set i m
            | none => (s.link k).cells }
      pool := p
      engine := e } := by
  unfold flipSlice
  cases h : (s.link k).pendingSet.getD i none with
  | some m =>
    obtain ⟨p, e, h2⟩ := setCell_frame k i m s
    exact ⟨p, e, h2⟩
  | none => exact ⟨s.pool, s.engine, (setLink_self s k).symm⟩

theorem promoteNext_frame {k : Nat} (s : State) : ∃ L n, promoteNext k s =
    { s with links := tset s.links k L, notices := n } := by
  unfold promoteNext
  dsimp only
  split
  · obtain ⟨L, n, h⟩ := offerTest_frame k (s.setLink k
      (Link.startGather (Link.issueNumber
        { s.link k with pendingSet := (s.link k).nextSet, nextSet := (s.link k).nextSet.map fun _ => none })
        s.shadow.gather))
    rw [h]
    simp only [State.setLink, tset_tset]
    exact ⟨_, _, rfl⟩
  · exact ⟨_, s.notices, rfl⟩

/-- The flip touches the link's record, the pool, the engine and the notices alone (R149, R150). -/
theorem flipLink_frame {k : Nat} (hk : k < 32) (s : State) : ∃ L p e n, flipLink k s =
    { s with links := tset s.links k L, pool := p, engine := e, notices := n } := by
  unfold flipLink
  dsimp only
  obtain ⟨p, e, h⟩ := forSlices_frame (f := flipSlice k) (g := fun i L =>
      { L with
        cells := match L.pendingSet.getD i none with
          | some m => L.cells.set i m
          | none => L.cells }) hk (fun i s => flipSlice_frame k i s) (s.link k).pendingSet.length s
  generalize forSlices (s.link k).pendingSet.length (flipSlice k) s = u at *
  obtain ⟨p2, e2, h2⟩ := clearPendings_frame hk
    (u.setLink k { u.link k with activeSet := (u.link k).pendingSetNo, streak := 0 })
  generalize clearPendings k (u.setLink k { u.link k with activeSet := (u.link k).pendingSetNo, streak := 0 }) = v at *
  obtain ⟨L, n, h3⟩ := promoteNext_frame (k := k) (State.setLink
    (raise (.switched k (v.link k).activeSet (s.link k).pendingMask s.tracker.halfCount) v) k
    { (raise (.switched k (v.link k).activeSet (s.link k).pendingMask s.tracker.halfCount) v).link k with
      effective := 0, offerAge := 0 })
  rw [h3, h2, h]
  simp only [raise, State.setLink, tset_tset]
  exact ⟨_, _, _, _, rfl⟩

/-- What a link does at a start touches its record, the pool, the engine, the path, the queue, the notices and the counter of choices
alone (R143). -/
theorem actAtStart_frame (k : Nat) (s : State) : ∃ L p e y q n c, actAtStart k s =
    { s with
      links := tset s.links k L
      pool := p
      engine := e
      path := y
      buildQueue := q
      notices := n
      choices := c } := by
  have self : ∃ L p e y q n c, s =
      { s with
        links := tset s.links k L, pool := p, engine := e, path := y, buildQueue := q, notices := n, choices := c } :=
    ⟨s.link k, s.pool, s.engine, s.path, s.buildQueue, s.notices, s.choices, (setLink_self s k).symm⟩
  unfold actAtStart
  dsimp only
  split
  · rename_i ho
    have hk : k < 32 := by
      by_contra hb
      rw [link_beyond s (by omega)] at ho
      simp [Link.free] at ho
    split
    · exact self
    · obtain ⟨L, n, h⟩ := offerTest_frame k (s.setLink k (s.link k).tick)
      rw [h]
      simp only [State.setLink, tset_tset]
      exact ⟨L, s.pool, s.engine, s.path, s.buildQueue, n, s.choices, rfl⟩
    · split
      · obtain ⟨L, p, e, y, q, n, c, h⟩ := expireOffer_frame hk (s.setLink k (s.link k).tick)
        rw [h]
        simp only [State.setLink, tset_tset]
        exact ⟨L, p, e, y, q, n, c, rfl⟩
      · exact ⟨(s.link k).tick, s.pool, s.engine, s.path, s.buildQueue, s.notices, s.choices, rfl⟩
    · split
      · obtain ⟨L, p, e, n, h⟩ := flipLink_frame hk s
        exact ⟨L, p, e, s.path, s.buildQueue, n, s.choices, h⟩
      · exact self
  · exact self

/-! ### The tracker (03) -/

/-- The announcement of a start touches the records that count and the list of links that owe their act alone (R143, log 10). -/
theorem link_announceStart (s : State) {k : Nat} (hk : k < 32) : (announceStart s).link k =
    if (s.link k).isOpen && !((s.link k).isOpen && (s.link k).actsAtStart s.shadow.offerLife s.tracker.halfCount) then
      (s.link k).tick else s.link k :=
  tget_tmapIdx _ _ Link.free Link.free hk

theorem sweepStep_frame (k : Nat) (s : State) : ∃ L p e, sweepStep k s =
    { s with links := tset s.links k L, pool := p, engine := e } := by
  unfold sweepStep
  dsimp only
  split
  · split
    · obtain ⟨p, e, h⟩ := setCell_frame k _ 0 s
      exact ⟨_, p, e, h⟩
    · obtain ⟨p, e, h⟩ := clearPending_frame k _ s
      exact ⟨_, p, e, h⟩
    · obtain ⟨p, e, h⟩ := clearNext_frame k _ s
      exact ⟨_, p, e, h⟩
    · exact ⟨s.link k, s.pool, s.engine, (setLink_self s k).symm⟩
  · exact ⟨s.link k, s.pool, s.engine, (setLink_self s k).symm⟩

theorem sweepLink_frame (k : Nat) (s : State) : ∃ p e, sweepLink k s =
    { s with
      links := tset s.links k (if (s.link k).isOpen then
        { s.link k with
          cells := (s.link k).cells.map fun _ => 0
          pendingSet := (s.link k).pendingSet.map fun _ => none
          nextSet := (s.link k).nextSet.map fun _ => none
          swState := .steady
          gatherLeft := 0
          offerAge := 0
          effective := 0
          streak := 0
          summary := (s.link k).summary.map fun _ => Summary.empty } else s.link k)
      pool := p
      engine := e } := by
  unfold sweepLink
  split
  · rename_i ho
    have hk : k < 32 := by
      by_contra hb
      rw [link_beyond s (by omega)] at ho
      simp [Link.free] at ho
    obtain ⟨p1, e1, h1⟩ := clearCells_frame hk s
    obtain ⟨p2, e2, h2⟩ := clearPendings_frame hk (clearCells k s)
    obtain ⟨p3, e3, h3⟩ := clearNexts_frame hk (clearPendings k (clearCells k s))
    refine ⟨p3, e3, ?_⟩
    have l1 : (clearCells k s).link k = { s.link k with cells := (s.link k).cells.map fun _ => 0 } := by
      rw [h1]; exact tget_tset_same _ _ _ hk
    have l2 : (clearPendings k (clearCells k s)).link k =
        { (clearCells k s).link k with pendingSet := ((clearCells k s).link k).pendingSet.map fun _ => none } := by
      rw [h2]; exact tget_tset_same _ _ _ hk
    have l3 : (clearNexts k (clearPendings k (clearCells k s))).link k =
        { (clearPendings k (clearCells k s)).link k with
          nextSet := ((clearPendings k (clearCells k s)).link k).nextSet.map fun _ => none } := by
      rw [h3]; exact tget_tset_same _ _ _ hk
    dsimp only
    rw [l3, l2, l1, h3, l2, l1, h2, l1, h1]
    simp only [State.setLink, tset_tset, Link.toSteady]
  · exact ⟨s.pool, s.engine, (setLink_self s k).symm⟩

/-- One activity of a loss touches the Link Table, the pool, the engine and the path alone. -/
theorem lossItem_frame (x : LossItem) (s : State) : ∃ v p e y, lossItem x s =
    { s with links := v, pool := p, engine := e, path := y } := by
  cases x
  · rename_i k
    obtain ⟨L, p, e, h⟩ := sweepStep_frame k s
    exact ⟨_, p, e, s.path, h⟩
  · rename_i k
    obtain ⟨p, e, h⟩ := releaseLatch_frame k s
    exact ⟨_, p, e, s.path, h⟩
  · obtain ⟨p, y, h⟩ := dropJob_frame s
    exact ⟨s.links, p, _, y, h⟩

/-- The activities of a loss, in any order, touch the Link Table, the pool, the engine and the path alone (R56, R151). -/
theorem sweepAll_frame (order : List LossItem) (s : State) : ∃ v p e y, sweepAll order s =
    { s with links := v, pool := p, engine := e, path := y } := by
  have f1 : ∀ (l : List LossItem) (t : State), ∃ v p e y, l.foldl (fun u x => lossItem x u) t =
      { t with links := v, pool := p, engine := e, path := y } := by
    intro l
    induction l with
    | nil => intro t; exact ⟨t.links, t.pool, t.engine, t.path, rfl⟩
    | cons x l ih =>
      intro t
      obtain ⟨v, p, e, y, h⟩ := lossItem_frame x t
      obtain ⟨v', p', e', y', h'⟩ := ih (lossItem x t)
      exact ⟨v', p', e', y', by rw [List.foldl_cons, h', h]⟩
  have f2 : ∀ (f : Nat → State → State) (_ : ∀ k t, ∃ v p e, f k t = { t with links := v, pool := p, engine := e }) (t : State),
      ∃ v p e, forLinks f t = { t with links := v, pool := p, engine := e } := by
    intro f hf
    unfold forLinks
    generalize List.range 32 = l
    induction l with
    | nil => intro t; exact ⟨t.links, t.pool, t.engine, rfl⟩
    | cons x l ih =>
      intro t
      obtain ⟨v, p, e, h⟩ := hf x t
      obtain ⟨v', p', e', h'⟩ := ih (f x t)
      exact ⟨v', p', e', by rw [List.foldl_cons, h', h]⟩
  unfold sweepAll
  obtain ⟨v1, p1, e1, y1, h1⟩ := f1 order s
  obtain ⟨v2, p2, e2, h2⟩ := f2 sweepLink (fun k t => by
    obtain ⟨p, e, h⟩ := sweepLink_frame k t; exact ⟨_, p, e, h⟩) (order.foldl (fun u x => lossItem x u) s)
  obtain ⟨v3, p3, e3, h3⟩ := f2 releaseLatch (fun k t => by
    obtain ⟨p, e, h⟩ := releaseLatch_frame k t; exact ⟨_, p, e, h⟩)
    (forLinks sweepLink (order.foldl (fun u x => lossItem x u) s))
  obtain ⟨p4, y4, h4⟩ :=
    dropJob_frame (forLinks releaseLatch (forLinks sweepLink (order.foldl (fun u x => lossItem x u) s)))
  generalize (dropJob (forLinks releaseLatch (forLinks sweepLink (order.foldl (fun u x => lossItem x u) s)))).engine = e4 at h4
  refine ⟨v3, p4, e4, y4, ?_⟩
  rw [h4, h3, h2, h1]

/-- The loss touches the tracker, the Link Table, the pool, the engine, the path, the queue, the notices and the counter of choices
alone; the tracker becomes `Tracker.lose`, and the queue is empty (R56, R113). -/
theorem loseLock_frame (s : State) : ∃ v p e y, loseLock s =
    { s with
      tracker := s.tracker.lose
      links := v
      pool := p
      engine := e
      path := y
      buildQueue := []
      notices := (raise (.trackLost s.tracker.period s.tracker.strayCount) s).notices
      choices := s.choices + 1 } := by
  unfold loseLock
  dsimp only
  obtain ⟨v, p, e, y, h⟩ := sweepAll_frame (Config.lossOrder s.choices)
    { raise (.trackLost s.tracker.period s.tracker.strayCount) s with buildQueue := [], choices := s.choices + 1 }
  rw [h]
  exact ⟨v, p, e, y, rfl⟩

/-- A missed window touches the tracker, the Link Table, the list of links that owe their act, the pool, the engine, the path, the queue,
the notices and the counter of choices alone (R53, R55, R56). -/
theorem missWindow_frame (s : State) : ∃ T v o p e y q n c, missWindow s =
    { s with
      tracker := T, links := v, owed := o, pool := p, engine := e, path := y, buildQueue := q, notices := n, choices := c } := by
  unfold missWindow
  split
  · dsimp only
    split
    · exact ⟨_, _, _, s.pool, s.engine, s.path, s.buildQueue, _, s.choices, rfl⟩
    · exact ⟨_, _, _, s.pool, s.engine, s.path, s.buildQueue, s.notices, s.choices, rfl⟩
  · obtain ⟨v, p, e, y, h⟩ := loseLock_frame s
    exact ⟨_, v, s.owed, p, e, y, _, _, _, h⟩

theorem edge_frame (s : State) : ∃ T v o p e y q n c, edge s =
    { s with
      tracker := T, links := v, owed := o, pool := p, engine := e, path := y, buildQueue := q, notices := n, choices := c } := by
  have h1 : ∃ T v o p e y q n c, (if s.missDue then missWindow s else s) =
      { s with
        tracker := T, links := v, owed := o, pool := p, engine := e, path := y, buildQueue := q, notices := n
        choices := c } := by
    split
    · exact missWindow_frame s
    · exact ⟨_, _, _, _, _, _, _, _, _, rfl⟩
  have h2 : ∀ t : State, ∃ T v o n, searchEdge t = { t with tracker := T, links := v, owed := o, notices := n } := by
    intro t
    unfold searchEdge
    split
    · exact ⟨_, _, _, _, rfl⟩
    · split
      · exact ⟨_, _, _, _, rfl⟩
      · dsimp only
        split
        · exact ⟨_, _, _, _, rfl⟩
        · exact ⟨_, _, _, _, rfl⟩
  have h3 : ∀ t : State, ∃ T v o n, lockedEdge t = { t with tracker := T, links := v, owed := o, notices := n } := by
    intro t
    unfold lockedEdge
    split
    · exact ⟨_, _, _, _, rfl⟩
    · split
      · exact ⟨_, _, _, _, rfl⟩
      · unfold acceptEdge
        dsimp only
        by_cases hh : t.tracker.state = .holdover
        · rw [if_pos hh]; exact ⟨_, _, _, _, rfl⟩
        · rw [if_neg hh]; exact ⟨_, _, _, _, rfl⟩
  obtain ⟨T, v, o, p, e, y, q, n, c, h⟩ := h1
  unfold edge
  dsimp only
  rw [h]
  split
  · exact ⟨T, v, o, p, e, y, q, n, c, rfl⟩
  · obtain ⟨T', v', o', n', h'⟩ := h2
      { s with tracker := T, links := v, owed := o, pool := p, engine := e, path := y, buildQueue := q, notices := n, choices := c }
    exact ⟨T', v', o', p, e, y, q, n', c, h'⟩
  · obtain ⟨T', v', o', n', h'⟩ := h3
      { s with tracker := T, links := v, owed := o, pool := p, engine := e, path := y, buildQueue := q, notices := n, choices := c }
    exact ⟨T', v', o', p, e, y, q, n', c, h'⟩
  · obtain ⟨T', v', o', n', h'⟩ := h3
      { s with tracker := T, links := v, owed := o, pool := p, engine := e, path := y, buildQueue := q, notices := n, choices := c }
    exact ⟨T', v', o', p, e, y, q, n', c, h'⟩

/-! ### Estimate Intake (06) -/

theorem arrival_frame (r : Nat) (x : Word) (s : State) : ∃ v q n, arrival r x s =
    { s with links := v, buildQueue := q, notices := n } := by
  unfold arrival
  dsimp only
  split
  · rename_i k _
    have h : ∃ v q, takeEstimate r k (estSeq x) (s.headerOf r) s = { s with links := v, buildQueue := q } := by
      unfold takeEstimate
      dsimp only
      split
      · exact ⟨_, _, rfl⟩
      · exact ⟨_, _, rfl⟩
    obtain ⟨v, q, h⟩ := h
    unfold counting
    rw [h]
    exact ⟨_, q, s.notices, rfl⟩
  · exact ⟨s.links, s.buildQueue, _, rfl⟩

/-! ### The Loading Engine (07) -/

/-- An operation that needs the job, without one. -/
theorem withJob_none {f : Job → State → State} {s : State} (h : s.engine.job = none) : withJob f s = s := by
  unfold withJob; rw [h]

/-- An operation that needs the job, with it. -/
theorem withJob_some {f : Job → State → State} {s : State} {j : Job} (h : s.engine.job = some j) : withJob f s = f j s := by
  unfold withJob; rw [h]

theorem overrun_frame (why : BuildFailure) (s : State) : ∃ p e y n, overrun why s =
    { s with pool := p, engine := e, path := y, notices := n } := by
  unfold overrun withJob
  split
  · dsimp only
    obtain ⟨p, y, h⟩ := dropJob_frame s
    generalize (dropJob s).engine = e at h
    rw [h]
    exact ⟨p, e, y, _, rfl⟩
  · exact ⟨s.pool, s.engine, s.path, s.notices, rfl⟩

/-- A reported write into the record of no job does nothing (R130). -/
theorem reportWrite_other {r : Nat} {s : State} (h : ∀ j, s.engine.job = some j → j.record ≠ r) : reportWrite r s = s := by
  unfold reportWrite withJob
  split
  · rename_i j hj
    exact if_neg (h j hj)
  · rfl

theorem reportWrite_frame (r : Nat) (s : State) : ∃ p e y n, reportWrite r s =
    { s with pool := p, engine := e, path := y, notices := n } := by
  have self : ∃ p e y n, s = { s with pool := p, engine := e, path := y, notices := n } := ⟨_, _, _, _, rfl⟩
  unfold reportWrite withJob
  split
  · dsimp only
    split
    · exact overrun_frame _ _
    · exact self
  · exact self

theorem enterAllocate_frame (s : State) : ∃ p e n, enterAllocate s = { s with pool := p, engine := e, notices := n } := by
  unfold enterAllocate withJob
  split
  · dsimp only
    split
    · exact ⟨_, _, _, rfl⟩
    · rename_i j _ _
      obtain ⟨p, e, h⟩ := allocate_frame (s.setJob { j with stage := .allocate } none)
      rw [h]
      exact ⟨p, e, s.notices, rfl⟩
  · exact ⟨s.pool, s.engine, s.notices, rfl⟩

theorem examineFrom_frame (i : Nat) (s : State) : ∃ p e n, examineFrom i s = { s with pool := p, engine := e, notices := n } := by
  unfold examineFrom withJob
  split
  · dsimp only
    split
    · exact ⟨s.pool, _, s.notices, rfl⟩
    · exact enterAllocate_frame s
  · exact ⟨s.pool, s.engine, s.notices, rfl⟩

theorem endUnchanged_frame (j : Job) (s : State) : ∃ L e y, endUnchanged j s =
    { s with links := tset s.links j.link L, engine := e, path := y } := ⟨_, _, _, rfl⟩

theorem handOff_frame (j : Job) (m : Nat) (s : State) : ∃ L p e y n, handOff j m s =
    { s with links := tset s.links j.link L, pool := p, engine := e, path := y, notices := n } := by
  unfold handOff
  obtain ⟨L, p, e, n, h⟩ := takeResult_frame j.link j.slice m (endJob (setBuildMean j s))
  rw [h]
  simp only [endJob, setBuildMean, State.setLink, tset_tset]
  exact ⟨_, _, _, _, _, rfl⟩

/-- The end of a job without a failure touches its link's record, the pool, the engine, the path and the notices alone. -/
theorem enterMatch_frame (s : State) : ∃ v p e y n, enterMatch s =
    { s with links := v, pool := p, engine := e, path := y, notices := n } := by
  unfold enterMatch withJob
  split
  · rename_i j _
    dsimp only
    split
    · split
      · obtain ⟨L, e, y, h⟩ := endUnchanged_frame j s
        exact ⟨_, s.pool, e, y, s.notices, h⟩
      · obtain ⟨L, p, e, y, n, h⟩ := handOff_frame j 0 s
        exact ⟨_, p, e, y, n, h⟩
    · obtain ⟨p, e, n, h⟩ := examineFrom_frame 0 (s.setJob
        { j with
          stage := .matching
          candidates := ((s.link j.link).candidateSlots j.slice).map fun x => (x, (s.slot x).issue)
          pos := 0
          candIx := 0 } none)
      rw [h]
      exact ⟨s.links, p, e, s.path, n, rfl⟩
  · exact ⟨s.links, s.pool, s.engine, s.path, s.notices, rfl⟩

theorem useMatch_frame (m : Nat) (issue : BitVec 8) (s : State) : ∃ v p e y n, useMatch m issue s =
    { s with links := v, pool := p, engine := e, path := y, notices := n } := by
  unfold useMatch withJob
  split
  · rename_i j _
    dsimp only
    split
    · split
      · obtain ⟨L, e, y, h⟩ := endUnchanged_frame j s
        exact ⟨_, s.pool, e, y, s.notices, h⟩
      · obtain ⟨L, p, e, y, n, h⟩ := handOff_frame j m s
        exact ⟨_, p, e, y, n, h⟩
    · obtain ⟨p, e, n, h⟩ := examineFrom_frame (j.candIx + 1) s
      exact ⟨s.links, p, e, s.path, n, h⟩
  · exact ⟨s.links, s.pool, s.engine, s.path, s.notices, rfl⟩

/-- What the end of a burst of the Loading Engine sets off touches the Link Table, the pool, the engine, the path and the notices alone. -/
theorem candidateRead_frame (ws : List Word) (s : State) : ∃ v p e y n, candidateRead ws s =
    { s with links := v, pool := p, engine := e, path := y, notices := n } := by
  have self : ∃ v p e y n, s = { s with links := v, pool := p, engine := e, path := y, notices := n } :=
    ⟨_, _, _, _, _, rfl⟩
  unfold candidateRead withJob
  split
  · rename_i j _
    dsimp only
    split
    · exact self
    · split
      · split
        · exact ⟨s.links, s.pool, _, s.path, s.notices, rfl⟩
        · exact useMatch_frame _ _ s
      · obtain ⟨p, e, n, h⟩ := examineFrom_frame (j.candIx + 1) s
        exact ⟨s.links, p, e, s.path, n, h⟩
  · exact self

theorem headerRead_frame (ws : List Word) (s : State) : ∃ p e y n, headerRead ws s =
    { s with pool := p, engine := e, path := y, notices := n } := by
  unfold headerRead withJob
  split
  · dsimp only
    split
    · exact ⟨s.pool, _, s.path, s.notices, rfl⟩
    · exact overrun_frame _ s
  · exact ⟨s.pool, s.engine, s.path, s.notices, rfl⟩

theorem snrRead_frame (ws : List Word) (s : State) : ∃ v p e y n, snrRead ws s =
    { s with links := v, pool := p, engine := e, path := y, notices := n } := by
  unfold snrRead withJob
  split
  · rename_i j _
    dsimp only
    split
    · exact ⟨s.links, s.pool, _, s.path, s.notices, rfl⟩
    · obtain ⟨v, p, e, y, n, h⟩ := enterMatch_frame (State.setJob
        { s with engine := { s.engine with buffer := s.engine.buffer ++ s.loadBurst j.pos ws } }
        { j with
          total := ((s.engine.buffer ++ s.loadBurst j.pos ws).map BitVec.toNat).sum
          signature := sumWords (bufferWords (s.engine.buffer ++ s.loadBurst j.pos ws) s.shadow.carriers) } none)
      exact ⟨v, p, e, y, n, h⟩
  · exact ⟨s.links, s.pool, s.engine, s.path, s.notices, rfl⟩

theorem headerWritten_frame (s : State) : ∃ v p e y n, headerWritten s =
    { s with links := v, pool := p, engine := e, path := y, notices := n } := by
  have self : ∃ v p e y n, s = { s with links := v, pool := p, engine := e, path := y, notices := n } :=
    ⟨_, _, _, _, _, rfl⟩
  unfold headerWritten withJob
  split
  · rename_i j _
    dsimp only
    split
    · exact self
    · rename_i m _
      obtain ⟨L, p, e, y, n, h⟩ := handOff_frame j m s
      exact ⟨_, p, e, y, n, h⟩
  · exact self

/-! ### The Transmit Ring Watch (09) and Alias Translation (10) -/

theorem unpin_frame (i : Nat) (s : State) : ∃ p e t, unpin i s = { s with pool := p, engine := e, pinTable := t } := by
  unfold unpin
  split
  · rename_i m _
    obtain ⟨p, e, h⟩ := releasePin_frame m (s.setPinEntry i { s.pinEntry i with pinned := none })
    exact ⟨p, e, _, h⟩
  · exact ⟨s.pool, s.engine, s.pinTable, rfl⟩

/-- A control transition touches the pool, the engine, the pin table and the notices alone (R160 to R165). -/
theorem transition_frame (i : Nat) (x : Word) (s : State) : ∃ p e t n, transition i x s =
    { s with pool := p, engine := e, pinTable := t, notices := n } := by
  obtain ⟨p, e, t, h⟩ := unpin_frame i s
  unfold transition
  split
  · unfold commit
    dsimp only
    split
    · unfold acceptCommit
      obtain ⟨p', h'⟩ := takePin_frame (by assumption) ((unpin i s).setPinEntry i
        { (unpin i s).pinEntry i with ref := none, pinned := some (by assumption) })
      rw [h', h]
      exact ⟨_, _, _, s.notices, rfl⟩
    · unfold rejectCommit
      rw [h]
      exact ⟨_, _, _, _, rfl⟩
  all_goals exact ⟨p, e, t, s.notices, h⟩

/-- Setting a latch touches the link's record, the pool and the engine alone (R170). -/
theorem setLatch_frame (k sel m : Nat) (s : State) : ∃ p e, setLatch k sel m s =
    { s with links := tset s.links k { s.link k with latch := some ⟨sel, m⟩ }, pool := p, engine := e } := by
  unfold setLatch
  dsimp only
  split
  · exact ⟨_, s.engine, rfl⟩
  · split
    · exact ⟨s.pool, s.engine, rfl⟩
    · rename_i l _ _
      obtain ⟨p, e, h⟩ := releasePin_frame l.slot (takePin m (s.setLink k { s.link k with latch := some ⟨sel, m⟩ }))
      exact ⟨p, e, h⟩

/-! ### The link commands (04, 06, 08) -/

theorem dropFirstCell_frame (k : Nat) (s : State) : ∃ p e, dropFirstCell k s =
    { s with
      links := tset s.links k { s.link k with cells := (s.link k).cells.tail }
      pool := p
      engine := e } := by
  unfold dropFirstCell
  cases h : (s.link k).cells with
  | cons c cs =>
    obtain ⟨p, e, h2⟩ := releaseRef_frame c (s.setLink k { s.link k with cells := cs })
    exact ⟨p, e, h2⟩
  | nil =>
    refine ⟨s.pool, s.engine, ?_⟩
    have : { s.link k with cells := ([] : List Nat).tail } = s.link k := by
      show { s.link k with cells := [] } = s.link k
      rw [← h]
    rw [this]
    exact (setLink_self s k).symm

/-- LINK_REMOVE leaves the record FREE with its change count, and touches the pool, the engine, the path, the queue and the list of
links that owe their act besides (R75). -/
theorem removeLink_frame {k : Nat} (hk : k < 32) (s : State) : ∃ p e y, removeLink k s =
    { s with
      links := tset s.links k { Link.free with changes := (s.link k).changes }
      pool := p
      engine := e
      path := y
      buildQueue := s.buildQueue.filter fun q => q.link != k
      owed := s.owed.filter (· != k) } := by
  unfold removeLink
  dsimp only
  obtain ⟨p1, e1, h1⟩ := forSlices_frame (f := fun _ => dropFirstCell k) (g := fun _ L => { L with cells := L.cells.tail }) hk
    (fun _ s => dropFirstCell_frame k s) (s.link k).cells.length s
  have hc : ∀ (l : List Nat) (L : Link), (l.foldl (fun (M : Link) _ => { M with cells := M.cells.tail }) L).changes =
      L.changes := by
    intro l
    induction l with
    | nil => intro L; rfl
    | cons i l ih => intro L; rw [List.foldl_cons, ih]
  have c1 : ((forSlices (s.link k).cells.length (fun _ => dropFirstCell k) s).link k).changes = (s.link k).changes := by
    rw [h1, State.link, tget_tset_same _ _ _ hk]
    exact hc _ _
  generalize forSlices (s.link k).cells.length (fun _ => dropFirstCell k) s = u1 at *
  obtain ⟨p2, e2, h2⟩ := clearPendings_frame hk u1
  have c2 : ((clearPendings k u1).link k).changes = (u1.link k).changes := by
    rw [h2, State.link, tget_tset_same _ _ _ hk]
  generalize clearPendings k u1 = u2 at *
  obtain ⟨p3, e3, h3⟩ := clearNexts_frame hk u2
  have c3 : ((clearNexts k u2).link k).changes = (u2.link k).changes := by
    rw [h3, State.link, tget_tset_same _ _ _ hk]
  generalize clearNexts k u2 = u3 at *
  obtain ⟨p4, e4, h4⟩ := releaseLatch_frame k u3
  have c4 : ((releaseLatch k u3).link k).changes = (u3.link k).changes := by
    rw [h4, State.link, tget_tset_same _ _ _ hk]
  generalize releaseLatch k u3 = u4 at *
  obtain ⟨p5, e5, y5, h5⟩ := cancelJobOf_frame k (dropQueueOf k u4)
  have c5 : ((cancelJobOf k (dropQueueOf k u4)).link k).changes = (u4.link k).changes := by rw [h5]; rfl
  generalize cancelJobOf k (dropQueueOf k u4) = u5 at *
  refine ⟨p5, e5, y5, ?_⟩
  rw [c5, c4, c3, c2, c1, h5]
  simp only [dropQueueOf, State.setLink]
  rw [h4, h3, h2, h1]
  simp only [tset_tset]

theorem discardOffer_frame {k : Nat} (hk : k < 32) (s : State) : ∃ p e, discardOffer k s =
    { s with
      links := tset s.links k
        { s.link k with
          swState := .steady
          gatherLeft := 0
          offerAge := 0
          effective := 0
          pendingSet := (s.link k).pendingSet.map fun _ => none }
      pool := p
      engine := e } := by
  unfold discardOffer
  obtain ⟨p, e, h⟩ := clearPendings_frame hk s
  have l : (clearPendings k s).link k = { s.link k with pendingSet := (s.link k).pendingSet.map fun _ => none } := by
    rw [h]; exact tget_tset_same _ _ _ hk
  refine ⟨p, e, ?_⟩
  dsimp only
  rw [l, h]
  simp only [State.setLink, tset_tset, Link.toSteady]

end Sys2Proof.Machine
end

