-- ==== Sys2Proof/Laws/Slots.lean ====
section
/-! SUPPORT. The law of slot states and of the Free List (R85, R90, R92): what each Map Pool operation does to it:
`PoolFits.<operation>` for each operation. A slot under way between a release and a take is excepted by `e`. -/

namespace Sys2Proof.Machine

/-- The slot of the Loading Engine's job, if it holds one. -/
def State.jobSlot (s : State) : Option Nat := s.engine.job.bind Job.slot

/-- The state R85 gives a slot that no job holds. -/
def heldAs (named : Bool) (refs pins : Nat) : SlotState :=
  if named then .active else if 0 < refs then .staged else if 0 < pins then .retiring else .free

/-- Every slot but those of `e` stands in the state R85 gives it, the Free List holds each FREE slot once, and the job's slot is
BUILDING. -/
structure PoolFits (e : Nat → Prop) (s : State) : Prop where
  size : 16 ≤ s.shadow.poolSlots ∧ s.shadow.poolSlots ≤ 128
  base : (s.slot 0).state = .base
  held : ∀ n, 0 < n → n < 128 → ¬ e n →
    ((s.slot n).state = .building ∧ (s.slot n).refs = 0 ∧ (s.slot n).pins = 0 ∧ s.cellNames n = false)
      ∨ (s.slot n).state = heldAs (s.cellNames n) (s.slot n).refs (s.slot n).pins
  exc : ∀ n, 0 < n → n < 128 → e n → (s.slot n).state ≠ .free ∧ (s.slot n).state ≠ .building ∧ (s.slot n).state ≠ .base
  nodup : s.pool.freeList.Nodup
  mem : ∀ n, n ∈ s.pool.freeList ↔ 0 < n ∧ n < s.shadow.poolSlots ∧ (s.slot n).state = .free
  job : ∀ n, s.jobSlot = some n → 0 < n ∧ n < s.shadow.poolSlots ∧ (s.slot n).state = .building

theorem heldAs_ne_base (c r p) : heldAs c r p ≠ .base := by unfold heldAs; split; simp; split; simp; split <;> simp
theorem heldAs_ne_building (c r p) : heldAs c r p ≠ .building := by unfold heldAs; split; simp; split; simp; split <;> simp
theorem heldAs_free {c r p} : heldAs c r p = .free ↔ c = false ∧ r = 0 ∧ p = 0 := by
  unfold heldAs; split
  · simp_all
  · split
    · simp_all; omega
    · split <;> simp_all; omega
theorem heldAs_retiring {c r p} : heldAs c r p = .retiring ↔ c = false ∧ r = 0 ∧ 0 < p := by
  unfold heldAs; split
  · simp_all
  · split
    · simp_all; omega
    · split <;> simp_all

theorem cellNames_iff (s : State) (n : Nat) : s.cellNames n = true ↔ ∃ k, k < 32 ∧ (s.link k).isOpen = true ∧ n ∈ (s.link k).cells := by
  unfold State.cellNames
  simp only [List.any_eq_true, Bool.and_eq_true, List.contains_iff_mem]
  constructor
  · rintro ⟨L, hL, h⟩
    obtain ⟨k, hk, rfl⟩ := List.mem_iff_getElem.1 hL
    have hk' : k < 32 := by simpa using hk
    refine ⟨k, hk', ?_⟩
    simpa [State.link, tget, hk'] using h
  · rintro ⟨k, hk, h⟩
    refine ⟨s.link k, ?_, h⟩
    unfold State.link
    simp [tget, hk]

variable {e e' : Nat → Prop} {s t : State}

theorem PoolFits.ne_base (h : PoolFits e s) {n : Nat} (h0 : 0 < n) (hn : n < 128) : (s.slot n).state ≠ .base := by
  by_cases he : e n
  · exact (h.exc n h0 hn he).2.2
  · rcases h.held n h0 hn he with h | h
    · rw [h.1]; simp
    · rw [h]; exact heldAs_ne_base _ _ _

theorem PoolFits.named (h : PoolFits e s) {n : Nat} (h0 : 0 < n) (hn : n < 128) (he : ¬ e n) (hr : 0 < (s.slot n).refs) :
    (s.slot n).state ≠ .free ∧ (s.slot n).state ≠ .building ∧ (s.slot n).state ≠ .base := by
  rcases h.held n h0 hn he with h1 | h1
  · omega
  · refine ⟨?_, ?_, h.ne_base h0 hn⟩
    · rw [h1]; intro hc; have := heldAs_free.1 hc; omega
    · rw [h1]; exact heldAs_ne_building _ _ _

/-- A state with the same cells but for excepted slots, the same states and counts, Free List, pool size and job slot. -/
theorem PoolFits.like (h : PoolFits e s) (hc : ∀ m, ¬ e m → t.cellNames m = s.cellNames m) (hf : t.pool.freeList = s.pool.freeList)
    (hst : ∀ m, (t.slot m).state = (s.slot m).state) (hr : ∀ m, (t.slot m).refs = (s.slot m).refs) (hp : ∀ m, (t.slot m).pins = (s.slot m).pins)
    (hs : t.shadow.poolSlots = s.shadow.poolSlots) (hj : t.jobSlot = none ∨ t.jobSlot = s.jobSlot) : PoolFits e t := by
  refine ⟨by rw [hs]; exact h.size, by rw [hst]; exact h.base, ?_, ?_, by rw [hf]; exact h.nodup, ?_, ?_⟩
  · intro n h0 hn he; rw [hst, hr, hp, hc n he]; exact h.held n h0 hn he
  · intro n; rw [hst]; exact h.exc n
  · intro n; rw [hf, hst, hs]; exact h.mem n
  · intro n hn; rw [hst, hs]; rcases hj with hj | hj
    · rw [hj] at hn; cases hn
    · exact h.job n (by rw [← hj]; exact hn)

/-- A state with the same cells but for excepted slots, pool, pool size and job slot. -/
theorem PoolFits.same (h : PoolFits e s) (hc : ∀ m, ¬ e m → t.cellNames m = s.cellNames m) (hp : t.pool = s.pool)
    (hs : t.shadow.poolSlots = s.shadow.poolSlots) (hj : t.jobSlot = none ∨ t.jobSlot = s.jobSlot) : PoolFits e t := by
  have hsl : ∀ n, t.slot n = s.slot n := fun n => by unfold State.slot; rw [hp]
  exact h.like hc (by rw [hp]) (fun m => by rw [hsl]) (fun m => by rw [hsl]) (fun m => by rw [hsl]) hs hj

theorem PoolFits.mono (h : PoolFits e s) (he : ∀ n, 0 < n → n < 128 → e' n ∧ ¬ e n → (s.slot n).state ≠ .free ∧ (s.slot n).state ≠ .building)
    (he2 : ∀ n, e n → e' n) : PoolFits e' s := by
  refine ⟨h.size, h.base, fun n h0 hn hc => h.held n h0 hn (fun x => hc (he2 n x)), ?_, h.nodup, h.mem, h.job⟩
  intro n h0 hn hc
  by_cases hx : e n
  · exact h.exc n h0 hn hx
  · exact ⟨(he n h0 hn ⟨hc, hx⟩).1, (he n h0 hn ⟨hc, hx⟩).2, h.ne_base h0 hn⟩

/-- One record is replaced, neither to nor from FREE. -/
theorem PoolFits.one {n : Nat} {x : SlotRec} (h : PoolFits e s) (hc : ∀ m, m ≠ n → t.cellNames m = s.cellNames m) (hs : t.shadow.poolSlots = s.shadow.poolSlots)
    (hj : t.jobSlot = none ∨ t.jobSlot = s.jobSlot) (hsl : ∀ m, t.slot m = if n = m ∧ m < 128 then x else s.slot m) (hf : t.pool.freeList = s.pool.freeList)
    (h0 : n = 0 → x.state = .base) (h1 : 0 < n → n < 128 → (x.state = .free ↔ (s.slot n).state = .free))
    (h2 : 0 < n → n < 128 → ¬ e' n → (x.state = .building ∧ x.refs = 0 ∧ x.pins = 0 ∧ t.cellNames n = false) ∨ x.state = heldAs (t.cellNames n) x.refs x.pins)
    (h3 : 0 < n → n < 128 → e' n → x.state ≠ .free ∧ x.state ≠ .building ∧ x.state ≠ .base)
    (he : ∀ m, m ≠ n → (e' m ↔ e m)) (hj2 : s.jobSlot = some n → t.jobSlot = none ∨ x.state = .building) : PoolFits e' t := by
  refine ⟨by rw [hs]; exact h.size, ?_, ?_, ?_, by rw [hf]; exact h.nodup, ?_, ?_⟩
  · rw [hsl]; split
    · rename_i hh; exact h0 hh.1
    · exact h.base
  · intro m m0 hm hem
    by_cases hnm : n = m
    · subst hnm; rw [hsl]; simp only [hm, and_self, if_true]; exact h2 m0 hm hem
    · rw [hsl, hc m (fun h => hnm h.symm)]; simp only [hnm, false_and, if_false]; exact h.held m m0 hm (fun hx => hem ((he m (fun h => hnm h.symm)).2 hx))
  · intro m m0 hm hem
    by_cases hnm : n = m
    · subst hnm; rw [hsl]; simp only [hm, and_self, if_true]; exact h3 m0 hm hem
    · rw [hsl]; simp only [hnm, false_and, if_false]; exact h.exc m m0 hm ((he m (fun h => hnm h.symm)).1 hem)
  · intro m
    rw [hf, hsl, hs, h.mem m]
    split
    · rename_i hh
      obtain ⟨rfl, hm⟩ := hh
      constructor
      · rintro ⟨a, b, c⟩; exact ⟨a, b, (h1 a hm).2 c⟩
      · rintro ⟨a, b, c⟩; exact ⟨a, b, (h1 a hm).1 c⟩
    · rfl
  · intro m hm
    rw [hs, hsl]
    have hm' : s.jobSlot = some m := by
      rcases hj with hj | hj
      · rw [hj] at hm; cases hm
      · rw [← hj]; exact hm
    obtain ⟨a, b, c⟩ := h.job m hm'
    refine ⟨a, b, ?_⟩
    split
    · rename_i hh; obtain ⟨rfl, _⟩ := hh
      rcases hj2 hm' with hz | hz
      · rw [hz] at hm; cases hm
      · exact hz
    · exact c

/-! ### The operations -/

theorem PoolFits.allocate (h : PoolFits e s) : PoolFits e (allocate s) := by
  unfold Machine.allocate
  split
  · rename_i j n rest hj hf
    have hn := (h.mem n).1 (by rw [hf]; simp)
    have n128 : n < 128 := by have := h.size.2; omega
    have hen : ¬ e n := fun hx => (h.exc n hn.1 n128 hx).1 hn.2.2
    have hh : (s.slot n).refs = 0 ∧ (s.slot n).pins = 0 ∧ s.cellNames n = false := by
      rcases h.held n hn.1 n128 hen with hx | hx
      · exact ⟨hx.2.1, hx.2.2.1, hx.2.2.2⟩
      · rw [hn.2.2] at hx; have := heldAs_free.1 hx.symm; exact ⟨this.2.1, this.2.2, this.1⟩
    have hnd := h.nodup
    rw [hf, List.nodup_cons] at hnd
    have hsl : ∀ m (x : SlotRec) (E : Engine), State.slot { s with pool := { slots := tset s.pool.slots n x, freeList := rest }, engine := E } m = if n = m ∧ m < 128 then x else s.slot m := by
      intro m x E; exact tget_tset _ _ _ _ _
    refine ⟨h.size, ?_, ?_, ?_, hnd.2, ?_, ?_⟩
    · rw [hsl]; split
      · omega
      · exact h.base
    · intro m m0 hm hem
      rw [hsl]
      by_cases hnm : n = m
      · subst hnm; simp only [hm, and_self, if_true]; exact Or.inl ⟨trivial, hh.1, hh.2.1, hh.2.2⟩
      · simp only [hnm, false_and, if_false]; exact h.held m m0 hm hem
    · intro m m0 hm hem
      rw [hsl]
      by_cases hnm : n = m
      · subst hnm; exact absurd hem hen
      · simp only [hnm, false_and, if_false]; exact h.exc m m0 hm hem
    · intro m
      rw [hsl]
      by_cases hnm : n = m
      · subst hnm
        simp only [n128, and_self, if_true, reduceCtorEq, and_false, iff_false]
        exact hnd.1
      · simp only [hnm, false_and, if_false]
        rw [← h.mem m, hf]
        simp only [List.mem_cons]
        constructor
        · exact Or.inr
        · rintro (hx | hx)
          · exact absurd hx.symm hnm
          · exact hx
    · intro m hm
      have : m = n := by simpa [State.jobSlot] using hm.symm
      subst this
      rw [hsl]; simp only [n128, and_self, if_true]; exact ⟨hn.1, hn.2.1, trivial⟩
  · exact h

/-- A slot that nothing names and no job holds joins the Free List. -/
theorem PoolFits.joinFree {n : Nat} (h : PoolFits e s) (h0 : 0 < n) (hP : n < s.shadow.poolSlots) (hst : (s.slot n).state ≠ .free) (hj : s.jobSlot ≠ some n)
    (hr : (s.slot n).refs = 0) (hp : (s.slot n).pins = 0) (hc : s.cellNames n = false) (he : ∀ m, e' m ↔ e m ∧ m ≠ n) : PoolFits e' (joinFree n s) := by
  have n128 : n < 128 := by have := h.size.2; omega
  have hsl : ∀ m (x : SlotRec) l, State.slot { s with pool := { slots := tset s.pool.slots n x, freeList := l } } m = if n = m ∧ m < 128 then x else s.slot m := by
    intro m x E; exact tget_tset _ _ _ _ _
  have key : PoolFits e' { s with pool := { slots := tset s.pool.slots n { s.slot n with state := .free }, freeList := s.pool.freeList ++ [n] } } := by
    refine ⟨h.size, ?_, ?_, ?_, ?_, ?_, ?_⟩
    · rw [hsl]; split
      · omega
      · exact h.base
    · intro m m0 hm hem
      rw [hsl]
      by_cases hnm : n = m
      · subst hnm; simp only [hm, and_self, if_true]
        exact Or.inr (heldAs_free.2 ⟨hc, hr, hp⟩).symm
      · simp only [hnm, false_and, if_false]; exact h.held m m0 hm (fun hx => hem ((he m).2 ⟨hx, fun h => hnm h.symm⟩))
    · intro m m0 hm hem
      have := (he m).1 hem
      rw [hsl]
      simp only [show ¬ n = m from fun h => this.2 h.symm, false_and, if_false]; exact h.exc m m0 hm this.1
    · rw [List.nodup_append]
      refine ⟨h.nodup, by simp, ?_⟩
      intro a ha b hb
      simp at hb; subst hb
      rintro rfl
      exact hst ((h.mem a).1 ha).2.2
    · intro m
      rw [hsl]
      simp only [List.mem_append, List.mem_singleton]
      by_cases hnm : n = m
      · subst hnm; simp only [n128, and_self, if_true, or_true, true_iff]; exact ⟨h0, hP, trivial⟩
      · simp only [hnm, false_and, if_false]
        rw [h.mem m]
        constructor
        · rintro (hx | hx)
          · exact hx
          · exact absurd hx.symm hnm
        · exact Or.inl
    · intro m hm
      rw [hsl]
      have : ¬ n = m := by rintro rfl; exact hj hm
      simp only [this, false_and, if_false]; exact h.job m hm
  unfold Machine.joinFree handToWaiting
  split
  · exact key.allocate
  · exact key

theorem joinFree_state (n : Nat) (s : State) (x : SlotRec) (y : SlotState) : joinFree n (s.setSlot n { x with state := y }) = joinFree n (s.setSlot n x) := by
  have e1 : ∀ z : SlotRec, tset (tset s.pool.slots n z) n { (s.setSlot n z).slot n with state := .free } = tset s.pool.slots n { (s.setSlot n z).slot n with state := .free } := fun z => tset_tset _ _ _ _
  by_cases hn : n < 128
  · unfold Machine.joinFree
    have e2 : ∀ z : SlotRec, (s.setSlot n z).slot n = z := fun z => by rw [slot_setSlot]; simp [hn]
    rw [e2, e2]
    simp only [State.setSlot]
    rw [tset_tset, tset_tset]
  · have e3 : ∀ z : SlotRec, s.setSlot n z = s := by
      intro z
      have : tset s.pool.slots n z = s.pool.slots := by
        apply tget_ext SlotRec.reset; intro i hi; rw [tget_tset_ne _ _ _ (by omega)]
      unfold State.setSlot; rw [this]
    rw [e3, e3]

theorem PoolFits.takeRef {n : Nat} (h : PoolFits e s) (hst : 0 < n → n < 128 → (s.slot n).state ≠ .free) (hj : s.jobSlot ≠ some n)
    (he : ∀ m, e' m ↔ e m ∧ m ≠ n) : PoolFits e' (takeRef n s) := by
  have hheld : 0 < n → n < 128 → s.heldState n { s.slot n with refs := (s.slot n).refs + 1 } = heldAs (s.cellNames n) ((s.slot n).refs + 1) (s.slot n).pins := by
    intro h0 hn
    unfold State.heldState heldAs
    simp only [h.ne_base h0 hn, if_false]
  refine h.one (n := n) (x := { s.slot n with refs := (s.slot n).refs + 1, state := s.heldState n { s.slot n with refs := (s.slot n).refs + 1 } }) (fun _ _ => rfl) rfl (Or.inr rfl)
    (fun m => slot_setSlot _ _ _ _) rfl ?_ ?_ ?_ ?_ ?_ ?_
  · rintro rfl; simp [State.heldState, h.base]
  · intro h0 hn
    refine iff_of_false ?_ (hst h0 hn)
    dsimp only; rw [hheld h0 hn]; intro hc; have := heldAs_free.1 hc; omega
  · intro h0 hn _; right; dsimp only; exact hheld h0 hn
  · intro h0 hn hx; exact absurd rfl ((he n).1 hx).2
  · intro m hm; rw [he m]; simp [hm]
  · intro hx; exact absurd hx hj

theorem PoolFits.releaseRef {n : Nat} (h : PoolFits e s) (hP : n < s.shadow.poolSlots)
    (hst : 0 < n → (s.slot n).state ≠ .free ∧ (s.slot n).state ≠ .building)
    (he : ∀ m, e' m ↔ e m ∧ m ≠ n) : PoolFits e' (releaseRef n s) := by
  have n128 : n < 128 := by have := h.size.2; omega
  have hheld : 0 < n → s.heldState n { s.slot n with refs := (s.slot n).refs - 1 } = heldAs (s.cellNames n) ((s.slot n).refs - 1) (s.slot n).pins := by
    intro h0
    unfold State.heldState heldAs
    simp only [h.ne_base h0 n128, if_false]
  have hj : 0 < n → s.jobSlot ≠ some n := fun h0 hx => (hst h0).2 (h.job n hx).2.2
  unfold Machine.releaseRef
  dsimp only
  split
  · rename_i hfree
    have h0 : 0 < n := by
      rcases Nat.eq_zero_or_pos n with rfl | h0
      · simp [State.heldState, h.base] at hfree
      · exact h0
    rw [joinFree_state n s { s.slot n with refs := (s.slot n).refs - 1 } (s.heldState n { s.slot n with refs := (s.slot n).refs - 1 })]
    have hx := heldAs_free.1 ((hheld h0).symm.trans hfree)
    have h1 : PoolFits (fun m => e m ∨ m = n) (s.setSlot n { s.slot n with refs := (s.slot n).refs - 1 }) := by
      refine h.one (n := n) (x := { s.slot n with refs := (s.slot n).refs - 1 }) (fun _ _ => rfl) rfl (Or.inr rfl) (fun m => slot_setSlot _ _ _ _) rfl ?_ ?_ ?_ ?_ ?_ ?_
      · rintro rfl; omega
      · intro _ _; rfl
      · intro _ _ hh; exact absurd (Or.inr rfl) hh
      · intro _ _ _; exact ⟨(hst h0).1, (hst h0).2, h.ne_base h0 n128⟩
      · intro m hm; simp [hm]
      · intro hh; exact absurd hh (hj h0)
    have hs2 : (s.setSlot n { s.slot n with refs := (s.slot n).refs - 1 }).slot n = { s.slot n with refs := (s.slot n).refs - 1 } := by rw [slot_setSlot]; simp [n128]
    refine h1.joinFree h0 hP ?_ (hj h0) ?_ ?_ hx.1 ?_
    · rw [hs2]; exact (hst h0).1
    · rw [hs2]; exact hx.2.1
    · rw [hs2]; exact hx.2.2
    · intro m; rw [he m]
      constructor
      · rintro ⟨a, b⟩; exact ⟨Or.inl a, b⟩
      · rintro ⟨a | a, b⟩
        · exact ⟨a, b⟩
        · exact absurd a b
  · rename_i hfree
    refine h.one (n := n) (x := { s.slot n with refs := (s.slot n).refs - 1, state := s.heldState n { s.slot n with refs := (s.slot n).refs - 1 } }) (fun _ _ => rfl) rfl (Or.inr rfl)
      (fun m => slot_setSlot _ _ _ _) rfl ?_ ?_ ?_ ?_ ?_ ?_
    · rintro rfl; simp [State.heldState, h.base]
    · intro h0 hn; exact iff_of_false hfree (hst h0).1
    · intro h0 hn _; right; dsimp only; exact hheld h0
    · intro h0 hn hx; exact absurd rfl ((he n).1 hx).2
    · intro m hm; rw [he m]; simp [hm]
    · intro hx
      rcases Nat.eq_zero_or_pos n with rfl | h0
      · exact absurd (h.job 0 hx).1 (by omega)
      · exact absurd hx (hj h0)

theorem PoolFits.takePin {n : Nat} (h : PoolFits e s) (he : 0 < n → ¬ e n) (hn : n = 0 ∨ s.cellNames n = true) : PoolFits e (takePin n s) := by
  refine h.one (n := n) (x := { s.slot n with pins := (s.slot n).pins + 1 }) (fun _ _ => rfl) rfl (Or.inr rfl) (fun m => slot_setSlot _ _ _ _) rfl ?_ ?_ ?_ ?_ ?_ ?_
  · rintro rfl; exact h.base
  · intro _ _; rfl
  · intro h0 h1 hx
    rcases hn with hn | hn
    · omega
    · rcases h.held n h0 h1 hx with hh | hh
      · rw [hn] at hh; simp at hh
      · right; dsimp only; rw [hh]; show _ = heldAs (s.cellNames n) _ _; unfold heldAs; simp [hn]
  · intro h0 _ hx; exact absurd hx (he h0)
  · intro m _; rfl
  · intro hx; right; exact (h.job n hx).2.2

theorem PoolFits.releasePin {n : Nat} (h : PoolFits e s) (he : 0 < n → ¬ e n) (hP : n < s.shadow.poolSlots) : PoolFits e (releasePin n s) := by
  have n128 : n < 128 := by have := h.size.2; omega
  unfold Machine.releasePin
  dsimp only
  split
  · rename_i hr
    have h0 : 0 < n := by
      rcases Nat.eq_zero_or_pos n with rfl | h0
      · rw [h.base] at hr; simp at hr
      · exact h0
    have hx : s.cellNames n = false ∧ (s.slot n).refs = 0 := by
      rcases h.held n h0 n128 (he h0) with hh | hh
      · rw [hr.1] at hh; simp at hh
      · rw [hr.1] at hh; have := heldAs_retiring.1 hh.symm; exact ⟨this.1, this.2.1⟩
    have hj : s.jobSlot ≠ some n := by intro hh; have := (h.job n hh).2.2; rw [hr.1] at this; cases this
    have h1 : PoolFits (fun m => e m ∨ m = n) (s.setSlot n { s.slot n with pins := (s.slot n).pins - 1 }) := by
      refine h.one (n := n) (x := { s.slot n with pins := (s.slot n).pins - 1 }) (fun _ _ => rfl) rfl (Or.inr rfl) (fun m => slot_setSlot _ _ _ _) rfl ?_ ?_ ?_ ?_ ?_ ?_
      · rintro rfl; omega
      · intro _ _; rfl
      · intro _ _ hh; exact absurd (Or.inr rfl) hh
      · intro _ _ _; dsimp only; rw [hr.1]; simp
      · intro m hm; simp [hm]
      · intro hh; exact absurd hh hj
    have hs2 : (s.setSlot n { s.slot n with pins := (s.slot n).pins - 1 }).slot n = { s.slot n with pins := (s.slot n).pins - 1 } := by rw [slot_setSlot]; simp [n128]
    refine h1.joinFree h0 hP ?_ hj ?_ ?_ hx.1 ?_
    · rw [hs2]; dsimp only; rw [hr.1]; simp
    · rw [hs2]; exact hx.2
    · rw [hs2]; dsimp only; omega
    · intro m
      constructor
      · intro a; exact ⟨Or.inl a, by rintro rfl; exact he h0 a⟩
      · rintro ⟨a | a, b⟩
        · exact a
        · exact absurd a b
  · rename_i hr
    refine h.one (n := n) (x := { s.slot n with pins := (s.slot n).pins - 1 }) (fun _ _ => rfl) rfl (Or.inr rfl) (fun m => slot_setSlot _ _ _ _) rfl ?_ ?_ ?_ ?_ ?_ ?_
    · rintro rfl; exact h.base
    · intro _ _; rfl
    · intro h0 h1 hx
      rcases h.held n h0 h1 hx with hh | hh
      · left; exact ⟨hh.1, hh.2.1, by dsimp only; omega, hh.2.2.2⟩
      · right
        show (s.slot n).state = heldAs (s.cellNames n) (s.slot n).refs ((s.slot n).pins - 1)
        rw [hh] at hr ⊢
        unfold heldAs at *
        split <;> try rfl
        split <;> try rfl
        rename_i a b
        simp only [a, b, if_false] at hr
        by_cases hp : 0 < (s.slot n).pins
        · simp only [hp, if_true] at hr ⊢
          rw [if_pos (by simp at hr; omega)]
        · simp [hp]; omega
    · intro h0 _ hx; exact absurd hx (he h0)
    · intro m _; rfl
    · intro hx; right; exact (h.job n hx).2.2

theorem PoolFits.dropJob (h : PoolFits (fun _ => False) s) : PoolFits (fun _ => False) (dropJob s) := by
  unfold Machine.dropJob
  split
  · rename_i j hj
    have he : PoolFits (fun _ => False) (endJob s) := h.same (fun _ _ => rfl) rfl rfl (Or.inl rfl)
    split
    · rename_i n hn
      obtain ⟨h0, hP, hb⟩ := h.job n (by simp [State.jobSlot, hj, hn])
      have n128 : n < 128 := by have := h.size.2; omega
      have hx : (s.slot n).refs = 0 ∧ (s.slot n).pins = 0 ∧ s.cellNames n = false := by
        rcases h.held n h0 n128 (fun x => x) with hh | hh
        · exact hh.2
        · rw [hb] at hh; exact absurd hh.symm (heldAs_ne_building _ _ _)
      refine he.joinFree h0 hP ?_ (by simp [State.jobSlot, endJob, Engine.idle]) hx.1 hx.2.1 hx.2.2 (by simp)
      show (s.slot n).state ≠ _; rw [hb]; simp
    · exact he
  · exact h

theorem PoolFits.cancelJobOf (h : PoolFits (fun _ => False) s) (k : Nat) : PoolFits (fun _ => False) (cancelJobOf k s) := by
  unfold Machine.cancelJobOf
  split
  · split
    · exact h.dropJob
    · exact h
  · exact h

/-! ### What names a slot, when one record is replaced -/

theorem cellNames_link {k : Nat} {L : Link} {n : Nat} (hl : t.links = tset s.links k L)
    (h : (L.isOpen = true ∧ n ∈ L.cells) ↔ ((s.link k).isOpen = true ∧ n ∈ (s.link k).cells)) : t.cellNames n = s.cellNames n := by
  have key : ∀ j, j < 32 → (((t.link j).isOpen = true ∧ n ∈ (t.link j).cells) ↔ ((s.link j).isOpen = true ∧ n ∈ (s.link j).cells)) := by
    intro j hj
    unfold State.link at *
    rw [hl, tget_tset]
    split
    · rename_i hh; rw [← hh.1]; exact h
    · rfl
  rw [Bool.eq_iff_iff, cellNames_iff, cellNames_iff]
  constructor
  · rintro ⟨j, hj, hh⟩; exact ⟨j, hj, (key j hj).1 hh⟩
  · rintro ⟨j, hj, hh⟩; exact ⟨j, hj, (key j hj).2 hh⟩

theorem cellNames_congr {n : Nat} (h : ∀ k, k < 32 → (((t.link k).isOpen = true ∧ n ∈ (t.link k).cells) ↔ ((s.link k).isOpen = true ∧ n ∈ (s.link k).cells))) : t.cellNames n = s.cellNames n := by
  rw [Bool.eq_iff_iff, cellNames_iff, cellNames_iff]
  constructor
  · rintro ⟨j, hj, hh⟩; exact ⟨j, hj, (h j hj).1 hh⟩
  · rintro ⟨j, hj, hh⟩; exact ⟨j, hj, (h j hj).2 hh⟩

end Sys2Proof.Machine
end

