-- ==== Sys2Proof/Laws/Counts.lean ====
section
/-! SUPPORT. The counts of the Map Pool: each shared operation keeps REFS at the number of entries that name a slot, PINS at the number
of pins on it, and a FREE record empty: `CountsOk.<operation>` for each operation. -/

namespace Sys2Proof.Machine

theorem sum_set {l : List Nat} {k a : Nat} (h : k < l.length) : (l.set k a).sum + l[k] = l.sum + a := by
  induction l generalizing k with
  | nil => simp at h
  | cons x l ih =>
    cases k with
    | zero => simp; omega
    | succ k => simp at h; have := ih h; simp; omega

theorem refCount_tset (s : State) (v : Vector Link 32) (k : Nat) (L : Link) (n : Nat) (hk : k < 32) (p e nn):
    ({ s with links := tset v k L, pool := p, engine := e, notices := nn } : State).refCount n + (tget v Link.free k).refCount n = ({s with links := v, pool := p, engine := e, notices := nn} : State).refCount n + L.refCount n := by
  unfold State.refCount
  simp only [toList_tset, List.map_set]
  have hl : k < (v.toList.map fun L => L.refCount n).length := by simp [hk]
  have := sum_set (a := L.refCount n) hl
  have e : (v.toList.map fun L => L.refCount n)[k] = (tget v Link.free k).refCount n := by simp [tget, hk]
  rw [e] at this
  exact this

/-- How many latches of a table name a slot. -/
def latchCount (v : Vector Link 32) (n : Nat) : Nat := (v.toList.filter fun L => L.latch.map Latch.slot == some n).length
/-- How many entries of a pin table pin a slot. -/
def pinEnts (v : Vector PinEntry 64) (n : Nat) : Nat := (v.toList.filter fun e => e.pinned == some n).length
/-- How many entries of a table of records name a slot. -/
def refs (v : Vector Link 32) (n : Nat) : Nat := (v.toList.map fun L => L.refCount n).sum

theorem filter_set {α} (q : α → Bool) {l : List α} {k : Nat} {a : α} (h : k < l.length) :
    ((l.set k a).filter q).length + (if q l[k] then 1 else 0) = (l.filter q).length + (if q a then 1 else 0) := by
  induction l generalizing k with
  | nil => simp at h
  | cons x l ih =>
    cases k with
    | zero => simp only [List.set_cons_zero, List.getElem_cons_zero, List.filter_cons]; split <;> split <;> simp <;> omega
    | succ k => simp at h; have := ih h; simp only [List.set_cons_succ, List.getElem_cons_succ, List.filter_cons]; split <;> simp at * <;> omega

theorem refs_set (v : Vector Link 32) (k : Nat) (L : Link) (n : Nat) (hk : k < 32) :
    refs (tset v k L) n + (tget v Link.free k).refCount n = refs v n + L.refCount n := by
  unfold refs
  simp only [toList_tset, List.map_set]
  have hl : k < (v.toList.map fun L => L.refCount n).length := by simp [hk]
  have := sum_set (a := L.refCount n) hl
  have e : (v.toList.map fun L => L.refCount n)[k] = (tget v Link.free k).refCount n := by simp [tget, hk]
  rw [e] at this
  exact this

theorem latch_set (v : Vector Link 32) (k : Nat) (L : Link) (n : Nat) (hk : k < 32) :
    latchCount (tset v k L) n + (if (tget v Link.free k).latch.map Latch.slot = some n then 1 else 0)
      = latchCount v n + (if L.latch.map Latch.slot = some n then 1 else 0) := by
  unfold latchCount
  have hl : k < v.toList.length := by simp [hk]
  have := filter_set (fun L : Link => L.latch.map Latch.slot == some n) (a := L) hl
  have e : v.toList[k] = tget v Link.free k := by simp [tget, hk]
  rw [e] at this
  rw [toList_tset]
  simpa using this

theorem pin_set (v : Vector PinEntry 64) (k : Nat) (L : PinEntry) (n : Nat) (hk : k < 64) :
    pinEnts (tset v k L) n + (if (tget v PinEntry.empty k).pinned = some n then 1 else 0)
      = pinEnts v n + (if L.pinned = some n then 1 else 0) := by
  unfold pinEnts
  have hl : k < v.toList.length := by simp [hk]
  have := filter_set (fun L : PinEntry => L.pinned == some n) (a := L) hl
  have e : v.toList[k] = tget v PinEntry.empty k := by simp [tget, hk]
  rw [e] at this
  rw [toList_tset]
  simpa using this

theorem count_set_add {α} [BEq α] [LawfulBEq α] [DecidableEq α] {l : List α} {i : Nat} {old a : α} (h : l[i]? = some old) (n : α) :
    (l.set i a).count n + (if old = n then 1 else 0) = l.count n + (if a = n then 1 else 0) := by
  induction l generalizing i with
  | nil => simp at h
  | cons x l ih =>
    cases i with
    | zero => simp at h; subst h; simp [List.count_cons]; omega
    | succ i => simp at h; have := ih h; simp [List.count_cons]; omega

/-- FREE records hold nothing; where r, REFS counts the entries; where p, PINS counts the pins, and the configuration is legal outside
TRANSPARENT; where q, and outside TRANSPARENT, every name is a slot of the pool and every slot stands in the state R85 gives it. -/
structure CountsOk (r p q : Prop) (s : State) : Prop where
  free : s.FreeOk
  ref : r → ∀ n, n < 128 → (s.slot n).refs = refs s.links n
  cfg : p → s.ConfigOk
  pin : p → ∀ n, n < 128 → (s.slot n).pins = pinEnts s.pinTable n + latchCount s.links n
  deps : q → r ∧ p
  names : q → s.filter ≠ .transparent → ∀ n, s.shadow.poolSlots ≤ n → refs s.links n = 0 ∧ pinEnts s.pinTable n = 0 ∧ latchCount s.links n = 0
  fits : q → s.filter ≠ .transparent → PoolFits (fun _ => False) s

variable {r p q : Prop}

theorem CountsOk.frame {s t : State} (h : CountsOk r p q s) (hl : t.links = s.links) (hr : ∀ x, (t.slot x).refs = (s.slot x).refs)
    (hp : ∀ x, (t.slot x).pins = (s.slot x).pins) (ht : t.pinTable = s.pinTable) (hf : t.filter = s.filter) (hs : t.shadow = s.shadow)
    (hq : q → PoolFits (fun _ => False) s → PoolFits (fun _ => False) t) : CountsOk r p q t := by
  refine ⟨?_, ?_, ?_, ?_, h.deps, ?_, ?_⟩
  · intro k; have := h.free k; unfold State.link at *; rw [hl]; exact this
  · intro a n hn; rw [hr, hl]; exact h.ref a n hn
  · intro a; have := h.cfg a; unfold State.ConfigOk at *; rw [hf, hs]; exact this
  · intro a n hn; rw [hp, ht, hl]; exact h.pin a n hn
  · intro a b; rw [hl, ht, hs]; exact h.names a (by rw [← hf]; exact b)
  · intro a b; exact hq a (h.fits a (by rw [← hf]; exact b))

/-- One record is replaced by one with the same entries and latch. -/
theorem CountsOk.link {s t : State} {k : Nat} {L : Link} (h : CountsOk r p q s) (hl : t.links = tset s.links k L)
    (hfree : L.isOpen = false → L = { Link.free with changes := L.changes })
    (hrc : ∀ n, L.refCount n = (s.link k).refCount n) (hla : L.latch.map Latch.slot = (s.link k).latch.map Latch.slot)
    (hce : ∀ n, (L.isOpen = true ∧ n ∈ L.cells) ↔ ((s.link k).isOpen = true ∧ n ∈ (s.link k).cells))
    (hpo : t.pool = s.pool) (hj : t.jobSlot = none ∨ t.jobSlot = s.jobSlot) (ht : t.pinTable = s.pinTable) (hf : t.filter = s.filter) (hs : t.shadow = s.shadow) : CountsOk r p q t := by
  have hr : ∀ x, (t.slot x) = (s.slot x) := fun x => by unfold State.slot; rw [hpo]
  have hfits : PoolFits (fun _ => False) s → PoolFits (fun _ => False) t := fun hh =>
    hh.same (fun m _ => cellNames_link hl (hce m)) hpo (by rw [hs]) hj
  by_cases hk : k < 32
  · refine ⟨?_, ?_, ?_, ?_, h.deps, ?_, fun a b => hfits (h.fits a (by rw [← hf]; exact b))⟩
    · intro j; have := h.free j; unfold State.link at *; rw [hl, tget_tset]; split
      · exact hfree
      · exact this
    · intro a n hn; rw [hr, hl]; have := refs_set s.links k L n hk; rw [hrc] at this; rw [h.ref a n hn]; unfold State.link at this; omega
    · intro a; have := h.cfg a; unfold State.ConfigOk at *; rw [hf, hs]; exact this
    · intro a n hn; rw [hr, ht, hl]; have := latch_set s.links k L n hk; rw [hla] at this; rw [h.pin a n hn]; unfold State.link at this; omega
    · intro a b n hn
      rw [hl, ht]
      have h1 := refs_set s.links k L n hk; rw [hrc] at h1
      have h2 := latch_set s.links k L n hk; rw [hla] at h2
      have h3 := h.names a (by rw [← hf]; exact b) n (by rw [← hs]; exact hn)
      unfold State.link at *; refine ⟨?_, h3.2.1, ?_⟩ <;> omega
  · refine h.frame ?_ (fun x => by rw [hr]) (fun x => by rw [hr]) ht hf hs (fun _ => hfits)
    rw [hl]; apply tget_ext Link.free; intro i hi; rw [tget_tset_ne _ _ _ (by omega)]

theorem CountsOk.openOf {s : State} (h : CountsOk r p q s) {k : Nat} {P : Link → Prop} (hn : ∀ c, ¬ P { Link.free with changes := c }) (hp : P (s.link k)) : (s.link k).isOpen = true := by
  by_contra hc
  have := h.free k (by simpa using hc)
  rw [this] at hp
  exact hn _ hp

theorem lt32 {s : State} {k : Nat} (h : (s.link k).isOpen = true) : k < 32 := by
  by_contra hc
  rw [link_beyond s (by omega)] at h; cases h

/-- One record is replaced, and REFS and PINS move with its entries and latch. -/
theorem CountsOk.linkRef {s t : State} {k : Nat} {L : Link} (h : CountsOk r p q s) (hk : k < 32) (hl : t.links = tset s.links k L) (hopen : L.isOpen = true)
    (hrc : r → ∀ n, n < 128 → (t.slot n).refs + (s.link k).refCount n = (s.slot n).refs + L.refCount n)
    (hpc : p → ∀ n, n < 128 → (t.slot n).pins + (if (s.link k).latch.map Latch.slot = some n then 1 else 0) = (s.slot n).pins + (if L.latch.map Latch.slot = some n then 1 else 0))
    (ht : t.pinTable = s.pinTable) (hf : t.filter = s.filter) (hs : t.shadow = s.shadow)
    (hn : q → s.filter ≠ .transparent → ∀ n, s.shadow.poolSlots ≤ n → L.refCount n ≤ (s.link k).refCount n ∧ (L.latch.map Latch.slot = some n → (s.link k).latch.map Latch.slot = some n))
    (hq : q → s.filter ≠ .transparent → PoolFits (fun _ => False) s → PoolFits (fun _ => False) t) : CountsOk r p q t := by
  refine ⟨?_, ?_, ?_, ?_, h.deps, ?_, fun a b => hq a (by rw [← hf]; exact b) (h.fits a (by rw [← hf]; exact b))⟩
  · intro j; have := h.free j; unfold State.link at *; rw [hl, tget_tset]; split
    · intro hc; rw [hopen] at hc; cases hc
    · exact this
  · intro a n hn; rw [hl]; have h1 := refs_set s.links k L n hk; have h2 := hrc a n hn; have h3 := h.ref a n hn; unfold State.link at *; omega
  · intro a; have := h.cfg a; unfold State.ConfigOk at *; rw [hf, hs]; exact this
  · intro a n hn; rw [ht, hl]; have h1 := latch_set s.links k L n hk; have h2 := hpc a n hn; have h3 := h.pin a n hn; unfold State.link at *; omega
  · intro a b n hP
    rw [hs] at hP
    have b' : s.filter ≠ .transparent := by rw [← hf]; exact b
    have h0 := h.names a b' n hP
    have h1 := refs_set s.links k L n hk
    have h2 := latch_set s.links k L n hk
    obtain ⟨h3, h4⟩ := hn a b' n hP
    rw [hl, ht]
    unfold State.link at *
    refine ⟨by omega, h0.2.1, ?_⟩
    by_cases hx : L.latch.map Latch.slot = some n
    · rw [if_pos hx, if_pos (h4 hx)] at h2; omega
    · rw [if_neg hx] at h2; omega

theorem count_pos_of_get {α} [BEq α] [LawfulBEq α] {l : List α} {i : Nat} {a : α} (h : l[i]? = some a) : 1 ≤ l.count a :=
  List.one_le_count_iff.2 (List.mem_of_getElem? h)

theorem refs_ge (v : Vector Link 32) (k n : Nat) (hk : k < 32) : (tget v Link.free k).refCount n ≤ refs v n := by
  have := refs_set v k Link.free n hk
  have h0 : Link.free.refCount n = 0 := by simp [Link.refCount, Link.free]
  omega

/-- A slot that some entry names: it is in the pool, counted, neither FREE nor BUILDING, and not the job's. -/
theorem CountsOk.slotOf {s : State} (h : CountsOk r p q s) (a : q) (b : s.filter ≠ .transparent) {n : Nat} (hr : 0 < refs s.links n) :
    n < s.shadow.poolSlots ∧ 0 < (s.slot n).refs ∧ (0 < n → (s.slot n).state ≠ .free ∧ (s.slot n).state ≠ .building) ∧ s.jobSlot ≠ some n := by
  have hf := h.fits a b
  have hP : n < s.shadow.poolSlots := by
    by_contra hc; have := (h.names a b n (by omega)).1; omega
  have hn : n < 128 := by have := hf.size.2; omega
  have hr2 : 0 < (s.slot n).refs := by rw [h.ref (h.deps a).1 n hn]; exact hr
  have h3 : 0 < n → (s.slot n).state ≠ .free ∧ (s.slot n).state ≠ .building := fun h0 => by
    have := hf.named h0 hn (fun x => x) hr2; exact ⟨this.1, this.2.1⟩
  refine ⟨hP, hr2, h3, ?_⟩
  intro hj
  obtain ⟨h0, _, hb⟩ := hf.job n hj
  exact (h3 h0).2 hb

/-- A cell moves from one slot to another that an entry names, or to slot 0. -/
theorem CountsOk.moveCell {s : State} (h : CountsOk r p q s) (a : q) (b : s.filter ≠ .transparent) {k i old m : Nat} (hc : (s.link k).cells[i]? = some old)
    (hk : k < 32) (hm : old ≠ m) (hn : m = 0 ∨ 0 < refs s.links m) :
    PoolFits (fun _ => False) (releaseRef old (takeRef m (s.setLink k { s.link k with cells := (s.link k).cells.set i m }))) := by
  have hf := h.fits a b
  have h3 := refs_ge s.links k old hk
  have h2 := count_pos_of_get hc
  have ho := h.slotOf a b (n := old) (by simp only [Link.refCount] at h3; unfold State.link at h2; omega)
  have hm0 : 0 < m → (s.slot m).state ≠ .free ∧ (s.slot m).state ≠ .building := fun h0 => by
    rcases hn with hn | hn
    · omega
    · exact (h.slotOf a b hn).2.2.1 h0
  have hmj : s.jobSlot ≠ some m := by
    rcases hn with rfl | hn
    · intro hj; have := (hf.job 0 hj).1; omega
    · exact (h.slotOf a b hn).2.2.2
  have h1 : PoolFits (fun x => x = old ∨ x = m) s := hf.mono (by
    rintro n h0 _ ⟨rfl | rfl, _⟩
    · exact ho.2.2.1 h0
    · exact hm0 h0) (fun _ x => x.elim)
  have h4 : PoolFits (fun x => x = old ∨ x = m) (s.setLink k { s.link k with cells := (s.link k).cells.set i m }) := by
    refine h1.same ?_ rfl rfl (Or.inr rfl)
    intro x hx
    rw [not_or] at hx
    refine cellNames_link rfl ?_
    dsimp only
    refine and_congr_right fun _ => ?_
    have := count_set_add (a := m) hc x
    rw [if_neg (fun h => hx.1 h.symm), if_neg (fun h => hx.2 h.symm)] at this
    rw [← List.one_le_count_iff, ← List.one_le_count_iff]; omega
  have h5 := h4.takeRef (n := m) (e' := fun x => x = old) (fun h0 _ => (hm0 h0).1) hmj (by intro x; constructor; (rintro rfl; exact ⟨Or.inl rfl, hm⟩); (rintro ⟨h | h, h'⟩; exact h; exact absurd h h'))
  have hs : ∀ L, ((Machine.takeRef m (s.setLink k L)).slot old).state = (s.slot old).state := by
    intro L; unfold Machine.takeRef; rw [slot_setSlot]; rw [if_neg (fun h => hm h.1.symm)]; rfl
  exact h5.releaseRef (n := old) ho.1 (fun h0 => by rw [hs]; exact ho.2.2.1 h0) (by simp)

/-- An entry takes a slot that is not FREE and not the job's; the cells stay. -/
theorem CountsOk.takeEntry {s : State} (h : CountsOk r p q s) (a : q) (b : s.filter ≠ .transparent) {k m : Nat} {L : Link}
    (hL : L.cells = (s.link k).cells) (hL2 : L.isOpen = (s.link k).isOpen) (hn : (0 < m → (s.slot m).state ≠ .free) ∧ s.jobSlot ≠ some m) :
    PoolFits (fun _ => False) (takeRef m (s.setLink k L)) := by
  have h4 : PoolFits (fun _ => False) (s.setLink k L) := (h.fits a b).same (fun x _ => cellNames_link rfl (by rw [hL, hL2])) rfl rfl (Or.inr rfl)
  exact h4.takeRef (n := m) (fun h0 _ => hn.1 h0) hn.2 (by simp)

/-- An entry releases its slot; the cells stay. -/
theorem CountsOk.dropEntry {s : State} (h : CountsOk r p q s) (a : q) (b : s.filter ≠ .transparent) {k old : Nat} {L : Link}
    (hL : L.cells = (s.link k).cells) (hL2 : L.isOpen = (s.link k).isOpen) (hr : 0 < refs s.links old) :
    PoolFits (fun _ => False) (releaseRef old (s.setLink k L)) := by
  have h4 : PoolFits (fun _ => False) (s.setLink k L) := (h.fits a b).same (fun x _ => cellNames_link rfl (by rw [hL, hL2])) rfl rfl (Or.inr rfl)
  have ho := h.slotOf a b hr
  exact h4.releaseRef (n := old) ho.1 (fun h0 => ho.2.2.1 h0) (by simp)

/-- An entry moves from one slot to another that is not FREE and not the job's; the cells stay. -/
theorem CountsOk.moveEntry {s : State} (h : CountsOk r p q s) (a : q) (b : s.filter ≠ .transparent) {k old m : Nat} {L : Link}
    (hL : L.cells = (s.link k).cells) (hL2 : L.isOpen = (s.link k).isOpen) (hm : old ≠ m) (hn : (0 < m → (s.slot m).state ≠ .free) ∧ s.jobSlot ≠ some m)
    (hr : 0 < refs s.links old) : PoolFits (fun _ => False) (releaseRef old (takeRef m (s.setLink k L))) := by
  have ho := h.slotOf a b hr
  have hs : ((Machine.takeRef m (s.setLink k L)).slot old).state = (s.slot old).state := by
    unfold Machine.takeRef; rw [slot_setSlot]; rw [if_neg (fun h => hm h.1.symm)]; rfl
  exact (h.takeEntry a b hL hL2 hn).releaseRef (n := old) ho.1 (fun h0 => by rw [hs]; exact ho.2.2.1 h0) (by simp)

theorem CountsOk.setCell {s : State} (h : CountsOk r p q s) (k i m : Nat) (hm0 : q → s.filter ≠ .transparent → m = 0 ∨ 0 < refs s.links m) : CountsOk r p q (setCell k i m s) := by
  obtain ⟨P, E, hfr⟩ := setCell_frame k i m s
  cases hc : (s.link k).cells[i]? with
  | none => unfold Machine.setCell; rw [hc]; exact h
  | some old =>
    have hopen := h.openOf (k := k) (P := fun L => L.cells ≠ []) (by intro c; simp [Link.free]) (by intro h0; rw [h0] at hc; simp at hc)
    have hk := lt32 hopen
    by_cases hm : old = m
    · unfold Machine.setCell; rw [hc]; simp only [hm, if_true]; exact h
    · have hx : ∀ x, ((Machine.setCell k i m s).slot x).refs = if old = x ∧ x < 128 then (if m = x ∧ x < 128 then (s.slot x).refs + 1 else (s.slot x).refs) - 1 else (if m = x ∧ x < 128 then (s.slot x).refs + 1 else (s.slot x).refs) := by
        intro x; unfold Machine.setCell; rw [hc]; simp only [hm, if_false]; rw [refs_releaseRef, refs_takeRef]; rfl
      have hy : ∀ x, ((Machine.setCell k i m s).slot x).pins = (s.slot x).pins := by
        intro x; unfold Machine.setCell; rw [hc]; simp only [hm, if_false]; rw [pins_releaseRef, pins_takeRef]; rfl
      refine h.linkRef (L := { s.link k with cells := (s.link k).cells.set i m }) hk (by rw [hfr]) hopen ?_ ?_ (by rw [hfr]) (by rw [hfr]) (by rw [hfr]) ?names ?fits
      case names =>
        intro a b n hP
        refine ⟨?_, id⟩
        have hmP : m < s.shadow.poolSlots := by
          rcases hm0 a b with h0 | h0
          · have := (h.fits a b).size.1; omega
          · exact (h.slotOf a b h0).1
        have := count_set_add (a := m) hc n
        simp only [Link.refCount]; rw [if_neg (show ¬ m = n by omega)] at this; omega
      case fits =>
        intro a b _
        unfold Machine.setCell; rw [hc]; simp only [hm, if_false]
        exact h.moveCell a b hc hk hm (hm0 a b)
      · intro a n hn
        rw [hx]
        have h1 := count_set_add (a := m) hc n
        have h2 := count_pos_of_get hc
        have h3 := refs_ge s.links k n hk
        have h4 := h.ref a n hn
        simp only [Link.refCount] at *
        unfold State.link at *
        by_cases ho : old = n
        · subst ho
          have : ¬ m = old := fun h => hm h.symm
          simp only [this, false_and, if_false, hn, and_self, if_true] at *
          omega
        · by_cases hmn : m = n
          · simp only [ho, hmn, hn, false_and, if_false, and_self, if_true] at *; omega
          · simp only [ho, hmn, false_and, if_false] at *; omega
      · intro a n hn; rw [hy]

theorem CountsOk.setPending {s : State} (h : CountsOk r p q s) (k i m : Nat)
    (hm0 : q → s.filter ≠ .transparent → m < s.shadow.poolSlots ∧ (0 < m → (s.slot m).state ≠ .free) ∧ s.jobSlot ≠ some m) : CountsOk r p q (setPending k i m s) := by
  obtain ⟨P, E, hfr⟩ := setPending_frame k i m s
  cases hc : (s.link k).pendingSet[i]? with
  | none => unfold Machine.setPending; simp only [hc]; exact h
  | some old =>
    have hopen := h.openOf (k := k) (P := fun L => L.pendingSet ≠ []) (by intro c; simp [Link.free]) (by intro h0; rw [h0] at hc; simp at hc)
    have hk := lt32 hopen
    by_cases hm : old = some m
    · unfold Machine.setPending; rw [hm] at hc; simp only [hc, if_true]; exact h
    · have hx : ∀ x, x < 128 → ((Machine.setPending k i m s).slot x).refs = if old = some x then (if m = x then (s.slot x).refs + 1 else (s.slot x).refs) - 1 else (if m = x then (s.slot x).refs + 1 else (s.slot x).refs) := by
        intro x hx; unfold Machine.setPending; simp only [hc]
        cases old with
        | none => simp only [refs_takeRef]; simp [hx]
        | some o => 
          have : ¬ o = m := fun h => hm (by rw [h])
          simp only [this, if_false]; rw [refs_releaseRef, refs_takeRef]; simp [hx]
      have hy : ∀ x, ((Machine.setPending k i m s).slot x).pins = (s.slot x).pins := by
        intro x; unfold Machine.setPending; simp only [hc]
        cases old with
        | none => simp only [pins_takeRef]; simp
        | some o =>
          have : ¬ o = m := fun h => hm (by rw [h])
          simp only [this, if_false]; rw [pins_releaseRef, pins_takeRef]; simp
      refine h.linkRef (L := { s.link k with pendingSet := (s.link k).pendingSet.set i (some m) }) hk (by rw [hfr]) hopen ?_ ?_ (by rw [hfr]) (by rw [hfr]) (by rw [hfr]) ?names ?fits
      case names =>
        intro a b n hP
        refine ⟨?_, id⟩
        have hmP := (hm0 a b).1
        have := count_set_add (a := some m) hc (some n)
        simp only [Link.refCount]; rw [if_neg (show ¬ some m = some n by simp; omega)] at this; omega
      case fits =>
        intro a b _
        unfold Machine.setPending; simp only [hc]
        cases old with
        | none => exact h.takeEntry a b rfl rfl (hm0 a b).2
        | some o =>
          have hne : ¬ o = m := fun h => hm (by rw [h])
          simp only [hne, if_false]
          have h2 := count_pos_of_get hc
          have h3 := refs_ge s.links k o hk
          exact h.moveEntry a b rfl rfl hne (hm0 a b).2 (by simp only [Link.refCount] at h3; unfold State.link at h2; omega)
      · intro a n hn
        rw [hx n hn]
        have h1 := count_set_add (a := some m) hc (some n)
        have h2 := count_pos_of_get hc
        have h3 := refs_ge s.links k n hk
        have h4 := h.ref a n hn
        simp only [Link.refCount] at *
        unfold State.link at *
        by_cases ho : old = some n
        · subst ho
          have : ¬ m = n := fun h => hm (by rw [h])
          simp only [Option.some.injEq, this, if_false, if_true] at *
          omega
        · by_cases hmn : m = n
          · simp only [ho, hmn, if_false, if_true] at *; omega
          · simp only [Option.some.injEq, ho, hmn, if_false] at *; omega
      · intro a n hn; rw [hy]

theorem CountsOk.setNext {s : State} (h : CountsOk r p q s) (k i m : Nat)
    (hm0 : q → s.filter ≠ .transparent → m < s.shadow.poolSlots ∧ (0 < m → (s.slot m).state ≠ .free) ∧ s.jobSlot ≠ some m) : CountsOk r p q (setNext k i m s) := by
  obtain ⟨P, E, hfr⟩ := setNext_frame k i m s
  cases hc : (s.link k).nextSet[i]? with
  | none => unfold Machine.setNext; simp only [hc]; exact h
  | some old =>
    have hopen := h.openOf (k := k) (P := fun L => L.nextSet ≠ []) (by intro c; simp [Link.free]) (by intro h0; rw [h0] at hc; simp at hc)
    have hk := lt32 hopen
    by_cases hm : old = some m
    · unfold Machine.setNext; rw [hm] at hc; simp only [hc, if_true]; exact h
    · have hx : ∀ x, x < 128 → ((Machine.setNext k i m s).slot x).refs = if old = some x then (if m = x then (s.slot x).refs + 1 else (s.slot x).refs) - 1 else (if m = x then (s.slot x).refs + 1 else (s.slot x).refs) := by
        intro x hx; unfold Machine.setNext; simp only [hc]
        cases old with
        | none => simp only [refs_takeRef]; simp [hx]
        | some o => 
          have : ¬ o = m := fun h => hm (by rw [h])
          simp only [this, if_false]; rw [refs_releaseRef, refs_takeRef]; simp [hx]
      have hy : ∀ x, ((Machine.setNext k i m s).slot x).pins = (s.slot x).pins := by
        intro x; unfold Machine.setNext; simp only [hc]
        cases old with
        | none => simp only [pins_takeRef]; simp
        | some o =>
          have : ¬ o = m := fun h => hm (by rw [h])
          simp only [this, if_false]; rw [pins_releaseRef, pins_takeRef]; simp
      refine h.linkRef (L := { s.link k with nextSet := (s.link k).nextSet.set i (some m) }) hk (by rw [hfr]) hopen ?_ ?_ (by rw [hfr]) (by rw [hfr]) (by rw [hfr]) ?names ?fits
      case names =>
        intro a b n hP
        refine ⟨?_, id⟩
        have hmP := (hm0 a b).1
        have := count_set_add (a := some m) hc (some n)
        simp only [Link.refCount]; rw [if_neg (show ¬ some m = some n by simp; omega)] at this; omega
      case fits =>
        intro a b _
        unfold Machine.setNext; simp only [hc]
        cases old with
        | none => exact h.takeEntry a b rfl rfl (hm0 a b).2
        | some o =>
          have hne : ¬ o = m := fun h => hm (by rw [h])
          simp only [hne, if_false]
          have h2 := count_pos_of_get hc
          have h3 := refs_ge s.links k o hk
          exact h.moveEntry a b rfl rfl hne (hm0 a b).2 (by simp only [Link.refCount] at h3; unfold State.link at h2; omega)
      · intro a n hn
        rw [hx n hn]
        have h1 := count_set_add (a := some m) hc (some n)
        have h2 := count_pos_of_get hc
        have h3 := refs_ge s.links k n hk
        have h4 := h.ref a n hn
        simp only [Link.refCount] at *
        unfold State.link at *
        by_cases ho : old = some n
        · subst ho
          have : ¬ m = n := fun h => hm (by rw [h])
          simp only [Option.some.injEq, this, if_false, if_true] at *
          omega
        · by_cases hmn : m = n
          · simp only [ho, hmn, if_false, if_true] at *; omega
          · simp only [Option.some.injEq, ho, hmn, if_false] at *; omega
      · intro a n hn; rw [hy]

theorem CountsOk.clearPending {s : State} (h : CountsOk r p q s) (k i : Nat) : CountsOk r p q (clearPending k i s) := by
  obtain ⟨P, E, hfr⟩ := clearPending_frame k i s
  cases hc : (s.link k).pendingSet.getD i none with
  | none => unfold Machine.clearPending; simp only [hc]; exact h
  | some old =>
    have hg : (s.link k).pendingSet[i]? = some (some old) := by
      rw [List.getD_eq_getElem?_getD] at hc
      cases hh : (s.link k).pendingSet[i]? with
      | none => rw [hh] at hc; cases hc
      | some x => rw [hh] at hc; simp at hc; rw [hc]
    have hopen := h.openOf (k := k) (P := fun L => L.pendingSet ≠ []) (by intro c; simp [Link.free]) (by intro h0; rw [h0] at hg; simp at hg)
    have hk := lt32 hopen
    refine h.linkRef (L := { s.link k with pendingSet := (s.link k).pendingSet.set i none }) hk (by rw [hfr]) hopen ?_ ?_ (by rw [hfr]) (by rw [hfr]) (by rw [hfr]) ?names ?fits
    case names =>
      intro a b n hP
      refine ⟨?_, id⟩
      have := count_set_add (a := none) hg (some n)
      simp only [Link.refCount]; rw [if_neg (show ¬ none = some n by simp)] at this; omega
    case fits =>
      intro a b _
      unfold Machine.clearPending; simp only [hc]
      have h2 := count_pos_of_get hg
      have h3 := refs_ge s.links k old hk
      exact h.dropEntry a b rfl rfl (by simp only [Link.refCount] at h3; unfold State.link at h2; omega)
    · intro a n hn
      unfold Machine.clearPending; simp only [hc]; rw [refs_releaseRef]
      have h1 := count_set_add (a := none) hg (some n)
      have h2 := count_pos_of_get hg
      have h3 := refs_ge s.links k n hk
      have h4 := h.ref a n hn
      simp only [Link.refCount, slot_setLink] at *
      unfold State.link at *
      by_cases ho : old = n
      · subst ho; simp only [hn, and_self, if_true, reduceCtorEq, if_false] at *; omega
      · simp only [Option.some.injEq, ho, false_and, if_false, reduceCtorEq] at *; omega
    · intro a n hn; unfold Machine.clearPending; simp only [hc]; rw [pins_releaseRef]; rfl

theorem CountsOk.clearNext {s : State} (h : CountsOk r p q s) (k i : Nat) : CountsOk r p q (clearNext k i s) := by
  obtain ⟨P, E, hfr⟩ := clearNext_frame k i s
  cases hc : (s.link k).nextSet.getD i none with
  | none => unfold Machine.clearNext; simp only [hc]; exact h
  | some old =>
    have hg : (s.link k).nextSet[i]? = some (some old) := by
      rw [List.getD_eq_getElem?_getD] at hc
      cases hh : (s.link k).nextSet[i]? with
      | none => rw [hh] at hc; cases hc
      | some x => rw [hh] at hc; simp at hc; rw [hc]
    have hopen := h.openOf (k := k) (P := fun L => L.nextSet ≠ []) (by intro c; simp [Link.free]) (by intro h0; rw [h0] at hg; simp at hg)
    have hk := lt32 hopen
    refine h.linkRef (L := { s.link k with nextSet := (s.link k).nextSet.set i none }) hk (by rw [hfr]) hopen ?_ ?_ (by rw [hfr]) (by rw [hfr]) (by rw [hfr]) ?names ?fits
    case names =>
      intro a b n hP
      refine ⟨?_, id⟩
      have := count_set_add (a := none) hg (some n)
      simp only [Link.refCount]; rw [if_neg (show ¬ none = some n by simp)] at this; omega
    case fits =>
      intro a b _
      unfold Machine.clearNext; simp only [hc]
      have h2 := count_pos_of_get hg
      have h3 := refs_ge s.links k old hk
      exact h.dropEntry a b rfl rfl (by simp only [Link.refCount] at h3; unfold State.link at h2; omega)
    · intro a n hn
      unfold Machine.clearNext; simp only [hc]; rw [refs_releaseRef]
      have h1 := count_set_add (a := none) hg (some n)
      have h2 := count_pos_of_get hg
      have h3 := refs_ge s.links k n hk
      have h4 := h.ref a n hn
      simp only [Link.refCount, slot_setLink] at *
      unfold State.link at *
      by_cases ho : old = n
      · subst ho; simp only [hn, and_self, if_true, reduceCtorEq, if_false] at *; omega
      · simp only [Option.some.injEq, ho, false_and, if_false, reduceCtorEq] at *; omega
    · intro a n hn; unfold Machine.clearNext; simp only [hc]; rw [pins_releaseRef]; rfl

theorem latch_ge (v : Vector Link 32) (k n : Nat) (hk : k < 32) : (if (tget v Link.free k).latch.map Latch.slot = some n then 1 else 0) ≤ latchCount v n := by
  have := latch_set v k Link.free n hk
  have h0 : (if Link.free.latch.map Latch.slot = some n then 1 else 0) = 0 := by simp [Link.free]
  omega

theorem CountsOk.releaseLatch {s : State} (h : CountsOk r p q s) (k : Nat) : CountsOk r p q (releaseLatch k s) := by
  obtain ⟨P, E, hfr⟩ := releaseLatch_frame k s
  cases hc : (s.link k).latch with
  | none => unfold Machine.releaseLatch; simp only [hc]; exact h
  | some l =>
    have hopen := h.openOf (k := k) (P := fun L => L.latch ≠ none) (by intro c; simp [Link.free]) (by intro h0; rw [h0] at hc; simp at hc)
    have hk := lt32 hopen
    refine h.linkRef (L := { s.link k with latch := none }) hk (by rw [hfr]) hopen ?_ ?_ (by rw [hfr]) (by rw [hfr]) (by rw [hfr]) ?names ?fits
    case names => intro a b n hP; exact ⟨Nat.le_refl _, by simp⟩
    case fits =>
      intro a b hf
      unfold Machine.releaseLatch; simp only [hc]
      have h4 : PoolFits (fun _ => False) (s.setLink k { s.link k with latch := none }) := hf.same (fun x _ => cellNames_link rfl Iff.rfl) rfl rfl (Or.inr rfl)
      refine h4.releasePin (fun _ x => x) ?_
      by_contra hP
      have h1 := (h.names a b l.slot (by exact Nat.le_of_not_lt hP)).2.2
      have h3 := latch_ge s.links k l.slot hk
      unfold State.link at hc
      rw [hc] at h3; simp at h3; omega
    · intro a n hn; unfold Machine.releaseLatch; simp only [hc]; rw [refs_releasePin]; rfl
    · intro a n hn
      unfold Machine.releaseLatch; simp only [hc]; rw [pins_releasePin]
      have h3 := latch_ge s.links k n hk
      have h4 := h.pin a n hn
      unfold State.link at hc
      rw [hc] at h3
      simp only [Option.map_some, Option.some.injEq, slot_setLink] at *
      by_cases ho : l.slot = n
      · simp [ho, hn] at *; omega
      · simp [ho]

theorem CountsOk.forSlices {f : Nat → State → State} (hf : ∀ i s, CountsOk r p q s → CountsOk r p q (f i s)) (b : Nat) {s : State} (h : CountsOk r p q s) : CountsOk r p q (forSlices b f s) := by
  unfold Machine.forSlices
  generalize List.range b = l
  induction l generalizing s with
  | nil => exact h
  | cons i l ih => exact ih (hf i s h)

theorem CountsOk.clearPendings {s : State} (h : CountsOk r p q s) (k : Nat) : CountsOk r p q (clearPendings k s) := h.forSlices (fun i s h => h.clearPending k i) _
theorem CountsOk.clearNexts {s : State} (h : CountsOk r p q s) (k : Nat) : CountsOk r p q (clearNexts k s) := h.forSlices (fun i s h => h.clearNext k i) _
theorem CountsOk.clearCells {s : State} (h : CountsOk r p q s) (k : Nat) : CountsOk r p q (clearCells k s) := h.forSlices (fun i s h => h.setCell k i 0 (fun _ _ => Or.inl rfl)) _

theorem CountsOk.dropJob {s : State} (h : CountsOk r p q s) : CountsOk r p q (dropJob s) := by
  obtain ⟨P, x, hfr⟩ := dropJob_frame s
  exact h.frame (by rw [hfr]) (refs_dropJob s) (pins_dropJob s) (by rw [hfr]) (by rw [hfr]) (by rw [hfr]) (fun _ hh => hh.dropJob)

theorem CountsOk.cancelJobOf {s : State} (h : CountsOk r p q s) (k : Nat) : CountsOk r p q (cancelJobOf k s) := by
  obtain ⟨P, x, y, hfr⟩ := cancelJobOf_frame k s
  exact h.frame (by rw [hfr]) (refs_cancelJobOf k s) (pins_cancelJobOf k s) (by rw [hfr]) (by rw [hfr]) (by rw [hfr]) (fun _ hh => hh.cancelJobOf k)

theorem CountsOk.allocate {s : State} (h : CountsOk r p q s) : CountsOk r p q (allocate s) := by
  obtain ⟨P, x, hfr⟩ := allocate_frame s
  exact h.frame (by rw [hfr]) (refs_allocate s) (pins_allocate s) (by rw [hfr]) (by rw [hfr]) (by rw [hfr]) (fun _ hh => hh.allocate)

theorem CountsOk.raise {s : State} (h : CountsOk r p q s) (x : NoticeBody) : CountsOk r p q (raise x s) :=
  h.frame rfl (fun _ => rfl) (fun _ => rfl) rfl rfl rfl (fun _ hh => hh.same (fun _ _ => rfl) rfl rfl (Or.inr rfl))

theorem CountsOk.settle {s : State} (h : CountsOk r p q s) : CountsOk r p q (settle s) :=
  h.frame (by simp) (fun _ => by simp) (fun _ => by simp) (by simp) (by simp) (by simp) (fun _ hh => hh.same (fun _ _ => by simp [State.cellNames]) (by simp) (by simp) (Or.inr (by simp [State.jobSlot])))

/-- a link's plain fields -/
theorem CountsOk.plain {s : State} (h : CountsOk r p q s) {k : Nat} {L : Link} (ho : (s.link k).isOpen = true) (hL : L.isOpen = true)
    (h1 : L.cells = (s.link k).cells) (h2 : L.pendingSet = (s.link k).pendingSet) (h3 : L.nextSet = (s.link k).nextSet) (h4 : L.latch = (s.link k).latch) :
    CountsOk r p q (s.setLink k L) :=
  h.link (k := k) (L := L) rfl (by intro hc; rw [hL] at hc; cases hc) (by intro n; simp [Link.refCount, h1, h2, h3]) (by rw [h4]) (by intro n; rw [ho, hL, h1]) rfl (Or.inr rfl) rfl rfl rfl

theorem CountsOk.offerTest {s : State} (h : CountsOk r p q s) (k : Nat) : CountsOk r p q (offerTest k s) := by
  unfold Machine.offerTest
  split
  · rename_i hd
    refine CountsOk.raise ?_ _
    refine h.link (k := k) rfl ?_ (fun n => rfl) rfl (fun _ => Iff.rfl) rfl (Or.inr rfl) rfl rfl rfl
    intro hc
    have := h.free k hc
    rw [this] at hd
    simp [Link.offerDue, Link.free] at hd
  · exact h

theorem CountsOk.takeResult {s : State} (h : CountsOk r p q s) (k i n : Nat)
    (hn : q → s.filter ≠ .transparent → n < s.shadow.poolSlots ∧ (0 < n → (s.slot n).state ≠ .free) ∧ s.jobSlot ≠ some n) : CountsOk r p q (takeResult k i n s) := by
  have hnew : (s.link k).isOpen = true → CountsOk r p q (newPendingSet k i n s) := by
    intro ho
    unfold newPendingSet
    refine CountsOk.offerTest ?_ k
    have h1 := h.setPending k i n hn
    have : ((Machine.setPending k i n s).link k).isOpen = true := by
      obtain ⟨P, E, hfr⟩ := setPending_frame k i n s
      rw [hfr]; unfold State.link; simp only [tget_tset_same _ _ _ (lt32 ho)]; exact ho
    exact h1.plain this (by simp [Link.issueNumber, Link.startGather, this]) rfl rfl rfl rfl
  unfold Machine.takeResult
  split
  · rename_i hc
    simp at hc
    split
    · exact hnew hc.1
    · exact (h.setPending k i n hn).offerTest k
    · exact hnew hc.1
    · exact h.setNext k i n hn
  · exact h

theorem isOpen_setCell (k i m : Nat) (s : State) (j : Nat) : ((setCell k i m s).link j).isOpen = (s.link j).isOpen := by
  obtain ⟨P, E, hfr⟩ := setCell_frame k i m s
  rw [hfr]; unfold State.link; simp only [tget_tset]; split
  · rename_i h; rw [h.1]
  · rfl

theorem isOpen_clearPending (k i : Nat) (s : State) (j : Nat) : ((clearPending k i s).link j).isOpen = (s.link j).isOpen := by
  obtain ⟨P, E, hfr⟩ := clearPending_frame k i s
  rw [hfr]; unfold State.link; simp only [tget_tset]; split
  · rename_i h; rw [h.1]
  · rfl
theorem isOpen_clearNext (k i : Nat) (s : State) (j : Nat) : ((clearNext k i s).link j).isOpen = (s.link j).isOpen := by
  obtain ⟨P, E, hfr⟩ := clearNext_frame k i s
  rw [hfr]; unfold State.link; simp only [tget_tset]; split
  · rename_i h; rw [h.1]
  · rfl
theorem isOpen_forSlices {f : Nat → State → State} (hf : ∀ i s j, ((f i s).link j).isOpen = (s.link j).isOpen) (b : Nat) (s : State) (j : Nat) : ((forSlices b f s).link j).isOpen = (s.link j).isOpen := by
  unfold Machine.forSlices
  generalize List.range b = l
  induction l generalizing s with
  | nil => rfl
  | cons i l ih => exact (ih (f i s)).trans (hf i s j)
theorem isOpen_clearPendings (k : Nat) (s : State) (j : Nat) : ((clearPendings k s).link j).isOpen = (s.link j).isOpen :=
  isOpen_forSlices (fun i s j => isOpen_clearPending k i s j) _ _ _

theorem CountsOk.frameRfl {s t : State} (h : CountsOk r p q s) (hl : t.links = s.links) (hr : t.pool = s.pool) (ht : t.pinTable = s.pinTable) (hf : t.filter = s.filter) (hs : t.shadow = s.shadow)
    (hj : t.jobSlot = none ∨ t.jobSlot = s.jobSlot) : CountsOk r p q t :=
  h.frame hl (fun x => by simp [State.slot, hr]) (fun x => by simp [State.slot, hr]) ht hf hs
    (fun _ hh => hh.same (fun _ _ => by simp [State.cellNames, hl]) hr (by rw [hs]) hj)

theorem CountsOk.clearNextCell {s : State} (h : CountsOk r p q s) (k : Nat) : CountsOk r p q (clearNextCell k s) := by
  unfold Machine.clearNextCell; split
  · exact h.setCell _ _ _ (fun _ _ => Or.inl rfl)
  · exact h

theorem CountsOk.enterFallback {s : State} (h : CountsOk r p q s) (k : Nat) (ho : (s.link k).isOpen = true) : CountsOk r p q (enterFallback k s) := by
  unfold Machine.enterFallback
  refine CountsOk.raise ?_ _
  unfold fallBack
  refine CountsOk.clearNexts (CountsOk.clearPendings (CountsOk.cancelJobOf (CountsOk.releaseLatch (CountsOk.clearCells ?_ k) k) k) k) k
  have h0 : CountsOk r p q { dropQueueOf k (s.setLink k { s.link k with mode := .fallback }) with choices := s.choices + 1 } := by
    refine CountsOk.frameRfl (s := s.setLink k { s.link k with mode := .fallback }) ?_ rfl rfl rfl rfl rfl (Or.inr rfl)
    exact h.plain ho ho rfl rfl rfl rfl
  generalize Config.fallbackOrder s.choices = l
  revert h0
  generalize ({ dropQueueOf k (s.setLink k { s.link k with mode := .fallback }) with choices := s.choices + 1 } : State) = u
  intro h0
  induction l generalizing u with
  | nil => exact h0
  | cons x l ih =>
    refine ih _ ?_
    cases x
    · exact h0.clearNextCell k
    · exact h0.releaseLatch k
    · exact h0.cancelJobOf k

theorem CountsOk.expireOffer {s : State} (h : CountsOk r p q s) (k : Nat) (ho : (s.link k).isOpen = true) : CountsOk r p q (expireOffer k s) := by
  unfold Machine.expireOffer
  have h1 := h.clearPendings k
  have ho1 : ((Machine.clearPendings k s).link k).isOpen = true := by rw [isOpen_clearPendings]; exact ho
  generalize Machine.clearPendings k s = u at *
  have h2 : CountsOk r p q (u.setLink k { (u.link k).toSteady with streak := (u.link k).streak + 1 }) :=
    h1.plain ho1 (by simp [Link.toSteady, ho1]) rfl rfl rfl rfl
  have ho2 : ((u.setLink k { (u.link k).toSteady with streak := (u.link k).streak + 1 }).link k).isOpen = true := by
    rw [link_setLink_same _ _ (lt32 ho1)]; exact ho1
  dsimp only
  generalize u.setLink k { (u.link k).toSteady with streak := (u.link k).streak + 1 } = v at *
  split
  · exact (h2.raise _).enterFallback k ho2
  · exact h2.raise _

theorem CountsOk.flipSlice {s : State} (h : CountsOk r p q s) (k i : Nat) : CountsOk r p q (flipSlice k i s) := by
  unfold Machine.flipSlice; split
  · rename_i n hn
    refine h.setCell _ _ _ (fun a b => Or.inr ?_)
    have hg : some n ∈ (s.link k).pendingSet := by
      rw [List.getD_eq_getElem?_getD] at hn
      cases hh : (s.link k).pendingSet[i]? with
      | none => rw [hh] at hn; cases hn
      | some x => rw [hh] at hn; simp at hn; rw [hn] at hh; exact List.mem_of_getElem? hh
    have hk : k < 32 := lt32 (h.openOf (k := k) (P := fun L => L.pendingSet ≠ []) (by intro c; simp [Link.free]) (by intro h0; rw [h0] at hg; simp at hg))
    have h2 := List.one_le_count_iff.2 hg
    have h3 := refs_ge s.links k n hk
    simp only [Link.refCount] at h3; unfold State.link at h2; omega
  · exact h

theorem isOpen_flipSlice (k i : Nat) (s : State) (j : Nat) : ((flipSlice k i s).link j).isOpen = (s.link j).isOpen := by
  unfold Machine.flipSlice; split
  · exact isOpen_setCell _ _ _ _ _
  · rfl

theorem count_map_none (l : List (Option Nat)) (n : Nat) : (l.map fun _ => (none : Option Nat)).count (some n) = 0 := by
  rw [List.count_eq_zero]; simp

theorem CountsOk.promoteNext {s : State} (h : CountsOk r p q s) (k : Nat) (ho : (s.link k).isOpen = true) (hn : ∀ n, some n ∉ (s.link k).pendingSet) : CountsOk r p q (promoteNext k s) := by
  unfold Machine.promoteNext
  dsimp only
  split
  · refine CountsOk.offerTest ?_ k
    refine h.link (k := k) rfl ?_ ?_ rfl (fun _ => Iff.rfl) rfl (Or.inr rfl) rfl rfl rfl
    · intro hc; simp [Link.issueNumber, Link.startGather, ho] at hc
    · intro n
      simp only [Link.refCount, Link.issueNumber, Link.startGather, count_map_none]
      have := List.count_eq_zero.2 (hn n)
      omega
  · exact h.plain ho (by simp [Link.toSteady, ho]) rfl rfl rfl rfl

theorem CountsOk.flipLink {s : State} (h : CountsOk r p q s) (k : Nat) (ho : (s.link k).isOpen = true) : CountsOk r p q (flipLink k s) := by
  unfold Machine.flipLink
  dsimp only
  have h1 := h.forSlices (fun i s h => CountsOk.flipSlice h k i) (s.link k).pendingSet.length
  have ho1 : ((Machine.forSlices (s.link k).pendingSet.length (Machine.flipSlice k) s).link k).isOpen = true := by
    rw [isOpen_forSlices (fun i s j => isOpen_flipSlice k i s j)]; exact ho
  generalize Machine.forSlices (s.link k).pendingSet.length (Machine.flipSlice k) s = u at *
  have h2 : CountsOk r p q (u.setLink k { u.link k with activeSet := (u.link k).pendingSetNo, streak := 0 }) := h1.plain ho1 ho1 rfl rfl rfl rfl
  have ho2 : ((u.setLink k { u.link k with activeSet := (u.link k).pendingSetNo, streak := 0 }).link k).isOpen = true := by
    rw [link_setLink_same _ _ (lt32 ho1)]; exact ho1
  generalize u.setLink k { u.link k with activeSet := (u.link k).pendingSetNo, streak := 0 } = v at *
  have h3 := h2.clearPendings k
  obtain ⟨P, E, hfr⟩ := clearPendings_frame (lt32 ho) v
  have hl3 : (Machine.clearPendings k v).link k = { v.link k with pendingSet := (v.link k).pendingSet.map fun _ => none } := by
    rw [hfr]; exact tget_tset_same _ _ _ (lt32 ho)
  generalize Machine.clearPendings k v = w at *
  have ho3 : (w.link k).isOpen = true := by rw [hl3]; exact ho2
  have h4 := h3.raise (.switched k (w.link k).activeSet (s.link k).pendingMask s.tracker.halfCount)
  refine CountsOk.promoteNext ?_ k ?_ ?_
  · exact h4.plain ho3 ho3 rfl rfl rfl rfl
  · rw [link_setLink_same _ _ (lt32 ho)]; exact ho3
  · intro n; rw [link_setLink_same _ _ (lt32 ho)]; simp [hl3]

theorem CountsOk.actAtStart {s : State} (h : CountsOk r p q s) (k : Nat) : CountsOk r p q (actAtStart k s) := by
  unfold Machine.actAtStart
  dsimp only
  split
  · rename_i ho
    have ht : CountsOk r p q (s.setLink k (s.link k).tick) := by
      apply h.plain ho <;> (unfold Link.tick; split <;> first | exact ho | rfl)
    split
    · exact h
    · exact ht.offerTest k
    · split
      · refine ht.expireOffer k ?_
        rw [link_setLink_same _ _ (lt32 ho)]; unfold Link.tick; split <;> exact ho
      · exact ht
    · split
      · exact h.flipLink k ho
      · exact h
  · exact h

theorem refs_congr {u v : Vector Link 32} (n : Nat) (h : ∀ k, k < 32 → (tget u Link.free k).refCount n = (tget v Link.free k).refCount n) : refs u n = refs v n := by
  unfold refs
  congr 1
  apply List.ext_getElem
  · simp
  · intro i h1 h2
    simp at h1
    have := h i h1
    simpa [tget, h1] using this

theorem latch_congr {u v : Vector Link 32} (n : Nat) (h : ∀ k, k < 32 → (tget u Link.free k).latch = (tget v Link.free k).latch) : latchCount u n = latchCount v n := by
  have e : u.toList.map (fun L => L.latch) = v.toList.map (fun L => L.latch) := by
    apply List.ext_getElem
    · simp
    · intro i h1 h2
      simp at h1
      have := h i h1
      simpa [tget, h1] using this
  have key : ∀ w : Vector Link 32, latchCount w n = ((w.toList.map (fun L => L.latch)).filter (fun l => l.map Latch.slot == some n)).length := by
    intro w; unfold latchCount; rw [List.filter_map, List.length_map]; rfl
  rw [key, key, e]

theorem CountsOk.counting {s : State} {f : State → State} (h : CountsOk r p q (f s)) (hs : ∀ k, k < 32 → ∃ c, (counting f s).link k = { (f s).link k with changes := c } := by
    intro k hk; rw [link_counting, if_pos hk]; exact counted_fields _ _) : CountsOk r p q (counting f s) := by
  have hrefs : ∀ n, refs (Machine.counting f s).links n = refs (f s).links n := fun n => by
    apply refs_congr
    intro k hk
    obtain ⟨c, hc⟩ := hs k hk
    unfold State.link at hc
    rw [hc]; rfl
  have hlat : ∀ n, latchCount (Machine.counting f s).links n = latchCount (f s).links n := fun n => by
    apply latch_congr
    intro k hk
    obtain ⟨c, hc⟩ := hs k hk
    unfold State.link at hc
    rw [hc]
  refine ⟨?_, fun a n hn => (h.ref a n hn).trans (hrefs n).symm, h.cfg, fun a n hn => (h.pin a n hn).trans (by rw [hlat]; rfl), h.deps,
    fun a b n hP => by rw [hrefs, hlat]; exact h.names a b n hP, fun a b => (h.fits a b).same (fun m _ => cellNames_congr fun k hk => ?_) rfl rfl (Or.inr rfl)⟩
  · intro k
    by_cases hk : k < 32
    · obtain ⟨c, hc⟩ := hs k hk
      rw [hc]; intro ho
      have := h.free k ho
      dsimp only
      rw [this]
    · rw [link_beyond _ (by omega)]; intro _; rfl
  · obtain ⟨c, hc⟩ := hs k hk
    rw [hc]

theorem CountsOk.announceStart {s : State} (h : CountsOk r p q s) : CountsOk r p q (announceStart s) := by
  have hl : ∀ k, k < 32 → ∃ g o, (Machine.announceStart s).link k = { s.link k with gatherLeft := g, offerAge := o } ∧ ((s.link k).isOpen = false → g = (s.link k).gatherLeft ∧ o = (s.link k).offerAge) := by
    intro k hk
    have e : (Machine.announceStart s).link k = _ := tget_tmapIdx _ _ Link.free Link.free hk
    rw [e]
    dsimp only
    split
    · rename_i ho
      simp at ho
      unfold Link.tick
      unfold State.link
      split <;> exact ⟨_, _, rfl, by simp [ho.1]⟩
    · exact ⟨_, _, rfl, fun _ => ⟨rfl, rfl⟩⟩
  have hrefs : ∀ n, refs (Machine.announceStart s).links n = refs s.links n := fun n => by
    apply refs_congr
    intro k hk
    obtain ⟨g, o, hc, hg⟩ := hl k hk
    unfold State.link at hc
    rw [hc]; rfl
  have hlat : ∀ n, latchCount (Machine.announceStart s).links n = latchCount s.links n := fun n => by
    apply latch_congr
    intro k hk
    obtain ⟨g, o, hc, hg⟩ := hl k hk
    unfold State.link at hc
    rw [hc]
  refine ⟨?_, fun a n hn => (h.ref a n hn).trans (hrefs n).symm, h.cfg, fun a n hn => (h.pin a n hn).trans (by rw [hlat]; rfl), h.deps,
    fun a b n hP => by rw [hrefs, hlat]; exact h.names a b n hP, fun a b => (h.fits a b).same (fun m _ => cellNames_congr fun k hk => ?_) rfl rfl (Or.inr rfl)⟩
  · intro k ho
    by_cases hk : k < 32
    · obtain ⟨g, o, hc, hg⟩ := hl k hk
      rw [hc] at ho ⊢
      obtain ⟨rfl, rfl⟩ := hg ho
      exact h.free k ho
    · rw [link_beyond _ (by omega)]
  · obtain ⟨g, o, hc, hg⟩ := hl k hk
    rw [hc]

theorem CountsOk.sweepStep {s : State} (h : CountsOk r p q s) (k : Nat) : CountsOk r p q (sweepStep k s) := by
  unfold Machine.sweepStep; dsimp only; split
  · split
    · exact h.setCell _ _ _ (fun _ _ => Or.inl rfl)
    · exact h.clearPending _ _
    · exact h.clearNext _ _
    · exact h
  · exact h

theorem isOpen_clearNexts (k : Nat) (s : State) (j : Nat) : ((clearNexts k s).link j).isOpen = (s.link j).isOpen :=
  isOpen_forSlices (fun i s j => isOpen_clearNext k i s j) _ _ _
theorem isOpen_clearCells (k : Nat) (s : State) (j : Nat) : ((clearCells k s).link j).isOpen = (s.link j).isOpen :=
  isOpen_forSlices (fun i s j => isOpen_setCell k i 0 s j) _ _ _

theorem CountsOk.sweepLink {s : State} (h : CountsOk r p q s) (k : Nat) : CountsOk r p q (sweepLink k s) := by
  unfold Machine.sweepLink; split
  · rename_i ho
    have h1 := ((h.clearCells k).clearPendings k).clearNexts k
    have ho1 : ((Machine.clearNexts k (Machine.clearPendings k (Machine.clearCells k s))).link k).isOpen = true := by
      rw [isOpen_clearNexts, isOpen_clearPendings, isOpen_clearCells]; exact ho
    exact h1.plain ho1 (by simp [Link.toSteady, ho1]) rfl rfl rfl rfl
  · exact h

theorem CountsOk.forLinks {f : Nat → State → State} (hf : ∀ i s, CountsOk r p q s → CountsOk r p q (f i s)) {s : State} (h : CountsOk r p q s) : CountsOk r p q (forLinks f s) := by
  unfold Machine.forLinks
  generalize List.range 32 = l
  induction l generalizing s with
  | nil => exact h
  | cons i l ih => exact ih (hf i s h)

theorem CountsOk.loseLock {s : State} (h : CountsOk r p q s) : CountsOk r p q (loseLock s) := by
  unfold Machine.loseLock
  dsimp only
  have fin : ∀ u : State, CountsOk r p q u → CountsOk r p q { u with tracker := u.tracker.lose } := fun u hu => hu.frameRfl rfl rfl rfl rfl rfl (Or.inr rfl)
  refine fin _ ?_
  unfold sweepAll
  refine CountsOk.dropJob (CountsOk.forLinks (fun i s h => h.releaseLatch i) (CountsOk.forLinks (fun i s h => h.sweepLink i) ?_))
  have h0 : CountsOk r p q { Machine.raise (.trackLost s.tracker.period s.tracker.strayCount) s with buildQueue := [], choices := s.choices + 1 } := h.frameRfl rfl rfl rfl rfl rfl (Or.inr rfl)
  generalize Config.lossOrder s.choices = l
  revert h0
  generalize ({ Machine.raise (.trackLost s.tracker.period s.tracker.strayCount) s with buildQueue := [], choices := s.choices + 1 } : State) = u
  intro h0
  induction l generalizing u with
  | nil => exact h0
  | cons x l ih =>
    refine ih _ ?_
    cases x
    · exact h0.sweepStep _
    · exact h0.releaseLatch _
    · exact h0.dropJob

theorem CountsOk.missWindow {s : State} (h : CountsOk r p q s) : CountsOk r p q (missWindow s) := by
  unfold Machine.missWindow
  split
  · dsimp only
    have : CountsOk r p q (Machine.announceStart { s with tracker := s.tracker.synthesize s.shadow.slices }) := CountsOk.announceStart (h.frameRfl rfl rfl rfl rfl rfl (Or.inr rfl))
    split
    · exact this.raise _
    · exact this
  · exact h.loseLock

theorem CountsOk.edge {s : State} (h : CountsOk r p q s) : CountsOk r p q (edge s) := by
  unfold Machine.edge
  have h1 : CountsOk r p q (if s.missDue then Machine.missWindow s else s) := by split; exact h.missWindow; exact h
  dsimp only
  generalize (if s.missDue then Machine.missWindow s else s) = u at *
  split
  · exact h1
  · unfold searchEdge; split
    · exact h1.frameRfl rfl rfl rfl rfl rfl (Or.inr rfl)
    · split
      · exact h1
      · dsimp only; split
        · refine CountsOk.raise (CountsOk.announceStart (h1.frameRfl ?_ ?_ ?_ ?_ ?_ (Or.inr ?_))) _ <;> rfl
        · exact h1.frameRfl rfl rfl rfl rfl rfl (Or.inr rfl)
  all_goals
    unfold lockedEdge; split
    · exact h1
    · split
      · exact h1.frameRfl rfl rfl rfl rfl rfl (Or.inr rfl)
      · unfold acceptEdge
        dsimp only
        have := CountsOk.announceStart (s := { u with tracker := u.tracker.accept u.tick u.shadow.slices }) (h1.frameRfl rfl rfl rfl rfl rfl (Or.inr rfl))
        generalize Machine.announceStart { u with tracker := u.tracker.accept u.tick u.shadow.slices } = w at *
        by_cases hh : u.tracker.state = .holdover
        · rw [if_pos hh]; exact CountsOk.raise this _
        · rw [if_neg hh]; exact this

theorem CountsOk.setBuildMean {s : State} (h : CountsOk r p q s) (j : Job) : CountsOk r p q (setBuildMean j s) := by
  unfold Machine.setBuildMean
  refine h.link (k := j.link) rfl ?_ (fun n => rfl) rfl (fun _ => Iff.rfl) rfl (Or.inr rfl) rfl rfl rfl
  intro ho
  have := h.free j.link ho
  dsimp only at *
  generalize s.link j.link = L at *
  rw [this]; simp [Link.free]

theorem CountsOk.endJob {s : State} (h : CountsOk r p q s) : CountsOk r p q (endJob s) := h.frameRfl rfl rfl rfl rfl rfl (Or.inl rfl)

theorem CountsOk.handOff {s : State} (h : CountsOk r p q s) (j : Job) (n : Nat)
    (hn : q → s.filter ≠ .transparent → n < s.shadow.poolSlots ∧ (0 < n → (s.slot n).state ≠ .free)) : CountsOk r p q (handOff j n s) :=
  ((h.setBuildMean j).endJob).takeResult _ _ _ (fun a b => ⟨(hn a b).1, (hn a b).2, by simp [State.jobSlot, Machine.endJob, Engine.idle]⟩)

theorem CountsOk.withJob {f : Job → State → State} (hf : ∀ j s, s.engine.job = some j → CountsOk r p q s → CountsOk r p q (f j s)) {s : State} (h : CountsOk r p q s) : CountsOk r p q (withJob f s) := by
  unfold Machine.withJob; split
  · rename_i hj; exact hf _ _ hj h
  · exact h

theorem CountsOk.setJob {s : State} (h : CountsOk r p q s) {i : Job} (hj : s.engine.job = some i) (j : Job) (b) (hs : j.slot = i.slot) : CountsOk r p q (s.setJob j b) :=
  h.frameRfl rfl rfl rfl rfl rfl (Or.inr (by simp [State.jobSlot, State.setJob, hj, hs]))

theorem CountsOk.overrun {s : State} (h : CountsOk r p q s) (w) : CountsOk r p q (overrun w s) := h.withJob (fun j s hj h => h.dropJob.raise _)

theorem CountsOk.reportWrite {s : State} (h : CountsOk r p q s) (w) : CountsOk r p q (reportWrite w s) := h.withJob (fun j s hj h => by
  split
  · exact h.overrun _
  · exact h)

theorem CountsOk.enterAllocate {s : State} (h : CountsOk r p q s) : CountsOk r p q (enterAllocate s) := h.withJob (fun j s hj h => by
  split
  · exact (h.setJob hj _ _ (by rfl)).raise _
  · exact (h.setJob hj _ _ (by rfl)).allocate)

theorem CountsOk.examineFrom {s : State} (h : CountsOk r p q s) (i) : CountsOk r p q (examineFrom i s) := h.withJob (fun j s hj h => by
  split
  · exact h.setJob hj _ _ (by rfl)
  · exact h.enterAllocate)

theorem CountsOk.endUnchanged {s : State} (h : CountsOk r p q s) (j) : CountsOk r p q (endUnchanged j s) := (h.setBuildMean j).endJob

theorem CountsOk.enterMatch {s : State} (h : CountsOk r p q s) : CountsOk r p q (enterMatch s) := h.withJob (fun j s hj h => by
  split
  · split
    · exact h.endUnchanged _
    · exact h.handOff _ _ (fun a b => ⟨by have := (h.fits a b).size.1; omega, fun h0 => absurd h0 (by omega)⟩)
  · exact (h.setJob hj _ _ (by rfl)).examineFrom _)

/-- A slot that a record names is counted. -/
theorem CountsOk.refs_names {s : State} (_ : CountsOk r p q s) {k n : Nat} (hn : (s.link k).names n = true) : 0 < refs s.links n := by
  have hk : k < 32 := by
    by_contra hc
    rw [link_beyond s (by omega)] at hn; simp [Link.names, Link.free] at hn
  have h3 := refs_ge s.links k n hk
  simp only [Link.names, Bool.or_eq_true, List.contains_iff_mem] at hn
  simp only [Link.refCount] at h3
  unfold State.link at hn
  rcases hn with (hn | hn) | hn <;> (have := List.one_le_count_iff.2 hn; omega)

theorem CountsOk.useMatch {s : State} (h : CountsOk r p q s) (n i) : CountsOk r p q (useMatch n i s) := h.withJob (fun j s hj h => by
  split
  · rename_i hm
    split
    · exact h.endUnchanged _
    · exact h.handOff _ _ (fun a b => by
        have hr := h.refs_names hm.2
        exact ⟨(h.slotOf a b hr).1, fun h0 => ((h.slotOf a b hr).2.2.1 h0).1⟩)
  · exact h.examineFrom _)

theorem CountsOk.candidateRead {s : State} (h : CountsOk r p q s) (w) : CountsOk r p q (candidateRead w s) := h.withJob (fun j s hj h => by
  split
  · exact h
  · split
    · split
      · exact h.setJob hj _ _ (by rfl)
      · exact h.useMatch _ _
    · exact h.examineFrom _)

theorem CountsOk.headerRead {s : State} (h : CountsOk r p q s) (w) : CountsOk r p q (headerRead w s) := h.withJob (fun j s hj h => by
  split
  · exact h.setJob hj _ _ (by rfl)
  · exact h.overrun _)

theorem CountsOk.snrRead {s : State} (h : CountsOk r p q s) (w) : CountsOk r p q (snrRead w s) := h.withJob (fun j s hj h => by
  have hb : ∀ b, CountsOk r p q { s with engine := { s.engine with buffer := b } } := fun b => h.frameRfl rfl rfl rfl rfl rfl (Or.inr rfl)
  split
  · exact CountsOk.setJob (hb (s.engine.buffer ++ s.loadBurst j.pos w)) hj _ _ (by rfl)
  · exact CountsOk.enterMatch (CountsOk.setJob (hb (s.engine.buffer ++ s.loadBurst j.pos w)) hj _ _ (by rfl)))

theorem CountsOk.slot {s t : State} {n : Nat} {x : SlotRec} (h : CountsOk r p q s) (hs : t.pool.slots = tset s.pool.slots n x) (hr : x.refs = (s.slot n).refs) (hp : x.pins = (s.slot n).pins)
    (hl : t.links = s.links) (ht : t.pinTable = s.pinTable) (hf : t.filter = s.filter) (hsh : t.shadow = s.shadow)
    (hst : x.state = (s.slot n).state) (hfl : t.pool.freeList = s.pool.freeList) (hj : t.jobSlot = none ∨ t.jobSlot = s.jobSlot) : CountsOk r p q t :=
  have h1 : ∀ y, (t.slot y).refs = (s.slot y).refs := fun y => by unfold State.slot; rw [hs]; exact refs_tset _ _ _ _ hr
  have h2 : ∀ y, (t.slot y).pins = (s.slot y).pins := fun y => by unfold State.slot; rw [hs]; exact pins_tset _ _ _ _ hp
  have h3 : ∀ y, (t.slot y).state = (s.slot y).state := fun y => by
    unfold State.slot; rw [hs, tget_tset]; split
    · rename_i hh; rw [hst, ← hh.1]; rfl
    · rfl
  h.frame hl h1 h2 ht hf hsh (fun _ hh => hh.like (fun _ _ => by simp [State.cellNames, hl]) hfl h3 h1 h2 (by rw [hsh]) hj)

theorem CountsOk.loadingWritten {s : State} (h : CountsOk r p q s) : CountsOk r p q (loadingWritten s) := h.withJob (fun j s hj h => by
  split
  · exact h
  · split
    · exact h.setJob hj _ _ (by rfl)
    · exact h.slot rfl rfl rfl rfl rfl rfl rfl rfl rfl (Or.inr (by simp [State.jobSlot, State.setJob, State.setSlot, formHeader, hj])))

theorem CountsOk.headerWritten {s : State} (h : CountsOk r p q s) : CountsOk r p q (headerWritten s) := h.withJob (fun j s hj h => by
  split
  · exact h
  · rename_i n hn
    exact h.handOff _ _ (fun a b => by
      have := (h.fits a b).job n (by simp [State.jobSlot, hj, hn])
      exact ⟨this.2.1, fun _ => by rw [this.2.2]; simp⟩))

theorem CountsOk.readyHeaderRead {s : State} (h : CountsOk r p q s) : CountsOk r p q (readyHeaderRead s) := h.withJob (fun j s hj h => by
  split
  · exact h.setJob hj _ _ (by rfl)
  · exact h)

theorem CountsOk.finishBurst {s : State} (h : CountsOk r p q s) : CountsOk r p q (finishBurst s) := by
  unfold Machine.finishBurst; split
  · exact h.frameRfl rfl rfl rfl rfl rfl (Or.inr rfl)
  · exact h

theorem CountsOk.onBurstDone {s : State} (h : CountsOk r p q s) (u) {f : List Word → State → State} (hf : ∀ w s, CountsOk r p q s → CountsOk r p q (f w s)) : CountsOk r p q (onBurstDone u f s) := by
  unfold Machine.onBurstDone; split
  · exact (CountsOk.counting (hf _ _ h.finishBurst)).settle
  · exact h

theorem CountsOk.noticeWritten {s : State} (h : CountsOk r p q s) : CountsOk r p q (noticeWritten s) := by
  unfold Machine.noticeWritten; split
  · exact h.frameRfl rfl rfl rfl rfl rfl (Or.inr rfl)
  · exact h

theorem CountsOk.notchRead {s : State} (h : CountsOk r p q s) (w) : CountsOk r p q (notchRead w s) := by
  unfold Machine.notchRead; dsimp only; split
  · exact h.frameRfl rfl rfl rfl rfl rfl (Or.inr rfl)
  · exact h.frameRfl rfl rfl rfl rfl rfl (Or.inr rfl)

theorem CountsOk.baseLoadingWritten {s : State} (h : CountsOk r p q s) : CountsOk r p q (baseLoadingWritten s) := by
  unfold Machine.baseLoadingWritten; dsimp only; split
  · exact h.frameRfl rfl rfl rfl rfl rfl (Or.inr rfl)
  · exact h.slot rfl rfl rfl rfl rfl rfl rfl rfl rfl (Or.inr rfl)

theorem CountsOk.baseHeaderWritten {s : State} (h : CountsOk r p q s) (hne : p → s.filter ≠ .transparent) : CountsOk r p q (baseHeaderWritten s) := by
  unfold Machine.baseHeaderWritten
  refine CountsOk.raise ?_ _
  exact ⟨h.free, h.ref, fun a => Or.inr ((h.cfg a).resolve_left (hne a)), h.pin, h.deps, fun a _ => h.names a (hne (h.deps a).2),
    fun a _ => (h.fits a (hne (h.deps a).2)).same (fun _ _ => rfl) rfl rfl (Or.inr rfl)⟩

theorem CountsOk.releasePinEntry {s : State} (h : CountsOk r p q s) (i : Nat) : CountsOk r p q (unpin i s) := by
  unfold unpin
  split
  · rename_i n hn
    obtain ⟨P, E, hfr⟩ := releasePin_frame n (s.setPinEntry i { s.pinEntry i with pinned := none })
    have hi : i < 64 := by
      by_contra hc
      unfold State.pinEntry at hn; rw [tget_beyond _ _ (by omega)] at hn; simp [PinEntry.empty] at hn
    have hgt : 0 < pinEnts s.pinTable n := by
      have h3 := pin_set s.pinTable i PinEntry.empty n hi
      unfold State.pinEntry at hn
      rw [hn] at h3
      simp [PinEntry.empty] at h3; omega
    refine ⟨?_, ?_, ?_, ?_, h.deps, ?names, ?fits⟩
    case names =>
      intro a b m hP
      rw [hfr] at b hP ⊢
      have h1 := h.names a b m hP
      have h2 := pin_set s.pinTable i { s.pinEntry i with pinned := none } m hi
      refine ⟨h1.1, ?_, h1.2.2⟩
      simp only [reduceCtorEq, if_false] at h2
      have h5 : pinEnts s.pinTable m = 0 := h1.2.1
      exact Nat.le_zero.1 (by rw [← h5]; exact Nat.le.intro h2)
    case fits =>
      intro a b
      rw [hfr] at b
      have h4 : PoolFits (fun _ => False) (s.setPinEntry i { s.pinEntry i with pinned := none }) := (h.fits a b).same (fun _ _ => rfl) rfl rfl (Or.inr rfl)
      refine h4.releasePin (fun _ x => x) ?_
      by_contra hP
      have h1 := (h.names a b n (by exact Nat.le_of_not_lt hP)).2.1
      omega
    · intro k; have := h.free k; rw [hfr]; exact this
    · intro a m hm; rw [refs_releasePin]; have := h.ref a m hm; rw [hfr]; exact this
    · intro a; have := h.cfg a; unfold State.ConfigOk at *; rw [hfr]; exact this
    · intro a m hm
      rw [pins_releasePin]
      have h1 := h.pin a m hm
      have h2 := pin_set s.pinTable i { s.pinEntry i with pinned := none } m hi
      have h3 := pin_set s.pinTable i PinEntry.empty m hi
      rw [hfr]
      unfold State.pinEntry at *
      rw [hn] at h2 h3
      simp only [Option.some.injEq, PinEntry.empty, reduceCtorEq, if_false, State.setPinEntry, slot_setPinEntry, State.pinEntry] at *
      by_cases hmn : n = m
      · simp only [hmn, hm, and_self, if_true] at *
        change (s.slot m).pins - 1 = _
        omega
      · simp only [hmn, false_and, if_false] at *
        change (s.slot m).pins = _
        omega
  · exact h

theorem CountsOk.pinEntry {s t : State} {i : Nat} {e : PinEntry} (h : CountsOk r p q s) (ht : t.pinTable = tset s.pinTable i e) (he : e.pinned = (s.pinEntry i).pinned)
    (hl : t.links = s.links) (hr : t.pool = s.pool) (hf : t.filter = s.filter) (hs : t.shadow = s.shadow)
    (hj : t.jobSlot = none ∨ t.jobSlot = s.jobSlot) : CountsOk r p q t := by
  by_cases hi : i < 64
  · refine ⟨?_, ?_, ?_, ?_, h.deps, ?_, fun a b => (h.fits a (by rw [← hf]; exact b)).same (fun _ _ => by simp [State.cellNames, hl]) hr (by rw [hs]) hj⟩
    rotate_right
    · intro a b m hP
      have h1 := h.names a (by rw [← hf]; exact b) m (by rw [← hs]; exact hP)
      have h2 := pin_set s.pinTable i e m hi
      rw [he] at h2
      unfold State.pinEntry at h2
      rw [hl, ht]
      exact ⟨h1.1, by omega, h1.2.2⟩
    · intro k; have := h.free k; unfold State.link at *; rw [hl]; exact this
    · intro a m hm; have := h.ref a m hm; unfold State.slot at *; rw [hl, hr]; exact this
    · intro a; have := h.cfg a; unfold State.ConfigOk at *; rw [hf, hs]; exact this
    · intro a m hm
      have h1 := h.pin a m hm
      have h2 := pin_set s.pinTable i e m hi
      rw [he] at h2
      unfold State.pinEntry State.slot at *
      rw [ht, hl, hr]; omega
  · refine h.frameRfl hl hr ?_ hf hs hj
    rw [ht]; apply tget_ext PinEntry.empty; intro j hj; rw [tget_tset_ne _ _ _ (by omega)]

theorem CountsOk.acceptCommit {s : State} (h : CountsOk r p q s) (i n : Nat) (hi : p → i < 64) (hn : (s.pinEntry i).pinned = none)
    (hc : q → s.filter ≠ .transparent → n < s.shadow.poolSlots ∧ (n = 0 ∨ s.cellNames n = true)) : CountsOk r p q (acceptCommit i n s) := by
  unfold Machine.acceptCommit
  refine ⟨h.free, ?_, h.cfg, ?_, h.deps, ?names, ?fits⟩
  case names =>
    intro a b m hP
    have h1 := h.names a b m hP
    have h2 := pin_set s.pinTable i { s.pinEntry i with ref := none, pinned := some n } m (hi (h.deps a).2)
    have h3 : ¬ n = m := by have := (hc a b).1; have : s.shadow.poolSlots ≤ m := hP; omega
    simp only [Option.some.injEq, h3, if_false] at h2
    refine ⟨h1.1, ?_, h1.2.2⟩
    have h5 : pinEnts s.pinTable m = 0 := h1.2.1
    exact Nat.le_zero.1 (by rw [← h5]; exact Nat.le.intro h2)
  case fits =>
    intro a b
    have h4 : PoolFits (fun _ => False) (s.setPinEntry i { s.pinEntry i with ref := none, pinned := some n }) := (h.fits a b).same (fun _ _ => rfl) rfl rfl (Or.inr rfl)
    exact h4.takePin (fun _ x => x) (hc a b).2
  · intro a m hm; rw [refs_takePin]; exact h.ref a m hm
  · intro a m hm
    rw [pins_takePin]
    have h1 := h.pin a m hm
    have h2 := pin_set s.pinTable i { s.pinEntry i with ref := none, pinned := some n } m (hi a)
    unfold State.pinEntry at *
    rw [hn] at h2
    simp only [Option.some.injEq, reduceCtorEq, if_false] at h2
    change (if n = m ∧ m < 128 then (s.slot m).pins + 1 else (s.slot m).pins) = pinEnts (tset s.pinTable i _) m + latchCount s.links m
    by_cases hmn : n = m
    · simp only [hmn, hm, and_self, if_true] at *; omega
    · simp only [hmn, false_and, if_false] at *; omega

theorem unpin_pinned (i : Nat) (s : State) : ((unpin i s).pinEntry i).pinned = none := by
  unfold unpin
  split
  · rename_i n hn
    obtain ⟨P, E, hfr⟩ := releasePin_frame n (s.setPinEntry i { s.pinEntry i with pinned := none })
    rw [hfr]
    unfold State.pinEntry State.setPinEntry
    simp only [tget_tset]
    split
    · rfl
    · by_cases hi : i < 64
      · rename_i hx; simp [hi] at hx
      · rw [tget_beyond _ _ (by omega)]; rfl
  · assumption

theorem findNode_open {s : State} {x : BitVec 8} {k : Nat} (h : s.findNode x = some k) : k < 32 ∧ (s.link k).isOpen = true := by
  unfold State.findNode at h
  have h1 := List.mem_of_find?_eq_some h
  have := List.find?_some h
  simp at this h1; exact ⟨h1, this.1⟩

/-- A commit that passes its checks names a slot of the pool: slot 0, or one that a cell names. -/
theorem checkCommit_ok {s : State} {e : PinEntry} {n : Nat} (h : s.checkCommit e = .ok n) :
    n < s.shadow.poolSlots ∧ (n = 0 ∨ s.cellNames n = true) := by
  unfold State.checkCommit at h
  split at h
  · cases h
  · dsimp only at h
    split at h
    · cases h
    · rename_i hP
      split at h
      · cases h
      · split at h
        · rename_i h0; cases h; exact ⟨by omega, Or.inl rfl⟩
        · split at h
          · cases h
          · rename_i k hk
            split at h
            · rename_i hc
              cases h
              refine ⟨by omega, Or.inr ?_⟩
              unfold State.nodeLink at hk
              rw [Option.bind_eq_some_iff] at hk
              obtain ⟨x, _, hx⟩ := hk
              have := findNode_open hx
              exact (cellNames_iff _ _).2 ⟨k, this.1, this.2, by simpa using hc⟩
            · cases h

theorem CountsOk.commit {s : State} (h : CountsOk r p q s) (i : Nat) (hi : p → i < 64) : CountsOk r p q (commit i s) := by
  unfold Machine.commit
  dsimp only
  split
  · rename_i n hc
    refine (h.releasePinEntry i).acceptCommit _ _ hi (unpin_pinned i s) (fun _ _ => checkCommit_ok hc)
  · unfold rejectCommit
    refine CountsOk.raise ?_ _
    exact (h.releasePinEntry i).pinEntry rfl rfl rfl rfl rfl rfl (Or.inr rfl)

theorem CountsOk.transition {s : State} (h : CountsOk r p q s) (i : Nat) (x) (hi : p → i < 64) : CountsOk r p q (transition i x s) := by
  unfold Machine.transition
  split
  · exact h.commit i hi
  all_goals exact h.releasePinEntry i

theorem CountsOk.setLatch {s : State} (h : CountsOk r p q s) (k sel n : Nat) (ho : (s.link k).isOpen = true)
    (hn : q → s.filter ≠ .transparent → n < s.shadow.poolSlots ∧ (n = 0 ∨ s.cellNames n = true)) : CountsOk r p q (setLatch k sel n s) := by
  have hk := lt32 ho
  have hcn : ∀ x, (s.setLink k { s.link k with latch := some ⟨sel, n⟩ }).cellNames x = s.cellNames x := fun x => cellNames_link rfl Iff.rfl
  have hset : PoolFits (fun _ => False) s → PoolFits (fun _ => False) (s.setLink k { s.link k with latch := some ⟨sel, n⟩ }) := fun hf =>
    hf.same (fun x _ => hcn x) rfl rfl (Or.inr rfl)
  have htake : q → s.filter ≠ .transparent → PoolFits (fun _ => False) s → PoolFits (fun _ => False) (takePin n (s.setLink k { s.link k with latch := some ⟨sel, n⟩ })) := fun a b hf =>
    (hset hf).takePin (fun _ x => x) (by rw [hcn]; exact (hn a b).2)
  have hnames : q → s.filter ≠ .transparent → ∀ x, s.shadow.poolSlots ≤ x →
      Link.refCount { s.link k with latch := some ⟨sel, n⟩ } x ≤ (s.link k).refCount x ∧ ((some n : Option Nat) = some x → (s.link k).latch.map Latch.slot = some x) := fun a b x hP =>
    ⟨Nat.le_refl _, fun hx => by cases hx; have := (hn a b).1; omega⟩
  unfold Machine.setLatch
  dsimp only
  split
  · rename_i hl
    refine h.linkRef (L := { s.link k with latch := some ⟨sel, n⟩ }) hk rfl ho ?_ ?_ rfl rfl rfl hnames htake
    · intro a m hm; rw [refs_takePin]; rfl
    · intro a m hm; rw [pins_takePin, hl]
      simp only [Option.map_some, Option.some.injEq, Option.map_none, reduceCtorEq, if_false, slot_setLink]
      by_cases hmn : n = m
      · simp [hmn, hm]
      · simp [hmn]
  · rename_i l hl
    split
    · rename_i he
      refine h.linkRef (L := { s.link k with latch := some ⟨sel, n⟩ }) hk rfl ho ?_ ?_ rfl rfl rfl hnames (fun _ _ => hset)
      · intro a m hm; rfl
      · intro a m hm; rw [hl]; simp only [Option.map_some, he]; rfl
    · rename_i hne
      obtain ⟨P, E, hfr⟩ := releasePin_frame l.slot (takePin n (s.setLink k { s.link k with latch := some ⟨sel, n⟩ }))
      refine h.linkRef (L := { s.link k with latch := some ⟨sel, n⟩ }) hk (by rw [hfr]; rfl) ho ?_ ?_ (by rw [hfr]; rfl) (by rw [hfr]; rfl) (by rw [hfr]; rfl) hnames ?fits
      case fits =>
        intro a b hf
        refine (htake a b hf).releasePin (fun _ x => x) ?_
        by_contra hP
        have h1 := (h.names a b l.slot (by exact Nat.le_of_not_lt hP)).2.2
        have h3 := latch_ge s.links k l.slot hk
        unfold State.link at hl
        rw [hl] at h3; simp at h3; omega
      · intro a m hm; rw [refs_releasePin, refs_takePin]; rfl
      · intro a m hm
        rw [pins_releasePin, pins_takePin, hl]
        simp only [Option.map_some, Option.some.injEq, slot_setLink]
        have h3 := latch_ge s.links k m hk
        have h4 := h.pin a m hm
        unfold State.link at hl
        rw [hl] at h3
        simp only [Option.map_some, Option.some.injEq] at h3
        by_cases h1 : l.slot = m
        · have : ¬ n = m := fun hh => hne (by rw [h1, hh])
          simp only [h1, this, hm, and_self, if_true, false_and, if_false] at *; omega
        · by_cases h2 : n = m
          · simp only [h1, h2, hm, and_self, if_true, false_and, if_false] at *
          · simp only [h1, h2, false_and, if_false] at *

theorem CountsOk.takeEstimate {s : State} (h : CountsOk r p q s) (rec k sq) (e) (ho : (s.link k).isOpen = true) : CountsOk r p q (takeEstimate rec k sq e s) := by
  unfold Machine.takeEstimate
  dsimp only
  have := h.plain (L := { s.link k with
    summary := (s.link k).summary.modify (estSlice e.sliceEpoch) fun m => m.arrived rec sq (estMean e.meanSnr) (estErr e.errCount) }) ho ho rfl rfl rfl rfl
  split
  · exact this.frameRfl rfl rfl rfl rfl rfl (Or.inr rfl)
  · exact this

theorem CountsOk.arrival {s : State} (h : CountsOk r p q s) (rec x) : CountsOk r p q (arrival rec x s) := by
  unfold Machine.arrival
  dsimp only
  split
  · rename_i k hk
    refine CountsOk.counting (h.takeEstimate _ _ _ _ ?_)
    unfold State.checkArrival at hk
    split at hk
    · cases hk
    · split at hk
      · cases hk
      · split at hk
        · cases hk
        · rename_i j hj
          split at hk
          · cases hk
          · split at hk
            · cases hk
            · cases hk; exact (findNode_open hj).2
  · exact h.raise _

theorem CountsOk.runActs {l : List (State → State)} (hl : ∀ f ∈ l, ∀ s, CountsOk r p q s → CountsOk r p q (f s)) {s : State} (h : CountsOk r p q s) : CountsOk r p q (runActs l s) := by
  unfold Machine.runActs
  induction l generalizing s with
  | nil => exact h
  | cons f l ih => exact ih (fun g hg => hl g (List.mem_cons_of_mem _ hg)) (hl f List.mem_cons_self s h)

theorem CountsOk.takeSnooped {g b w lo hi} {l : List (State → State)} (hl : ∀ f ∈ l, ∀ s, CountsOk r p q s → CountsOk r p q (f s)) {s : State} (h : CountsOk r p q s) : CountsOk r p q (takeSnooped g b w lo hi l s) := by
  unfold Machine.takeSnooped
  have h0 : CountsOk r p q { s with choices := s.choices + 1 } := h.frameRfl rfl rfl rfl rfl rfl (Or.inr rfl)
  dsimp only
  split
  · exact h0.runActs hl
  · split
    · exact h0.runActs hl
    · refine h0.runActs ?_
      intro f hf s hs
      simp only [List.mem_append, List.mem_cons] at hf
      rcases hf with hf | rfl | hf
      · exact hl f (List.mem_of_mem_take hf) s hs
      · unfold guardPartial; split
        · exact hs
        · exact hs.raise _
      · exact hl f (List.mem_of_mem_drop hf) s hs

theorem CountsOk.respond {s : State} (h : CountsOk r p q s) (c v) : CountsOk r p q (respond c v s) := h.frameRfl rfl rfl rfl rfl rfl (Or.inr rfl)

theorem namesOpen_open {s : State} {x : Word} (h : s.namesOpen x = true) : (s.link x.toNat).isOpen = true := by
  unfold State.namesOpen at h; simp at h; exact h.2

theorem refCount_opened (L : Link) (x n m) : (Link.opened L x n).refCount m = if m = 0 then n else 0 := by
  simp [Link.refCount, Link.opened, List.count_replicate]
  split <;> split <;> simp_all

theorem CountsOk.openLink {s : State} (h : CountsOk r p q s) (k x) (hk : k < 32) (ho : (s.link k).isOpen = false) : CountsOk r p q (openLink k x s) := by
  have hfree := h.free k ho
  refine h.linkRef (k := k) (L := (s.link k).opened x s.shadow.slices) hk rfl rfl ?_ ?_ rfl rfl rfl ?names ?fits
  case names =>
    intro a b n hP
    have := (h.fits a b).size.1
    rw [refCount_opened, if_neg (by omega)]
    exact ⟨Nat.zero_le _, by simp [Link.opened, Link.free]⟩
  case fits =>
    intro a b hf
    refine hf.one (n := 0) (x := { s.slot 0 with refs := (s.slot 0).refs + s.shadow.slices }) ?_ rfl (Or.inr rfl) (fun m => slot_setSlot _ _ _ _) rfl ?_ ?_ ?_ ?_ ?_ ?_
    · intro m hm
      refine cellNames_link (k := k) (L := (s.link k).opened x s.shadow.slices) rfl ?_
      refine iff_of_false ?_ (by rw [ho]; simp)
      simp only [Link.opened, List.mem_replicate]; omega
    · intro _; exact hf.base
    · omega
    · omega
    · omega
    · intro _ _; rfl
    · intro hx; have := (hf.job 0 hx).1; omega
  · intro a m hm
    rw [hfree, refCount_opened]
    unfold Machine.openLink
    rw [slot_setSlot]
    have : ({ Link.free with changes := (s.link k).changes } : Link).refCount m = 0 := by simp [Link.refCount, Link.free]
    rw [this]
    by_cases h0 : 0 = m
    · subst h0; simp
    · have : ¬ m = 0 := fun hh => h0 hh.symm
      simp [h0, this]
  · intro a m hm
    rw [hfree]
    unfold Machine.openLink
    rw [slot_setSlot]
    by_cases h0 : 0 = m
    · subst h0; simp [Link.opened, Link.free]
    · simp [h0, Link.opened, Link.free]

theorem mem_of_cells_cons {c : Nat} {cs : List Nat} : (c :: cs).count c = cs.count c + 1 := by simp

theorem CountsOk.dropFirstCell {s : State} (h : CountsOk r p q s) (k) : CountsOk r p q (dropFirstCell k s) := by
  unfold Machine.dropFirstCell
  split
  · rename_i c cs hc
    have hopen := h.openOf (k := k) (P := fun L => L.cells ≠ []) (by intro c; simp [Link.free]) (by rw [hc]; simp)
    have hk := lt32 hopen
    obtain ⟨P, E, hfr⟩ := releaseRef_frame c (s.setLink k { s.link k with cells := cs })
    refine h.linkRef (k := k) (L := { s.link k with cells := cs }) hk (by rw [hfr]; rfl) hopen ?_ ?_ (by rw [hfr]; rfl) (by rw [hfr]; rfl) (by rw [hfr]; rfl) ?names ?fits
    case names =>
      intro a b n hP
      refine ⟨?_, id⟩
      simp only [Link.refCount, hc, List.count_cons]; omega
    case fits =>
      intro a b hf
      have h3 := refs_ge s.links k c hk
      have ho := h.slotOf a b (n := c) (by unfold State.link at hc; simp only [Link.refCount, hc, List.count_cons, beq_self_eq_true, if_true] at h3; omega)
      have h1 : PoolFits (fun x => x = c) s := hf.mono (by rintro n h0 _ ⟨rfl, _⟩; exact ho.2.2.1 h0) (fun _ x => x.elim)
      have h4 : PoolFits (fun x => x = c) (s.setLink k { s.link k with cells := cs }) := by
        refine h1.same ?_ rfl rfl (Or.inr rfl)
        intro x hx
        refine cellNames_link rfl ?_
        dsimp only
        refine and_congr_right fun _ => ?_
        rw [hc, List.mem_cons]
        exact ⟨Or.inr, fun hh => hh.resolve_left hx⟩
      exact h4.releaseRef (n := c) ho.1 (fun h0 => ho.2.2.1 h0) (by simp)
    · intro a m hm
      rw [refs_releaseRef]
      have h3 := refs_ge s.links k m hk
      have h4 := h.ref a m hm
      unfold State.link at *
      simp only [Link.refCount, hc, List.count_cons, slot_setLink, beq_iff_eq] at *
      change (if c = m ∧ m < 128 then (s.slot m).refs - 1 else (s.slot m).refs) + _ = _
      by_cases h1 : c = m
      · simp only [h1, hm, and_self, if_true] at *; omega
      · simp only [h1, false_and, if_false] at *; omega
    · intro a m hm; rw [pins_releaseRef]; rfl
  · exact h

theorem length_dropFirst (k : Nat) (s : State) (hk : k < 32) : ((dropFirstCell k s).link k).cells = (s.link k).cells.tail ∧ ((dropFirstCell k s).link k) = { s.link k with cells := (s.link k).cells.tail } := by
  unfold dropFirstCell
  split
  · rename_i c cs hc
    obtain ⟨P, E, hfr⟩ := releaseRef_frame c (s.setLink k { s.link k with cells := cs })
    rw [hfr]
    have : State.link { s.setLink k { s.link k with cells := cs } with pool := P, engine := E } k = { s.link k with cells := cs } := tget_tset_same _ _ _ hk
    rw [this, hc]; exact ⟨rfl, rfl⟩
  · rename_i hc; refine ⟨by rw [hc]; rfl, ?_⟩; rw [hc]; show _ = { s.link k with cells := [] }; rw [← hc]

theorem cells_forSlices (k : Nat) (hk : k < 32) (b : Nat) (s : State) : (forSlices b (fun _ => dropFirstCell k) s).link k = { s.link k with cells := (s.link k).cells.drop b } := by
  unfold forSlices
  induction b with
  | zero => simp
  | succ b ih =>
    rw [List.range_succ, List.foldl_append, List.foldl_cons, List.foldl_nil, (length_dropFirst k _ hk).2, ih]
    simp

theorem CountsOk.removeLink {s : State} (h : CountsOk r p q s) (k) (ho : (s.link k).isOpen = true) : CountsOk r p q (removeLink k s) := by
  have hk := lt32 ho
  unfold Machine.removeLink
  dsimp only
  have h1 := h.forSlices (fun i s h => CountsOk.dropFirstCell h k) (s.link k).cells.length
  have l1 := cells_forSlices k hk (s.link k).cells.length s
  generalize Machine.forSlices (s.link k).cells.length (fun _ => Machine.dropFirstCell k) s = u1 at *
  have h2 := h1.clearPendings k
  have l2 : (Machine.clearPendings k u1).link k = { u1.link k with pendingSet := (u1.link k).pendingSet.map fun _ => none } := by
    obtain ⟨P, E, hfr⟩ := clearPendings_frame hk u1; rw [hfr]; exact tget_tset_same _ _ _ hk
  generalize Machine.clearPendings k u1 = u2 at *
  have h3 := h2.clearNexts k
  have l3 : (Machine.clearNexts k u2).link k = { u2.link k with nextSet := (u2.link k).nextSet.map fun _ => none } := by
    obtain ⟨P, E, hfr⟩ := clearNexts_frame hk u2; rw [hfr]; exact tget_tset_same _ _ _ hk
  generalize Machine.clearNexts k u2 = u3 at *
  have h4 := h3.releaseLatch k
  have l4 : (Machine.releaseLatch k u3).link k = { u3.link k with latch := none } := by
    obtain ⟨P, E, hfr⟩ := releaseLatch_frame k u3; rw [hfr]; exact tget_tset_same _ _ _ hk
  generalize Machine.releaseLatch k u3 = u4 at *
  have h5 : CountsOk r p q (Machine.cancelJobOf k (dropQueueOf k u4)) := by
    refine CountsOk.cancelJobOf ?_ k
    exact h4.frameRfl rfl rfl rfl rfl rfl (Or.inr rfl)
  have l5 : (Machine.cancelJobOf k (dropQueueOf k u4)).link k = u4.link k := by
    obtain ⟨P, E, x, hfr⟩ := cancelJobOf_frame k (dropQueueOf k u4); rw [hfr]; rfl
  generalize Machine.cancelJobOf k (dropQueueOf k u4) = u5 at *
  refine h5.link (k := k) (L := { Link.free with changes := (u5.link k).changes }) rfl (fun _ => rfl) ?_ ?_ ?cells rfl (Or.inr rfl) rfl rfl rfl
  case cells =>
    intro n
    refine iff_of_false (by simp [Link.free]) ?_
    rw [l5, l4, l3, l2, l1]; simp
  · intro n
    rw [l5, l4, l3, l2, l1]
    simp only [Link.refCount, Link.free, count_map_none, List.drop_length, List.count_nil]
  · rw [l5, l4]; rfl

theorem CountsOk.discardOffer {s : State} (h : CountsOk r p q s) (k) (ho : (s.link k).isOpen = true) : CountsOk r p q (discardOffer k s) := by
  unfold Machine.discardOffer
  have h1 := h.clearPendings k
  have ho1 : ((Machine.clearPendings k s).link k).isOpen = true := by rw [isOpen_clearPendings]; exact ho
  exact h1.plain ho1 ho1 rfl rfl rfl rfl

theorem latchCount_free (n) : latchCount (Vector.replicate 32 Link.free) n = 0 := by
  simp [latchCount, Link.free]
theorem pinEnts_empty (n) : pinEnts (Vector.replicate 64 PinEntry.empty) n = 0 := by
  simp [pinEnts, PinEntry.empty]
theorem refs_free (n) : refs (Vector.replicate 32 Link.free) n = 0 := by
  have : Link.free.refCount n = 0 := by simp [Link.refCount, Link.free]
  simp [refs, this]

theorem poolSlots_range {c : Shadow} (h : c.firstFailing = none) : 16 ≤ c.poolSlots ∧ c.poolSlots ≤ 128 := by
  unfold Shadow.firstFailing at h
  rw [List.find?_eq_none] at h
  have := h 8 (by decide)
  simp [Shadow.check, within] at this
  exact this

/-- APPLY's acceptance: slot 0 is BASE, slots 1 to P − 1 are listed, nothing is named. -/
theorem poolFits_applied {s : State} (hc : s.shadow.firstFailing = none) : PoolFits (fun _ => False) (acceptApply s) := by
  have hP := poolSlots_range hc
  have hsl : ∀ n, (acceptApply s).slot n = if 0 = n ∧ n < 128 then { SlotRec.reset with state := .base } else SlotRec.reset := fun n =>
    (tget_tset _ _ _ _ _).trans (by rw [show tget Pool.reset.slots SlotRec.reset n = SlotRec.reset from tget_replicate _ _])
  have hcn : ∀ n, (acceptApply s).cellNames n = false := fun n => by
    rw [Bool.eq_false_iff]; intro hx
    obtain ⟨k, _, ho, _⟩ := (cellNames_iff _ _).1 hx
    have : (acceptApply s).link k = Link.free := tget_replicate _ _
    rw [this] at ho; cases ho
  refine ⟨hP, by rw [hsl]; simp, ?_, fun _ _ _ => False.elim, ?_, ?_, fun n hn => by cases hn⟩
  · intro n h0 _ _
    right
    rw [hsl, hcn, if_neg (by omega)]
    rfl
  · exact List.nodup_range' (step := 1)
  · intro n
    rw [hsl]
    show n ∈ List.range' 1 (s.shadow.poolSlots - 1) ↔ 0 < n ∧ n < s.shadow.poolSlots ∧ _
    rw [List.mem_range'_1]
    by_cases h0 : 0 = n
    · subst h0; simp
    · rw [if_neg (by omega)]; simp only [SlotRec.reset, and_true]; omega

theorem CountsOk.applyCommand {s : State} (h : CountsOk r p q s) : CountsOk r p q (applyCommand s) := by
  unfold Machine.applyCommand
  split
  · exact h.respond _ _
  · rename_i hc
    refine CountsOk.respond ?_ _ _
    refine ⟨?_, ?_, fun _ => Or.inr hc, ?_, h.deps, fun _ _ n _ => ⟨refs_free n, pinEnts_empty n, latchCount_free n⟩, fun _ _ => poolFits_applied hc⟩
    · intro k ho; unfold State.link acceptApply; simp only [tget_replicate]
    · intro a n hn
      change (tget (tset Pool.reset.slots 0 { SlotRec.reset with state := .base }) SlotRec.reset n).refs = refs (Vector.replicate 32 Link.free) n
      rw [refs_free, refs_tset]
      · simp [Pool.reset, tget_replicate]; rfl
      · simp [Pool.reset, tget_replicate]
    · intro a n hn
      change (tget (tset Pool.reset.slots 0 { SlotRec.reset with state := .base }) SlotRec.reset n).pins = pinEnts (Vector.replicate 64 PinEntry.empty) n + latchCount (Vector.replicate 32 Link.free) n
      rw [latchCount_free, pinEnts_empty, pins_tset]
      · simp [Pool.reset, tget_replicate]; rfl
      · simp [Pool.reset, tget_replicate]

theorem CountsOk.withdraw {s : State} (h : CountsOk r p q s) : CountsOk r p q (withdrawCommand s) := by
  unfold Machine.withdrawCommand
  refine CountsOk.respond ?_ _ _
  refine ⟨?_, ?_, fun _ => Or.inl rfl, ?_, h.deps, fun _ b => absurd rfl b, fun _ b => absurd rfl b⟩
  · intro k ho; unfold State.link acceptWithdraw; simp only [tget_replicate]
  · intro a n hn
    change (tget Pool.reset.slots SlotRec.reset n).refs = refs (Vector.replicate 32 Link.free) n
    rw [refs_free]; simp [Pool.reset, tget_replicate]; rfl
  · intro a n hn
    change (tget Pool.reset.slots SlotRec.reset n).pins = pinEnts (Vector.replicate 64 PinEntry.empty) n + latchCount (Vector.replicate 32 Link.free) n
    rw [latchCount_free, pinEnts_empty]; simp [Pool.reset, tget_replicate]; rfl

theorem CountsOk.linkAdd {s : State} (h : CountsOk r p q s) : CountsOk r p q (linkAdd s) := by
  unfold Machine.linkAdd
  dsimp only
  split
  · exact h.respond _ _
  · split
    · exact h.respond _ _
    · split
      · exact h.respond _ _
      · rename_i k hk
        refine CountsOk.respond (CountsOk.counting (h.openLink k _ ?_ ?_)) _ _
        · have := List.mem_of_find?_eq_some hk; simpa using this
        · have := List.find?_some hk; simpa using this

theorem CountsOk.linkRemove {s : State} (h : CountsOk r p q s) : CountsOk r p q (linkRemove s) := by
  unfold Machine.linkRemove
  split
  · rename_i ho; exact CountsOk.respond (CountsOk.counting (h.removeLink _ (namesOpen_open ho))) _ _
  · exact h.respond _ _

theorem CountsOk.linkHold {s : State} (h : CountsOk r p q s) : CountsOk r p q (linkHold s) := by
  unfold Machine.linkHold
  dsimp only
  split
  · exact h.respond _ _
  · rename_i ho
    simp at ho
    have ho := namesOpen_open ho
    split
    · exact h.respond _ _
    · exact CountsOk.respond (CountsOk.counting (by exact h.plain ho ho rfl rfl rfl rfl)) _ _

theorem CountsOk.linkResume {s : State} (h : CountsOk r p q s) : CountsOk r p q (linkResume s) := by
  unfold Machine.linkResume
  dsimp only
  split
  · exact h.respond _ _
  · rename_i ho
    simp at ho
    have ho := namesOpen_open ho
    exact CountsOk.respond (CountsOk.counting (by exact h.plain ho ho rfl rfl rfl rfl)) _ _

theorem CountsOk.rebuild {s : State} (h : CountsOk r p q s) : CountsOk r p q (rebuild s) := by
  unfold Machine.rebuild
  dsimp only
  split
  · exact h.respond _ _
  · split
    · exact h.respond _ _
    · split
      · exact h.respond _ _
      · refine CountsOk.respond ?_ _ _
        exact h.frameRfl rfl rfl rfl rfl rfl (Or.inr rfl)

theorem offerRefusal_open {s : State} (h : s.offerRefusal = none) : (s.link s.arg0.toNat).isOpen = true := by
  unfold State.offerRefusal at h
  split at h
  · cases h
  · rename_i ho; simp at ho; exact namesOpen_open ho

theorem CountsOk.confirm {s : State} (h : CountsOk r p q s) : CountsOk r p q (confirm s) := by
  unfold Machine.confirm
  split
  · exact h.respond _ _
  · rename_i hc
    have ho := offerRefusal_open hc
    split
    · exact h.respond _ _
    · exact CountsOk.respond (CountsOk.counting (by exact h.plain ho ho rfl rfl rfl rfl)) _ _

theorem CountsOk.decline {s : State} (h : CountsOk r p q s) : CountsOk r p q (decline s) := by
  unfold Machine.decline
  split
  · exact h.respond _ _
  · rename_i hc
    exact CountsOk.respond (CountsOk.counting (h.discardOffer _ (offerRefusal_open hc))) _ _

theorem CountsOk.takeCommand {s : State} (h : CountsOk r p q s) (x) : CountsOk r p q (takeCommand x s) := by
  unfold Machine.takeCommand
  split
  · exact h.respond _ _
  · split
    · exact h.respond _ _
    · have key : ∀ c : Command, CountsOk r p q (c.run s) := by
       intro c
       cases c
       · exact h.applyCommand
       · exact h.withdraw
       · exact h.linkAdd
       · exact h.linkRemove
       · exact h.linkHold
       · exact h.linkResume
       · exact h.rebuild
       · exact h.confirm
       · exact h.decline
      exact key _

theorem CountsOk.takeMailboxData {s : State} (h : CountsOk r p q s) (w x) : CountsOk r p q (takeMailboxData w x s) := by
  unfold Machine.takeMailboxData
  split
  · unfold consume; dsimp only; split
    · exact h.frameRfl rfl rfl rfl rfl rfl (Or.inr rfl)
    · exact h.frameRfl rfl rfl rfl rfl rfl (Or.inr rfl)
  · split
    · exact h.frameRfl rfl rfl rfl rfl rfl (Or.inr rfl)
    · split
      · exact h.frameRfl rfl rfl rfl rfl rfl (Or.inr rfl)
      · exact h.frameRfl rfl rfl rfl rfl rfl (Or.inr rfl)

theorem CountsOk.discardWrite {s : State} (h : CountsOk r p q s) (g b) : CountsOk r p q (discardWrite g b s) := by
  unfold Machine.discardWrite; dsimp only
  split
  · exact h.frameRfl rfl rfl rfl rfl rfl (Or.inr rfl)
  · refine CountsOk.frameRfl (s := Machine.raise (.guardWrite g (BitVec.ofNat 16 b.base) .protect) s) (h.raise _) rfl rfl rfl rfl rfl (Or.inr rfl)

theorem CountsOk.forward {s : State} (h : CountsOk r p q s) (t) : CountsOk r p q (forward t s) := h.frameRfl rfl rfl rfl rfl rfl (Or.inr rfl)

theorem place_transmit {s : State} {a i w : Nat} (h : s.place a = .transmit i w) : s.filter ≠ .transparent := by
  unfold State.place at h
  split at h
  · cases h
  · split at h
    · cases h
    all_goals simp_all

theorem descriptors_le {c : Shadow} (h : c.firstFailing = none) : c.descriptors ≤ 64 := by
  unfold Shadow.firstFailing at h
  rw [List.find?_eq_none] at h
  have := h 10 (by decide)
  simp [Shadow.check, within] at this
  exact this.2

theorem CountsOk.takeWrite {s : State} (h : CountsOk r p q s) (b) : CountsOk r p q (takeWrite b s) := by
  unfold Machine.takeWrite
  split
  · split
    · exact h.discardWrite _ _
    · split
      · refine CountsOk.forward (CountsOk.takeSnooped ?_ h) _
        intro f hf s hs
        simp only [mailboxActs, mailboxData, List.mem_append, List.mem_filterMap, Option.mem_toList, Option.map_eq_some_iff] at hf
        rcases hf with ⟨i, _, hi⟩ | ⟨x, hx, rfl⟩
        · split at hi
          · cases hi; exact hs.takeMailboxData _ _
          · cases hi
        · exact hs.takeCommand _
      · split
        · split
          · rename_i ht
            refine CountsOk.forward ?_ _
            exact ⟨h.free, h.ref, fun _ => Or.inl ht, h.pin, h.deps, fun _ b => absurd ht b, fun _ b => absurd ht b⟩
          · exact h.discardWrite _ _
        · exact h.forward _
  · exact h.discardWrite _ _
  · exact h.discardWrite _ _
  · exact h.discardWrite _ _
  · exact h.discardWrite _ _
  · rename_i rr ww _
    refine CountsOk.forward (CountsOk.takeSnooped ?_ h) _
    intro f hf s hs
    have hh : f ∈ headerActs b rr ww ∨ (∃ n, f = Machine.reportWrite n) ∨ ∃ n x, f = Machine.arrival n x := by
      unfold estimateActs at hf
      rw [List.mem_append] at hf
      rcases hf with hf | hf
      · exact Or.inl hf
      · split at hf
        · unfold arriveAndReport at hf
          split at hf <;> simp at hf <;> rcases hf with rfl | rfl
          · exact Or.inr (Or.inl ⟨_, rfl⟩)
          · exact Or.inr (Or.inr ⟨_, _, rfl⟩)
          · exact Or.inr (Or.inr ⟨_, _, rfl⟩)
          · exact Or.inr (Or.inl ⟨_, rfl⟩)
        · simp at hf; exact Or.inr (Or.inl ⟨_, hf⟩)
    rcases hh with hf | ⟨n, rfl⟩ | ⟨n, x, rfl⟩
    · simp only [headerActs, List.mem_filterMap] at hf
      obtain ⟨i, _, hi⟩ := hf
      split at hi
      · cases hi; exact hs.frameRfl rfl rfl rfl rfl rfl (Or.inr rfl)
      · cases hi
    · exact hs.reportWrite _
    · exact hs.arrival _ _
  · rename_i i w hp
    split
    · rename_i hi
      refine CountsOk.forward (CountsOk.takeSnooped ?_ h) _
      intro f hf s' hs
      have hd : p → i < 64 := by
        intro a
        have := descriptors_le ((h.cfg a).resolve_left (place_transmit hp))
        omega
      simp only [transmitActs, captureActs, List.mem_append, List.mem_filterMap, Option.mem_toList, Option.map_eq_some_iff] at hf
      rcases hf with ⟨j, _, hj⟩ | ⟨x, hx, rfl⟩
      · split at hj
        · cases hj
        · split at hj
          · cases hj; exact hs.pinEntry rfl rfl rfl rfl rfl rfl (Or.inr rfl)
          · split at hj
            · cases hj; exact hs.pinEntry rfl rfl rfl rfl rfl rfl (Or.inr rfl)
            · cases hj
      · exact hs.transition _ _ hd
    · exact h.forward _
  · exact h.forward _

/-- The slot an alias read finds in a cell, or slot 0. -/
theorem CountsOk.cellSlot {s : State} (h : CountsOk r p q s) (a : q) (b : s.filter ≠ .transparent) {k sel : Nat} :
    s.cellSlot k sel < s.shadow.poolSlots ∧ (s.cellSlot k sel = 0 ∨ s.cellNames (s.cellSlot k sel) = true) := by
  have hP := (h.fits a b).size.1
  have zero : ∀ n, n = 0 → n < s.shadow.poolSlots ∧ (n = 0 ∨ s.cellNames n = true) := fun n hn => ⟨by omega, Or.inl hn⟩
  unfold State.cellSlot
  split
  · split
    · rename_i i _ ho
      cases hc : (s.link k).cells[i]? with
      | none => exact zero _ (by simp [List.getD_eq_getElem?_getD, hc])
      | some n =>
        have hk := lt32 ho.1
        have hm := List.mem_of_getElem? hc
        have h3 := refs_ge s.links k n hk
        have h2 := List.one_le_count_iff.2 hm
        simp only [Link.refCount] at h3
        unfold State.link at h2
        rw [show (s.link k).cells.getD i 0 = n by simp [List.getD_eq_getElem?_getD, hc]]
        exact ⟨(h.slotOf a b (by omega)).1, Or.inr ((cellNames_iff _ _).2 ⟨k, hk, ho.1, hm⟩)⟩
    · exact zero _ rfl
  · exact zero _ rfl

theorem CountsOk.takeRead {s : State} (h : CountsOk r p q s) (b) : CountsOk r p q (takeRead b s) := by
  unfold Machine.takeRead
  split
  · split
    · exact h.frameRfl rfl rfl rfl rfl rfl (Or.inr rfl)
    · exact h.forward _
  · exact h.frameRfl rfl rfl rfl rfl rfl (Or.inr rfl)
  · refine CountsOk.forward ?_ _
    unfold latchRead
    split
    · rename_i hl
      simp [State.latches] at hl
      exact CountsOk.counting (h.setLatch _ _ _ hl.1.2 (fun a b => h.cellSlot a b))
    · exact h
  all_goals exact h.forward _

theorem CountsOk.startEvent {s : State} (h : CountsOk r p q s) (k) : CountsOk r p q (startEvent k s) := by
  unfold Machine.startEvent; split
  · refine CountsOk.settle (CountsOk.counting (CountsOk.actAtStart ?_ k))
    exact h.frameRfl rfl rfl rfl rfl rfl (Or.inr rfl)
  · exact h

theorem CountsOk.startJob {s : State} (h : CountsOk r p q s) : CountsOk r p q (startJob s) := by
  unfold Machine.startJob; split
  · exact h.frameRfl rfl rfl rfl rfl rfl (Or.inl rfl)
  · exact h

theorem CountsOk.present {s : State} (h : CountsOk r p q s) (x) : CountsOk r p q (present x s) :=
  h.frameRfl (by simp) (by simp) (by simp) (by simp) (by simp) (Or.inr (by simp [State.jobSlot]))
theorem CountsOk.take {s : State} (h : CountsOk r p q s) (x : Transaction) : CountsOk r p q (x.take s) := by
  cases x
  · exact h.takeWrite _
  · exact h.takeRead _
theorem CountsOk.acceptPresented {s : State} (h : CountsOk r p q s) : CountsOk r p q (acceptPresented s) := by
  unfold Machine.acceptPresented; split
  · rename_i x _ _
    have h1 : CountsOk r p q { s with path := { s.path with presented := none, completions := [] } } := h.frameRfl rfl rfl rfl rfl rfl (Or.inr rfl)
    exact (h1.take x).frameRfl rfl rfl rfl rfl rfl (Or.inr rfl)
  · exact h
theorem CountsOk.writeArrival {s : State} (h : CountsOk r p q s) (b) : CountsOk r p q (writeArrival b s) := by
  unfold Machine.writeArrival; split
  · exact (h.takeWrite b).settle
  · exact h.present _
theorem CountsOk.readArrival {s : State} (h : CountsOk r p q s) (b) : CountsOk r p q (readArrival b s) := by
  unfold Machine.readArrival; split
  · exact (h.takeRead b).settle
  · exact h.present _

theorem CountsOk.reset' {s : State} (hl : s.links = Vector.replicate 32 Link.free) (hp : s.pool = Pool.reset) (ht : s.pinTable = Vector.replicate 64 PinEntry.empty) (hf : s.filter = .transparent) (hd : q → r ∧ p) : CountsOk r p q s := by
  refine ⟨?_, ?_, fun _ => Or.inl hf, ?_, hd, fun _ b => absurd hf b, fun _ b => absurd hf b⟩
  · intro k ho; unfold State.link; rw [hl]; simp only [tget_replicate]
  · intro a n hn
    unfold State.slot; rw [hl, hp]
    rw [refs_free]; simp [Pool.reset, tget_replicate]; rfl
  · intro a n hn
    unfold State.slot; rw [hl, hp, ht]
    rw [latchCount_free, pinEnts_empty]; simp [Pool.reset, tget_replicate]; rfl

/-! ### The invariants as the statements give them -/

theorem cell_refs {s : State} {k n : Nat} (hk : k < 32) (h : n ∈ (s.link k).cells) : 0 < refs s.links n := by
  have h3 := refs_ge s.links k n hk
  have h2 := List.one_le_count_iff.2 h
  simp only [Link.refCount] at h3
  unfold State.link at h2
  omega

/-- The law of slot states and of the Free List is what CountsOk keeps. -/
theorem poolLaw_of {s : State} (h : CountsOk True True True s) : s.PoolLaw := by
  intro hf
  have hp := h.fits trivial hf
  have hcells : ∀ n, s.cellNames n = true ↔ ∃ k, (s.link k).isOpen = true ∧ n ∈ (s.link k).cells := fun n =>
    (cellNames_iff s n).trans ⟨fun ⟨k, _, h⟩ => ⟨k, h⟩, fun ⟨k, h⟩ => ⟨k, lt32 h.1, h⟩⟩
  have hrefs : ∀ n, n < 128 → s.cellNames n = true → 0 < (s.slot n).refs := fun n hn hc => by
    obtain ⟨k, hk, _, hm⟩ := (cellNames_iff s n).1 hc
    rw [h.ref trivial n hn]; exact cell_refs hk hm
  refine ⟨hp.base, ?_, hp.nodup, hp.mem, ?_, ?_⟩
  · intro n h0 hn
    refine ⟨hp.ne_base h0 hn, ?_, ?_⟩
    · intro hb
      rcases hp.held n h0 hn (fun x => x) with hh | hh
      · exact ⟨hh.2.1, hh.2.2.1⟩
      · rw [hb] at hh; exact absurd hh.symm (heldAs_ne_building _ _ _)
    · intro hb
      have hh := (hp.held n h0 hn (fun x => x)).resolve_left (fun x => hb x.1)
      have hr := hrefs n hn
      rw [← hcells]
      have hno : (∀ k, (s.link k).isOpen = true → n ∉ (s.link k).cells) ↔ s.cellNames n = false := by
        rw [Bool.eq_false_iff, Ne, hcells]
        exact ⟨fun a ⟨k, b⟩ => a k b.1 b.2, fun a k b c => a ⟨k, b, c⟩⟩
      rw [hno, hh]
      generalize s.cellNames n = c at *
      generalize (s.slot n).refs = x at *
      generalize (s.slot n).pins = y at *
      unfold heldAs
      cases c
      · by_cases hx : 0 < x
        · simp [hx]; omega
        · have : x = 0 := by omega
          subst this
          by_cases hy : 0 < y
          · simp [hy]; omega
          · have : y = 0 := by omega
            subst this; simp
      · have := hr rfl
        simp; omega
  · intro j n hj hn; exact hp.job n (by simp [State.jobSlot, hj, hn])
  · intro n hP
    have := h.names trivial hf n hP
    refine ⟨this.1, ?_⟩
    show pinEnts s.pinTable n + latchCount s.links n = 0
    omega

/-- CountsOk is no more than the laws that the statements name. -/
theorem countsOk_of {s : State} (hc : s.ConfigOk) (h0 : s.FreeOk) (h1 : s.RefLaw) (h2 : s.PinLaw) (h3 : s.PoolLaw) : CountsOk True True True s := by
  refine ⟨h0, fun _ => h1, fun _ => hc, fun _ => h2, fun _ => ⟨trivial, trivial⟩, ?_, ?_⟩
  · intro _ hf n hP
    have := (h3 hf).2.2.2.2.2 n hP
    have e1 : refs s.links n = 0 := this.1
    have e2 : pinEnts s.pinTable n + latchCount s.links n = 0 := this.2
    exact ⟨e1, by omega, by omega⟩
  · intro _ hf
    obtain ⟨hb, hst, hnd, hm, hj, _⟩ := h3 hf
    refine ⟨poolSlots_range (hc.resolve_left hf), hb, ?_, fun _ _ _ => False.elim, hnd, hm, ?_⟩
    · intro n n0 hn _
      obtain ⟨hnb, hbu, hh⟩ := hst n n0 hn
      by_cases hbx : (s.slot n).state = .building
      · left
        obtain ⟨a, b⟩ := hbu hbx
        refine ⟨hbx, a, b, ?_⟩
        rw [Bool.eq_false_iff]; intro hcn
        obtain ⟨k, hk, _, hx⟩ := (cellNames_iff s n).1 hcn
        have := cell_refs hk hx
        have e := h1 n hn
        have e' : (s.slot n).refs = refs s.links n := e
        omega
      · right
        obtain ⟨ha, hs, hr, hfr⟩ := hh hbx
        have hcells : s.cellNames n = true ↔ ∃ k, (s.link k).isOpen = true ∧ n ∈ (s.link k).cells :=
          (cellNames_iff s n).trans ⟨fun ⟨k, _, h⟩ => ⟨k, h⟩, fun ⟨k, h⟩ => ⟨k, lt32 h.1, h⟩⟩
        unfold heldAs
        split
        · rename_i hcn; exact ha.2 (hcells.1 hcn)
        · rename_i hcn
          split
          · rename_i hx
            exact hs.2 ⟨hx, fun k ho hm => hcn (hcells.2 ⟨k, ho, hm⟩)⟩
          · split
            · exact hr.2 ⟨by omega, by assumption⟩
            · exact hfr.2 ⟨by omega, by omega⟩
    · intro n hn
      cases hjob : s.engine.job with
      | none => simp [State.jobSlot, hjob] at hn
      | some j => simp [State.jobSlot, hjob] at hn; exact hj j n hjob hn

end Sys2Proof.Machine
end

