-- ==== Sys2Proof/Laws/Frames.lean ====
section
/-! SUPPORT. Every event of the part but the end of a burst, a tick and hardware reset leaves memory, the time, RESET_N and the
waiting commands as they were: `keep_<operation>` for each operation. -/

namespace Sys2Proof.Machine

/-- The event leaves memory, the time, RESET_N and the waiting commands as they were. -/
def Keep (s t : State) : Prop := t.memory = s.memory ∧ t.inReset = s.inReset ∧ t.tick = s.tick ∧ t.pending = s.pending

theorem Keep.trans {s t u : State} (h : Keep s t) (h' : Keep t u) : Keep s u :=
  ⟨h'.1.trans h.1, h'.2.1.trans h.2.1, h'.2.2.1.trans h.2.2.1, h'.2.2.2.trans h.2.2.2⟩
theorem Keep.rf (s : State) : Keep s s := ⟨rfl, rfl, rfl, rfl⟩

theorem keep_settle (s : State) : Keep s (settle s) := ⟨by simp, by simp, by simp, by simp⟩
theorem keep_counting {f : State → State} {s : State} (h : Keep s (f s)) : Keep s (counting f s) := h

theorem keep_runActs {l : List (State → State)} (hl : ∀ f ∈ l, ∀ s, Keep s (f s)) (s : State) : Keep s (runActs l s) := by
  unfold runActs
  induction l generalizing s with
  | nil => exact Keep.rf s
  | cons f l ih => exact (hl f List.mem_cons_self s).trans (ih (fun g hg => hl g (List.mem_cons_of_mem _ hg)) (f s))

theorem keep_snooped {g b w lo hi} {l : List (State → State)} (hl : ∀ f ∈ l, ∀ s, Keep s (f s)) (s : State) : Keep s (takeSnooped g b w lo hi l s) := by
  unfold takeSnooped
  dsimp only
  split
  · exact keep_runActs hl { s with choices := s.choices + 1 }
  · split
    · exact keep_runActs hl { s with choices := s.choices + 1 }
    · refine Keep.trans (t := { s with choices := s.choices + 1 }) ⟨rfl, rfl, rfl, rfl⟩ (keep_runActs ?_ _)
      intro f hf s
      simp only [List.mem_append, List.mem_cons] at hf
      rcases hf with hf | rfl | hf
      · exact hl f (List.mem_of_mem_take hf) s
      · unfold guardPartial; split
        · exact Keep.rf s
        · exact ⟨rfl, rfl, rfl, rfl⟩
      · exact hl f (List.mem_of_mem_drop hf) s

theorem keep_consume (x) (s : State) : Keep s (consume x s) := by
  unfold consume; dsimp only; split <;> exact ⟨rfl, rfl, rfl, rfl⟩

theorem keep_mailboxData (w x) (s : State) : Keep s (takeMailboxData w x s) := by
  unfold takeMailboxData; split
  · exact keep_consume x s
  · split
    · exact ⟨rfl, rfl, rfl, rfl⟩
    · split <;> exact ⟨rfl, rfl, rfl, rfl⟩

theorem namesOpen_lt {s : State} {x : Word} (h : s.namesOpen x = true) : x.toNat < 32 := by
  unfold State.namesOpen at h; simp at h; exact h.1

theorem keep_resp {s t : State} {c v} (h : Keep s t) : Keep s (respond c v t) := h

theorem keep_takeCommand (x) (s : State) : Keep s (takeCommand x s) := by
  unfold takeCommand
  split
  · exact ⟨rfl, rfl, rfl, rfl⟩
  · split
    · exact ⟨rfl, rfl, rfl, rfl⟩
    · have key : ∀ c : Command, Keep s (c.run s) := by
        intro c
        cases c <;> unfold Command.run
        · unfold applyCommand; dsimp only; split <;> exact ⟨rfl, rfl, rfl, rfl⟩
        · exact ⟨rfl, rfl, rfl, rfl⟩
        · unfold Machine.linkAdd; dsimp only; split
          · exact ⟨rfl, rfl, rfl, rfl⟩
          · split
            · exact ⟨rfl, rfl, rfl, rfl⟩
            · split <;> exact ⟨rfl, rfl, rfl, rfl⟩
        · unfold Machine.linkRemove; dsimp only; split
          · rename_i h
            obtain ⟨p, e, y, hf⟩ := removeLink_frame (namesOpen_lt h) s
            exact keep_resp (keep_counting (f := removeLink s.arg0.toNat) (by rw [hf]; exact ⟨rfl, rfl, rfl, rfl⟩))
          · exact ⟨rfl, rfl, rfl, rfl⟩
        · unfold Machine.linkHold; dsimp only; split
          · exact ⟨rfl, rfl, rfl, rfl⟩
          · split <;> exact ⟨rfl, rfl, rfl, rfl⟩
        · unfold Machine.linkResume; dsimp only; split <;> exact ⟨rfl, rfl, rfl, rfl⟩
        · unfold Machine.rebuild; dsimp only; split
          · exact ⟨rfl, rfl, rfl, rfl⟩
          · split
            · exact ⟨rfl, rfl, rfl, rfl⟩
            · split <;> exact ⟨rfl, rfl, rfl, rfl⟩
        · unfold Machine.confirm; dsimp only; split
          · exact ⟨rfl, rfl, rfl, rfl⟩
          · split <;> exact ⟨rfl, rfl, rfl, rfl⟩
        · unfold Machine.decline; dsimp only; split
          · exact ⟨rfl, rfl, rfl, rfl⟩
          · rename_i h
            have : s.arg0.toNat < 32 := by
              unfold State.offerRefusal at h; split at h
              · cases h
              · rename_i hh; exact namesOpen_lt (by simpa using hh)
            obtain ⟨p, e, hf⟩ := discardOffer_frame this s
            exact keep_resp (keep_counting (f := discardOffer s.arg0.toNat) (by rw [hf]; exact ⟨rfl, rfl, rfl, rfl⟩))
      exact key _

theorem keep_estimateActs {b r w} {s0 : State} : ∀ f ∈ estimateActs b r w s0, ∀ s, Keep s (f s) := by
  intro f hf s
  have hr : ∀ r, Keep s (reportWrite r s) := by
    intro r; obtain ⟨p, e, y, n, h⟩ := reportWrite_frame r s; rw [h]; exact ⟨rfl, rfl, rfl, rfl⟩
  have ha : ∀ r x, Keep s (arrival r x s) := by
    intro r x; obtain ⟨p, e, y, h⟩ := arrival_frame r x s; rw [h]; exact ⟨rfl, rfl, rfl, rfl⟩
  unfold estimateActs at hf
  rw [List.mem_append] at hf
  rcases hf with hf | hf
  · simp only [headerActs, List.mem_filterMap] at hf
    obtain ⟨i, _, hi⟩ := hf
    split at hi
    · cases hi; exact ⟨rfl, rfl, rfl, rfl⟩
    · cases hi
  · split at hf
    · unfold arriveAndReport at hf
      split at hf <;> simp at hf <;> rcases hf with rfl | rfl
      · exact hr _
      · exact ha _ _
      · exact ha _ _
      · exact hr _
    · simp at hf; subst hf; exact hr _

theorem keep_transmitActs {b i w} : ∀ f ∈ transmitActs b i w, ∀ s, Keep s (f s) := by
  intro f hf s
  simp only [transmitActs, captureActs, List.mem_append, List.mem_filterMap, Option.mem_toList, Option.map_eq_some_iff] at hf
  rcases hf with ⟨j, _, hj⟩ | ⟨x, hx, rfl⟩
  · split at hj
    · cases hj
    · split at hj
      · cases hj; exact ⟨rfl, rfl, rfl, rfl⟩
      · split at hj
        · cases hj; exact ⟨rfl, rfl, rfl, rfl⟩
        · cases hj
  · obtain ⟨p, e, t, n, h⟩ := transition_frame i x s; rw [h]; exact ⟨rfl, rfl, rfl, rfl⟩

theorem keep_mailboxActs {b w} : ∀ f ∈ mailboxActs b w, ∀ s, Keep s (f s) := by
  intro f hf s
  simp only [mailboxActs, mailboxData, List.mem_append, List.mem_filterMap, Option.mem_toList, Option.map_eq_some_iff] at hf
  rcases hf with ⟨i, _, hi⟩ | ⟨x, hx, rfl⟩
  · split at hi
    · cases hi; exact keep_mailboxData _ _ _
    · cases hi
  · exact keep_takeCommand _ _

theorem keep_discard (g b) (s : State) : Keep s (discardWrite g b s) := by
  unfold discardWrite; dsimp only; split <;> exact ⟨rfl, rfl, rfl, rfl⟩

theorem keep_takeWrite (b) (s : State) : Keep s (takeWrite b s) := by
  unfold takeWrite
  split
  · split
    · exact keep_discard _ _ _
    · split
      · exact keep_snooped keep_mailboxActs s
      · split
        · split
          · exact ⟨rfl, rfl, rfl, rfl⟩
          · exact keep_discard _ _ _
        · exact ⟨rfl, rfl, rfl, rfl⟩
  · exact keep_discard _ _ _
  · exact keep_discard _ _ _
  · exact keep_discard _ _ _
  · exact keep_discard _ _ _
  · exact keep_snooped keep_estimateActs s
  · split
    · exact keep_snooped keep_transmitActs s
    · exact ⟨rfl, rfl, rfl, rfl⟩
  · exact ⟨rfl, rfl, rfl, rfl⟩

theorem keep_takeRead (b) (s : State) : Keep s (takeRead b s) := by
  unfold takeRead
  split
  · split <;> exact ⟨rfl, rfl, rfl, rfl⟩
  · exact ⟨rfl, rfl, rfl, rfl⟩
  · rename_i k sel off _
    have : Keep s (latchRead k sel off s) := by
      unfold latchRead; split
      · obtain ⟨p, e, h⟩ := setLatch_frame k sel (s.cellSlot k sel) s
        have : Keep s (setLatch k sel (s.cellSlot k sel) s) := by rw [h]; exact ⟨rfl, rfl, rfl, rfl⟩
        exact this
      · exact Keep.rf s
    exact this
  all_goals exact ⟨rfl, rfl, rfl, rfl⟩

theorem wf_finish {s : State} (h : Memory.wf s.memory = true) : Memory.wf (finishBurst s).memory = true := by
  unfold finishBurst; split
  · exact wf_applyTo h _
  · exact h

theorem keep_edge (s : State) : Keep s (edge s) := by
  obtain ⟨T, v, o, p, e, y, q, n, c, h⟩ := edge_frame s; rw [h]; exact ⟨rfl, rfl, rfl, rfl⟩
theorem keep_miss (s : State) : Keep s (missWindow s) := by
  obtain ⟨T, v, o, p, e, y, q, n, c, h⟩ := missWindow_frame s; rw [h]; exact ⟨rfl, rfl, rfl, rfl⟩
theorem keep_act (k) (s : State) : Keep s (actAtStart k s) := by
  obtain ⟨v, o, p, e, y, q, c, h⟩ := actAtStart_frame k s; rw [h]; exact ⟨rfl, rfl, rfl, rfl⟩

theorem copyWords_frame : ∀ (ws : List Word) (a : Applier) (i : Nat), ∃ v, a.copyWords i ws = { a with notchMask := v } := by
  intro ws
  induction ws with
  | nil => intro a i; exact ⟨_, rfl⟩
  | cons w ws ih => intro a i; obtain ⟨v, h⟩ := ih { a with notchMask := tset a.notchMask i w } (i+1); exact ⟨v, h⟩

theorem keep_notch (w) (s : State) : Keep s (notchRead w s) := by
  unfold notchRead; dsimp only; split <;> exact ⟨rfl, rfl, rfl, rfl⟩

theorem keep_startEvent (k) (s : State) : Keep s (startEvent k s) := by
  unfold startEvent; split
  · refine (keep_counting (f := actAtStart k) (s := { s with owed := s.owed.filter (· != k) }) ?_).trans (keep_settle _)
    exact keep_act k _
  · exact Keep.rf s

theorem wf_of {s t : State} (h : Memory.wf s.memory = true) (k : Keep s t) : Memory.wf t.memory = true := by rw [k.1]; exact h

theorem wf_onBurst (u) {f : List Word → State → State} (hf : ∀ w s, Keep s (f w s)) {s : State} (h : Memory.wf s.memory = true) : Memory.wf (onBurstDone u f s).memory = true := by
  unfold onBurstDone; split
  · exact wf_of (wf_finish h) (Keep.trans (hf s.burstData (finishBurst s)) (keep_settle _))
  · exact h

theorem keep_baseHeader (s : State) : Keep s (baseHeaderWritten s) := by
  unfold baseHeaderWritten; exact ⟨rfl, rfl, rfl, rfl⟩
theorem keep_baseLoading (s : State) : Keep s (baseLoadingWritten s) := by unfold baseLoadingWritten; dsimp only; split <;> exact ⟨rfl, rfl, rfl, rfl⟩
theorem keep_cand (w) (s : State) : Keep s (candidateRead w s) := by
  obtain ⟨a, b, c, d, e, h⟩ := candidateRead_frame w s; rw [h]; exact ⟨rfl, rfl, rfl, rfl⟩
theorem keep_header (w) (s : State) : Keep s (headerRead w s) := by
  obtain ⟨a, b, c, d, h⟩ := headerRead_frame w s; rw [h]; exact ⟨rfl, rfl, rfl, rfl⟩
theorem keep_snr (w) (s : State) : Keep s (snrRead w s) := by
  obtain ⟨a, b, c, d, e, h⟩ := snrRead_frame w s; rw [h]; exact ⟨rfl, rfl, rfl, rfl⟩
theorem keep_hw (s : State) : Keep s (headerWritten s) := by
  obtain ⟨a, b, c, d, e, h⟩ := headerWritten_frame s; rw [h]; exact ⟨rfl, rfl, rfl, rfl⟩
theorem keep_lw (s : State) : Keep s (loadingWritten s) := by
  unfold loadingWritten withJob; split
  · dsimp only; split
    · exact Keep.rf s
    · split <;> exact ⟨rfl, rfl, rfl, rfl⟩
  · exact Keep.rf s
theorem keep_rh (s : State) : Keep s (readyHeaderRead s) := by
  unfold readyHeaderRead withJob; split
  · dsimp only; split <;> exact ⟨rfl, rfl, rfl, rfl⟩
  · exact Keep.rf s
theorem keep_nw (s : State) : Keep s (noticeWritten s) := by
  unfold noticeWritten; split <;> exact ⟨rfl, rfl, rfl, rfl⟩
theorem keep_alloc (s : State) : Keep s (allocate s) := by
  obtain ⟨a, b, h⟩ := allocate_frame s; rw [h]; exact ⟨rfl, rfl, rfl, rfl⟩
theorem keep_sj (s : State) : Keep s (startJob s) := by
  unfold startJob; split <;> exact ⟨rfl, rfl, rfl, rfl⟩
theorem keep_present (x) (s : State) : Keep s (present x s) := ⟨by simp, by simp, by simp, by simp⟩
theorem keep_take (x : Transaction) (s : State) : Keep s (x.take s) := by
  cases x
  · exact keep_takeWrite _ s
  · exact keep_takeRead _ s
theorem keep_accept (s : State) : Keep s (acceptPresented s) := by
  unfold acceptPresented; split
  · rename_i t _ _
    exact (keep_take t { s with path := { s.path with presented := none, completions := [] } } : Keep _ _)
  · exact Keep.rf s
theorem keep_wa (b) (s : State) : Keep s (writeArrival b s) := by
  unfold writeArrival; split
  · exact (keep_takeWrite b s).trans (keep_settle _)
  · exact keep_present _ s
theorem keep_ra (b) (s : State) : Keep s (readArrival b s) := by
  unfold readArrival; split
  · exact (keep_takeRead b s).trans (keep_settle _)
  · exact keep_present _ s

end Sys2Proof.Machine
end

