-- ==== Sys2Proof/Laws/Acts.lean ====
section
/-! SUPPORT. The acts of Switchover in equations: the end of a gather, an expiry, a flip, the taking of a build result, each up to the
slots whose references it releases; and the end of a burst. -/

namespace Sys2Proof.Machine

/-! ### Masks and lists of entries -/

theorem presentMask_cons (e : Option Nat) (es : List (Option Nat)) :
    presentMask (e :: es) = (if e.isSome then 1 else 0) + 2 * presentMask es := by
  unfold presentMask
  rw [List.mapIdx_cons, List.sum_cons]
  have : ∀ (l : List (Option Nat)) , (l.mapIdx fun i e => if e.isSome then 2 ^ (i+1) else 0) = (l.mapIdx fun i e => if e.isSome then 2 ^ i else 0).map (2 * ·) := by
    intro l; apply List.ext_getElem <;> simp [pow_succ, Nat.mul_comm]
  rw [this, List.sum_map_mul_left]
  simp

/-- Bit i of a present mask: whether entry i is present (R81). -/
theorem presentMask_testBit (es : List (Option Nat)) (i : Nat) : (presentMask es).testBit i = true ↔ ∃ n, es[i]? = some (some n) := by
  induction es generalizing i with
  | nil => simp [presentMask]
  | cons e es ih =>
    rw [presentMask_cons]
    cases i with
    | zero => 
      rw [Nat.testBit_zero]
      cases e <;> simp
    | succ i =>
      rw [Nat.testBit_succ]
      have : ((if e.isSome = true then 1 else 0) + 2 * presentMask es) / 2 = presentMask es := by split <;> omega
      rw [this, ih]; simp

/-- Bit i of a link's pending mask: whether PENDING[i] is present (R81, R142). -/
theorem pendingMask_bit (L : Link) (i : Nat) (h : i < 8) : L.pendingMask.getLsbD i = true ↔ ∃ n, L.pendingSet[i]? = some (some n) := by
  rw [← presentMask_testBit]
  unfold Link.pendingMask; rw [BitVec.getLsbD_ofNat]; simp [h]

theorem all_present_iff (l : List (Option Nat)) : l.all Option.isSome = true ↔ none ∉ l := by
  rw [List.all_eq_true]
  constructor
  · intro h hc; have := h _ hc; simp at this
  · intro h x hx; cases x with
    | none => exact absurd hx h
    | some => rfl

theorem any_present_iff (l : List (Option Nat)) : l.any Option.isSome = true ↔ ∃ n, some n ∈ l := by
  rw [List.any_eq_true]
  constructor
  · rintro ⟨x, h1, h2⟩; cases x with
    | none => cases h2
    | some n => exact ⟨n, h1⟩
  · rintro ⟨n, h⟩; exact ⟨_, h, rfl⟩


/-! ### The end of a burst and a link's act -/

/-- The end of a burst that holds the port: its words land, the port is FREE, and the event of its use is taken (R2, R3, R20). -/
theorem onPort_done {u : PortUse} {m : MemBurst} {f : List Word → State → State} {s : State} (h : OnPort s u m) :
    onBurstDone u f s = settle (counting (f (m.dataFrom s.memory)) { s with memory := m.applyTo s.memory, path := { s.path with port := none } }) := by
  obtain ⟨h1, h2⟩ := h
  unfold onBurstDone
  simp [h1, State.portIs, h2, finishBurst, State.burstData]

/-- A link that owes its act at the last start takes it (R143). -/
theorem startEvent_owed {k : Nat} {s : State} (h1 : s.inReset = false) (h2 : k ∈ s.owed) : startEvent k s = settle (counting (actAtStart k) { s with owed := s.owed.filter (· != k) }) := by
  unfold startEvent; simp [h1, h2]

/-- A GATHERING link's act: its wait runs, and the offer test (R143). -/
theorem actAtStart_gathering {k : Nat} {s : State} (h : (s.link k).isOpen = true) (h2 : (s.link k).swState = .gathering) : actAtStart k s = offerTest k (s.setLink k { s.link k with gatherLeft := (s.link k).gatherLeft - 1 }) := by
  unfold actAtStart
  rw [if_pos h]
  simp only [h2, Link.tick]

/-- An OFFERED link's act at T_CONF: its offer expires (R143, R144). -/
theorem actAtStart_expires {k : Nat} {s : State} (h : (s.link k).isOpen = true) (h2 : (s.link k).swState = .offered) (h3 : s.shadow.offerLife ≤ (s.link k).offerAge + 1) : actAtStart k s = expireOffer k (s.setLink k { s.link k with offerAge := (s.link k).offerAge + 1 }) := by
  unfold actAtStart
  rw [if_pos h]
  simp only [h2, Link.tick, if_pos h3]

/-- A CONFIRMED link's act: the flip (R143). -/
theorem actAtStart_flips {k : Nat} {s : State} (h : (s.link k).isOpen = true) (h2 : (s.link k).swState = .confirmed) (h3 : (s.link k).effective = s.tracker.halfCount) : actAtStart k s = flipLink k s := by
  unfold actAtStart
  rw [if_pos h]
  simp only [h2, if_pos h3]

/-- A record whose switch state changes counts one change (R72). -/
theorem counted_switched {L M : Link} (h : L.swState ≠ M.swState) : Link.counted L M = { M with changes := L.changes + 1 } := by
  rw [counted_changed]
  intro hc; have := congrArg Link.swState hc; exact h this

/-- The offer test where it succeeds (R142). -/
theorem offerTest_due {k : Nat} {s : State} (h : (s.link k).offerDue = true) : offerTest k s = raise (.offer k (s.link k).node (s.link k).pendingSetNo (s.link k).pendingMask)
      (s.setLink k { s.link k with swState := .offered, gatherLeft := 0, offerAge := 0, effective := 0 }) := by
  unfold offerTest; rw [if_pos h]


/-! ### The flip -/

theorem foldl_flipCells (P : List (Option Nat)) (b : Nat) (L : Link) (hL : L.pendingSet = P) :
    (List.range b).foldl (fun (M : Link) i => { M with cells := (match M.pendingSet.getD i none with | some m => M.cells.set i m | none => M.cells) }) L = { L with cells := ((List.range b).foldl (fun c i => match P.getD i none with | some m => c.set i m | none => c) L.cells) } := by
  generalize List.range b = l
  induction l generalizing L with
  | nil => rfl
  | cons i l ih =>
    rw [List.foldl_cons, ih]
    · rw [List.foldl_cons, hL]
    · exact hL

/-- The cells after a flip, one by one (R149). -/
theorem flippedCells_get (P : List (Option Nat)) (b : Nat) (C : List Nat) (i : Nat) : ((List.range b).foldl (fun c i => match P.getD i none with
          | some m => c.set i m
          | none => c) C)[i]? = if i < b then (match P.getD i none with
        | some n => C[i]?.map fun _ => n
        | none => C[i]?) else C[i]? := by
  induction b with
  | zero => simp
  | succ b ih =>
    rw [List.range_succ, List.foldl_append]
    simp only [List.foldl_cons, List.foldl_nil]
    rcases Nat.lt_trichotomy i b with h | h | h
    · have : i < b + 1 := by omega
      rw [if_pos h] at ih
      rw [if_pos this, ← ih]
      split
      · rw [List.getElem?_set_ne (by omega)]
      · rfl
    · subst h
      simp only [Nat.lt_irrefl, if_false] at ih
      rw [if_pos (by omega)]
      cases hP : P.getD i none with
      | none => simp only; exact ih
      | some m => 
        simp only
        rw [List.getElem?_set_self']
        rw [ih]
        cases C[i]? <;> rfl
    · rw [if_neg (by omega)] at ih ⊢
      rw [← ih]
      split
      · rw [List.getElem?_set_ne (by omega)]
      · rfl

/-- The flip, up to the slots released: the cells taken from the pending set, SWITCHED, and then the next set (R149, R150). -/
theorem flipLink_eq {k : Nat} (hk : k < 32) (s : State) : ∃ cells p e, (∀ i : Nat, (cells : List Nat)[i]? =
        match (s.link k).pendingSet.getD i none with
        | some n => (s.link k).cells[i]?.map fun _ => n
        | none => (s.link k).cells[i]?) ∧
   flipLink k s = promoteNext k (raise (.switched k (s.link k).pendingSetNo (s.link k).pendingMask s.tracker.halfCount)
     { s with links := tset s.links k { s.link k with cells := cells, activeSet := (s.link k).pendingSetNo, streak := 0, pendingSet := (s.link k).pendingSet.map fun _ => none, effective := 0, offerAge := 0 }, pool := p, engine := e }) := by
  unfold flipLink
  dsimp only
  obtain ⟨p, e, h⟩ := forSlices_frame (f := flipSlice k) (g := fun i L =>
      { L with
        cells := match L.pendingSet.getD i none with
          | some m => L.cells.set i m
          | none => L.cells }) hk (fun i s => flipSlice_frame k i s) (s.link k).pendingSet.length s
  rw [foldl_flipCells (s.link k).pendingSet _ _ rfl] at h
  have hc := flippedCells_get (s.link k).pendingSet (s.link k).pendingSet.length (s.link k).cells
  generalize (List.range (s.link k).pendingSet.length).foldl (fun c i => match (s.link k).pendingSet.getD i none with
          | some m => c.set i m
          | none => c) (s.link k).cells = cells at *
  have hu : (forSlices (s.link k).pendingSet.length (flipSlice k) s).link k = { s.link k with cells := cells } := by
    rw [h]; exact tget_tset_same _ _ _ hk
  generalize forSlices (s.link k).pendingSet.length (flipSlice k) s = u at *
  obtain ⟨p2, e2, h2⟩ := clearPendings_frame hk
    (u.setLink k { u.link k with activeSet := (u.link k).pendingSetNo, streak := 0 })
  rw [link_setLink_same _ _ hk, hu] at h2
  rw [hu]
  have hv : (clearPendings k (u.setLink k { s.link k with cells := cells, activeSet := (s.link k).pendingSetNo, streak := 0 })).link k = { s.link k with cells := cells, activeSet := (s.link k).pendingSetNo, streak := 0, pendingSet := (s.link k).pendingSet.map fun _ => none } := by
    rw [h2]; exact tget_tset_same _ _ _ hk
  generalize clearPendings k (u.setLink k { s.link k with cells := cells, activeSet := (s.link k).pendingSetNo, streak := 0 }) = v at *
  refine ⟨cells, p2, e2, ?_, ?_⟩
  · intro i; rw [hc i]; split
    · rfl
    · rename_i hlt
      rw [List.getD_eq_default _ _ (by omega)]
  · have : ∀ x, State.link (raise x v) k = v.link k := fun _ => rfl
    simp only [this, hv]
    rw [h2, h]
    simp only [raise, State.setLink, tset_tset]
    rfl


/-! ### The job that a release leaves -/

def SameJob (s t : State) : Prop := ∀ j, t.engine.job = some j → ∃ i, s.engine.job = some i ∧ j.link = i.link ∧ j.record = i.record

theorem SameJob.refl (s : State) : SameJob s s := fun j h => ⟨j, h, rfl, rfl⟩

theorem SameJob.trans {s t u : State} (h : SameJob s t) (h2 : SameJob t u) : SameJob s u := by
  intro j hj; obtain ⟨i, hi, e1, e2⟩ := h2 j hj; obtain ⟨l, hl, e3, e4⟩ := h i hi; exact ⟨l, hl, e1.trans e3, e2.trans e4⟩

theorem SameJob.of {s t : State} (h : t.engine.job = s.engine.job) : SameJob s t := by intro j hj; rw [h] at hj; exact ⟨j, hj, rfl, rfl⟩

theorem sameJob_allocate (s : State) : SameJob s (allocate s) := by
  unfold allocate
  split
  · rename_i j _ _ hj _
    intro i hi; cases hi; exact ⟨j, hj, rfl, rfl⟩
  · exact SameJob.refl s

theorem sameJob_joinFree (m : Nat) (s : State) : SameJob s (joinFree m s) := by
  unfold joinFree handToWaiting
  split
  · exact SameJob.trans (SameJob.of rfl) (sameJob_allocate _)
  · exact SameJob.of rfl

theorem sameJob_releaseRef (m : Nat) (s : State) : SameJob s (releaseRef m s) := by
  unfold releaseRef; dsimp only; split
  · exact SameJob.trans (SameJob.of rfl) (sameJob_joinFree _ _)
  · exact SameJob.of rfl

theorem sameJob_releasePin (m : Nat) (s : State) : SameJob s (releasePin m s) := by
  unfold releasePin; dsimp only; split
  · exact SameJob.trans (SameJob.of rfl) (sameJob_joinFree _ _)
  · exact SameJob.of rfl

theorem sameJob_setCell (k i m : Nat) (s : State) : SameJob s (setCell k i m s) := by
  unfold setCell; split
  · split
    · exact SameJob.refl s
    · exact SameJob.trans (SameJob.of rfl) (sameJob_releaseRef _ _)
  · exact SameJob.refl s

theorem sameJob_setPending (k i m : Nat) (s : State) : SameJob s (setPending k i m s) := by
  unfold setPending; dsimp only; split
  · split
    · exact SameJob.refl s
    · exact SameJob.trans (SameJob.of rfl) (sameJob_releaseRef _ _)
  · exact SameJob.of rfl
  · exact SameJob.refl s

theorem sameJob_setNext (k i m : Nat) (s : State) : SameJob s (setNext k i m s) := by
  unfold setNext; dsimp only; split
  · split
    · exact SameJob.refl s
    · exact SameJob.trans (SameJob.of rfl) (sameJob_releaseRef _ _)
  · exact SameJob.of rfl
  · exact SameJob.refl s

theorem sameJob_clearNextCell (k : Nat) (s : State) : SameJob s (clearNextCell k s) := by
  unfold clearNextCell; split
  · exact sameJob_setCell _ _ _ _
  · exact SameJob.refl s

theorem sameJob_releaseLatch (k : Nat) (s : State) : SameJob s (releaseLatch k s) := by
  unfold releaseLatch; split
  · exact SameJob.trans (SameJob.of rfl) (sameJob_releasePin _ _)
  · exact SameJob.refl s

theorem sameJob_cancelJobOf (k : Nat) (s : State) : SameJob s (cancelJobOf k s) := by
  unfold cancelJobOf; split
  · split
    · intro j hj; rw [job_dropJob] at hj; cases hj
    · exact SameJob.refl s
  · exact SameJob.refl s

theorem sameJob_forSlices {f : Nat → State → State} (hf : ∀ i s, SameJob s (f i s)) (b : Nat) (s : State) : SameJob s (forSlices b f s) := by
  unfold forSlices
  generalize List.range b = l
  induction l generalizing s with
  | nil => exact SameJob.refl s
  | cons i l ih => exact (hf i s).trans (ih (f i s))

theorem sameJob_clearPending (k i : Nat) (s : State) : SameJob s (clearPending k i s) := by
  unfold clearPending; split
  · exact SameJob.trans (SameJob.of rfl) (sameJob_releaseRef _ _)
  · exact SameJob.refl s

theorem sameJob_clearNext (k i : Nat) (s : State) : SameJob s (clearNext k i s) := by
  unfold clearNext; split
  · exact SameJob.trans (SameJob.of rfl) (sameJob_releaseRef _ _)
  · exact SameJob.refl s

theorem sameJob_fallbackItem (k x) (s : State) : SameJob s (fallbackItem k x s) := by
  cases x
  · exact sameJob_clearNextCell _ _
  · exact sameJob_releaseLatch _ _
  · exact sameJob_cancelJobOf _ _

theorem job_cancelJobOf {k : Nat} {s : State} (h : ∀ j, s.engine.job = some j → j.link = k) : (cancelJobOf k s).engine.job = none := by
  unfold cancelJobOf; split
  · rename_i j hj; rw [if_pos (h j hj)]; exact job_dropJob s
  · assumption

/-- An entry to FALLBACK leaves no job of the link (R132, R145). -/
theorem job_fallBack {k : Nat} (order) {s : State} (h : ∀ j, s.engine.job = some j → j.link = k) : (fallBack k order s).engine.job = none := by
  unfold fallBack
  apply job_cancelJobOf
  have h1 : ∀ (l : List FallbackItem) (s : State), SameJob s (l.foldl (fun t x => fallbackItem k x t) s) := by
    intro l; induction l with
    | nil => intro s; exact SameJob.refl s
    | cons x l ih => intro s; exact (sameJob_fallbackItem k x s).trans (ih _)
  have h2 : SameJob s (releaseLatch k (clearCells k (order.foldl (fun t x => fallbackItem k x t) s))) :=
    ((h1 order s).trans (sameJob_forSlices (fun i s => sameJob_setCell k i 0 s) _ _)).trans (sameJob_releaseLatch k _)
  intro j hj
  obtain ⟨i, hi, e, _⟩ := h2 j hj
  rw [e]; exact h i hi

theorem SameJob.none {s t : State} (h : SameJob s t) (hs : s.engine.job = none) : t.engine.job = none := by
  cases hj : t.engine.job with
  | none => rfl
  | some j => obtain ⟨i, hi, _⟩ := h j hj; rw [hs] at hi; cases hi


/-! ### Expiry and fallback -/

/-- The expiry of an offer, up to the slots released (R144). -/
theorem expireOffer_eq {k : Nat} (hk : k < 32) (s : State) : ∃ p e, (∀ j, e.job = some j → ∃ i, s.engine.job = some i ∧ j.link = i.link) ∧ expireOffer k s =
   (let L : Link := { s.link k with swState := .steady, gatherLeft := 0, offerAge := 0, effective := 0, streak := (s.link k).streak + 1, pendingSet := (s.link k).pendingSet.map fun _ => none }
    let u := raise (.offerExpired k (s.link k).pendingSetNo (s.link k).pendingMask ((s.link k).streak + 1)) { s with links := tset s.links k L, pool := p, engine := e }
    if (s.link k).streak + 1 = s.shadow.maxExpiries then enterFallback k u else u) := by
  obtain ⟨p, e, h⟩ := clearPendings_frame hk s
  refine ⟨p, e, ?_, ?_⟩
  · intro j hj
    have := sameJob_forSlices (fun i s => sameJob_clearPending k i s) (s.link k).pendingSet.length s
    change SameJob s (clearPendings k s) at this
    rw [h] at this
    obtain ⟨i, hi, e, _⟩ := this j hj
    exact ⟨i, hi, e⟩
  unfold expireOffer
  dsimp only
  have h1 : (clearPendings k s).link k = { s.link k with pendingSet := (s.link k).pendingSet.map fun _ => none } := by
    rw [h]; exact tget_tset_same _ _ _ hk
  rw [h1]
  have : ∀ x (u : State), State.link (raise x u) k = u.link k := fun _ _ => rfl
  rw [this, link_setLink_same _ _ hk, h]
  simp only [State.setLink, tset_tset]
  rfl

/-- The entry to FALLBACK, up to the slots released (R145). -/
theorem enterFallback_eq {k : Nat} (hk : k < 32) (s : State) : ∃ v p e y c, enterFallback k s =
    raise (.linkFallback k (s.link k).node (s.link k).streak)
    { s with
      links := v
      pool := p
      engine := e
      path := y
      buildQueue := s.buildQueue.filter fun q => q.link != k
      choices := c }
    ∧ v = tset s.links k
      { s.link k with
        mode := .fallback
        cells := (s.link k).cells.map fun _ => 0
        pendingSet := (s.link k).pendingSet.map fun _ => none
        nextSet := (s.link k).nextSet.map fun _ => none
        latch := none }
    ∧ ((∀ j, s.engine.job = some j → j.link = k) → e.job = none) := by
  unfold enterFallback
  dsimp only
  obtain ⟨L, p, e, y, h⟩ := fallBack_frame hk (Config.fallbackOrder s.choices)
    { dropQueueOf k (s.setLink k { s.link k with mode := .fallback }) with choices := s.choices + 1 }
  have hl := fallBack_link hk (Config.fallbackOrder s.choices)
    { dropQueueOf k (s.setLink k { s.link k with mode := .fallback }) with choices := s.choices + 1 }
  have hs : State.link { dropQueueOf k (s.setLink k { s.link k with mode := .fallback }) with choices := s.choices + 1 } k = { s.link k with mode := .fallback } := tget_tset_same _ _ _ hk
  rw [hs] at hl
  have hj : (∀ j, s.engine.job = some j → j.link = k) → (fallBack k (Config.fallbackOrder s.choices)
    { dropQueueOf k (s.setLink k { s.link k with mode := .fallback }) with choices := s.choices + 1 }).engine.job = none := by
    intro h1
    exact job_fallBack _ h1
  generalize fallBack k (Config.fallbackOrder s.choices)
    { dropQueueOf k (s.setLink k { s.link k with mode := .fallback }) with choices := s.choices + 1 } = u at *
  obtain ⟨p2, e2, h2⟩ := clearEntries_frame hk u
  have hv : (clearNexts k (clearPendings k u)).link k =
      { u.link k with
        pendingSet := (u.link k).pendingSet.map fun _ => none
        nextSet := (u.link k).nextSet.map fun _ => none } := by rw [h2]; exact tget_tset_same _ _ _ hk
  have hj2 : (∀ j, s.engine.job = some j → j.link = k) → (clearNexts k (clearPendings k u)).engine.job = none := fun h1 =>
    SameJob.none ((sameJob_forSlices (fun i s => sameJob_clearPending k i s) _ _).trans
      (sameJob_forSlices (fun i s => sameJob_clearNext k i s) _ _)) (hj h1)
  rw [hv, hl]
  generalize clearNexts k (clearPendings k u) = w at *
  refine ⟨w.links, p2, e2, y, s.choices + 1, ?_, ?_, ?_⟩
  · rw [h2, h]; rfl
  · rw [h2, hl, h]; simp only [dropQueueOf, State.setLink, tset_tset]
  · intro h1; have := hj2 h1; rw [h2] at this; exact this


/-! ### Build results -/

/-- A GATHERING link takes a build result into its pending set (R139). -/
theorem takeResult_gathering {k i n : Nat} {L : Link} (_hk : k < 32) (s : State) (hL : s.link k = L) (ho : L.isOpen = true) (hm : L.mode ≠ .fallback) (hsw : L.swState = .gathering) :
   ∃ p e, takeResult k i n s = offerTest k { s with links := tset s.links k { L with pendingSet := L.pendingSet.set i (some n) }, pool := p, engine := e } ∧ (s.engine.job = none → e.job = none) := by
  obtain ⟨p, e, h⟩ := setPending_frame k i n s
  refine ⟨p, e, ?_, ?_⟩
  · have : takeResult k i n s = offerTest k (setPending k i n s) := by
      unfold takeResult; rw [hL]; simp [ho, hsw, hm]
    rw [this, h, hL]
  · intro hn; have := SameJob.none (sameJob_setPending k i n s) hn; rw [h] at this; exact this

/-- A CONFIRMED link takes a build result into its next set (R141). -/
theorem takeResult_confirmed {k i n : Nat} {L : Link} (_hk : k < 32) (s : State) (hL : s.link k = L) (ho : L.isOpen = true) (hm : L.mode ≠ .fallback) (hsw : L.swState = .confirmed) :
   ∃ p e, takeResult k i n s = { s with links := tset s.links k { L with nextSet := L.nextSet.set i (some n) }, pool := p, engine := e } ∧ (s.engine.job = none → e.job = none) := by
  obtain ⟨p, e, h⟩ := setNext_frame k i n s
  refine ⟨p, e, ?_, ?_⟩
  · have : takeResult k i n s = setNext k i n s := by
      unfold takeResult; rw [hL]; simp [ho, hsw, hm]
    rw [this, h, hL]
  · intro hn; have := SameJob.none (sameJob_setNext k i n s) hn; rw [h] at this; exact this

/-- A STEADY or OFFERED link takes a build result under a new set number (R138, R140). -/
theorem takeResult_new {k i n : Nat} {L : Link} (hk : k < 32) (s : State) (hL : s.link k = L) (ho : L.isOpen = true) (hm : L.mode ≠ .fallback) (hsw : L.swState = .steady ∨ L.swState = .offered) :
   ∃ p e, takeResult k i n s = offerTest k { s with links := tset s.links k { L with pendingSet := L.pendingSet.set i (some n), pendingSetNo := L.lastIssued + 1, lastIssued := L.lastIssued + 1, swState := .gathering, gatherLeft := s.shadow.gather, offerAge := 0, effective := 0 }, pool := p, engine := e } ∧ (s.engine.job = none → e.job = none) := by
  obtain ⟨p, e, h⟩ := setPending_frame k i n s
  refine ⟨p, e, ?_, ?_⟩
  · have : takeResult k i n s = newPendingSet k i n s := by
      unfold takeResult; rw [hL]
      rcases hsw with hsw | hsw <;> simp [ho, hsw, hm]
    rw [this]
    unfold newPendingSet
    dsimp only
    have hl : (setPending k i n s).link k = { L with pendingSet := L.pendingSet.set i (some n) } := by
      rw [h, hL]; exact tget_tset_same _ _ _ hk
    rw [hl, h]
    simp only [State.setLink, tset_tset, Link.issueNumber, Link.startGather]
  · intro hn; have := SameJob.none (sameJob_setPending k i n s) hn; rw [h] at this; exact this

/-- The end of a header's burst hands the job's slot to Switchover (R128). -/
theorem headerWritten_eq {s : State} {j : Job} {n : Nat} (hj : s.engine.job = some j) (hn : j.slot = some n) : headerWritten s = handOff j n s := by
  unfold headerWritten; rw [withJob_some hj]; simp only [hn]

end Sys2Proof.Machine
end

