-- ==== Sys2Proof/Laws/Estimates.lean ====
section
/-! SUPPORT. What a write burst into an estimate record sets off: the header words, the report of an overrun, the arrival, and the places
that a GUARD notice may take among them. -/

namespace Sys2Proof.Machine

/-- What holds of the shadowing of every header word holds of every header act of a burst. -/
theorem headerActs_all {b : WriteBurst} {r w : Nat} (P : (State → State) → Prop) (h : ∀ i x, P (shadowHeader r i x)) :
    ∀ f ∈ headerActs b r w, P f := by
  intro f hf
  unfold headerActs at hf
  rw [List.mem_filterMap] at hf
  obtain ⟨i, _, hi⟩ := hf
  split at hi
  · cases hi; exact h _ _
  · cases hi

/-- The header acts of a burst touch the header shadow alone. -/
theorem headerActs_frame {b : WriteBurst} {r w : Nat} (l : List (State → State)) (hl : ∀ f ∈ l, f ∈ headerActs b r w) (s : State) :
    ∃ h, runActs l s = { s with headers := h } := by
  induction l generalizing s with
  | nil => exact ⟨s.headers, rfl⟩
  | cons f l ih =>
    obtain ⟨x, hx⟩ := ih (fun g hg => hl g (List.mem_cons_of_mem _ hg)) (f s)
    obtain ⟨y, hy⟩ := headerActs_all (P := fun f => ∀ t, ∃ y, f t = { t with headers := y }) (fun i z t => ⟨_, rfl⟩) f
      (hl f List.mem_cons_self) s
    exact ⟨x, by rw [show runActs (f :: l) s = runActs l (f s) from rfl, hx, hy]⟩

/-- The header words of a burst change the header shadow and the counter of choices alone. -/
theorem afterHeaders_frame (s : State) (b : WriteBurst) (r w : Nat) : ∃ h, s.afterHeaders b r w =
    { s with choices := s.choices + 1, headers := h } :=
  headerActs_frame (headerActs b r w) (fun _ h => h) { s with choices := s.choices + 1 }

/-- A header word k of a burst whose first word is record word w: the data of its beat among the first n, if that is full, else the old. -/
def headerField (b : WriteBurst) (w n k : Nat) (old : Word) : Word :=
  if w ≤ k ∧ k < w + n ∧ (b.beat (k - w)).isFull = true then (b.beat (k - w)).data else old

/-- The header shadow after the first n beats of a burst. -/
def headerAfter (b : WriteBurst) (w n : Nat) (h : HeaderShadow) : HeaderShadow :=
  { node := headerField b w n 1 h.node, sliceEpoch := headerField b w n 2 h.sliceEpoch, measCount := headerField b w n 3 h.measCount
    meanSnr := headerField b w n 4 h.meanSnr, errCount := headerField b w n 5 h.errCount
    carriers := headerField b w n 6 h.carriers }

theorem headerField_succ (b : WriteBurst) (w n k : Nat) (old : Word) : headerField b w (n + 1) k old =
    if w + n = k ∧ (b.beat n).isFull = true then (b.beat n).data else headerField b w n k old := by
  unfold headerField
  by_cases h : w + n = k
  · subst h
    rw [show w + n - w = n by omega]
    by_cases hf : (b.beat n).isFull = true
    · rw [if_pos ⟨by omega, by omega, hf⟩, if_pos ⟨rfl, hf⟩]
    · rw [if_neg (fun g => hf g.2.2), if_neg (fun g => hf g.2), if_neg (fun g => hf g.2.2)]
  · rw [if_neg (c := w + n = k ∧ _) (fun g => h g.1)]
    by_cases hc : w ≤ k ∧ k < w + n ∧ (b.beat (k - w)).isFull = true
    · rw [if_pos ⟨hc.1, by omega, hc.2.2⟩, if_pos hc]
    · rw [if_neg (fun g => hc ⟨g.1, by omega, g.2.2⟩), if_neg hc]

theorem headerAfter_succ (b : WriteBurst) (w n : Nat) (h : HeaderShadow) : headerAfter b w (n + 1) h =
    if 1 ≤ w + n ∧ w + n ≤ 6 ∧ (b.beat n).isFull = true then (headerAfter b w n h).setWord (w + n) (b.beat n).data
    else headerAfter b w n h := by
  unfold headerAfter
  simp only [headerField_succ]
  by_cases hf : (b.beat n).isFull = true
  · by_cases hr : 1 ≤ w + n ∧ w + n ≤ 6
    · rw [if_pos (c := 1 ≤ w + n ∧ _) ⟨hr.1, hr.2, hf⟩]
      obtain e | e | e | e | e | e : w + n = 1 ∨ w + n = 2 ∨ w + n = 3 ∨ w + n = 4 ∨ w + n = 5 ∨ w + n = 6 := by omega
      all_goals rw [e]; simp [HeaderShadow.setWord, hf]
    · rw [if_neg (c := 1 ≤ w + n ∧ _) (fun g => hr ⟨g.1, g.2.1⟩)]
      have out : ∀ k, 1 ≤ k → k ≤ 6 → w + n ≠ k := by omega
      simp [out 1, out 2, out 3, out 4, out 5, out 6]
  · simp [hf]

theorem headerActs_fold (b : WriteBurst) (r w : Nat) (hr : r < 32) (s : State) (n : Nat) :
    runActs ((List.range n).filterMap fun i =>
      if 1 ≤ w + i ∧ w + i ≤ 6 ∧ (b.beat i).isFull then some (shadowHeader r (w + i) (b.beat i).data) else none) s
      = { s with headers := tset s.headers r (headerAfter b w n (s.headerOf r)) } := by
  induction n with
  | zero =>
    have hz : ∀ k old, headerField b w 0 k old = old := fun k old => if_neg (by omega)
    have h0 : headerAfter b w 0 (s.headerOf r) = s.headerOf r := by simp only [headerAfter, hz]
    rw [h0]
    simp [runActs, State.headerOf, tset_tget]
  | succ n ih =>
    rw [List.range_succ, List.filterMap_append, runActs_append, ih, headerAfter_succ]
    by_cases hc : 1 ≤ w + n ∧ w + n ≤ 6 ∧ (b.beat n).isFull = true
    · rw [if_pos hc]
      simp only [List.filterMap_cons, hc, and_self, if_true, List.filterMap_nil]
      show shadowHeader _ _ _ _ = _
      unfold shadowHeader
      simp [State.headerOf, tset_tset, tget_tset_same _ _ _ hr]
    · rw [if_neg hc]
      simp only [List.filterMap_cons, hc, if_false, List.filterMap_nil]
      rfl

/-- The header words of a burst, spelled: each word 1 to 6 written in full replaces the shadow's (R104). -/
theorem afterHeaders_eq {s : State} {b : WriteBurst} {r w : Nat} (hb : b.base = s.shadow.estBase + r * 512 + w) (hr : r < 32) :
    s.afterHeaders b r w = { s with
      choices := s.choices + 1
      headers := tset s.headers r
        { node := (b.fullAt (s.shadow.estBase + r * 512 + 1)).getD (s.headerOf r).node
          sliceEpoch := (b.fullAt (s.shadow.estBase + r * 512 + 2)).getD (s.headerOf r).sliceEpoch
          measCount := (b.fullAt (s.shadow.estBase + r * 512 + 3)).getD (s.headerOf r).measCount
          meanSnr := (b.fullAt (s.shadow.estBase + r * 512 + 4)).getD (s.headerOf r).meanSnr
          errCount := (b.fullAt (s.shadow.estBase + r * 512 + 5)).getD (s.headerOf r).errCount
          carriers := (b.fullAt (s.shadow.estBase + r * 512 + 6)).getD (s.headerOf r).carriers } } := by
  have field : ∀ k old, (b.fullAt (s.shadow.estBase + r * 512 + k)).getD old = headerField b w b.len.words k old := by
    intro k old
    unfold headerField
    by_cases hc : w ≤ k ∧ k < w + b.len.words
    · have h := fullAt_covered b (i := k - w) (by omega)
      rw [show b.base + (k - w) = s.shadow.estBase + r * 512 + k by omega] at h
      rw [h]
      by_cases hf : (b.beat (k - w)).isFull = true
      · rw [if_pos hf, if_pos ⟨hc.1, hc.2, hf⟩]; rfl
      · rw [if_neg hf, if_neg (fun g => hf g.2.2)]; rfl
    · rw [fullAt_outside b (by omega), if_neg (fun g => hc ⟨g.1, g.2.1⟩)]
      rfl
  unfold State.afterHeaders headerActs
  rw [headerActs_fold b r w hr]
  simp only [field]
  rfl

/-- The report of a write, spelled: it is the overrun of the job on the record, or nothing (R130, R131, R134). -/
theorem reportWrite_eq {s v : State} {r : Nat} {report : State → State} (h : OverrunReport s r report)
    (hv : v.engine.job = s.engine.job) : reportWrite r v = report v := by
  have port : ∀ p : Option PortBurst, (p.map fun b => if b.use.isEngine then { b with use := .ended } else b) = p.map fun b =>
      if b.use ∈ [.headerRead, .snrRead, .candidateRead, .loadingWrite, .headerWrite] then { b with use := .ended } else b := by
    intro p
    congr 1
    funext b
    cases b with | mk u m => cases u <;> rfl
  unfold reportWrite
  rcases h with ⟨h, rfl⟩ | ⟨j, hj, hr, rfl⟩
  · cases hj : s.engine.job with
    | none => exact withJob_none (hv.trans hj)
    | some j => rw [withJob_some (hv.trans hj), if_neg (h j hj)]; rfl
  · rw [withJob_some (hv.trans hj), if_pos hr]
    unfold overrun
    rw [withJob_some (hv.trans hj)]
    unfold dropJob
    rw [hv.trans hj, hr]
    cases hn : j.slot with
    | none => simp only [hn, endJob, orphanPort, Engine.idle, port]
    | some n =>
      simp only [hn, joinFree, handToWaiting]
      rw [if_neg (by simp [endJob, Engine.idle, State.jobWaits])]
      simp only [endJob, orphanPort, Engine.idle, port]
      rfl

/-- A GUARD notice and the header words of the same burst may change places. -/
theorem guard_headerActs {guard : State → State} (h : guard = id ∨ ∃ x, guard = raise x) {b : WriteBurst} {r w : Nat}
    (l : List (State → State)) (hl : ∀ f ∈ l, f ∈ headerActs b r w) (v : State) : runActs l (guard v) = guard (runActs l v) := by
  induction l generalizing v with
  | nil => rfl
  | cons f l ih =>
    have hf : f (guard v) = guard (f v) := by
      rcases h with rfl | ⟨x, rfl⟩
      · rfl
      · exact headerActs_all (P := fun f => f (raise x v) = raise x (f v)) (fun i y => rfl) f (hl f List.mem_cons_self)
    show runActs l (f (guard v)) = _
    rw [hf, ih (fun g hg => hl g (List.mem_cons_of_mem _ hg))]
    rfl

/-- Where a burst's header words are followed by other acts, its GUARD notice stands somewhere among those. -/
theorem takeSnooped_headers {s : State} {b : WriteBurst} {r w : Nat} {guard : State → State} {acts : List (State → State)}
    (h : PartialGuard s .estimate b w 0 6 guard) (hk : ∀ f ∈ acts, ∀ t, (f t).filter = t.filter) :
    ∃ before after, before ++ after = acts ∧ takeSnooped .estimate b w 0 6 (headerActs b r w ++ acts) s
      = runActs after (guard (runActs before (s.afterHeaders b r w))) := by
  obtain ⟨x, y, hxy, he⟩ := takeSnooped_partial (acts := headerActs b r w ++ acts) h fun f hf => by
    rcases List.mem_append.1 hf with hf | hf
    · exact headerActs_all (P := fun f => ∀ t, (f t).filter = t.filter) (fun _ _ _ => rfl) f hf
    · exact hk f hf
  rw [he]
  rw [List.append_eq_append_iff] at hxy
  rcases hxy with ⟨z, hz, rfl⟩ | ⟨z, rfl, rfl⟩
  · refine ⟨[], acts, rfl, ?_⟩
    rw [runActs_append, guard_headerActs h.cases z fun f hf => by rw [hz]; exact List.mem_append_right _ hf]
    rw [← runActs_append, ← hz]
    rfl
  · exact ⟨z, y, rfl, by rw [runActs_append]; rfl⟩

/-- A full commit word of VALID 1 at the burst's first address (R105). -/
theorem commitWord_full {b : WriteBurst} {x : Word} (hx : b.fullAt b.base = some x) (hv : x.getLsbD 31 = true) :
    commitWord b 0 = some x := by
  have h := fullAt_covered b (i := 0) (words_pos _)
  rw [Nat.add_zero, hx] at h
  unfold commitWord
  split at h
  · rename_i hf
    obtain rfl := Option.some.inj h
    simp [hf, estValid, hv]
  · cases h

/-- A burst whose commit word is no arrival (R105). -/
theorem commitWord_none {b : WriteBurst} {w : Nat}
    (h : w ≠ 0 ∨ b.fullAt b.base = none ∨ ∃ x, b.fullAt b.base = some x ∧ x.getLsbD 31 = false) : commitWord b w = none := by
  unfold commitWord
  refine if_neg fun hc => ?_
  have hx := fullAt_covered b (i := 0) (words_pos _)
  rw [Nat.add_zero, if_pos hc.2.1] at hx
  rcases h with h | h | ⟨x, h, hv⟩
  · exact h hc.1
  · rw [hx] at h; cases h
  · rw [hx] at h
    obtain rfl := Option.some.inj h
    have hw := hc.2.2
    unfold estValid at hw
    rw [hv] at hw
    cases hw

theorem reportWrite_filter (r : Nat) (s : State) : (reportWrite r s).filter = s.filter := by
  obtain ⟨_, _, _, _, h⟩ := reportWrite_frame r s; rw [h]

theorem arrival_filter (r : Nat) (x : Word) (s : State) : (arrival r x s).filter = s.filter := by
  obtain ⟨_, _, _, h⟩ := arrival_frame r x s; rw [h]

/-- What an accepted burst of an estimate row does: the acts of its words, and it passes. -/
theorem writeArrival_estimate {s : State} {b : WriteBurst} {r w : Nat} (h : s.accepts = true) (hp : s.place b.base = .estimate r w) :
    writeArrival b s = passOn b (takeSnooped .estimate b w 0 6 (estimateActs b r w s) s) := by
  rw [writeArrival_accepts b h]
  unfold takeWrite
  rw [hp]
  rfl

/-- A burst that is an arrival: after its header words the report and the arrival in either order, with the GUARD notice of a partial
write before, between or after them (R12, log 12). -/
theorem takeSnooped_arrival {s : State} {b : WriteBurst} {r : Nat} {x : Word} {guard : State → State}
    (h : PartialGuard s .estimate b 0 0 6 guard) (hx : b.fullAt b.base = some x) (hv : x.getLsbD 31 = true) :
    ∃ order : List (State → State), order.Perm [guard, reportWrite r, arrival r x]
      ∧ takeSnooped .estimate b 0 0 6 (estimateActs b r 0 s) s = runActs order (s.afterHeaders b r 0) := by
  have key : ∀ A B : State → State, (∀ t, (A t).filter = t.filter) → (∀ t, (B t).filter = t.filter) →
      [A, B].Perm [reportWrite r, arrival r x] → ∃ order : List (State → State), order.Perm [guard, reportWrite r, arrival r x]
        ∧ takeSnooped .estimate b 0 0 6 (headerActs b r 0 ++ [A, B]) s = runActs order (s.afterHeaders b r 0) := by
    intro A B hA hB hp
    obtain ⟨before, after, hba, he⟩ := takeSnooped_headers (acts := [A, B]) h fun f hf => by
      simp only [List.mem_cons, List.not_mem_nil, or_false] at hf
      rcases hf with rfl | rfl <;> assumption
    refine ⟨before ++ guard :: after, ?_, by rw [he, runActs_append]; rfl⟩
    have hm : (before ++ guard :: after).Perm (guard :: (before ++ after)) := List.perm_middle
    rw [hba] at hm
    exact hm.trans (List.Perm.cons _ hp)
  unfold estimateActs
  rw [commitWord_full hx hv]
  simp only [arriveAndReport]
  split
  · exact key _ _ (reportWrite_filter r) (arrival_filter r x) (List.Perm.refl _)
  · exact key _ _ (arrival_filter r x) (reportWrite_filter r) (List.Perm.swap _ _ _)

/-- A burst that is no arrival: after its header words the report, with the GUARD notice of a partial write before or after it (R130). -/
theorem takeSnooped_report {s : State} {b : WriteBurst} {r w : Nat} {guard : State → State}
    (h : PartialGuard s .estimate b w 0 6 guard)
    (hw : w ≠ 0 ∨ b.fullAt b.base = none ∨ ∃ x, b.fullAt b.base = some x ∧ x.getLsbD 31 = false) :
    takeSnooped .estimate b w 0 6 (estimateActs b r w s) s = reportWrite r (guard (s.afterHeaders b r w))
      ∨ takeSnooped .estimate b w 0 6 (estimateActs b r w s) s = guard (reportWrite r (s.afterHeaders b r w)) := by
  unfold estimateActs
  rw [commitWord_none hw]
  obtain ⟨before, after, hba, he⟩ := takeSnooped_headers (acts := [reportWrite r]) h fun f hf => by
    obtain rfl := List.mem_singleton.1 hf
    exact reportWrite_filter r
  rw [he]
  rcases List.append_eq_singleton_iff.1 hba with ⟨rfl, rfl⟩ | ⟨rfl, rfl⟩
  · exact Or.inl rfl
  · exact Or.inr rfl

end Sys2Proof.Machine
end

