-- ==== Sys2Proof/Laws/Fields.lean ====
section
/-! SUPPORT. What the bit fields of a word hold: one lemma each for a field put into a word, a field read from one, a packed
loading word, the sum of words, and the candidates of a job. -/

namespace Sys2Proof.Machine

/-! ### Fields -/

/-- A field put into a word, as a number. -/
theorem toNat_put {lo w : Nat} (n : Nat) (h : lo + w ≤ 32) : (put lo w n).toNat = (n % 2 ^ w) <<< lo := by
  unfold put
  rw [BitVec.toNat_ofNat, Nat.shiftLeft_eq]
  apply Nat.mod_eq_of_lt
  have h1 : n % 2 ^ w < 2 ^ w := Nat.mod_lt _ (Nat.two_pow_pos w)
  calc n % 2 ^ w * 2 ^ lo < 2 ^ w * 2 ^ lo := Nat.mul_lt_mul_of_pos_right h1 (Nat.two_pow_pos lo)
    _ = 2 ^ (lo + w) := by rw [← Nat.pow_add, Nat.add_comm]
    _ ≤ 2 ^ 32 := Nat.pow_le_pow_right (by decide) h

/-- The bits of a field put into a word. -/
theorem getLsbD_put {lo w : Nat} (n i : Nat) (h : lo + w ≤ 32) :
    (put lo w n).getLsbD i = (decide (lo ≤ i) && decide (i < lo + w) && n.testBit (i - lo)) := by
  rw [← BitVec.testBit_toNat, toNat_put n h, Nat.testBit_shiftLeft, Nat.testBit_mod_two_pow]
  by_cases h1 : lo ≤ i
  · by_cases h2 : i < lo + w
    · simp [h1, h2, Nat.sub_lt_left_of_lt_add h1 h2]
    · simp [h1, h2, show ¬(i - lo < w) by omega]
  · simp [h1]

/-- A field put into a word is the number's low bits, moved to its place. -/
theorem put_eq (lo w n : Nat) : put lo w n = (BitVec.ofNat w n).setWidth 32 <<< lo := by
  apply BitVec.eq_of_toNat_eq
  simp [put, BitVec.toNat_shiftLeft, Nat.shiftLeft_eq]

/-! ### Loading words (R182) -/

/-- The loading value at place c of a packed word. -/
theorem pack8_place (vs : List Nat) (c : Nat) : pack8 vs / 2 ^ (4 * c) % 16 = vs.getD c 0 % 16 := by
  induction vs generalizing c with
  | nil => simp [pack8]
  | cons v vs ih =>
    cases c with
    | zero => simp only [pack8, Nat.mul_zero, Nat.pow_zero, Nat.div_one, List.getD_cons_zero]; omega
    | succ c =>
      rw [List.getD_cons_succ, ← ih c, pack8, show 2 ^ (4 * (c + 1)) = 16 * 2 ^ (4 * c) by rw [Nat.mul_succ, Nat.pow_add]; omega,
        ← Nat.div_div_eq_div_mul, show (v % 16 + 16 * pack8 vs) / 16 = pack8 vs by omega]

/-- A word packed from loading values holds the first eight, each at its place. -/
theorem packed_place (vs : List Nat) {c : Nat} (hc : c < 8) :
    (BitVec.ofNat 32 (pack8 vs)).extractLsb' (4 * c) 4 = BitVec.ofNat 4 (vs.getD c 0) := by
  apply BitVec.eq_of_toNat_eq
  rw [BitVec.extractLsb'_toNat, BitVec.toNat_ofNat, BitVec.toNat_ofNat, Nat.shiftRight_eq_div_pow]
  have hm : pack8 vs % 2 ^ 32 / 2 ^ (4 * c) % 2 ^ 4 = pack8 vs / 2 ^ (4 * c) % 2 ^ 4 := by
    rw [show (2 : Nat) ^ 32 = 2 ^ (4 * c) * 2 ^ (32 - 4 * c) by rw [← Nat.pow_add]; congr 1; omega, Nat.mod_mul_right_div_self,
      Nat.mod_mod_of_dvd _ (Nat.pow_dvd_pow 2 (by omega))]
  rw [hm, show (2 : Nat) ^ 4 = 16 from rfl, pack8_place vs c]

/-- A word of the Base Map holds B for a carrier, or 0 for a notched one (R38, R97). -/
theorem baseWord_place (s : State) (j : Nat) {c : Nat} (hc : c < 8) : (s.baseWord j).extractLsb' (4 * c) 4 =
    if s.applier.isNotched (8 * j + c) then 0 else BitVec.ofNat 4 s.shadow.baseBits := by
  unfold State.baseWord
  rw [packed_place _ hc, List.getD_eq_getElem?_getD, List.getElem?_map, List.getElem?_range hc]
  by_cases h : s.applier.isNotched (8 * j + c) = true <;> simp [h]

/-- A word of the build buffer holds the loading value of a carrier at its place (R99). -/
theorem bufferWord_place (buffer : List (BitVec 4)) (j : Nat) {c : Nat} (hc : c < 8) :
    (bufferWord buffer j).extractLsb' (4 * c) 4 = buffer.getD (8 * j + c) 0 := by
  unfold bufferWord
  rw [packed_place _ hc]
  simp only [List.getD_eq_getElem?_getD, List.getElem?_map, List.getElem?_take, List.getElem?_drop, hc, if_true]
  cases buffer[8 * j + c]? with
  | none => rfl
  | some v => simp

/-! ### Sums -/

/-- The sum of words is the fold of addition. -/
theorem sumWords_foldr (ws : List Word) : sumWords ws = ws.foldr (· + ·) 0 := by
  induction ws with
  | nil => rfl
  | cons w ws ih => rw [sumWords, List.foldr_cons, ih]

/-! ### Candidates (R122) -/

/-- Each slot once, at its first place. -/
theorem foldl_firsts (l seen : List Nat) : l.foldl (fun seen n => if seen.contains n then seen else seen ++ [n]) seen =
    seen ++ (l.filter fun n => !seen.contains n).eraseDups := by
  induction l generalizing seen with
  | nil => simp
  | cons n l ih =>
    rw [List.foldl_cons, ih]
    by_cases h : seen.contains n = true
    · simp only [h, if_true, List.filter_cons, Bool.not_true, Bool.false_eq_true, if_false]
    · simp only [h, Bool.false_eq_true, if_false, List.append_assoc, List.filter_cons, Bool.not_false, if_true,
        List.eraseDups_cons, List.singleton_append, List.filter_filter]
      congr 3
      apply List.filter_congr
      intro x _
      by_cases hx : x = n <;> simp [hx, Bool.and_comm]

/-- The candidate list holds each slot that the link names once, at its first place. -/
theorem candidateSlots_eq (L : Link) (slice : Nat) : L.candidateSlots slice =
    (L.cells[slice]?.toList ++ L.cells.eraseIdx slice ++ L.pendingSet.filterMap id ++ L.nextSet.filterMap id).eraseDups := by
  unfold Link.candidateSlots
  rw [foldl_firsts]
  simp

/-- No candidate from an index on has the job's TOTAL and SIGNATURE. -/
theorem nextCandidate_none {s : State} {total : Nat} {signature : Word} {cs : List (Nat × BitVec 8)} (i : Nat)
    (h : ∀ x ∈ cs, ¬((s.slot x.1).total = total ∧ (s.slot x.1).signature = signature)) :
    s.nextCandidate total signature cs i = none := by
  induction cs generalizing i with
  | nil => rfl
  | cons c cs ih =>
    rw [State.nextCandidate, if_neg (h c List.mem_cons_self)]
    exact ih _ fun x hx => h x (List.mem_cons_of_mem _ hx)

/-- The first candidate with the job's TOTAL and SIGNATURE is the one at an index, counted from another. -/
theorem nextCandidate_some {s : State} {total : Nat} {signature : Word} {cs : List (Nat × BitVec 8)} {c : Nat × BitVec 8} {m : Nat}
    (i : Nat) (hc : cs[m]? = some c) (hm : (s.slot c.1).total = total ∧ (s.slot c.1).signature = signature)
    (h : ∀ k x, k < m → cs[k]? = some x → ¬((s.slot x.1).total = total ∧ (s.slot x.1).signature = signature)) :
    s.nextCandidate total signature cs i = some (i + m) := by
  induction cs generalizing i m with
  | nil => cases hc
  | cons d cs ih =>
    rw [State.nextCandidate]
    cases m with
    | zero =>
      rw [List.getElem?_cons_zero, Option.some.injEq] at hc
      subst hc
      rw [if_pos hm, Nat.add_zero]
    | succ m =>
      rw [if_neg (h 0 d (Nat.succ_pos m) rfl), ih (i + 1) (by simpa using hc) fun k x hk hx =>
        h (k + 1) x (Nat.succ_lt_succ hk) (by simpa using hx)]
      congr 1
      omega

end Sys2Proof.Machine
end

