-- ==== Sys2Proof/Laws/Joins.lean ====
section
/-! SUPPORT. The order in which an event's releases put slots on the Free List (R75, R93, R144, R148, R149). `Joins s l t`: the releases of
the slots of `l`, one after another, lead from s to t. -/

namespace Sys2Proof.Machine

/-! ### What becomes of the slots that an event frees (R93, R94, R126) -/

/-- The slots of F become FREE, one after another, from s to t: they join the Free List, and a waiting job takes the list's head as the
first of them joins. A slot in BUILDING stays as it is. -/
structure Fate (s : State) (F : List Nat) (t : State) : Prop where
  shadow : t.shadow = s.shadow
  nodes : ∀ k, (t.link k).node = (s.link k).node
  builds : ∀ m, (s.slot m).state = .building → t.slot m = s.slot m
  quiet : s.jobWaits = false ∨ F = [] → t.pool.freeList = s.pool.freeList ++ F ∧ t.engine = s.engine
  issues : F = [] → ∀ m, (t.slot m).issue = (s.slot m).issue
  taken : ∀ (j : Job) (f : Nat) (rest : List Nat), s.engine.job = some j → j.stage = .allocate → j.slot = none → F ≠ [] →
    s.pool.freeList ++ F = f :: rest →
    t.pool.freeList = rest
      ∧ t.engine =
        { s.engine with
          job := some { j with stage := .write, slot := some f, pos := 0 }
          ready := some ⟨.loadingWrite, .write (s.shadow.poolBase + f * 256 + 8)
            ((List.range 8).map fun c => ⟨bufferWord s.engine.buffer c, 15⟩)⟩ }
      ∧ (t.slot f).state = .building ∧ (t.slot f).issue = (s.slot f).issue + 1 ∧ (t.slot f).ownerLink = j.link
      ∧ (t.slot f).ownerNode = (s.link j.link).node ∧ (t.slot f).slice = j.slice

theorem jobWaits_congr {s t : State} (h : t.engine = s.engine) : t.jobWaits = s.jobWaits := by unfold State.jobWaits; rw [h]

/-- A job that waits is in ALLOCATE without a slot. -/
theorem jobWaits_job {s : State} (h : s.jobWaits = true) : ∃ j, s.engine.job = some j ∧ j.stage = .allocate ∧ j.slot = none := by
  unfold State.jobWaits at h
  cases hj : s.engine.job with
  | none => rw [hj] at h; cases h
  | some j =>
    rw [hj, Bool.and_eq_true] at h
    exact ⟨j, rfl, eq_of_beq h.1, Option.isNone_iff_eq_none.1 h.2⟩

/-- The slots of two parts of an event, one after the other. -/
theorem Fate.trans {s t u : State} {F G : List Nat} (h : Fate s F t) (g : Fate t G u) : Fate s (F ++ G) u := by
  refine ⟨g.shadow.trans h.shadow, fun k => (g.nodes k).trans (h.nodes k),
    fun m hm => (g.builds m (by rw [h.builds m hm]; exact hm)).trans (h.builds m hm), ?_, ?_, ?_⟩
  · rintro (hw | he)
    · obtain ⟨h1, h2⟩ := h.quiet (Or.inl hw)
      obtain ⟨g1, g2⟩ := g.quiet (Or.inl ((jobWaits_congr h2).trans hw))
      exact ⟨by rw [g1, h1, List.append_assoc], g2.trans h2⟩
    · obtain ⟨rfl, rfl⟩ := List.append_eq_nil_iff.1 he
      obtain ⟨h1, h2⟩ := h.quiet (Or.inr rfl)
      obtain ⟨g1, g2⟩ := g.quiet (Or.inr rfl)
      exact ⟨by rw [g1, h1, List.append_assoc], g2.trans h2⟩
  · intro he m
    obtain ⟨rfl, rfl⟩ := List.append_eq_nil_iff.1 he
    exact (g.issues rfl m).trans (h.issues rfl m)
  · intro j f rest hj hst hs hne hl
    by_cases hF : F = []
    · subst hF
      obtain ⟨h1, h2⟩ := h.quiet (Or.inr rfl)
      obtain ⟨g1, g2, g3, g4, g5, g6, g7⟩ := g.taken j f rest (by rw [h2]; exact hj) hst hs hne (by rw [h1, List.append_nil]; exact hl)
      rw [h2, h.shadow] at g2
      exact ⟨g1, g2, g3, by rw [g4, h.issues rfl], g5, by rw [g6, h.nodes], g7⟩
    · obtain ⟨rest', hr⟩ : ∃ rest', s.pool.freeList ++ F = f :: rest' := by
        cases hx : s.pool.freeList ++ F with
        | nil => exact absurd (List.append_eq_nil_iff.1 hx).2 hF
        | cons a as =>
          rw [← List.append_assoc, hx, List.cons_append] at hl
          exact ⟨as, by rw [(List.cons.inj hl).1]⟩
      obtain ⟨h1, h2, h3, h4⟩ := h.taken j f rest' hj hst hs hF hr
      obtain ⟨g1, g2⟩ := g.quiet (Or.inl (by unfold State.jobWaits; rw [h2]; rfl))
      rw [← List.append_assoc, hr, List.cons_append] at hl
      refine ⟨by rw [g1, h1]; exact (List.cons.inj hl).2, g2.trans h2, ?_⟩
      rw [g.builds f h3]
      exact ⟨h3, h4⟩

/-- Nothing is freed where the pool and the engine stay. -/
theorem Fate.stay {s t : State} (hs : t.shadow = s.shadow) (hn : ∀ k, (t.link k).node = (s.link k).node) (hp : t.pool = s.pool)
    (he : t.engine = s.engine) : Fate s [] t := by
  have h : ∀ m, t.slot m = s.slot m := fun m => by unfold State.slot; rw [hp]
  exact ⟨hs, hn, fun m _ => h m, fun _ => ⟨by rw [hp, List.append_nil], he⟩, fun _ m => by rw [h],
    fun _ _ _ _ _ _ hne => absurd rfl hne⟩

/-- Nothing is freed where a link record takes another of its node. -/
theorem Fate.setLink {s : State} {k : Nat} {L : Link} (h : L.node = (s.link k).node) : Fate s [] (s.setLink k L) := by
  refine Fate.stay rfl (fun i => ?_) rfl rfl
  rw [link_setLink]
  split
  · rename_i e; rw [← e.1]; exact h
  · rfl

/-- Nothing is freed where a slot's record changes but for its issue, and the slot is not BUILDING. -/
theorem Fate.setSlot {s : State} {m : Nat} {r : SlotRec} (hi : r.issue = (s.slot m).issue) (hb : (s.slot m).state ≠ .building) :
    Fate s [] (s.setSlot m r) := by
  refine ⟨rfl, fun _ => rfl, fun x hx => ?_, fun _ => ⟨(List.append_nil _).symm, rfl⟩, fun _ x => ?_,
    fun _ _ _ _ _ _ hne => absurd rfl hne⟩
  · rw [slot_setSlot, if_neg]
    rintro ⟨rfl, _⟩; exact hb hx
  · rw [slot_setSlot]
    split
    · rename_i e; rw [← e.1]; exact hi
    · rfl

/-- A slot becomes FREE and joins the list. -/
theorem Fate.joinFree {s : State} {m : Nat} (hm : m < 128) (hb : (s.slot m).state ≠ .building)
    (hl : ∀ f, f ∈ s.pool.freeList → f < 128 ∧ (s.slot f).state ≠ .building) : Fate s [m] (joinFree m s) := by
  obtain ⟨p, e, hfr⟩ := joinFree_frame m s
  refine ⟨by rw [hfr], fun _ => by rw [hfr]; rfl, ?_, ?_, fun he => (by cases he), ?_⟩
  · intro x hx
    have hxm : m ≠ x := by rintro rfl; exact hb hx
    cases hw : s.jobWaits with
    | false => rw [joinFree_idle m hw]; exact tget_tset_ne _ _ _ hxm
    | true =>
      obtain ⟨j, hj, hst, hs⟩ := jobWaits_job hw
      cases hc : s.pool.freeList ++ [m] with
      | nil => exact absurd (List.append_eq_nil_iff.1 hc).2 (by simp)
      | cons f rest =>
        rw [joinFree_waits hj hst hs hc rfl]
        have hf : f ∈ s.pool.freeList ++ [m] := by rw [hc]; exact List.mem_cons_self
        have hxf : f ≠ x := by
          rintro rfl
          rcases List.mem_append.1 hf with h | h
          · exact (hl f h).2 hx
          · exact hxm (List.mem_singleton.1 h).symm
        exact (tget_tset_ne _ _ _ hxf).trans (tget_tset_ne _ _ _ hxm)
  · rintro (hw | he)
    · rw [joinFree_idle m hw]; exact ⟨rfl, rfl⟩
    · cases he
  · intro j f rest hj hst hs _ hc
    rw [joinFree_waits hj hst hs hc rfl]
    have hf : f < 128 := by
      have : f ∈ s.pool.freeList ++ [m] := by rw [hc]; exact List.mem_cons_self
      rcases List.mem_append.1 this with h | h
      · exact (hl f h).1
      · rw [List.mem_singleton.1 h]; exact hm
    refine ⟨rfl, rfl, ?_⟩
    simp only [State.slot, tget_tset_same _ _ _ hf]
    exact ⟨trivial, trivial, trivial, trivial, trivial⟩

/-- What becomes of the freed slots, in the words of the statements: the pool and the job stay, and the job's first write stays ready or
goes to the port. -/
theorem Fate.freedJoin {s u t : State} {F : List Nat} (h : Fate s F u) (hp : t.pool = u.pool) (hj : t.engine.job = u.engine.job)
    (hr : ∀ b, u.engine.ready = some b → t.engine.ready = some b ∨ t.path.port = some b) : FreedJoin s t F := by
  have hs : ∀ n, t.slot n = u.slot n := fun n => by unfold State.slot; rw [hp]
  refine ⟨fun hw => by rw [hp]; exact (h.quiet hw).1, fun j f rest b hj1 hst hsl hne hl hb => ?_⟩
  obtain ⟨h1, h2, h3⟩ := h.taken j f rest hj1 hst hsl hne hl
  rw [hp, hj, hs]
  exact ⟨h1, by rw [h2], hr b (by rw [h2, hb]), h3⟩

/-! ### Releases one after another -/

/-- One reference to slot n is released. -/
structure Released (s : State) (n : Nat) (t : State) : Prop where
  had : 0 < (s.slot n).refs
  fate : Fate s (if n ≠ 0 ∧ (s.slot n).pins = 0 ∧ (s.slot n).refs = 1 then [n] else []) t
  refs : ∀ m, (t.slot m).refs = if n = m then (s.slot m).refs - 1 else (s.slot m).refs
  pins : ∀ m, (t.slot m).pins = (s.slot m).pins

/-- References to the slots of l are released, one after another; a slot of B is taken too, and keeps a reference throughout. -/
structure Joins (B : Nat → Prop) (s : State) (l : List Nat) (t : State) : Prop where
  fate : Fate s (s.freed l) t
  refs : ∀ n, ¬ B n → (t.slot n).refs + l.count n = (s.slot n).refs
  kept : ∀ n, B n → l.count n < (s.slot n).refs
  pins : ∀ n, (t.slot n).pins = (s.slot n).pins

theorem freed_nil (s : State) : s.freed [] = [] := rfl

/-- The last release frees its slot if it is the last reference. -/
theorem freed_snoc (s : State) (l : List Nat) (n : Nat) : s.freed (l ++ [n]) =
    s.freed l ++ if n ≠ 0 ∧ (s.slot n).pins = 0 ∧ (s.slot n).refs = l.count n + 1 then [n] else [] := by
  have h1 : ∀ i, i < l.length → (l ++ [n]).getD i 0 = l.getD i 0 := fun i hi => by
    simp [List.getD_eq_getElem?_getD, List.getElem?_append_left hi]
  have h2 : ∀ i, i < l.length → (l ++ [n]).take (i + 1) = l.take (i + 1) := fun i hi => by
    rw [List.take_append_of_le_length (by omega)]
  have h3 : (l ++ [n]).getD l.length 0 = n := by simp
  have h4 : (l ++ [n]).take (l.length + 1) = l ++ [n] := List.take_of_length_le (by simp)
  unfold State.freed
  rw [List.length_append, List.length_singleton, List.range_succ, List.filterMap_append]
  congr 1
  · apply List.filterMap_congr
    intro i hi
    have hi := List.mem_range.1 hi
    simp only [h1 i hi, h2 i hi]
  · simp only [List.filterMap_cons, List.filterMap_nil, h3, h4, List.count_append, List.count_singleton_self]
    by_cases hc : n ≠ 0 ∧ (s.slot n).pins = 0 ∧ (s.slot n).refs = l.count n + 1
    · rw [if_pos hc, if_pos hc]
    · rw [if_neg hc, if_neg hc]

theorem Joins.refl (B : Nat → Prop) {s : State} (h : ∀ n, B n → 0 < (s.slot n).refs) : Joins B s [] s :=
  ⟨Fate.stay rfl (fun _ => rfl) rfl rfl, fun _ _ => by simp, fun n hn => by simpa using h n hn, fun _ => rfl⟩

/-- A release after others. -/
theorem Joins.release {B : Nat → Prop} {s t u : State} {l : List Nat} {n : Nat} (h : Joins B s l t) (hu : Released t n u)
    (hB : B n → l.count n + 1 < (s.slot n).refs ∧ (t.slot n).refs ≠ 1) : Joins B s (l ++ [n]) u := by
  refine ⟨?_, ?_, ?_, fun m => (hu.pins m).trans (h.pins m)⟩
  · have hf := hu.fate
    rw [h.pins] at hf
    rw [freed_snoc]
    by_cases hb : B n
    · obtain ⟨a, b⟩ := hB hb
      rw [if_neg (by rintro ⟨_, _, hc⟩; exact b hc)] at hf
      rw [if_neg (by rintro ⟨_, _, hc⟩; omega)]
      exact h.fate.trans hf
    · have hr := h.refs n hb
      by_cases hc : n ≠ 0 ∧ (s.slot n).pins = 0 ∧ (t.slot n).refs = 1
      · rw [if_pos hc] at hf
        rw [if_pos ⟨hc.1, hc.2.1, by omega⟩]
        exact h.fate.trans hf
      · rw [if_neg hc] at hf
        rw [if_neg (by rintro ⟨a, b, c⟩; exact hc ⟨a, b, by omega⟩)]
        exact h.fate.trans hf
  · intro m hm
    have hr := h.refs m hm
    rw [hu.refs m, List.count_append]
    by_cases he : n = m
    · subst he; have := hu.had; simp; omega
    · rw [if_neg he]; simp [he]; omega
  · intro m hm
    rw [List.count_append]
    by_cases he : n = m
    · subst he; simp; have := (hB hm).1; omega
    · simp [he]; exact h.kept m hm

/-- A change that frees nothing and leaves REFS and PINS. -/
theorem Joins.like {B : Nat → Prop} {s t u : State} {l : List Nat} (h : Joins B s l t) (hf : Fate t [] u)
    (hr : ∀ n, ¬ B n → (u.slot n).refs = (t.slot n).refs) (hp : ∀ n, (u.slot n).pins = (t.slot n).pins) : Joins B s l u :=
  ⟨by simpa using h.fate.trans hf, fun n hn => by rw [hr n hn]; exact h.refs n hn, h.kept, fun n => by rw [hp]; exact h.pins n⟩

/-- The laws hold, and the part is not in TRANSPARENT. -/
structure Ready (s : State) : Prop where
  ok : CountsOk True True True s
  on : s.filter ≠ .transparent

theorem Ready.of {s : State} (h : s.PoolLaws) (ho : s.filter ≠ .transparent) : Ready s :=
  ⟨countsOk_of h.1 h.2.1 h.2.2.1 h.2.2.2.1 h.2.2.2.2, ho⟩

/-- A slot on the Free List is FREE. -/
theorem Ready.list {s : State} (h : Ready s) {f : Nat} (hf : f ∈ s.pool.freeList) : f < 128 ∧ (s.slot f).state ≠ .building := by
  have hfit := h.ok.fits trivial h.on
  obtain ⟨_, hP, hs⟩ := (hfit.mem f).1 hf
  have := hfit.size.2
  exact ⟨by omega, by rw [hs]; decide⟩

/-- A slot that an entry names is not BUILDING. -/
theorem Ready.named {s : State} (h : Ready s) {n : Nat} (hr : 0 < refs s.links n) : n < 128 ∧ (s.slot n).state ≠ .building := by
  obtain ⟨hP, _, hs, _⟩ := h.ok.slotOf trivial h.on hr
  have hfit := h.ok.fits trivial h.on
  have := hfit.size.2
  refine ⟨by omega, ?_⟩
  by_cases h0 : 0 < n
  · exact (hs h0).2
  · obtain rfl : n = 0 := by omega
    rw [hfit.base]; decide

/-- Slot 0 that joined the Free List would not be BASE. -/
theorem joinFree_not_base (m : Nat) {s : State} (hm : m < 128) : ((joinFree m s).slot m).state ≠ .base := by
  have h1 : ∀ v : Vector SlotRec 128, ∀ r, tget (tset v m r) SlotRec.reset m = r := fun v r => tget_tset_same _ _ _ hm
  cases hw : s.jobWaits with
  | false => rw [joinFree_idle m hw]; unfold State.slot; dsimp only; rw [h1]; exact fun x => (by cases x)
  | true =>
    obtain ⟨j, hj, hst, hs⟩ := jobWaits_job hw
    cases hc : s.pool.freeList ++ [m] with
    | nil => exact absurd (List.append_eq_nil_iff.1 hc).2 (by simp)
    | cons f rest =>
      rw [joinFree_waits hj hst hs hc rfl]
      unfold State.slot
      dsimp only
      rw [tget_tset]
      split
      · exact fun x => (by cases x)
      · rw [h1]; exact fun x => (by cases x)

/-- A slot that is not BUILDING does not become so as a reference is taken. -/
theorem takeRef_not_building (n : Nat) (s : State) (m : Nat) (h : (s.slot m).state ≠ .building) : ((takeRef n s).slot m).state ≠ .building := by
  unfold takeRef
  rw [slot_setSlot]
  split
  · unfold State.heldState
    dsimp only
    repeat' split
    all_goals decide
  · exact h

/-- A release frees its slot if it is the last reference and no pin holds the slot. -/
theorem released_of {s : State} {n : Nat} (h : CountsOk True True True (releaseRef n s)) (ho : s.filter ≠ .transparent)
    (hl : ∀ f, f ∈ s.pool.freeList → f < 128 ∧ (s.slot f).state ≠ .building) (hn : n < 128) (hnb : (s.slot n).state ≠ .building)
    (hr : 0 < (s.slot n).refs) : Released s n (releaseRef n s) := by
  have hf : (releaseRef n s).filter = s.filter := by obtain ⟨p, e, hfr⟩ := releaseRef_frame n s; rw [hfr]
  have hfits := h.fits trivial (by rw [hf]; exact ho)
  have hlinks : (releaseRef n s).links = s.links := by obtain ⟨p, e, hfr⟩ := releaseRef_frame n s; rw [hfr]
  have hcells : (releaseRef n s).cellNames n = s.cellNames n := by unfold State.cellNames; rw [hlinks]
  have hrefs := refs_releaseRef n s
  have key : s.heldState n { s.slot n with refs := (s.slot n).refs - 1 } = .free ↔ n ≠ 0 ∧ (s.slot n).pins = 0 ∧ (s.slot n).refs = 1 := by
    constructor
    · intro hh
      have h0 : n ≠ 0 := by
        rintro rfl
        have := hfits.base
        unfold releaseRef at this
        simp only [hh, if_true] at this
        exact joinFree_not_base 0 (by decide) this
      unfold State.heldState at hh
      split at hh
      · cases hh
      · split at hh
        · cases hh
        · split at hh
          · cases hh
          · split at hh
            · cases hh
            · rename_i a b; simp at a b; exact ⟨h0, by omega, by omega⟩
    · rintro ⟨h0, hp, hr1⟩
      have hb : (s.slot n).state ≠ .base := by
        intro hb
        have h1 : s.heldState n { s.slot n with refs := (s.slot n).refs - 1 } = .base := by unfold State.heldState; simp [hb]
        have := hfits.ne_base (n := n) (by omega) hn
        unfold releaseRef at this
        simp only [h1] at this
        apply this
        simp [slot_setSlot, hn]
      have hc : s.cellNames n = false := by
        rw [Bool.eq_false_iff]; intro hc
        rw [← hcells] at hc
        obtain ⟨k, hk, _, hm⟩ := (cellNames_iff _ n).1 hc
        have h1 := cell_refs hk hm
        have h2 := h.ref trivial n hn
        rw [hrefs n] at h2
        simp [hn] at h2
        omega
      unfold State.heldState
      simp [hb, hc, hr1, hp]
  refine ⟨hr, ?_, ?_, pins_releaseRef n s⟩
  · unfold releaseRef
    have h1 : ∀ st, Fate s [] (s.setSlot n { s.slot n with refs := (s.slot n).refs - 1, state := st }) := fun st =>
      Fate.setSlot rfl hnb
    by_cases hh : s.heldState n { s.slot n with refs := (s.slot n).refs - 1 } = .free
    · simp only [hh, if_true]
      rw [if_pos (key.1 hh)]
      refine (h1 .free).trans (Fate.joinFree hn ?_ fun f hf => ?_)
      · rw [slot_setSlot, if_pos ⟨rfl, hn⟩]; exact fun x => by cases x
      · refine ⟨(hl f hf).1, ?_⟩
        rw [slot_setSlot]
        split
        · exact fun x => by cases x
        · exact (hl f hf).2
    · simp only [if_neg hh]
      rw [if_neg (fun x => hh (key.2 x))]
      exact h1 _
  · intro m
    rw [hrefs m]
    by_cases he : n = m
    · subst he; simp [hn]
    · simp [he]

/-- The release of an entry of link k, the entry having been taken out of the record. -/
theorem Ready.release {s : State} (h : Ready s) {k n : Nat} (L : Link) (hc : CountsOk True True True (releaseRef n (s.setLink k L)))
    (hL : L.node = (s.link k).node) (hr : 0 < refs s.links n) :
    Released s n (releaseRef n (s.setLink k L)) ∧ Ready (releaseRef n (s.setLink k L)) := by
  have ho := h.ok.slotOf trivial h.on hr
  have hre := released_of hc h.on (fun f hf => h.list hf) (h.named hr).1 (h.named hr).2 ho.2.1
  have hf : (releaseRef n (s.setLink k L)).filter = s.filter := by obtain ⟨p, e, hfr⟩ := releaseRef_frame n (s.setLink k L); rw [hfr]; rfl
  exact ⟨⟨hre.had, (Fate.setLink hL).trans hre.fate, hre.refs, hre.pins⟩, hc, by rw [hf]; exact h.on⟩

theorem getD_some {α : Type} {es : List (Option α)} {i : Nat} {a : α} (h : es.getD i none = some a) : es[i]? = some (some a) := by
  rw [List.getD_eq_getElem?_getD] at h
  cases he : es[i]? with
  | none => rw [he] at h; cases h
  | some x => rw [he] at h; simp at h; rw [h]

/-- A present entry holds a reference. -/
theorem refs_pending {s : State} {k i n : Nat} (h : (s.link k).pendingSet.getD i none = some n) : 0 < refs s.links n := by
  have hk : k < 32 := by
    by_contra hc; rw [link_beyond s (by omega)] at h; simp [Link.free] at h
  have h1 := count_pos_of_get (getD_some h)
  have h3 := refs_ge s.links k n hk
  simp only [Link.refCount] at h3
  unfold State.link at h1
  omega

theorem refs_next {s : State} {k i n : Nat} (h : (s.link k).nextSet.getD i none = some n) : 0 < refs s.links n := by
  have hk : k < 32 := by
    by_contra hc; rw [link_beyond s (by omega)] at h; simp [Link.free] at h
  have h1 := count_pos_of_get (getD_some h)
  have h3 := refs_ge s.links k n hk
  simp only [Link.refCount] at h3
  unfold State.link at h1
  omega

/-- One pending entry is cleared. -/
theorem clearPending_step {s : State} (h : Ready s) (k i : Nat) :
    match (s.link k).pendingSet.getD i none with
    | some n => Released s n (clearPending k i s) ∧ Ready (clearPending k i s)
    | none => clearPending k i s = s := by
  have hc := h.ok.clearPending k i
  cases hp : (s.link k).pendingSet.getD i none with
  | none => unfold clearPending; simp only [hp]
  | some n =>
    have e : clearPending k i s = releaseRef n (s.setLink k { s.link k with pendingSet := (s.link k).pendingSet.set i none }) := by
      unfold clearPending; simp only [hp]
    rw [e] at hc ⊢
    exact h.release _ hc rfl (refs_pending hp)

theorem clearNext_step {s : State} (h : Ready s) (k i : Nat) :
    match (s.link k).nextSet.getD i none with
    | some n => Released s n (clearNext k i s) ∧ Ready (clearNext k i s)
    | none => clearNext k i s = s := by
  have hc := h.ok.clearNext k i
  cases hp : (s.link k).nextSet.getD i none with
  | none => unfold clearNext; simp only [hp]
  | some n =>
    have e : clearNext k i s = releaseRef n (s.setLink k { s.link k with nextSet := (s.link k).nextSet.set i none }) := by
      unfold clearNext; simp only [hp]
    rw [e] at hc ⊢
    exact h.release _ hc rfl (refs_next hp)

theorem filterMap_range {α : Type} (es : List (Option α)) : (List.range es.length).filterMap (fun i => es.getD i none) = es.filterMap id := by
  have : (List.range es.length).map (fun i => es.getD i none) = es := by
    apply List.ext_getElem
    · simp
    · intro i h1 h2; simp [List.getD_eq_getElem?_getD, List.getElem?_eq_getElem h2]
  conv_rhs => rw [← this]
  rw [List.filterMap_map]; rfl

theorem forSlices_succ (b : Nat) (f : Nat → State → State) (s : State) : forSlices (b + 1) f s = f b (forSlices b f s) := by
  unfold forSlices
  rw [List.range_succ, List.foldl_append, List.foldl_cons, List.foldl_nil]

/-- Entries that release their references one after another: the entry of index i, P s i, by f i, which leaves the later ones. -/
theorem joins_forSlices {f : Nat → State → State} {P : State → Nat → Option Nat} {s t : State} {l : List Nat}
    (hstep : ∀ i u, Ready u → match P u i with
      | some n => Released u n (f i u) ∧ Ready (f i u)
      | none => f i u = u)
    (hkeep : ∀ i j u, i < j → P (f i u) j = P u j) (h : Ready t) (hj : Joins (fun _ => False) s l t) (b : Nat) :
    Ready (forSlices b f t) ∧ Joins (fun _ => False) s (l ++ (List.range b).filterMap (P t)) (forSlices b f t)
      ∧ ∀ j, b ≤ j → P (forSlices b f t) j = P t j := by
  induction b with
  | zero => exact ⟨h, by show Joins _ s (l ++ []) t; rwa [List.append_nil], fun _ _ => rfl⟩
  | succ b ih =>
    obtain ⟨h1, h2, h3⟩ := ih
    rw [forSlices_succ]
    generalize forSlices b f t = u at *
    have h4 := hstep b u h1
    have h5 : ∀ j, b + 1 ≤ j → P (f b u) j = P t j := fun j hb => (hkeep b j u (by omega)).trans (h3 j (by omega))
    rw [List.range_succ, List.filterMap_append, ← List.append_assoc]
    rw [h3 b (Nat.le_refl b)] at h4
    cases hp : P t b with
    | none =>
      rw [hp] at h4; dsimp only at h4
      rw [h4] at h5 ⊢
      refine ⟨h1, ?_, h5⟩
      simpa only [List.filterMap_cons, hp, List.filterMap_nil, List.append_nil] using h2
    | some n =>
      rw [hp] at h4; dsimp only at h4
      refine ⟨h4.2, ?_, h5⟩
      have := h2.release h4.1 (fun x => x.elim)
      simpa only [List.filterMap_cons, hp, List.filterMap_nil] using this

/-- The present pending entries of a link release their references in ascending order. -/
theorem joins_clearPendings {s t : State} {l : List Nat} (h : Ready t) (hj : Joins (fun _ => False) s l t) {k : Nat} (hk : k < 32) :
    Ready (clearPendings k t) ∧ Joins (fun _ => False) s (l ++ (t.link k).pendingSet.filterMap id) (clearPendings k t) := by
  obtain ⟨h1, h2, _⟩ := joins_forSlices (P := fun u i => (u.link k).pendingSet.getD i none) (fun i u hu => clearPending_step hu k i)
    (fun i j u hij => by
      obtain ⟨p, e, hfr⟩ := clearPending_frame k i u
      rw [hfr]
      unfold State.link
      dsimp only
      rw [tget_tset_same _ _ _ hk]
      dsimp only
      rw [List.getD_eq_getElem?_getD, List.getD_eq_getElem?_getD, List.getElem?_set_ne (by omega)]) h hj (t.link k).pendingSet.length
  rw [filterMap_range] at h2
  exact ⟨h1, h2⟩

/-- The present next entries of a link release their references in ascending order. -/
theorem joins_clearNexts {s t : State} {l : List Nat} (h : Ready t) (hj : Joins (fun _ => False) s l t) {k : Nat} (hk : k < 32) :
    Ready (clearNexts k t) ∧ Joins (fun _ => False) s (l ++ (t.link k).nextSet.filterMap id) (clearNexts k t) := by
  obtain ⟨h1, h2, _⟩ := joins_forSlices (P := fun u i => (u.link k).nextSet.getD i none) (fun i u hu => clearNext_step hu k i)
    (fun i j u hij => by
      obtain ⟨p, e, hfr⟩ := clearNext_frame k i u
      rw [hfr]
      unfold State.link
      dsimp only
      rw [tget_tset_same _ _ _ hk]
      dsimp only
      rw [List.getD_eq_getElem?_getD, List.getD_eq_getElem?_getD, List.getElem?_set_ne (by omega)]) h hj (t.link k).nextSet.length
  rw [filterMap_range] at h2
  exact ⟨h1, h2⟩

/-- LINK_REMOVE's step 1: the cells release their references in ascending order. -/
theorem joins_dropCells {s : State} (h : Ready s) {k : Nat} (hk : k < 32) :
    Ready (forSlices (s.link k).cells.length (fun _ => dropFirstCell k) s) ∧
      Joins (fun _ => False) s (s.link k).cells (forSlices (s.link k).cells.length (fun _ => dropFirstCell k) s) := by
  have key : ∀ b, Ready (forSlices b (fun _ => dropFirstCell k) s) ∧
      Joins (fun _ => False) s ((s.link k).cells.take b) (forSlices b (fun _ => dropFirstCell k) s) := by
    intro b
    induction b with
    | zero => exact ⟨h, Joins.refl _ (fun _ x => x.elim)⟩
    | succ b ih =>
      obtain ⟨h1, h2⟩ := ih
      have hl := cells_forSlices k hk b s
      rw [forSlices_succ]
      generalize forSlices b (fun _ => dropFirstCell k) s = u at *
      have hc := h1.ok.dropFirstCell k
      by_cases hb : b < (s.link k).cells.length
      · have e0 : (u.link k).cells = (s.link k).cells[b] :: (s.link k).cells.drop (b + 1) := by
          rw [hl]; exact List.drop_eq_getElem_cons hb
        have e : dropFirstCell k u = releaseRef (s.link k).cells[b] (u.setLink k { u.link k with cells := (s.link k).cells.drop (b + 1) }) := by
          unfold dropFirstCell; rw [e0]
        rw [e] at hc ⊢
        have := h1.release _ hc rfl (cell_refs hk (by rw [e0]; exact List.mem_cons_self))
        refine ⟨this.2, ?_⟩
        rw [List.take_add_one, List.getElem?_eq_getElem hb]
        exact h2.release this.1 (fun x => x.elim)
      · have e0 : (u.link k).cells = [] := by rw [hl]; exact List.drop_eq_nil_of_le (by omega)
        have e : dropFirstCell k u = u := by unfold dropFirstCell; rw [e0]
        rw [e, List.take_of_length_le (by omega)]
        rw [List.take_of_length_le (by omega)] at h2
        exact ⟨h1, h2⟩
  have := key (s.link k).cells.length
  rwa [List.take_length] at this

/-! ### Whole events -/

/-- The release of a latch frees its slot if no entry names the slot and the latch is its last pin. -/
theorem joins_releaseLatch {s : State} (h : Ready s) {k : Nat} (hk : k < 32) : Ready (releaseLatch k s) ∧
    Fate s (match (s.link k).latch with
      | some l => if l.slot ≠ 0 ∧ (s.slot l.slot).refs = 0 ∧ (s.slot l.slot).pins = 1 then [l.slot] else []
      | none => []) (releaseLatch k s) := by
  have hc := h.ok.releaseLatch k
  have hfl : (releaseLatch k s).filter = s.filter := by obtain ⟨p, e, hfr⟩ := releaseLatch_frame k s; rw [hfr]
  refine ⟨⟨hc, by rw [hfl]; exact h.on⟩, ?_⟩
  cases hl : (s.link k).latch with
  | none =>
    have e : releaseLatch k s = s := by unfold releaseLatch; simp only [hl]
    rw [e]
    exact Fate.stay rfl (fun _ => rfl) rfl rfl
  | some l =>
    have e : releaseLatch k s = releasePin l.slot (s.setLink k { s.link k with latch := none }) := by unfold releaseLatch; simp only [hl]
    have hf := h.ok.fits trivial h.on
    have hlc := latch_ge s.links k l.slot hk
    have hlk : (tget s.links Link.free k).latch = some l := hl
    simp only [hlk, Option.map_some, if_true] at hlc
    have hP : l.slot < s.shadow.poolSlots := by
      by_contra hx; have := (h.ok.names trivial h.on l.slot (by omega)).2.2; omega
    have h128 := hf.size.2
    have hp := h.ok.pin trivial l.slot (by omega)
    have key : (s.slot l.slot).state = .retiring ∧ (s.slot l.slot).pins ≤ 1 ↔ l.slot ≠ 0 ∧ (s.slot l.slot).refs = 0 ∧ (s.slot l.slot).pins = 1 := by
      constructor
      · rintro ⟨a, b⟩
        have h0 : l.slot ≠ 0 := by intro h0; rw [h0, hf.base] at a; cases a
        rcases hf.held l.slot (by omega) (by omega) (fun x => x) with hh | hh
        · rw [hh.1] at a; cases a
        · rw [hh] at a; have := heldAs_retiring.1 a; exact ⟨h0, by omega, by omega⟩
      · rintro ⟨h0, a, b⟩
        refine ⟨?_, by omega⟩
        rcases hf.held l.slot (by omega) (by omega) (fun x => x) with hh | hh
        · omega
        · rw [hh]
          refine heldAs_retiring.2 ⟨?_, a, by omega⟩
          rw [Bool.eq_false_iff]; intro hcn
          obtain ⟨i, hi, _, hm⟩ := (cellNames_iff _ _).1 hcn
          have h1 := cell_refs hi hm
          have h2 := h.ok.ref trivial l.slot (by omega)
          omega
    have hnb : (s.slot l.slot).state ≠ .building := by
      intro hb
      by_cases h0 : l.slot = 0
      · rw [h0, hf.base] at hb; cases hb
      · rcases hf.held l.slot (by omega) (by omega) (fun x => x) with hh | hh
        · omega
        · rw [hh] at hb; exact heldAs_ne_building _ _ _ hb
    have h1 : Fate s [] ((s.setLink k { s.link k with latch := none }).setSlot l.slot
        { s.slot l.slot with pins := (s.slot l.slot).pins - 1 }) :=
      (Fate.setLink (by rfl)).trans (Fate.setSlot rfl hnb)
    rw [e]
    unfold releasePin
    dsimp only
    by_cases hh : (s.slot l.slot).state = .retiring ∧ (s.slot l.slot).pins ≤ 1
    · rw [if_pos (key.1 hh)]
      refine Eq.mpr (congrArg _ (if_pos hh)) (h1.trans (Fate.joinFree (m := l.slot) (by omega) ?_ fun f hfl => ?_))
      · rw [slot_setSlot]; split
        · exact hnb
        · exact hnb
      · refine ⟨(h.list hfl).1, ?_⟩
        rw [slot_setSlot]; split
        · exact hnb
        · exact (h.list hfl).2
    · rw [if_neg (fun x => hh (key.2 x))]
      exact Eq.mpr (congrArg _ (if_neg hh)) h1

/-- What LINK_REMOVE frees before it cancels a job: its cells' slots, its pending and next entries' slots, and its latch's slot, in this
order (R75). The job and the record are dealt with after it. -/
theorem fate_removeLink {s : State} (h : Ready s) {k : Nat} (ho : (s.link k).isOpen = true) : ∃ u,
    (removeLink k s).pool = (cancelJobOf k (dropQueueOf k u)).pool ∧ (removeLink k s).engine = (cancelJobOf k (dropQueueOf k u)).engine
      ∧ Fate s (s.freed ((s.link k).cells ++ (s.link k).pendingSet.filterMap id ++ (s.link k).nextSet.filterMap id)
        ++ (match (s.link k).latch with
          | some l =>
            if l.slot ≠ 0 ∧ (s.slot l.slot).pins = 1 ∧ (s.slot l.slot).refs =
              ((s.link k).cells ++ (s.link k).pendingSet.filterMap id ++ (s.link k).nextSet.filterMap id).count l.slot then [l.slot]
            else []
          | none => [])) u := by
  have hk := lt32 ho
  unfold removeLink
  obtain ⟨a1, b1⟩ := joins_dropCells h hk
  have l1 := cells_forSlices k hk (s.link k).cells.length s
  dsimp only
  generalize forSlices (s.link k).cells.length (fun _ => dropFirstCell k) s = u1 at *
  obtain ⟨a2, b2⟩ := joins_clearPendings a1 b1 hk
  have l2 : (clearPendings k u1).link k = { u1.link k with pendingSet := (u1.link k).pendingSet.map fun _ => none } := by
    obtain ⟨P, E, hfr⟩ := clearPendings_frame hk u1; rw [hfr]; exact tget_tset_same _ _ _ hk
  generalize clearPendings k u1 = u2 at *
  obtain ⟨a3, b3⟩ := joins_clearNexts a2 b2 hk
  have l3 : (clearNexts k u2).link k = { u2.link k with nextSet := (u2.link k).nextSet.map fun _ => none } := by
    obtain ⟨P, E, hfr⟩ := clearNexts_frame hk u2; rw [hfr]; exact tget_tset_same _ _ _ hk
  generalize clearNexts k u2 = u3 at *
  obtain ⟨_, f4⟩ := joins_releaseLatch a3 hk
  have e1 : (u1.link k).pendingSet = (s.link k).pendingSet := by rw [l1]
  have e2 : (u2.link k).nextSet = (s.link k).nextSet := by rw [l2, l1]
  have e3 : (u3.link k).latch = (s.link k).latch := by rw [l3, l2, l1]
  rw [e1, e2] at b3
  refine ⟨releaseLatch k u3, rfl, rfl, ?_⟩
  refine Eq.mp ?_ (b3.fate.trans f4)
  congr 2
  rw [e3]
  cases hl : (s.link k).latch with
  | none => rfl
  | some l =>
    dsimp only
    have hr := b3.refs l.slot (fun x => x)
    rw [b3.pins l.slot]
    congr 1
    apply propext
    constructor
    · rintro ⟨a, b, c⟩; exact ⟨a, c, by omega⟩
    · rintro ⟨a, b, c⟩; exact ⟨a, by omega, b⟩

/-- What the discard of an offered or expired set frees: its pending entries' slots, in ascending slice order (R144, R148). -/
theorem fate_clearPendings {s : State} (h : Ready s) {k : Nat} (hk : k < 32) :
    Fate s (s.freed ((s.link k).pendingSet.filterMap id)) (clearPendings k s) := by
  have := (joins_clearPendings h (Joins.refl _ (fun _ x => x.elim)) hk).2.fate
  simpa using this

/-! ### The flip (R149, R150) -/

/-- The slot that slice i's cell leaves at a flip, if it takes another (R149). -/
def leftSlot (P : List (Option Nat)) (C : List Nat) (i : Nat) : Option Nat :=
  match P.getD i none, C[i]? with
  | some n, some c => if c = n then none else some c
  | _, _ => none

/-- A slot that keeps a reference throughout is taken. -/
theorem Joins.take {B : Nat → Prop} {s t : State} {l : List Nat} {n : Nat} (h : Joins B s l t) (hn : B n)
    (hb : (t.slot n).state ≠ .building) : Joins B s l (takeRef n t) :=
  h.like (Fate.setSlot rfl hb) (fun m hm => by rw [refs_takeRef, if_neg (by rintro ⟨rfl, _⟩; exact hm hn)])
    (fun m => pins_takeRef n t m)

/-- One slice of a flip. -/
theorem flipSlice_step {s u : State} {k b : Nat} {l : List Nat} (hk : k < 32) (hs : Ready s) (h : Ready u)
    (hP : (u.link k).pendingSet = (s.link k).pendingSet) (hC : (u.link k).cells[b]? = (s.link k).cells[b]?)
    (hj : Joins (fun n => some n ∈ (s.link k).pendingSet) s l u) (hl : ∀ m, l.count m ≤ ((s.link k).cells.take b).count m) :
    Ready (flipSlice k b u) ∧ Joins (fun n => some n ∈ (s.link k).pendingSet) s
      (l ++ (leftSlot (s.link k).pendingSet (s.link k).cells b).toList) (flipSlice k b u) := by
  have hok := CountsOk.flipSlice h.ok k b
  unfold leftSlot
  have stay : flipSlice k b u = u → Ready (flipSlice k b u) ∧ Joins (fun n => some n ∈ (s.link k).pendingSet) s (l ++ []) (flipSlice k b u) := by
    intro e; rw [e, List.append_nil]; exact ⟨h, hj⟩
  cases hp : (s.link k).pendingSet.getD b none with
  | none => exact stay (by unfold flipSlice; rw [hP, hp])
  | some n =>
    have e1 : flipSlice k b u = setCell k b n u := by unfold flipSlice; rw [hP, hp]
    cases hc : (s.link k).cells[b]? with
    | none => exact stay (by rw [e1]; unfold setCell; rw [hC, hc])
    | some c =>
      dsimp only
      by_cases hcn : c = n
      · rw [if_pos hcn]; exact stay (by rw [e1]; unfold setCell; rw [hC, hc]; simp only [hcn, if_true])
      · rw [if_neg hcn]
        have hn : some n ∈ (s.link k).pendingSet := List.mem_of_getElem? (getD_some hp)
        have e2 : flipSlice k b u = releaseRef c (takeRef n (u.setLink k { u.link k with cells := (u.link k).cells.set b n })) := by
          rw [e1]; unfold setCell; rw [hC, hc]; simp only [if_neg hcn]
        rw [e2] at hok ⊢
        have hnu : n < 128 ∧ (u.slot n).state ≠ .building := h.named (refs_pending (k := k) (i := b) (by rw [hP]; exact hp))
        have hj1 : Joins (fun n => some n ∈ (s.link k).pendingSet) s l (takeRef n (u.setLink k { u.link k with cells := (u.link k).cells.set b n })) :=
          Joins.take (hj.like (Fate.setLink (by rfl)) (fun _ _ => rfl) (fun _ => rfl)) hn hnu.2
        have hmem : c ∈ (u.link k).cells := List.mem_of_getElem? (by rw [hC, hc])
        have hru : 0 < refs u.links c := cell_refs hk hmem
        have hou := h.ok.slotOf trivial h.on hru
        have h128 := (h.ok.fits trivial h.on).size.2
        have hrv : ((takeRef n (u.setLink k { u.link k with cells := (u.link k).cells.set b n })).slot c).refs = (u.slot c).refs := by
          rw [refs_takeRef, if_neg (by rintro ⟨a, _⟩; exact hcn a.symm)]; rfl
        have hst := fun m => takeRef_not_building n (u.setLink k { u.link k with cells := (u.link k).cells.set b n }) m
        have hrel := released_of hok (by exact h.on) (fun f hf => ⟨(h.list hf).1, hst f (h.list hf).2⟩) (n := c) (by omega)
          (hst c (h.named hru).2) (by rw [hrv]; exact hou.2.1)
        refine ⟨⟨hok, ?_⟩, ?_⟩
        · obtain ⟨p, e, hfr⟩ := releaseRef_frame c (takeRef n (u.setLink k { u.link k with cells := (u.link k).cells.set b n }))
          rw [hfr]; exact h.on
        · refine hj1.release hrel ?_
          intro hb
          constructor
          · have h1 := refs_ge s.links k c hk
            have h2 := hs.ok.ref trivial c (by omega)
            have h3 := List.one_le_count_iff.2 hb
            have h4 := hl c
            have h5 : ((s.link k).cells.take b).count c + 1 ≤ (s.link k).cells.count c := by
              have h6 : ((s.link k).cells.take (b + 1)).count c ≤ (s.link k).cells.count c := (List.take_sublist _ _).count_le c
              rw [List.take_add_one, hc, List.count_append] at h6
              simpa using h6
            simp only [Link.refCount] at h1
            unfold State.link at h3 h4 h5
            omega
          · rw [hrv]
            have h1 := refs_ge u.links k c hk
            have h2 := h.ok.ref trivial c (by omega)
            have h3 := List.one_le_count_iff.2 hb
            have h4 := List.one_le_count_iff.2 hmem
            rw [← hP] at h3
            simp only [Link.refCount] at h1
            unfold State.link at h3 h4
            omega

/-- The record while a flip takes its slices one after another. -/
theorem link_flipCells {k : Nat} (hk : k < 32) (b : Nat) (s : State) : ∃ cells : List Nat,
    (forSlices b (flipSlice k) s).link k = { s.link k with cells := cells }
      ∧ ∀ i : Nat, cells[i]? = if i < b then (match (s.link k).pendingSet.getD i none with
        | some n => (s.link k).cells[i]?.map fun _ => n
        | none => (s.link k).cells[i]?) else (s.link k).cells[i]? := by
  obtain ⟨p, e, hfr⟩ := forSlices_frame (f := flipSlice k) (g := fun i L =>
      { L with
        cells := match L.pendingSet.getD i none with
          | some m => L.cells.set i m
          | none => L.cells }) hk (fun i s => flipSlice_frame k i s) b s
  refine ⟨_, ?_, flippedCells_get (s.link k).pendingSet b (s.link k).cells⟩
  rw [hfr]
  exact (tget_tset_same _ _ _ hk).trans (foldl_flipCells (s.link k).pendingSet b (s.link k) rfl)

/-- The first part of a flip: the slots that the cells leave join the Free List, in ascending slice order (R149). -/
theorem joins_flipCells {s : State} (h : Ready s) {k : Nat} (hk : k < 32) (b : Nat) :
    Ready (forSlices b (flipSlice k) s) ∧ Joins (fun n => some n ∈ (s.link k).pendingSet) s
      ((List.range b).filterMap (leftSlot (s.link k).pendingSet (s.link k).cells)) (forSlices b (flipSlice k) s)
      ∧ (∀ m, ((List.range b).filterMap (leftSlot (s.link k).pendingSet (s.link k).cells)).count m ≤ ((s.link k).cells.take b).count m) := by
  induction b with
  | zero =>
    refine ⟨h, Joins.refl _ ?_, fun _ => Nat.zero_le _⟩
    intro n hn
    obtain ⟨i, hi⟩ := List.mem_iff_getElem?.1 hn
    exact (h.ok.slotOf trivial h.on (refs_pending (k := k) (i := i) (n := n) (by rw [List.getD_eq_getElem?_getD, hi]; rfl))).2.1
  | succ b ih =>
    obtain ⟨h1, h2, h3⟩ := ih
    rw [forSlices_succ]
    obtain ⟨cells, hl, hg⟩ := link_flipCells hk b s
    have hp : ((forSlices b (flipSlice k) s).link k).pendingSet = (s.link k).pendingSet := by rw [hl]
    have hc : ((forSlices b (flipSlice k) s).link k).cells[b]? = (s.link k).cells[b]? := by
      rw [hl]; exact (hg b).trans (if_neg (Nat.lt_irrefl b))
    obtain ⟨a1, a2⟩ := flipSlice_step hk h h1 hp hc h2 h3
    have er : (List.range (b + 1)).filterMap (leftSlot (s.link k).pendingSet (s.link k).cells) =
        (List.range b).filterMap (leftSlot (s.link k).pendingSet (s.link k).cells) ++ (leftSlot (s.link k).pendingSet (s.link k).cells b).toList := by
      rw [List.range_succ, List.filterMap_append]
      congr 1
    rw [er]
    refine ⟨a1, a2, ?_⟩
    intro m
    rw [List.count_append, List.take_add_one, List.count_append]
    have := h3 m
    have hle : (leftSlot (s.link k).pendingSet (s.link k).cells b).toList.count m ≤ (s.link k).cells[b]?.toList.count m := by
      unfold leftSlot
      split
      · rename_i n c e1 e2
        split
        · simp
        · rw [e2]
      · simp
    omega

/-- Pending entries whose slots the cells of the same link name free nothing as they are cleared. -/
theorem fate_clearPendings_named {s : State} (h : Ready s) {k : Nat} (hk : k < 32)
    (hn : ∀ n, some n ∈ (s.link k).pendingSet → n ∈ (s.link k).cells) : Fate s [] (clearPendings k s) := by
  have key : ∀ b, Ready (forSlices b (clearPending k) s) ∧ Fate s [] (forSlices b (clearPending k) s)
      ∧ ((forSlices b (clearPending k) s).link k).cells = (s.link k).cells
      ∧ ∀ n, some n ∈ ((forSlices b (clearPending k) s).link k).pendingSet → some n ∈ (s.link k).pendingSet := by
    intro b
    induction b with
    | zero => exact ⟨h, Fate.stay rfl (fun _ => rfl) rfl rfl, rfl, fun _ x => x⟩
    | succ b ih =>
      obtain ⟨h1, h2, h3, h4⟩ := ih
      rw [forSlices_succ]
      generalize forSlices b (clearPending k) s = u at *
      have h5 := clearPending_step h1 k b
      obtain ⟨p, e, hfr⟩ := clearPending_frame k b u
      have hl : (clearPending k b u).link k = { u.link k with pendingSet := (u.link k).pendingSet.set b none } := by
        rw [hfr]; exact tget_tset_same _ _ _ hk
      cases hp : (u.link k).pendingSet.getD b none with
      | none =>
        rw [hp] at h5; dsimp only at h5
        rw [h5]; exact ⟨h1, h2, h3, h4⟩
      | some n =>
        rw [hp] at h5; dsimp only at h5
        refine ⟨h5.2, ?_, by rw [hl]; exact h3, ?_⟩
        · have hf := h5.1.fate
          rw [if_neg] at hf
          · exact h2.trans hf
          rintro ⟨_, _, hr⟩
          have hm := List.mem_of_getElem? (getD_some hp)
          have hm2 := hn n (h4 n hm)
          rw [← h3] at hm2
          have a1 := refs_ge u.links k n hk
          have a2 := List.one_le_count_iff.2 hm
          have a3 := List.one_le_count_iff.2 hm2
          have ho := h1.ok.slotOf trivial h1.on (refs_pending hp)
          have h128 := (h1.ok.fits trivial h1.on).size.2
          have a4 := h1.ok.ref trivial n (by omega)
          simp only [Link.refCount] at a1
          unfold State.link at a2 a3
          omega
        · intro m hm
          rw [hl] at hm
          rcases List.mem_or_eq_of_mem_set hm with hm | hm
          · exact h4 m hm
          · cases hm
  exact (key _).2.1

/-- What a flip frees: the slots its cells leave, in ascending slice order (R149, R150). What follows leaves the pool and the engine. -/
theorem fate_flipLink {s : State} (h : Ready s) {k : Nat} (ho : (s.link k).isOpen = true)
    (hlen : (s.link k).pendingSet.length ≤ (s.link k).cells.length) : ∃ u, (flipLink k s).pool = u.pool ∧ (flipLink k s).engine = u.engine
    ∧ Fate s (s.freed ((List.range (s.link k).pendingSet.length).filterMap (leftSlot (s.link k).pendingSet (s.link k).cells))) u := by
  have hk := lt32 ho
  unfold flipLink
  dsimp only
  obtain ⟨h1, h2, _⟩ := joins_flipCells h hk (s.link k).pendingSet.length
  obtain ⟨cells, hl, hg⟩ := link_flipCells hk (s.link k).pendingSet.length s
  generalize forSlices (s.link k).pendingSet.length (flipSlice k) s = u at *
  have ho1 : (u.link k).isOpen = true := by rw [hl]; exact ho
  have h3 : Ready (u.setLink k { u.link k with activeSet := (u.link k).pendingSetNo, streak := 0 }) :=
    ⟨h1.ok.plain ho1 ho1 rfl rfl rfl rfl, h1.on⟩
  have hlist := fate_clearPendings_named h3 hk (by
    intro n hn
    rw [link_setLink_same _ _ hk] at hn ⊢
    rw [hl] at hn ⊢
    obtain ⟨i, hi⟩ := List.mem_iff_getElem?.1 hn
    have hi' : (s.link k).pendingSet[i]? = some (some n) := hi
    have hlt : i < (s.link k).pendingSet.length := (List.getElem?_eq_some_iff.1 hi').1
    have hc := hg i
    rw [if_pos hlt, List.getD_eq_getElem?_getD, hi'] at hc
    simp only [Option.getD_some] at hc
    rw [List.getElem?_eq_getElem (l := (s.link k).cells) (i := i) (by omega)] at hc
    exact List.mem_of_getElem? hc)
  generalize clearPendings k (u.setLink k { u.link k with activeSet := (u.link k).pendingSetNo, streak := 0 }) = v at *
  obtain ⟨L, n, hpn⟩ := promoteNext_frame (k := k) (State.setLink
    (raise (.switched k (v.link k).activeSet (s.link k).pendingMask s.tracker.halfCount) v) k
    { (raise (.switched k (v.link k).activeSet (s.link k).pendingMask s.tracker.halfCount) v).link k with
      effective := 0, offerAge := 0 })
  rw [hpn]
  refine ⟨v, rfl, rfl, ?_⟩
  simpa using (h2.fate.trans (Fate.setLink (by rfl))).trans hlist

/-! ### A result (R138 to R141) -/

/-- A link entry takes another slot: the slot that it named is freed where nothing else holds it. With no job waiting. -/
theorem freeList_replace {v : State} {n old k : Nat} (h : Ready v) (hw : v.jobWaits = false) (L : Link) (hn : old ≠ n)
    (hr : 0 < refs v.links old) (hc : CountsOk True True True (releaseRef old (takeRef n (v.setLink k L)))) :
    (releaseRef old (takeRef n (v.setLink k L))).pool.freeList = v.pool.freeList ++ v.freed [old] := by
  have ho := h.ok.slotOf trivial h.on hr
  have hst := fun m => takeRef_not_building n (v.setLink k L) m
  have hr1 : ((takeRef n (v.setLink k L)).slot old).refs = (v.slot old).refs := by
    rw [refs_takeRef, if_neg (by rintro ⟨rfl, _⟩; exact hn rfl)]; rfl
  have hp1 : ((takeRef n (v.setLink k L)).slot old).pins = (v.slot old).pins := pins_takeRef n _ old
  have hrel := released_of hc (by exact h.on) (fun f hf => ⟨(h.list hf).1, hst f (h.list hf).2⟩) (h.named hr).1
    (hst old (h.named hr).2) (by rw [hr1]; exact ho.2.1)
  rw [(hrel.fate.quiet (Or.inl (by exact hw))).1, hr1, hp1]
  have := freed_snoc v [] old
  rw [List.nil_append, freed_nil, List.nil_append, List.count_nil, Nat.zero_add] at this
  rw [this]
  rfl

/-- What a result frees: the slot of the entry it replaces, if nothing else holds it (R139 to R141). -/
theorem freeList_handOff (s : State) (j : Job) (n : Nat) (hl : s.PoolLaws) (hft : s.filter ≠ .transparent)
    (ho : (s.link j.link).isOpen = true) (hm : (s.link j.link).mode ≠ .fallback)
    (hn : n < s.shadow.poolSlots ∧ (0 < n → (s.slot n).state ≠ .free))
    (h1 : j.slice < (s.link j.link).pendingSet.length) (h2 : j.slice < (s.link j.link).nextSet.length) :
   (handOff j n s).pool.freeList = s.pool.freeList
          ++ (match (if (s.link j.link).swState = .confirmed then (s.link j.link).nextSet else (s.link j.link).pendingSet)[j.slice]? with
            | some (some old) => if old = n then [] else s.freed [old]
            | _ => []) := by
  have hk := lt32 ho
  have hr0 := Ready.of hl hft
  have hok := (hr0.ok.setBuildMean j).endJob
  unfold handOff
  generalize hv : endJob (setBuildMean j s) = v at *
  have hlink : v.link j.link = { s.link j.link with
    summary := (s.link j.link).summary.modify j.slice fun m => { m with buildMean := j.mean } } := by
    rw [← hv]; exact tget_tset_same _ _ _ hk
  have hpool : v.pool = s.pool := by rw [← hv]; rfl
  have hfil : v.filter = s.filter := by rw [← hv]; rfl
  have hsh : v.shadow = s.shadow := by rw [← hv]; rfl
  have hw : v.jobWaits = false := by rw [← hv]; rfl
  have hr : Ready v := ⟨hok, by rw [hfil]; exact hft⟩
  have hjs : v.jobSlot ≠ some n := by rw [← hv]; simp [State.jobSlot, Machine.endJob, Engine.idle]
  have hslot : ∀ m, v.slot m = s.slot m := fun m => by unfold State.slot; rw [hpool]
  have hnv : v.filter ≠ .transparent → n < v.shadow.poolSlots ∧ (0 < n → (v.slot n).state ≠ .free) ∧ v.jobSlot ≠ some n :=
    fun _ => ⟨by rw [hsh]; exact hn.1, by rw [hslot]; exact hn.2, hjs⟩
  have hfreed : ∀ l, v.freed l = s.freed l := fun l => by unfold State.freed; simp only [hslot]
  have hP : (setPending j.link j.slice n v).pool.freeList = s.pool.freeList ++ (match (s.link j.link).pendingSet[j.slice]? with
            | some (some old) => if old = n then [] else s.freed [old]
            | _ => []) := by
    have hc := hr.ok.setPending j.link j.slice n (fun _ => hnv)
    have e : (v.link j.link).pendingSet = (s.link j.link).pendingSet := by rw [hlink]
    unfold Machine.setPending at hc ⊢
    rw [e] at hc ⊢
    cases hx : (s.link j.link).pendingSet[j.slice]? with
    | none => simp [hpool]
    | some o =>
      cases o with
      | none => simp [takeRef, State.setSlot, State.setLink, hpool]
      | some old =>
        rw [hx] at hc
        dsimp only at hc ⊢
        by_cases hon : old = n
        · simp [hon, hpool]
        · rw [if_neg hon] at hc ⊢
          rw [if_neg hon, freeList_replace hr hw _ hon (refs_pending (k := j.link) (i := j.slice)
            (by rw [e, List.getD_eq_getElem?_getD, hx]; rfl)) hc, hpool, hfreed]
  have hN : (setNext j.link j.slice n v).pool.freeList = s.pool.freeList ++ (match (s.link j.link).nextSet[j.slice]? with
            | some (some old) => if old = n then [] else s.freed [old]
            | _ => []) := by
    have hc := hr.ok.setNext j.link j.slice n (fun _ => hnv)
    have e : (v.link j.link).nextSet = (s.link j.link).nextSet := by rw [hlink]
    unfold Machine.setNext at hc ⊢
    rw [e] at hc ⊢
    cases hx : (s.link j.link).nextSet[j.slice]? with
    | none => simp [hpool]
    | some o =>
      cases o with
      | none => simp [takeRef, State.setSlot, State.setLink, hpool]
      | some old =>
        rw [hx] at hc
        dsimp only at hc ⊢
        by_cases hon : old = n
        · simp [hon, hpool]
        · rw [if_neg hon] at hc ⊢
          rw [if_neg hon, freeList_replace hr hw _ hon (refs_next (k := j.link) (i := j.slice)
            (by rw [e, List.getD_eq_getElem?_getD, hx]; rfl)) hc, hpool, hfreed]
  have hot : ∀ u, (offerTest j.link u).pool = u.pool := fun u => by obtain ⟨L, m, h⟩ := offerTest_frame j.link u; rw [h]
  have hsw : (v.link j.link).swState = (s.link j.link).swState := by rw [hlink]
  unfold takeResult
  rw [if_pos (by rw [hlink]; simp [ho, hm])]
  rw [hsw]
  cases hs : (s.link j.link).swState <;> dsimp only
  · rw [if_neg (by decide), ← hP]; unfold newPendingSet; rw [hot]; rfl
  · rw [if_neg (by decide), ← hP, hot]
  · rw [if_neg (by decide), ← hP]; unfold newPendingSet; rw [hot]; rfl
  · rw [if_pos rfl, ← hN]

end Sys2Proof.Machine
end

