-- ==== Sys2Proof/Laws/PerInstr.lean ====
section
/-! SUPPORT. Made for each command: a well-formed write row's burst gives one beat for each of its words. -/

namespace Sys2Proof.Laws.WfShape

/-- The write burst of a row that has one. -/
def burstOf : Instr → Option WriteBurst
  | .apply b => some b
  | .withdraw b => some b
  | .linkAdd b => some b
  | .linkRemove b => some b
  | .linkHold b => some b
  | .linkResume b => some b
  | .rebuild b => some b
  | .confirm b => some b
  | .decline b => some b
  | .badCodeCommand b => some b
  | .cmdArgWrite b => some b
  | .noticeConsumerWrite b => some b
  | .configWrite b => some b
  | .processorWrite b => some b
  | .discardedWrite b => some b
  | .estimateHeaderWrite b => some b
  | .estimateArrival b => some b
  | .descriptorRefCapture b => some b
  | .descriptorNodeCapture b => some b
  | .commit b => some b
  | .descriptorDone b => some b
  | .descriptorHostOwned b => some b
  | .descriptorRejected b => some b
  | _ => none

/-- A well-formed command's write burst gives one beat for each of its words (R1). -/
def Statement (i : Instr) : Prop := i.wf = true → ∀ b, burstOf i = some b → b.beats.length = b.len.words

/-- The shape check says that there is one beat for each word. -/
theorem shape {b : WriteBurst} (h : b.shapeOk = true) : b.beats.length = b.len.words := by
  simpa [WriteBurst.shapeOk] using h

theorem hardwareReset (n : Nat) : Statement (.hardwareReset n) := by
  intro _ x hx
  cases hx

theorem resetDeassert (zc : Bool) : Statement (.resetDeassert zc) := by
  intro _ x hx
  cases hx

theorem apply (b : WriteBurst) : Statement (.apply b) := by
  intro h x hx
  obtain rfl := Option.some.inj hx
  simp only [Instr.wf, Bool.and_eq_true] at h
  exact shape (by simp only [h])

theorem withdraw (b : WriteBurst) : Statement (.withdraw b) := by
  intro h x hx
  obtain rfl := Option.some.inj hx
  simp only [Instr.wf, Bool.and_eq_true] at h
  exact shape (by simp only [h])

theorem linkAdd (b : WriteBurst) : Statement (.linkAdd b) := by
  intro h x hx
  obtain rfl := Option.some.inj hx
  simp only [Instr.wf, Bool.and_eq_true] at h
  exact shape (by simp only [h])

theorem linkRemove (b : WriteBurst) : Statement (.linkRemove b) := by
  intro h x hx
  obtain rfl := Option.some.inj hx
  simp only [Instr.wf, Bool.and_eq_true] at h
  exact shape (by simp only [h])

theorem linkHold (b : WriteBurst) : Statement (.linkHold b) := by
  intro h x hx
  obtain rfl := Option.some.inj hx
  simp only [Instr.wf, Bool.and_eq_true] at h
  exact shape (by simp only [h])

theorem linkResume (b : WriteBurst) : Statement (.linkResume b) := by
  intro h x hx
  obtain rfl := Option.some.inj hx
  simp only [Instr.wf, Bool.and_eq_true] at h
  exact shape (by simp only [h])

theorem rebuild (b : WriteBurst) : Statement (.rebuild b) := by
  intro h x hx
  obtain rfl := Option.some.inj hx
  simp only [Instr.wf, Bool.and_eq_true] at h
  exact shape (by simp only [h])

theorem confirm (b : WriteBurst) : Statement (.confirm b) := by
  intro h x hx
  obtain rfl := Option.some.inj hx
  simp only [Instr.wf, Bool.and_eq_true] at h
  exact shape (by simp only [h])

theorem decline (b : WriteBurst) : Statement (.decline b) := by
  intro h x hx
  obtain rfl := Option.some.inj hx
  simp only [Instr.wf, Bool.and_eq_true] at h
  exact shape (by simp only [h])

theorem badCodeCommand (b : WriteBurst) : Statement (.badCodeCommand b) := by
  intro h x hx
  obtain rfl := Option.some.inj hx
  simp only [Instr.wf, Bool.and_eq_true] at h
  exact shape (by simp only [h])

theorem cmdArgWrite (b : WriteBurst) : Statement (.cmdArgWrite b) := by
  intro h x hx
  obtain rfl := Option.some.inj hx
  simp only [Instr.wf, Bool.and_eq_true] at h
  exact shape (by simp only [h])

theorem noticeConsumerWrite (b : WriteBurst) : Statement (.noticeConsumerWrite b) := by
  intro h x hx
  obtain rfl := Option.some.inj hx
  simp only [Instr.wf, Bool.and_eq_true] at h
  exact shape (by simp only [h])

theorem configWrite (b : WriteBurst) : Statement (.configWrite b) := by
  intro h x hx
  obtain rfl := Option.some.inj hx
  simp only [Instr.wf, Bool.and_eq_true] at h
  exact shape (by simp only [h])

theorem processorWrite (b : WriteBurst) : Statement (.processorWrite b) := by
  intro h x hx
  obtain rfl := Option.some.inj hx
  exact shape h

theorem discardedWrite (b : WriteBurst) : Statement (.discardedWrite b) := by
  intro h x hx
  obtain rfl := Option.some.inj hx
  exact shape h

theorem estimateHeaderWrite (b : WriteBurst) : Statement (.estimateHeaderWrite b) := by
  intro h x hx
  obtain rfl := Option.some.inj hx
  simp only [Instr.wf, Bool.and_eq_true] at h
  exact shape (by simp only [h])

theorem estimateArrival (b : WriteBurst) : Statement (.estimateArrival b) := by
  intro h x hx
  obtain rfl := Option.some.inj hx
  simp only [Instr.wf, Bool.and_eq_true] at h
  exact shape (by simp only [h])

theorem descriptorRefCapture (b : WriteBurst) : Statement (.descriptorRefCapture b) := by
  intro h x hx
  obtain rfl := Option.some.inj hx
  simp only [Instr.wf, Bool.and_eq_true] at h
  exact shape (by simp only [h])

theorem descriptorNodeCapture (b : WriteBurst) : Statement (.descriptorNodeCapture b) := by
  intro h x hx
  obtain rfl := Option.some.inj hx
  simp only [Instr.wf, Bool.and_eq_true] at h
  exact shape (by simp only [h])

theorem commit (b : WriteBurst) : Statement (.commit b) := by
  intro h x hx
  obtain rfl := Option.some.inj hx
  simp only [Instr.wf, Bool.and_eq_true] at h
  exact shape (by simp only [h])

theorem descriptorDone (b : WriteBurst) : Statement (.descriptorDone b) := by
  intro h x hx
  obtain rfl := Option.some.inj hx
  simp only [Instr.wf, Bool.and_eq_true] at h
  exact shape (by simp only [h])

theorem descriptorHostOwned (b : WriteBurst) : Statement (.descriptorHostOwned b) := by
  intro h x hx
  obtain rfl := Option.some.inj hx
  simp only [Instr.wf, Bool.and_eq_true] at h
  exact shape (by simp only [h])

theorem descriptorRejected (b : WriteBurst) : Statement (.descriptorRejected b) := by
  intro h x hx
  obtain rfl := Option.some.inj hx
  simp only [Instr.wf, Bool.and_eq_true] at h
  exact shape (by simp only [h])

theorem aliasRead (r : ReadBurst) : Statement (.aliasRead r) := by
  intro _ x hx
  cases hx

theorem processorBurstDone : Statement (.processorBurstDone) := by
  intro _ x hx
  cases hx

theorem zcEdge (level : Bool) : Statement (.zcEdge level) := by
  intro _ x hx
  cases hx

theorem captureWindowMiss : Statement (.captureWindowMiss) := by
  intro _ x hx
  cases hx

theorem sliceBoundary : Statement (.sliceBoundary) := by
  intro _ x hx
  cases hx

theorem gatherEnd (k : Nat) : Statement (.gatherEnd k) := by
  intro _ x hx
  cases hx

theorem offerExpiry (k : Nat) : Statement (.offerExpiry k) := by
  intro _ x hx
  cases hx

theorem flip (k : Nat) : Statement (.flip k) := by
  intro _ x hx
  cases hx

theorem notchReadDone : Statement (.notchReadDone) := by
  intro _ x hx
  cases hx

theorem baseLoadingWriteDone : Statement (.baseLoadingWriteDone) := by
  intro _ x hx
  cases hx

theorem baseHeaderWriteDone : Statement (.baseHeaderWriteDone) := by
  intro _ x hx
  cases hx

theorem jobStart : Statement (.jobStart) := by
  intro _ x hx
  cases hx

theorem headerReadDone : Statement (.headerReadDone) := by
  intro _ x hx
  cases hx

theorem snrBurstDone : Statement (.snrBurstDone) := by
  intro _ x hx
  cases hx

theorem candidateBurstDone : Statement (.candidateBurstDone) := by
  intro _ x hx
  cases hx

theorem allocateAfterWait : Statement (.allocateAfterWait) := by
  intro _ x hx
  cases hx

theorem loadingWriteDone : Statement (.loadingWriteDone) := by
  intro _ x hx
  cases hx

theorem headerWriteDone : Statement (.headerWriteDone) := by
  intro _ x hx
  cases hx

theorem noticeWriteDone : Statement (.noticeWriteDone) := by
  intro _ x hx
  cases hx

theorem processorRead (r : ReadBurst) : Statement (.processorRead r) := by
  intro _ x hx
  cases hx

theorem endedClientBurstDone : Statement (.endedClientBurstDone) := by
  intro _ x hx
  cases hx

end Sys2Proof.Laws.WfShape
end

