-- ==== Sys2Proof/Tests/Slice0.lean ====
section
/-! SUPPORT. Tests: an ill-formed command for each check, the manual's worked figures, and for each statement with hypotheses a state that
meets them. -/

namespace Sys2Proof.Tests

set_option Elab.async false

open Sys2Proof Sys2Proof.Machine

/-! ### Ill-formed commands -/

/-- A one-word burst with every byte enabled. -/
def one (a : Addr) (x : Word) : WriteBurst := ⟨a, .one, [⟨x, 15⟩]⟩

/-- A one-word burst with two byte enables clear. -/
def part (a : Addr) (x : Word) : WriteBurst := ⟨a, .one, [⟨x, 3⟩]⟩

theorem test_wf_shape : Instr.wf (.processorWrite ⟨0x200, .two, [⟨1, 15⟩]⟩) = false := by decide
theorem test_wf_reset : Instr.wf (.hardwareReset 9) = false := by decide
theorem test_wf_code : Instr.wf (.apply (one 0x10C 2)) = false ∧ Instr.wf (.withdraw (part 0x10C 2)) = false
    ∧ Instr.wf (.linkAdd (one 0x10B 3)) = false ∧ Instr.wf (.linkRemove (one 0x10C 3)) = false
    ∧ Instr.wf (.linkHold (one 0x10C 6)) = false ∧ Instr.wf (.linkResume (one 0x10C 5)) = false
    ∧ Instr.wf (.rebuild (one 0x10C 8)) = false ∧ Instr.wf (.confirm (one 0x10C 9)) = false
    ∧ Instr.wf (.decline (one 0x10C 8)) = false ∧ Instr.wf (.badCodeCommand (one 0x10C 9)) = false := by decide
theorem test_wf_mailbox : Instr.wf (.cmdArgWrite (one 0x10C 1)) = false
    ∧ Instr.wf (.noticeConsumerWrite (one 0x109 1)) = false := by decide
theorem test_wf_config : Instr.wf (.configWrite (one 0x130 1)) = false := by decide
theorem test_wf_estimate : Instr.wf (.estimateHeaderWrite (one 0x50007 1)) = false
    ∧ Instr.wf (.estimateArrival (one 0x50000 1)) = false := by decide
theorem test_wf_descriptor : Instr.wf (.descriptorRefCapture (one 0x2002 1)) = false
    ∧ Instr.wf (.descriptorNodeCapture (one 0x2001 1)) = false ∧ Instr.wf (.commit (one 0x2000 2)) = false
    ∧ Instr.wf (.descriptorDone (one 0x2000 1)) = false ∧ Instr.wf (.descriptorHostOwned (one 0x2000 1)) = false
    ∧ Instr.wf (.descriptorRejected (one 0x2000 1)) = false := by decide
theorem test_wf_link : Instr.wf (.gatherEnd 32) = false ∧ Instr.wf (.offerExpiry 32) = false ∧ Instr.wf (.flip 32) = false := by
  decide
theorem test_wf_good : Instr.wf (.apply (one 0x10C 1)) = true ∧ Instr.wf (.commit (one 0x2000 1)) = true := by decide

/-! ### Small states -/

/-- A configuration that passes the checks: the windows apart, C = 1024, S = 6, P = 64, IRQ_EN = 1, the rest the defaults. -/
def cfg : Shadow :=
  #v[0x00100000, 0x00020000, 0x00001000, 0x00040000, 0x00050000, 0x00002000, 0x00003000, 0x00004000,
     0x00100040, 0x00400020, 0x01060400, 0x34281C10, 0x64584C40, 0x0C087C70, 0x03020040, 0x00C80190,
     0x060807D0, 0x01000408, 0, 0, 0, 0, 0, 0,
     0, 0, 0, 0, 0, 0, 0, 0]

/-- LOCKED, half a half-cycle after a start of count 10. -/
def locked : Tracker :=
  { Tracker.reset with
    state := .locked, period := 10000, boundaries := boundariesOf 10000 6, slice := some 0, halfCount := 10, epoch := 1 }

/-- A link that serves node 5, every cell at slot 0. -/
def lnk : Link :=
  { Link.free with
    isOpen := true
    node := 5
    cells := List.replicate 6 0
    pendingSet := List.replicate 6 none
    nextSet := List.replicate 6 none
    summary := List.replicate 6 Summary.empty }

/-- OPERATING and LOCKED, with one link as given. -/
def opAt (k : Nat) (L : Link) : State :=
  { State.reset with
    filter := .operating
    shadow := cfg
    tick := 5000
    zcLevel := some false
    tracker := locked
    links := tset (Vector.replicate 32 Link.free) k L
    pool := { poolApplied 64 with
      slots := tset (poolApplied 64).slots 0 { SlotRec.reset with state := .base, refs := L.refCount 0, total := 1024 } } }

/-- The same, with link 0. -/
def op (L : Link) : State := opAt 0 L

/-- A state with a burst of a use on the port. -/
def onPort (u : PortUse) (m : MemBurst) (s : State) : State := { s with path := { s.path with port := some ⟨u, m⟩ } }

/-- A job of link 0 for slice 0 from record 0. -/
def job (st : Stage) (slot : Option Nat) : Job :=
  { link := 0, slice := 0, record := 0, seq := 7, reason := .auto, stage := st, mean := none, total := 0, signature := 0
    candidates := [], slot := slot, pos := 0, candIx := 0 }

/-- A state with a job. -/
def withJob (j : Job) (s : State) : State := { s with engine := { s.engine with job := some j } }

/-- A command burst: consumer index 0, the arguments and the code in one 8-word burst. -/
def cmd (code a0 a1 a2 : Word) : WriteBurst :=
  ⟨0x108, .eight, [⟨0, 15⟩, ⟨a0, 15⟩, ⟨a1, 15⟩, ⟨a2, 15⟩, ⟨code, 15⟩, ⟨0, 15⟩, ⟨0, 15⟩, ⟨0, 15⟩]⟩

/-- A burst with one beat replaced by a partial one. -/
def spoil (b : WriteBurst) (i : Nat) : WriteBurst := { b with beats := b.beats.set i ⟨1, 3⟩ }

theorem cmd_burst {s : State} (h : s.accepts = true) (code a0 a1 a2 : Word) :
    CommandBurst s (cmd code a0 a1 a2) code.toNat := by
  have hb : (cmd code a0 a1 a2).base = 0x108 := by
    show alignedBase 0x108 .eight = 0x108
    decide
  refine ⟨⟨h, by rw [hb], by rw [hb]; decide, Or.inr ?_⟩, code, ?_, rfl⟩
  · unfold lowestPartial
    rw [hb]
    rfl
  · unfold WriteBurst.fullAt WriteBurst.beatAt
    rw [hb]
    rfl

/-- A claim about OPEN links needs to be looked at below 32 alone. -/
theorem open_below {s : State} {P : Nat → Prop} (h : ∀ k, k < 32 → (s.link k).isOpen = true → P k) (k : Nat)
    (ho : (s.link k).isOpen = true) : P k := by
  by_cases hk : k < 32
  · exact h k hk ho
  · rw [link_beyond s (Nat.not_lt.1 hk)] at ho; cases ho

theorem freeOk_below {s : State} (h : ∀ k, k < 32 → (s.link k).isOpen = false →
    s.link k = { Link.free with changes := (s.link k).changes }) : s.FreeOk := by
  intro k ho
  by_cases hk : k < 32
  · exact h k hk ho
  · rw [link_beyond s (Nat.not_lt.1 hk)]

/-! ### The manual's figures -/

/-- IDENT, and RESULT after hardware reset. -/
theorem test_ident : ident0 = 0x0B520320#32 ∧ State.reset.resultWord = 0#32 := by decide

/-- APPLY with the defaults: BAD_CONFIG 3 (2.9). -/
theorem test_apply_defaults : Shadow.reset.firstFailing = some 3 ∧ cfg.firstFailing = none := by decide +kernel

/-- APPLY given with the defaults leaves RESULT 1, BAD_CONFIG, 3 (2.9). -/
theorem test_apply_result :
    (applyCommand State.reset).result = ⟨1, .badConfig, 3⟩ ∧ (applyCommand State.reset).filter = .transparent := by
  decide +kernel

/-- A command's words pass to memory: the port carries the burst. -/
theorem test_apply_passes : ((writeArrival (cmd 1 0 0 0) State.reset).path.port.map PortBurst.use) = some .processor := by
  decide +kernel

/-- WITHDRAW in TRANSPARENT is refused and counted (2.9). -/
theorem test_withdraw : (writeArrival (cmd 2 0 0 0) State.reset).result = ⟨1, .wrongState, 0⟩
    ∧ (writeArrival (cmd 2 0 0 0) (op lnk)).filter = .transparent := by decide +kernel

/-- LINK_ADD of node 7 opens link 1; of node 5 it is DUP_NODE; of node 255 BAD_NODE. -/
theorem test_link_add : (writeArrival (cmd 3 7 0 0) (op lnk)).result = ⟨1, .ok, 1⟩
    ∧ (writeArrival (cmd 3 5 0 0) (op lnk)).result = ⟨1, .dupNode, 0⟩
    ∧ (writeArrival (cmd 3 255 0 0) (op lnk)).result = ⟨1, .badNode, 0⟩
    ∧ ((writeArrival (cmd 3 7 0 0) (op lnk)).slot 0).refs = 12 := by decide +kernel

/-- LINK_REMOVE gives back the references. -/
theorem test_link_remove : ((writeArrival (cmd 4 0 0 0) (op lnk)).slot 0).refs = 0
    ∧ (writeArrival (cmd 4 0 0 0) (op lnk)).link 0 = { Link.free with changes := 1 } := by decide +kernel

theorem test_link_hold : ((writeArrival (cmd 5 0 0 0) (op lnk)).link 0).mode = .hold := by decide +kernel

theorem test_link_resume :
    ((writeArrival (cmd 6 0 0 0) (op { lnk with mode := .fallback, streak := 3 })).link 0) = { lnk with changes := 1 } := by
  decide +kernel

/-- REBUILD of slices 0 and 2, of which slice 2 alone has a latest record. -/
theorem test_rebuild : (writeArrival (cmd 7 0 5 0)
    (op { lnk with summary := lnk.summary.set 2 { Summary.empty with last := some (3, 9) } })).result = ⟨1, .ok, 1⟩ := by
  decide +kernel

/-- CONFIRM one start ahead is taken, and of the present start it is LATE. -/
theorem test_confirm : ((writeArrival (cmd 8 0 1 11) (op { lnk with swState := .offered, pendingSetNo := 1 })).link 0).swState
      = .confirmed
    ∧ (writeArrival (cmd 8 0 1 10) (op { lnk with swState := .offered, pendingSetNo := 1 })).result = ⟨1, .late, 0⟩ := by
  decide +kernel

theorem test_decline : ((writeArrival (cmd 9 0 1 0) (op { lnk with swState := .offered, pendingSetNo := 1 })).link 0).swState
    = .steady := by decide +kernel

theorem test_bad_code : (writeArrival (cmd 10 0 0 0) State.reset).result = ⟨1, .badCode, 0⟩ := by decide +kernel

theorem test_arguments : (writeArrival (one 0x10A 77) State.reset).arg1 = 77 := by decide +kernel

/-- The consumer write of 14 in the ring of 11.6. -/
theorem test_consumer : (consume 14 { op lnk with
      shadow := cfg.set 9 0x00100020
      notices := { NoticeWriter.reset with
        producer := 1, consumer := 2, urgentCount := 1, overflow := true
        classes := tset NoticeWriter.reset.classes 0 .urgent } }).notices.consumer = 14
    ∧ (consume 14 { op lnk with
      shadow := cfg.set 9 0x00100020
      notices := { NoticeWriter.reset with
        producer := 1, consumer := 2, urgentCount := 1, overflow := true
        classes := tset NoticeWriter.reset.classes 0 .urgent } }).notices.urgentCount = 1 := by decide +kernel

/-- A configuration byte is shadowed in TRANSPARENT alone. -/
theorem test_config : ((writeArrival ⟨0x110, .one, [⟨0xAABBCCDD, 4⟩]⟩ State.reset).shadow.word 16) = 0x00BB0000#32
    ∧ (writeArrival ⟨0x110, .one, [⟨0xAABBCCDD, 4⟩]⟩ (op lnk)).shadow = cfg := by decide +kernel

/-- A write to the Map Pool is discarded with a GUARD notice, which takes the port at once. -/
theorem test_discarded : (writeArrival (one 0x40005 1) (op lnk)).path.waiting = none
    ∧ (writeArrival (one 0x40005 1) (op lnk)).notices.staging = [⟨.guardWrite .pool 5 .protect, 10, 1⟩]
    ∧ ((writeArrival (one 0x40005 1) (op lnk)).path.port.map PortBurst.use) = some .notice := by decide +kernel

theorem test_passes : (writeArrival (one 0x200 1) (op lnk)).path.port = some ⟨.processor, .write 0x200 [⟨1, 15⟩]⟩ := by
  decide +kernel

theorem test_header_word : ((writeArrival (one 0x50001 5) (op lnk)).headerOf 0).node = 5 := by decide +kernel

/-- An arrival for node 5, slice 0, epoch 1, C = 1024: the summary counts it, and a build is requested. -/
theorem test_arrival : (arrival 0 0x80000007
      { op lnk with headers := tset (op lnk).headers 0 ⟨5, 0x100, 1, 40, 2, 1024⟩ }).buildQueue = [⟨0, 0, 0, 7, .auto⟩]
    ∧ (arrival 0 0x80000007 (op lnk)).notices.staging = [⟨.estimateIgnored none 0 .staleEpoch 7 0 0, 10, 1⟩] := by
  decide +kernel

theorem test_captures : ((writeArrival (one 0x2001 0x00000203) (op lnk)).pinEntry 0).ref = some ⟨3, 2⟩
    ∧ ((writeArrival (one 0x2002 5) (op lnk)).pinEntry 0).node = some 5 := by decide +kernel

/-- A commit of slot 0 needs no node; a commit without a captured reference is rewritten with REASON 1. -/
theorem test_commit : ((writeArrival (one 0x2000 1)
      { op lnk with pinTable := tset (op lnk).pinTable 0 ⟨some ⟨0, 0⟩, none, none⟩ }).pinEntry 0).pinned = some 0
    ∧ (writeArrival (one 0x2000 0xFFFFFFFD) (op lnk)).path.port =
      some ⟨.processor, .write 0x2000 [⟨0xFFFFF1FF, 15⟩]⟩ := by
  decide +kernel

/-- DONE, HOST_OWNED and REJECTED release the pin. -/
theorem test_release : ([0#32, 2#32, 3#32].all fun x => ((writeArrival (one 0x2000 x)
    { op lnk with pinTable := tset (op lnk).pinTable 0 ⟨none, none, some 0⟩ }).pinEntry 0).pinned == none) = true := by
  decide +kernel

/-- An alias read by selector 8 in slice 2 reaches the cell of slice 2 (10.5). -/
theorem test_alias : (readArrival ⟨0x20000 + 8 * 256, .eight⟩
      { op { lnk with cells := [0, 0, 14, 0, 0, 0] } with tracker := { locked with slice := some 2 } }).path.port
      = some ⟨.processor, .read (0x40000 + 14 * 256) 8⟩
    ∧ ((readArrival ⟨0x20000 + 8 * 256, .eight⟩
      { op { lnk with cells := [0, 0, 14, 0, 0, 0] } with tracker := { locked with slice := some 2 } }).link 0).latch
      = some ⟨8, 14⟩ := by decide +kernel

/-- A read of the live words is answered at once. -/
theorem test_read : (readArrival ⟨0x100, .two⟩ State.reset).path.completions = [.data [ident0, ident1]]
    ∧ (readArrival ⟨0x100, .two⟩ State.reset).path.port = none := by decide +kernel

/-- A processor write lands in memory as it completes. -/
theorem test_processor_done : (processorDone (onPort .processor (.write 2 [⟨0xAABBCCDD, 5⟩]) State.reset)).memory
    = [⟨8, 0xDD⟩, ⟨10, 0xBB⟩] := by decide +kernel

/-- Intervals in SEARCH, and acquisition with sum 40,000 (3.10). -/
theorem test_search : Run.extend ⟨1, 10010, 10010⟩ 9990 200 = ⟨2, 9990, 20000⟩ ∧ Run.extend ⟨1, 9990, 9990⟩ 3010 200 = Run.empty
    ∧ (Tracker.reset.acquire ⟨4, 10010, 40000⟩ 60000 4 6).period = 10000 := by decide

/-- The accepted edge at 10,060 and the stray at 14,100 (3.11). -/
theorem test_edges : adjustPeriod 10000 10060 = 10007 ∧ boundariesOf 10007 4 = [2501, 5003, 7505]
    ∧ (edge { op lnk with tick := 10060 }).tracker.period = 10007 ∧ (edge { op lnk with tick := 4040 }).tracker.strayCount = 1 := by
  decide +kernel

/-- A missed window synthesizes a start dated at the predicted start (3.11). -/
theorem test_miss : (missWindow { op lnk with tick := 10401 }).tracker.lastStart = 10000
    ∧ (missWindow { op lnk with tick := 10401 }).tracker.halfCount = 11
    ∧ (missWindow { op lnk with tick := 10401 }).tracker.state = .holdover := by decide +kernel

theorem test_boundary : (idle { op lnk with tick := 1666 }).tracker.slice = some 1
    ∧ (idle { op lnk with tick := 1665 }).tick = 1666 := by decide +kernel

theorem test_gather_end : ((startEvent 0 { op { lnk with swState := .gathering, gatherLeft := 1 } with owed := [0] }).link 0).swState
    = .offered := by decide +kernel

theorem test_expiry : ((startEvent 0 { op { lnk with swState := .offered, offerAge := 399 } with owed := [0] }).link 0).streak = 1 := by
  decide +kernel

/-- A fallback ends with every cell at slot 0 (8). -/
theorem test_fallback : ((fallBack 0 [] (op { lnk with cells := [0, 4, 0, 0, 0, 0] })).link 0).cells = List.replicate 6 0 := by
  decide +kernel

theorem test_flip : ((startEvent 0 { op { lnk with
      swState := .confirmed, effective := 10, pendingSet := [none, some 3, none, none, none, none] } with owed := [0] }).link 0).cells
    = [0, 3, 0, 0, 0, 0] := by decide +kernel

/-- The notch list of C = 320: bursts of 8 and 2 words (2.6). -/
theorem test_notch : notchBurstLen 0 10 = 8 ∧ notchBurstLen 8 10 = 2
    ∧ (notchRead (List.replicate 8 1) { op lnk with applier := { Applier.reset with phase := .reading } }).applier.pos = 8 := by
  decide +kernel

theorem test_base : (baseLoadingWritten { op lnk with applier := { Applier.reset with pos := 15 } }).applier.phase = .header
    ∧ (baseHeaderWritten { op lnk with filter := .applying }).filter = .operating := by decide +kernel

theorem test_job_start : (startJob { op lnk with buildQueue := [⟨0, 0, 2, 7, .auto⟩] }).engine.ready
    = some ⟨.headerRead, .read (0x50000 + 1024) 8⟩ := by decide +kernel

theorem test_header_read : (headerRead [0x80000007, 5, 0, 0, 40, 0, 0, 0] (withJob (job .load none) (op lnk))).engine.ready
      = some ⟨.snrRead, .read 0x50008 8⟩
    ∧ (headerRead [7, 5, 0, 0, 40, 0, 0, 0] (withJob (job .load none) (op lnk))).engine.job = none := by decide +kernel

/-- The eight carriers of Chapter 7, with the default thresholds. -/
theorem test_loading : [10, 24, 35, 60, 100, 131, 200, 50].map cfg.loadingOf = [0, 1, 1, 4, 7, 9, 10, 3]
    ∧ bufferWord [0, 1, 1, 4, 7, 9, 10, 0] 0 = 0x0A974110#32 := by decide +kernel

/-- A candidate whose burst differs is passed over; with no other the job takes the Free List's head. -/
theorem test_candidate : (candidateRead [1, 0, 0, 0, 0, 0, 0, 0]
    (withJob { job .matching none with candidates := [(2, 0)] } (op lnk))).engine.job.map Job.slot = some (some 1) := by
  decide +kernel

theorem test_allocate : (allocate (withJob (job .allocate none) (op lnk))).pool.freeList.head? = some 2
    ∧ ((allocate (withJob (job .allocate none) (op lnk))).slot 1).issue = 1 := by decide +kernel

theorem test_loading_write : (loadingWritten (withJob { job .write (some 3) with pos := 15 } (op lnk))).engine.ready.map PortBurst.use
    = some .headerWrite := by decide +kernel

/-- A NEW map begins a pending set under a new number. -/
theorem test_hand_off : ((headerWritten (withJob (job .write (some 3)) (op lnk))).link 0).pendingSet[0]? = some (some 3)
    ∧ ((headerWritten (withJob (job .write (some 3)) (op lnk))).link 0).swState = .gathering := by decide +kernel

/-- The GUARD of 11.6 written to entry 15 of 16. -/
theorem test_notice : (noticeWritten { op lnk with
    shadow := cfg.set 9 0x00100020
    notices := { NoticeWriter.reset with
      staging := [⟨.guardWrite .pool 5 .protect, 10, 1⟩], producer := 15, consumer := 2 } }).notices.producer = 0 := by
  decide +kernel

theorem test_ended : (readyHeaderRead (withJob (job .load none) (op lnk))).engine.ready = some ⟨.headerRead, .read 0x50000 8⟩ := by
  decide +kernel

/-- Hardware reset with two words accepted, and its end. -/
theorem test_hardware_reset : (onPort .processor (.write 0 [⟨1, 15⟩, ⟨2, 15⟩, ⟨3, 15⟩, ⟨4, 15⟩]) (op lnk)).abandoned 2
    = [⟨0, 1⟩, ⟨4, 2⟩] := by decide +kernel

/-- Hold-off with H = 3 (1.8): at WAIT = H the Internal Requester is granted although p4 waits. -/
theorem test_hold_off : ((arbitrate { op lnk with
      shadow := cfg.set 17 0x01000403
      engine := { Engine.idle with ready := some ⟨.headerRead, .read 0x50000 8⟩ }
      path := { Path.reset with wait := 3, waiting := some (.read 0 1) } }).path.port.map PortBurst.use) = some .headerRead
    ∧ ((arbitrate { op lnk with
      shadow := cfg.set 17 0x01000403
      engine := { Engine.idle with ready := some ⟨.headerRead, .read 0x50000 8⟩ }
      path := { Path.reset with wait := 2, waiting := some (.read 0 1) } }).path.wait) = 3 := by decide +kernel

/-! ### The hypotheses of the statements can be met -/

theorem test_wit_front : State.pending { State.reset with pending := [.jobStart] } = .jobStart :: [] := rfl

/-- A boundary due, a missed window with no boundary left, an act owed, a request with no job, and nothing due. -/
theorem test_wit_idle : (∃ t, step (op lnk) = .next t ∧ t.tracker.slice = some 1 ∧ t.tick = 5000)
    ∧ (∃ t, step { op lnk with tick := 10201, tracker := { locked with slice := some 5 } } = .next t ∧ t.tracker.missCount = 1)
    ∧ (∃ t, step { op { lnk with swState := .gathering } with tick := 9, owed := [0] } = .next t ∧ t.owed = []
      ∧ (t.link 0).swState = .offered)
    ∧ (∃ t, step { op lnk with tick := 9, buildQueue := [⟨0, 0, 0, 0, .auto⟩] } = .next t ∧ t.buildQueue = [])
    ∧ step { op lnk with tick := 1665 } = .next { op lnk with tick := 1666 }
    ∧ step { op lnk with inReset := true } = .next { op lnk with inReset := true, tick := 5001 } := by
  refine ⟨⟨_, rfl, ?_⟩, ⟨_, rfl, ?_⟩, ⟨_, rfl, ?_⟩, ⟨_, rfl, ?_⟩, rfl, rfl⟩ <;> decide +kernel

theorem test_wit_reset_held : State.inReset { State.reset with inReset := true } = true := rfl

/-- A state with a link, its references and no pins meets every invariant, and steps. -/
theorem test_wit_invariants : Memory.wf (op lnk).memory = true ∧ (op lnk).EmptyIfTransparent ∧ (op lnk).IrqOk ∧ (op lnk).ConfigOk
    ∧ (op lnk).FreeOk ∧ (op lnk).RefLaw ∧ (op lnk).PinLaw ∧ ∃ t, step (op lnk) = .next t :=
  ⟨rfl, fun h => (by cases h), by unfold State.IrqOk; decide +kernel, Or.inr (by decide +kernel),
    freeOk_below (by decide +kernel), by unfold State.RefLaw; decide +kernel, by unfold State.PinLaw; decide +kernel, _, rfl⟩

/-- Some cell of an OPEN link names a slot. -/
def inCell (s : State) (n : Nat) : Bool := (List.range 32).any fun k => (s.link k).isOpen && (s.link k).cells.contains n

theorem inCell_iff (s : State) (n : Nat) : inCell s n = true ↔ ∃ k, (s.link k).isOpen = true ∧ n ∈ (s.link k).cells := by
  unfold inCell
  rw [List.any_eq_true]
  refine ⟨fun ⟨k, _, h⟩ => ⟨k, by simpa using h⟩, fun ⟨k, h⟩ => ⟨k, ?_, by simpa using h⟩⟩
  by_cases hk : k < 32
  · exact List.mem_range.2 hk
  · rw [link_beyond s (Nat.not_lt.1 hk)] at h; cases h.1

/-- The law of the pool, looked at over the slots and links there are. -/
theorem poolLaw_below {s : State}
    (h5 : ∀ j n, s.engine.job = some j → j.slot = some n → 0 < n ∧ n < s.shadow.poolSlots ∧ (s.slot n).state = .building)
    (h : (s.slot 0).state = .base
      ∧ (∀ n, n < 128 → 0 < n → (s.slot n).state ≠ .base
        ∧ ((s.slot n).state = .building → (s.slot n).refs = 0 ∧ (s.slot n).pins = 0))
      ∧ (∀ n, n < 128 → 0 < n → (s.slot n).state ≠ .building → ((s.slot n).state = .active ↔ inCell s n = true)
        ∧ ((s.slot n).state = .staged ↔ 0 < (s.slot n).refs ∧ inCell s n = false))
      ∧ (∀ n, n < 128 → 0 < n → (s.slot n).state ≠ .building → ((s.slot n).state = .retiring ↔ (s.slot n).refs = 0 ∧ 0 < (s.slot n).pins)
        ∧ ((s.slot n).state = .free ↔ (s.slot n).refs = 0 ∧ (s.slot n).pins = 0))
      ∧ s.pool.freeList.Nodup ∧ (∀ n ∈ s.pool.freeList, n < 128) ∧ s.shadow.poolSlots ≤ 128
      ∧ (∀ n, n < 128 → (n ∈ s.pool.freeList ↔ 0 < n ∧ n < s.shadow.poolSlots ∧ (s.slot n).state = .free))
      ∧ (∀ L ∈ s.links.toList, (∀ x ∈ L.cells, x < s.shadow.poolSlots)
        ∧ (∀ x ∈ L.pendingSet ++ L.nextSet, (x.all fun n => decide (n < s.shadow.poolSlots)) = true)
        ∧ (L.latch.all fun l => decide (l.slot < s.shadow.poolSlots)) = true)
      ∧ ∀ e ∈ s.pinTable.toList, (e.pinned.all fun n => decide (n < s.shadow.poolSlots)) = true) : s.PoolLaw := by
  obtain ⟨h0, h1, hs, hr, h2, h3, hp, h4, h6, h7⟩ := h
  refine fun _ => ⟨h0, fun n hn hn2 => ?_, h2, fun n => ?_, h5, fun n hn => ⟨?_, ?_⟩⟩
  · obtain ⟨hnb, hbuild⟩ := h1 n hn2 hn
    refine ⟨hnb, hbuild, fun hb => ⟨(hs n hn2 hn hb).1.trans (inCell_iff s n),
      (hs n hn2 hn hb).2.trans (and_congr_right fun _ => ?_), hr n hn2 hn hb⟩⟩
    rw [Bool.eq_false_iff, ne_eq, inCell_iff]
    exact ⟨fun h k ho hm => h ⟨k, ho, hm⟩, fun h ⟨k, ho, hm⟩ => h k ho hm⟩
  · by_cases hn : n < 128
    · exact h4 n hn
    · exact ⟨fun h => absurd (h3 n h) hn, fun h => absurd (Nat.lt_of_lt_of_le h.2.1 hp) hn⟩
  · unfold State.refCount
    refine List.sum_eq_zero fun x hx => ?_
    obtain ⟨L, hL, rfl⟩ := List.mem_map.1 hx
    obtain ⟨a, b, _⟩ := h6 L hL
    unfold Link.refCount
    have hc : L.cells.count n = 0 := List.count_eq_zero.2 fun h => absurd (a n h) (Nat.not_lt.2 hn)
    have hq : L.pendingSet.count (some n) = 0 := List.count_eq_zero.2 fun h => by
      have := b _ (List.mem_append_left _ h)
      simp only [Option.all_some, decide_eq_true_eq] at this
      omega
    have hr : L.nextSet.count (some n) = 0 := List.count_eq_zero.2 fun h => by
      have := b _ (List.mem_append_right _ h)
      simp only [Option.all_some, decide_eq_true_eq] at this
      omega
    omega
  · unfold State.pinCount
    have hc : s.pinTable.toList.filter (fun e => e.pinned == some n) = [] := List.filter_eq_nil_iff.2 fun e he h => by
      have := h7 e he
      rw [beq_iff_eq.1 h] at this
      simp only [Option.all_some, decide_eq_true_eq] at this
      omega
    have hd : s.links.toList.filter (fun L => L.latch.map Latch.slot == some n) = [] := List.filter_eq_nil_iff.2 fun L hL h => by
      obtain ⟨_, _, g⟩ := h6 L hL
      obtain ⟨l, hl, rfl⟩ := Option.map_eq_some_iff.1 (beq_iff_eq.1 h)
      rw [hl] at g
      simp only [Option.all_some, decide_eq_true_eq] at g
      omega
    rw [hc, hd]
    rfl

/-- Link 0 with slot 4 in a cell, slot 3 pending, once or with another entry p, and the latch on slot 5, and its job with slot 6; the other
slots below 64 FREE. -/
def stockedAt (p : Option Nat) (sw : SwState) : State :=
  { op { lnk with
      swState := sw, pendingSetNo := 1, cells := [4, 0, 0, 0, 0, 0], pendingSet := [some 3, p, none, none, none, none]
      latch := some ⟨0, 5⟩, effective := 10, offerAge := 399 } with
    pool :=
      { slots := tset (tset (tset (tset (tset Pool.reset.slots 0 { SlotRec.reset with state := .base, refs := 5 })
          3 { SlotRec.reset with state := .staged, refs := if p = some 3 then 2 else 1 })
          4 { SlotRec.reset with state := .active, refs := 1 })
          5 { SlotRec.reset with state := .retiring, pins := 1 }) 6 { SlotRec.reset with state := .building }
        freeList := [1, 2] ++ List.range' 7 57 }
    engine := { Engine.idle with job := some (job .write (some 6)) } }

/-- The same, with slot 3 pending twice. -/
def stocked (sw : SwState) : State := stockedAt (some 3) sw

/-- A pool of 16 slots, none FREE: link 0 as before, ten slots RETIRING under the descriptors' pins, and a job of link k, 0 or 1, that waits
for a slot. -/
def starved (sw : SwState) (k : Nat) : State :=
  { op lnk with
    shadow := cfg.set 8 0x00100010
    links := tset (tset (op lnk).links 0 { lnk with
      swState := sw, pendingSetNo := 1, cells := [4, 0, 0, 0, 0, 0], pendingSet := [some 3, some 3, none, none, none, none]
      latch := some ⟨0, 5⟩, effective := 10, offerAge := 399 }) 1 { lnk with node := 6 }
    pool :=
      { slots := tset (tset (tset (tmapIdx (fun i r => if i = 0 ∨ 16 ≤ i then r else { r with state := .retiring, pins := 1 })
          Pool.reset.slots) 0 { SlotRec.reset with state := .base, refs := 11 })
          3 { SlotRec.reset with state := .staged, refs := 2 }) 4 { SlotRec.reset with state := .active, refs := 1 }
        freeList := [] }
    pinTable := tmapIdx (fun i e => if i = 0 ∨ i = 3 ∨ i = 4 ∨ i = 5 ∨ 16 ≤ i then e else { e with pinned := some i })
      (Vector.replicate 64 PinEntry.empty)
    engine := { Engine.idle with job := some { job .allocate none with link := k } } }

theorem stocked_laws {p : Option Nat} {sw : SwState} (h : (p = some 3 ∧ (sw = .offered ∨ sw = .confirmed)) ∨ p = none ∧ sw = .offered) :
    (stockedAt p sw).PoolLaws := by
  have hj : ∀ j n, (stockedAt p sw).engine.job = some j → j.slot = some n → n = 6 := fun j n h h2 => by
    obtain rfl := Option.some.inj h
    exact (Option.some.inj h2).symm
  rcases h with ⟨rfl, rfl | rfl⟩ | ⟨rfl, rfl⟩
  all_goals
    refine ⟨Or.inr ?_, freeOk_below ?_, ?_, ?_, poolLaw_below (fun j n h h2 => by rw [hj j n h h2]; decide +kernel) ?_⟩
    iterate 2 decide +kernel
    · unfold State.RefLaw; decide +kernel
    · unfold State.PinLaw; decide +kernel
    · and_intros <;> decide +kernel

theorem starved_laws {sw : SwState} {k : Nat} (h : (sw = .offered ∧ (k = 0 ∨ k = 1)) ∨ sw = .confirmed ∧ k = 1) :
    (starved sw k).PoolLaws := by
  have hj : ∀ j n, (starved sw k).engine.job = some j → j.slot = some n → False := fun j n h h2 => by
    obtain rfl := Option.some.inj h
    cases h2
  rcases h with ⟨rfl, rfl | rfl⟩ | ⟨rfl, rfl⟩
  all_goals
    refine ⟨Or.inr ?_, freeOk_below ?_, ?_, ?_, poolLaw_below (fun j n h h2 => (hj j n h h2).elim) ?_⟩
    iterate 2 decide +kernel
    · unfold State.RefLaw; decide +kernel
    · unfold State.PinLaw; decide +kernel
    · and_intros <;> decide +kernel

/-- The Free List after a removal, a DECLINE and a flip, with no job waiting. -/
theorem test_wit_joins : (stocked .offered).PoolLaws ∧ (stocked .confirmed).PoolLaws ∧ (stocked .offered).jobWaits = false
    ∧ (stocked .offered).filter ≠ .transparent ∧ (stocked .confirmed).jobWaits = false
    ∧ ((stocked .confirmed).link 0).pendingSet.length ≤ ((stocked .confirmed).link 0).cells.length
    ∧ (removeLink 0 (stocked .offered)).pool.freeList = [1, 2] ++ List.range' 7 57 ++ [4, 3] ++ [5] ++ [6]
    ∧ (discardOffer 0 (stocked .offered)).pool.freeList = [1, 2] ++ List.range' 7 57 ++ [3]
    ∧ (flipLink 0 (stocked .confirmed)).pool.freeList = [1, 2] ++ List.range' 7 57 ++ [4] :=
  ⟨stocked_laws (Or.inl ⟨rfl, Or.inl rfl⟩), stocked_laws (Or.inl ⟨rfl, Or.inr rfl⟩), by decide +kernel⟩

/-- The slot that the waiting job of a state holds after an event, and the Free List after it. -/
def handed (s : State) : Option Nat × List Nat := (s.engine.job.bind Job.slot, s.pool.freeList)

/-- A job that waits takes the first slot freed at a removal, a DECLINE or an expiry, and a flip; a waiting job of the link removed gives
it back, to the tail. -/
theorem test_wit_waits : (starved .offered 0).PoolLaws ∧ (starved .offered 1).PoolLaws ∧ (starved .confirmed 1).PoolLaws
    ∧ (starved .offered 1).engine.job = some { job .allocate none with link := 1 }
    ∧ handed (removeLink 0 (starved .offered 1)) = (some 4, [3, 5]) ∧ handed (removeLink 0 (starved .offered 0)) = (none, [3, 5, 4])
    ∧ handed (discardOffer 0 (starved .offered 1)) = (some 3, []) ∧ handed (flipLink 0 (starved .confirmed 1)) = (some 4, []) :=
  ⟨starved_laws (Or.inl ⟨rfl, Or.inl rfl⟩), starved_laws (Or.inl ⟨rfl, Or.inr rfl⟩), starved_laws (Or.inr ⟨rfl, rfl⟩), rfl,
    by decide +kernel⟩

/-- A result for slice 0 replaces slot 3, which joins the Free List unless another entry names it; slice 2 has no entry to replace. -/
theorem test_wit_replaces : (stockedAt none .offered).PoolLaws ∧ (stockedAt none .offered).freed [3] = [3]
    ∧ (stocked .offered).freed [3] = [] ∧ ((stocked .offered).link 0).pendingSet[0]? = some (some 3)
    ∧ ((stocked .offered).link 0).pendingSet[2]? = some none ∧ ((stocked .confirmed).link 0).nextSet[0]? = some none
    ∧ (handOff (job .write (some 6)) 6 (stockedAt none .offered)).pool.freeList = [1, 2] ++ List.range' 7 57 ++ [3]
    ∧ (handOff (job .write (some 3)) 3 (stockedAt none .offered)).pool.freeList = [1, 2] ++ List.range' 7 57 :=
  ⟨stocked_laws (Or.inr ⟨rfl, rfl⟩), by decide +kernel⟩

theorem test_wit_shadow_locked : (op lnk).filter ≠ .transparent ∧ (∀ n, Instr.jobStart ≠ .hardwareReset n)
    ∧ exec .jobStart (op lnk) = .next (op lnk) := ⟨by decide, fun n h => (by cases h), rfl⟩

/-- A changed record, and one that stays. -/
theorem test_wit_change_count : (∀ n, Instr.linkHold (cmd 5 0 0 0) ≠ .hardwareReset n)
    ∧ (∃ t, exec (.linkHold (cmd 5 0 0 0)) (op lnk) = .next t ∧ t.filter = .operating ∧ (t.link 0).mode = .hold
      ∧ t.link 1 = Link.free) ∧ (op lnk).filter = .operating :=
  ⟨fun n h => (by cases h), ⟨_, rfl, by decide +kernel⟩, rfl⟩

theorem acc_reset : State.reset.accepts = true := rfl
theorem acc_op : (op lnk).accepts = true := rfl

/-- APPLYING. -/
def applying : State := { op lnk with filter := .applying }

theorem test_wit_screen : CommandBurst State.reset (cmd 0 0 0 0) 0 ∧ CommandBurst State.reset (cmd 10 0 0 0) 10
    ∧ CommandBurst State.reset (cmd 2 0 0 0) 2 ∧ CommandBurst State.reset (cmd 9 0 0 0) 9 ∧ State.reset.filter = .transparent
    ∧ CommandBurst applying (cmd 1 0 0 0) 1 ∧ CommandBurst applying (cmd 3 0 0 0) 3 ∧ CommandBurst applying (cmd 9 0 0 0) 9
    ∧ applying.filter = .applying ∧ CommandBurst (op lnk) (cmd 1 0 0 0) 1 ∧ (op lnk).filter = .operating :=
  ⟨cmd_burst rfl .., cmd_burst rfl .., cmd_burst rfl .., cmd_burst rfl .., rfl, cmd_burst rfl .., cmd_burst rfl ..,
    cmd_burst rfl .., rfl, cmd_burst rfl .., rfl⟩

/-- The first check, the third and the last as the first that fails, and all passed. -/
theorem test_wit_apply : CommandBurst State.reset (cmd 1 0 0 0) 1 ∧ State.reset.filter = .transparent
    ∧ State.reset.shadow.check 3 = false ∧ (∀ j, j < 3 → 1 ≤ j → State.reset.shadow.check j = true)
    ∧ Shadow.check (cfg.set 0 0) 1 = false
    ∧ Shadow.check (cfg.set 17 0x01000008) 15 = false ∧ (∀ j, j < 15 → 1 ≤ j → Shadow.check (cfg.set 17 0x01000008) j = true)
    ∧ (∀ j, j < 16 → 1 ≤ j → cfg.check j = true) ∧ ∃ W : Nat → Word, ∀ i, i < 32 → W (16 + i) = tget cfg 0 i :=
  ⟨cmd_burst rfl .., rfl, by decide +kernel, by decide +kernel, by decide +kernel, by decide +kernel, by decide +kernel,
    by decide +kernel, fun a => tget cfg 0 (a - 16), fun i _ => congrArg (tget cfg 0) (Nat.add_sub_cancel_left ..)⟩

theorem test_wit_withdraw : CommandBurst (op lnk) (cmd 2 0 0 0) 2 ∧ (op lnk).filter ≠ .transparent
    ∧ CommandBurst (onPort .notice (.write 0 []) applying) (cmd 2 0 0 0) 2 ∧ applying.filter ≠ .transparent :=
  ⟨cmd_burst rfl .., by decide, cmd_burst rfl .., by decide⟩

/-- Every record OPEN. -/
def full : State := { op lnk with links := Vector.replicate 32 lnk }

theorem test_wit_link_add : CommandBurst (op lnk) (cmd 3 0 0 0) 3 ∧ ((op lnk).afterData (cmd 3 0 0 0)).arg0.toNat = 0
    ∧ ((op lnk).afterData (cmd 3 255 0 0)).arg0.toNat = 255
    ∧ ((op { lnk with node := 254 }).afterData (cmd 3 254 0 0)).arg0.toNat = 254
    ∧ (State.link (op { lnk with node := 254 }) 0).node.toNat = 254
    ∧ CommandBurst full (cmd 3 1 0 0) 3 ∧ (full.afterData (cmd 3 1 0 0)).arg0.toNat = 1
    ∧ (∀ k, k < 32 → (full.link k).isOpen = true ∧ (full.link k).node.toNat ≠ 1) :=
  ⟨cmd_burst rfl .., by decide +kernel, by decide +kernel, by decide +kernel, by decide +kernel, cmd_burst rfl ..,
    by decide +kernel, by decide +kernel⟩

/-- The last record FREE, and the first. -/
theorem test_wit_link_add_opens : CommandBurst { full with links := tset full.links 31 Link.free } (cmd 3 254 0 0) 3
    ∧ (State.afterData { full with links := tset full.links 31 Link.free } (cmd 3 254 0 0)).arg0.toNat = 254
    ∧ (∀ j, j < 32 → (State.link { full with links := tset full.links 31 Link.free } j).isOpen = true →
      (State.link { full with links := tset full.links 31 Link.free } j).node.toNat ≠ 254)
    ∧ (State.link { full with links := tset full.links 31 Link.free } 31).isOpen = false
    ∧ (∀ j, j < 31 → (State.link { full with links := tset full.links 31 Link.free } j).isOpen = true)
    ∧ (State.link (opAt 1 lnk) 0).isOpen = false :=
  ⟨cmd_burst rfl .., by decide +kernel, by decide +kernel, by decide +kernel, by decide +kernel, by decide +kernel⟩

theorem test_wit_bad_link : CommandBurst (op lnk) (cmd 4 32 0 0) 4 ∧ ((op lnk).afterData (cmd 4 32 0 0)).arg0.toNat = 32
    ∧ CommandBurst (op lnk) (cmd 9 31 0 0) 9 ∧ ((op lnk).link ((op lnk).afterData (cmd 9 31 0 0)).arg0.toNat).isOpen = false :=
  ⟨cmd_burst rfl .., by decide +kernel, cmd_burst rfl .., by decide +kernel⟩

/-- Link 31, with its job. -/
theorem test_wit_link_remove : CommandBurst (withJob { job .load none with link := 31 } (opAt 31 lnk)) (cmd 4 31 0 0) 4
    ∧ ((opAt 31 lnk).afterData (cmd 4 31 0 0)).arg0.toNat = 31 ∧ ((opAt 31 lnk).link 31).isOpen = true
    ∧ (op lnk).engine.job = none ∧ ((op lnk).afterData (cmd 4 0 0 0)).arg0.toNat = 0 :=
  ⟨cmd_burst rfl .., by decide +kernel, by decide +kernel, rfl, by decide +kernel⟩

theorem test_wit_hold_resume : CommandBurst (opAt 31 lnk) (cmd 5 31 0 0) 5 ∧ CommandBurst (opAt 31 lnk) (cmd 6 31 0 0) 6
    ∧ ((opAt 31 lnk).afterData (cmd 5 31 0 0)).arg0.toNat = 31 ∧ ((opAt 31 lnk).afterData (cmd 6 31 0 0)).arg0.toNat = 31
    ∧ ((opAt 31 lnk).link 31).isOpen = true ∧ (State.link (op { lnk with mode := .fallback }) 0).mode = .fallback :=
  ⟨cmd_burst rfl .., cmd_burst rfl .., by decide +kernel, by decide +kernel, by decide +kernel, by decide +kernel⟩

/-- The last slice selected, its request the first refused. -/
theorem test_wit_rebuild_stops : (writeArrival (cmd 7 0 255 0) { op { lnk with
      summary := lnk.summary.set 5 { Summary.empty with last := some (3, 9) } } with
      buildQueue := (List.range 16).map fun i => ⟨1, i, 0, 0, .auto⟩ }).result = ⟨1, .queueFull, 0⟩
    ∧ ((op lnk).afterData (cmd 7 32 0 0)).arg0.toNat = 32 ∧ CommandBurst (op lnk) (cmd 7 32 0 0) 7
    ∧ (State.link (op { lnk with mode := .fallback }) 0).mode = .fallback
    ∧ (op lnk).shadow.slices = 6 := ⟨by decide +kernel, by decide +kernel, cmd_burst rfl .., by decide +kernel, by decide +kernel⟩

theorem test_wit_rebuild : CommandBurst (op lnk) (cmd 7 0 255 0) 7 ∧ ((op lnk).afterData (cmd 7 0 255 0)).arg0.toNat = 0
    ∧ ((op lnk).link 0).isOpen = true ∧ (op lnk).tracker.state = .locked :=
  ⟨cmd_burst rfl .., by decide +kernel, by decide +kernel, rfl⟩

/-- A request. -/
def req (i : Nat) : BuildReq := ⟨0, i, 0, 0, .auto⟩

/-- A queue of 15 takes a sixteenth; a queue of 16 refuses; an entry for the same slice is replaced. -/
theorem test_wit_admit : (enqueue (req 20) ((List.range 15).map req)).isSome = true ∧ enqueue (req 20) ((List.range 16).map req) = none
    ∧ enqueue { req 3 with seq := 9 } ((List.range 16).map req)
      = some ((List.range 3).map req ++ { req 3 with seq := 9 } :: (List.range' 4 12).map req) := by decide

/-- A link with an offer of set 1 on the table. -/
def offering : State := op { lnk with swState := .offered, pendingSetNo := 1, pendingSet := [some 3, none, none, none, none, none] }

/-- NOT_OFFERED, STALE, and LATE at no start ahead, at 201 and beyond 65,535; the half-cycle count is 10. -/
theorem test_wit_answer_refused : CommandBurst (op lnk) (cmd 8 0 1 11) 8 ∧ ((op lnk).link 0).swState ≠ .offered
    ∧ CommandBurst offering (cmd 9 0 2 0) 9 ∧ (offering.link 0).swState = .offered
    ∧ (offering.afterData (cmd 9 0 2 0)).arg1.toNat ≠ (offering.link 0).pendingSetNo.toNat
    ∧ CommandBurst offering (cmd 8 0 1 10) 8
    ∧ ((offering.afterData (cmd 8 0 1 10)).arg2.toNat + 65536 - offering.tracker.halfCount.toNat) % 65536 = 0
    ∧ ((offering.afterData (cmd 8 0 1 211)).arg2.toNat + 65536 - offering.tracker.halfCount.toNat) % 65536 = 201
    ∧ 65535 < (offering.afterData (cmd 8 0 1 65547)).arg2.toNat :=
  ⟨cmd_burst rfl .., by decide +kernel, cmd_burst rfl .., by decide +kernel, by decide +kernel, cmd_burst rfl ..,
    by decide +kernel, by decide +kernel, by decide +kernel⟩

/-- One start ahead, and 200. -/
theorem test_wit_answered : CommandBurst offering (cmd 8 0 1 11) 8 ∧ CommandBurst offering (cmd 8 0 1 210) 8
    ∧ CommandBurst offering (cmd 9 0 1 0) 9 ∧ (offering.afterData (cmd 8 0 1 11)).arg0.toNat = 0
    ∧ (offering.link 0).isOpen = true ∧ (offering.afterData (cmd 8 0 1 11)).arg1.toNat = (offering.link 0).pendingSetNo.toNat
    ∧ ((offering.afterData (cmd 8 0 1 11)).arg2.toNat + 65536 - offering.tracker.halfCount.toNat) % 65536 = 1
    ∧ ((offering.afterData (cmd 8 0 1 210)).arg2.toNat + 65536 - offering.tracker.halfCount.toNat) % 65536 = 200 :=
  ⟨cmd_burst rfl .., cmd_burst rfl .., cmd_burst rfl .., by decide +kernel, by decide +kernel, by decide +kernel,
    by decide +kernel, by decide +kernel⟩

theorem test_wit_arguments : MailboxBurst State.reset (one 0x109 1) ∧ (one 0x109 1).fullAt 0x10C = none
    ∧ (one 0x109 1).fullAt 0x108 = none :=
  ⟨⟨rfl, by decide, by decide, Or.inl rfl⟩, by decide, by decide⟩

/-- With the producer at 3 and the consumer at 1: 3 is none ahead of the producer, 4 is beyond it, and so is N. -/
theorem test_wit_consumer : (op lnk).accepts = true ∧ (one 0x108 3).base = 0x108 ∧ (one 0x108 3).fullAt 0x108 = some 3
    ∧ (3 + 64 - 1) % 64 ≤ State.unconsumed { op lnk with notices := { NoticeWriter.reset with producer := 3, consumer := 1 } }
    ∧ ¬(4 + 64 - 1) % 64 ≤ State.unconsumed { op lnk with notices := { NoticeWriter.reset with producer := 3, consumer := 1 } }
    ∧ (op lnk).shadow.entries = 64 := by decide +kernel

theorem test_wit_partial : (op lnk).accepts = true ∧ (part 0x108 1).base = 0x108 ∧ (part 0x108 1).fullAt 0x108 = none
    ∧ (part 0x10C 1).base = 0x10C ∧ (part 0x10C 1).fullAt 0x10C = none := by decide +kernel

/-- A partial ARG1 beside a command, and beside a WITHDRAW; a partial CMD_CODE beside a consumer index. -/
theorem test_wit_partial_command :
    PartialGuard (op lnk) .anchor (spoil (cmd 5 0 0 0) 2) 8 8 12 (raise (.guardWrite .anchor 0x10A .partialWrite))
    ∧ (spoil (cmd 5 0 0 0) 2).fullAt 0x10C = some 5 ∧ (spoil (cmd 2 0 0 0) 2).fullAt 0x10C = some 2
    ∧ (takeCommand 5 ((op lnk).afterData (spoil (cmd 5 0 0 0) 2))).filter = .operating
    ∧ (takeCommand 2 ((op lnk).afterData (spoil (cmd 2 0 0 0) 2))).filter = .transparent
    ∧ PartialGuard (op lnk) .anchor (spoil (cmd 0 0 0 0) 4) 8 8 12 (raise (.guardWrite .anchor 0x10C .partialWrite))
    ∧ (spoil (cmd 0 0 0 0) 4).fullAt 0x10C = none ∧ (spoil (cmd 0 0 0 0) 4).fullAt 0x108 = some 0 :=
  ⟨Or.inr ⟨by decide, 2, by decide, by decide, by decide, by decide, by decide, rfl⟩, by decide +kernel, by decide +kernel,
    by decide +kernel, by decide +kernel,
    Or.inr ⟨by decide, 4, by decide, by decide, by decide, by decide, by decide, rfl⟩, by decide +kernel⟩

theorem test_wit_config : State.reset.accepts = true ∧ State.reset.filter = .transparent ∧ (one 0x110 1).base = 0x110
    ∧ (one 0x12F 1).base = 0x12F ∧ ((one 0x12F 1).beatAt (0x100 + 47)).isSome = true ∧ (one 0x110 1).beatAt (0x100 + 17) = none := by
  decide +kernel

/-- The first and last protected word of each window, and both filter states for live words. -/
theorem test_wit_discarded : (op lnk).accepts = true ∧ (op lnk).place 0x107 = .anchor 7 ∧ State.reset.place 0x100 = .anchor 0
    ∧ (op lnk).place 0x110 = .anchor 16 ∧ (op lnk).place 0x12F = .anchor 47 ∧ (op lnk).place 0x20000 = .aliasWin 0 0 0
    ∧ (op lnk).place 0x3FFFF = .aliasWin 31 15 255 ∧ (op lnk).place 0x17FF = .view 31 63
    ∧ (op lnk).place 0x43FFF = .pool 63 255 ∧ (op lnk).place 0x30FF = .noticeRing 63 3 := by decide +kernel

/-- 20 descriptors fill 160 words of a window of 192. -/
def padded : State := { op lnk with shadow := cfg.set 9 0x00400014 }

theorem test_wit_passes : padded.accepts = true ∧ padded.place 0x44000 = .outside ∧ padded.place 0x130 = .anchor 48
    ∧ padded.place 0x20BF = .transmit 23 7 ∧ padded.shadow.descriptors = 20 ∧ padded.place 0x108 = .anchor 8
    ∧ padded.place 0x40000 = .pool 0 0 ∧ padded.place 0x51FFF = .estimate 15 511 ∧ padded.place 0x3000 = .noticeRing 0 0 := by
  decide +kernel

/-- A burst presented off its alignment takes the block that holds the address, and a read does so too. -/
theorem test_wit_block : WriteBurst.base ⟨0x205, .four, []⟩ = 0x204 ∧ ReadBurst.base ⟨0x20F, .eight⟩ = 0x208
    ∧ WriteBurst.base ⟨0x205, .one, []⟩ = 0x205 ∧ (one 0x205 9).words = [⟨9, 15⟩] ∧ (one 0x205 9).fullAt 0x205 = some 9
    ∧ (one 0x205 9).fullAt 0x206 = none ∧ (part 0x205 9).fullAt 0x205 = none := by decide

/-- The first and last address of each window, the addresses beside them, and the Anchor Block alone in TRANSPARENT. -/
theorem test_wit_places : (op lnk).ConfigOk ∧ (op lnk).filter ≠ .transparent ∧ State.reset.filter = .transparent
    ∧ State.reset.place 0x13F = .anchor 63 ∧ State.reset.place 0x140 = .outside ∧ State.reset.place 0xFF = .outside
    ∧ State.reset.place 0x20000 = .outside ∧ (op lnk).place 0xFF = .outside ∧ (op lnk).place 0x140 = .outside
    ∧ (op lnk).place 0x1FFFF = .outside ∧ (op lnk).place 0x21234 = .aliasWin 1 2 0x34 ∧ (op lnk).place 0x40000 = .pool 0 0
    ∧ (op lnk).place 0xFFF = .outside ∧ (op lnk).place 0x1800 = .outside ∧ (op lnk).place 0x52000 = .outside
    ∧ (op lnk).place 0x20FF = .transmit 31 7 ∧ (op lnk).place 0x2100 = .outside ∧ (op lnk).place 0x3100 = .outside
    ∧ padded.place 0x20C0 = .outside :=
  ⟨Or.inr (by decide +kernel), by decide +kernel⟩

theorem test_wit_answered_reads : (op lnk).accepts = true ∧ (op lnk).place 0x100 = .anchor 0 ∧ (op lnk).place 0x107 = .anchor 7
    ∧ (op lnk).place 0x1000 = .view 0 0 ∧ (op lnk).place 0x17FF = .view 31 63 ∧ ((op lnk).link 31).isOpen = false
    ∧ ((op lnk).link 0).cells[5]? = some 0 := by decide +kernel

/-- An OPEN record with a latch, and the entries of its words. -/
theorem test_wit_view : (State.link (op { lnk with latch := some ⟨15, 3⟩ }) 0).isOpen = true
    ∧ (State.link (op { lnk with latch := some ⟨15, 3⟩ }) 0).latch = some ⟨15, 3⟩ ∧ ((op lnk).link 0).latch = none
    ∧ ((op lnk).link 0).summary[5]? = some Summary.empty ∧ ((op lnk).link 0).summary[7]? = none
    ∧ ∃ entry : Option Nat → Word, (∀ n, entry (some n) = 1#1 ++ 0#15 ++ ((op lnk).slot n).issue ++ BitVec.ofNat 8 n) ∧ entry none = 0 :=
  ⟨by decide +kernel, by decide +kernel, by decide +kernel, by decide +kernel, by decide +kernel,
    fun e => match e with
      | some n => 1#1 ++ 0#15 ++ ((op lnk).slot n).issue ++ BitVec.ofNat 8 n
      | none => 0, fun _ => rfl, rfl⟩

theorem test_wit_burst : OnPort (onPort .processor (.write 0 [⟨1, 15⟩]) (op lnk)) .processor (.write 0 [⟨1, 15⟩])
    ∧ (op lnk).portIs .processor = false ∧ Memory.wf (op lnk).memory = true ∧ byteKey 0 3 ≠ 4 := ⟨⟨rfl, rfl⟩, rfl, rfl, by decide⟩

/-- H = 3: a processor read on the port, another presented behind it, and a ready engine burst, at a WAIT (1.8). -/
def busy (w : Nat) : State :=
  { op lnk with
    shadow := cfg.set 17 0x01000403
    engine := { Engine.idle with ready := some ⟨.headerRead, .read 0x50000 8⟩ }
    path := { Path.reset with
      port := some ⟨.processor, .read 0x200 1⟩, wait := w, presented := some (.read ⟨0x300, .one⟩) } }

/-- As a processor read ends, the one presented behind it contends (1.8): at WAIT 2 it is granted, and WAIT is 3; at WAIT 3 the Internal
Requester is, and WAIT is 0. -/
theorem test_contention : (∃ t, exec .processorBurstDone (busy 2) = .next t ∧ t.path.port = some ⟨.processor, .read 0x300 1⟩
      ∧ t.path.wait = 3 ∧ t.path.presented = none ∧ t.path.completions = [.data [0]])
    ∧ ∃ t, exec .processorBurstDone (busy 3) = .next t ∧ t.path.port = some ⟨.headerRead, .read 0x50000 8⟩ ∧ t.path.wait = 0
      ∧ t.path.waiting = some (.read 0x300 1) := ⟨⟨_, rfl, by decide +kernel⟩, _, rfl, by decide +kernel⟩

/-- A busy port with one transaction presented, and with none; the read-after-write of an enabled and of a disabled byte. -/
theorem test_wit_presented : (busy 0).accepts = false ∧ (busy 0).path.presented ≠ none ∧ (busy 0).inReset = false
    ∧ State.accepts (onPort .processor (.read 0x200 1) (op lnk)) = false
    ∧ (onPort .processor (.read 0x200 1) (op lnk)).path.presented = none
    ∧ OnPort (busy 0) .processor (.read 0x200 1) ∧ (busy 0).path.waiting = none
    ∧ ([⟨0xAABBCCDD, 5⟩] : List Beat)[0]? = some ⟨0xAABBCCDD, 5⟩ :=
  ⟨rfl, by decide, rfl, rfl, rfl, ⟨rfl, rfl⟩, rfl, rfl⟩

/-- A ready engine burst and a waiting processor read, at a WAIT. -/
def waits (w : Nat) : State :=
  { op lnk with
    engine := { Engine.idle with ready := some ⟨.headerRead, .read 0 8⟩ }
    path := { Path.reset with wait := w, waiting := some (.read 0 1) } }

/-- WAIT is cleared where no client has a burst ready, and kept where one has; NOTE_IRQ at an URGENT notice, at W = 4 unconsumed and at 3. -/
theorem test_wit_wait : (settle { op lnk with path := { (op lnk).path with wait := 3 } }).path.wait = 0
    ∧ (clearWait (formNotice (decideIrq (busy 2)))).path.wait = 2
    ∧ (op lnk).shadow.irqCount = 4 ∧ (op lnk).shadow.irqEnable = true
    ∧ (settle { op lnk with notices := { NoticeWriter.reset with urgentCount := 1 } }).noteIrq = true
    ∧ (settle { op lnk with notices := { NoticeWriter.reset with producer := 4 } }).noteIrq = true
    ∧ (settle { op lnk with notices := { NoticeWriter.reset with producer := 1, consumer := 62 } }).noteIrq = false := by decide +kernel

/-- The port held; WAIT below H and at H; nobody waiting. -/
theorem test_wit_arbiter : (clearWait (formNotice (decideIrq (onPort .notice (.read 0 1) (op lnk))))).path.port.isSome = true
    ∧ (clearWait (formNotice (decideIrq (waits 7)))).path.wait = 7 ∧ (waits 7).shadow.holdOff = 8
    ∧ (clearWait (formNotice (decideIrq (waits 8)))).path.wait = 8
    ∧ (clearWait (formNotice (decideIrq (waits 8)))).requesterWaits = true
    ∧ (clearWait (formNotice (decideIrq (op lnk)))).requesterWaits = false := by decide +kernel

/-- One sample a tick: the tick's second sample is none, across a reset too; an equal level is sampled and is no edge. -/
theorem test_one_sample : (∃ t, exec (.zcEdge true) { op lnk with tick := 10000 } = .next t ∧ t.tracker.halfCount = 11
      ∧ t.zcSampledAt = some 10000 ∧ exec (.zcEdge false) t = .next t)
    ∧ State.zcLevel { op lnk with tick := 10000 } ≠ some (!false)
    ∧ State.inReset { State.reset with inReset := true, zcSampledAt := some 0 } = true
    ∧ ∃ t u, exec (.hardwareReset 0) { op lnk with zcSampledAt := some 5000 } = .next t
      ∧ exec (.resetDeassert true) t = .next u ∧ u.inReset = false ∧ u.zcLevel = none
      ∧ exec (.zcEdge true) u = .next u :=
  ⟨⟨_, rfl, by decide +kernel, by decide +kernel, rfl⟩, by decide, rfl, _, _, rfl, rfl, rfl, rfl, rfl⟩

/-- SEARCH at tick 20,000, the run as given. -/
def searching (ref : Option Nat) (run : Run) : State :=
  { op lnk with tick := 20000, tracker := { Tracker.reset with state := .search, refEdge := ref, run := run } }

/-- No reference; an edge at the end of blanking and one tick later; the interval that reaches L = 8 and one that does not. -/
theorem test_wit_search : EdgeNow (searching none Run.empty) true ∧ (searching none Run.empty).tracker.state = .search
    ∧ (20000 - 18000 ≤ (searching none Run.empty).shadow.blank) ∧ (searching none Run.empty).shadow.blank < 20000 - 17999
    ∧ (searching (some 10000) ⟨7, 10000, 70000⟩).shadow.lockRun = 8
    ∧ Run.extend ⟨7, 10000, 70000⟩ (min (20000 - 10000) 65535) 200 = ⟨8, 10000, 80000⟩
    ∧ (searching (some 10000) Run.empty).shadow.tolerance = 200 :=
  ⟨⟨rfl, rfl, by decide⟩, rfl, by decide +kernel, by decide +kernel, by decide +kernel, by decide +kernel, by decide +kernel⟩

/-- The predicted start is 10,000, TOL 200 and BLANK 2,000: the last blanked tick, the first and last stray, both ends of the window. -/
theorem test_wit_locked : EdgeNow { op lnk with tick := 2000 } true ∧ EdgeNow { op lnk with tick := 9799 } true
    ∧ EdgeNow { op lnk with tick := 9800 } true ∧ EdgeNow { op lnk with tick := 10200 } true
    ∧ (op lnk).tracker.state = .locked ∧ (op lnk).shadow.blank = 2000 ∧ (op lnk).shadow.tolerance = 200
    ∧ (op lnk).tracker.lastStart + (op lnk).tracker.period = 10000 :=
  ⟨⟨rfl, rfl, by decide⟩, ⟨rfl, rfl, by decide⟩, ⟨rfl, rfl, by decide⟩, ⟨rfl, rfl, by decide⟩, rfl, by decide +kernel,
    by decide +kernel, by decide +kernel⟩

/-- HOLDOVER, an edge at the predicted start, and one at the window's last tick. -/
theorem test_wit_resumed : EdgeNow { op lnk with tick := 10000, tracker := { locked with state := .holdover, missCount := 2 } } true
    ∧ EdgeNow { op lnk with tick := 10200, tracker := { locked with state := .holdover, missCount := 2 } } true
    ∧ (edge { op lnk with tick := 10000, tracker := { locked with state := .holdover, missCount := 2 } }).notices.staging
      = [⟨.trackLocked .resumed 10000 2, 11, 1⟩] :=
  ⟨⟨rfl, rfl, by decide⟩, ⟨rfl, rfl, by decide⟩, by decide +kernel⟩

/-- A gather that counts and one that ends, an offer that ages and one that expires, a flip that is due and one that is not: each met
by one link at a missed window. -/
theorem test_wit_missed : State.inReset { op lnk with tick := 10201 } = false ∧ 10000 + (op lnk).shadow.tolerance < 10201
    ∧ 1 < (op lnk).shadow.missLimit
    ∧ (State.link (op { lnk with swState := .gathering, gatherLeft := 2 }) 0).gatherLeft = 2
    ∧ none ∈ (State.link (op { lnk with swState := .gathering, gatherLeft := 2 }) 0).pendingSet
    ∧ (State.link (op { lnk with swState := .gathering, gatherLeft := 1 }) 0).gatherLeft ≤ 1
    ∧ (op lnk).shadow.offerLife = 400 ∧ (State.link (op { lnk with swState := .offered, offerAge := 398 }) 0).offerAge + 1 < 400
    ∧ 400 ≤ (State.link (op { lnk with swState := .offered, offerAge := 399 }) 0).offerAge + 1
    ∧ (State.link (op { lnk with swState := .confirmed, effective := 11 }) 0).effective = (op lnk).tracker.halfCount + 1 := by
  decide +kernel

/-- HOLDOVER one miss short of M = 6, the window past. -/
def losing : State := { op lnk with tick := 10201, tracker := { locked with state := .holdover, missCount := 5 } }

theorem test_wit_lost : losing.inReset = false ∧ losing.tracker.state = .holdover ∧ losing.shadow.missLimit = 6
    ∧ losing.tracker.lastStart + losing.tracker.period + losing.shadow.tolerance < losing.tick
    ∧ losing.shadow.missLimit ≤ losing.tracker.missCount + 1 ∧ (losing.link 0).isOpen = true := by decide +kernel

/-- The window past by one tick, with TOL and BLANK as given. -/
def late (tol blank : Word) (T : Tracker) : State :=
  { op lnk with shadow := (cfg.set 15 (tol <<< 16 ||| 0x190)).set 16 (0x06080000 ||| blank), tick := 10001 + tol.toNat, tracker := T }

/-- An edge after the window: blanked and stray in the half-cycle that the miss begins, accepted there under a PERIOD_EST that no run
reaches, and the reference edge of SEARCH after the loss. -/
theorem test_wit_late : EdgeNow (late 200 2000 locked) true ∧ EdgeNow (late 800 500 locked) true
    ∧ EdgeNow (late 200 2000 { locked with period := 1000 }) true ∧ EdgeNow losing true
    ∧ (late 200 2000 locked).ConfigOk ∧ (late 800 500 locked).ConfigOk ∧ (late 800 500 locked).shadow.blank < 801
    ∧ (edge (late 200 2000 locked)).tracker.strayCount = 0 ∧ (edge (late 800 500 locked)).tracker.strayCount = 1
    ∧ (edge (late 800 500 locked)).tracker.lastStart = 10000 ∧ (edge (late 800 500 locked)).tracker.state = .holdover
    ∧ (edge (late 200 2000 { locked with period := 1000 })).tracker.state = .locked
    ∧ (edge (late 200 2000 { locked with period := 1000 })).tracker.halfCount = 12 :=
  ⟨⟨rfl, rfl, by decide⟩, ⟨rfl, rfl, by decide⟩, ⟨rfl, rfl, by decide⟩, ⟨rfl, rfl, by decide⟩, Or.inr (by decide +kernel),
    Or.inr (by decide +kernel), by decide +kernel⟩

theorem test_wit_boundary : (op lnk).tracker.slice = some 0 ∧ (op lnk).tracker.boundaries[0]? = some 1666
    ∧ (op lnk).tracker.boundaries[4]? = some 8333 ∧ (op lnk).tracker.lastStart + 1666 ≤ (op lnk).tick
    ∧ State.tick { op lnk with tick := 1665 } < (op lnk).tracker.lastStart + 1666 := by decide +kernel

/-- Record words 1 to 6 of record 15. -/
theorem test_wit_header_words : (op lnk).accepts = true ∧ (op lnk).place (one 0x51E01 1).base = .estimate 15 1
    ∧ PartialGuard (op lnk) .estimate (one 0x51E01 1) 1 0 6 id ∧ commitWord (one 0x51E01 1) 1 = none ∧ (op lnk).engine.job = none
    ∧ (one 0x51E06 1).fullAt (cfg.recordWord 15 6) = some 1 :=
  ⟨rfl, by decide +kernel, Or.inl ⟨Or.inr (by decide), rfl⟩, by decide, rfl, by decide +kernel⟩

/-- OPERATING, with the job of record 0 on slot 3. -/
def jobOn : State := withJob (job .write (some 3)) (op lnk)

/-- An SNR word of the record under the job, with one byte enable, and its commit word in full with VALID 0. -/
theorem test_wit_overrun : jobOn.accepts = true ∧ jobOn.place (part 0x50020 1).base = .estimate 0 32
    ∧ PartialGuard jobOn .estimate (part 0x50020 1) 32 0 6 id ∧ jobOn.place (one 0x50000 7).base = .estimate 0 0
    ∧ PartialGuard jobOn .estimate (one 0x50000 7) 0 0 6 id ∧ (one 0x50000 7).fullAt (one 0x50000 7).base = some 7
    ∧ jobOn.engine.job = some (job .write (some 3)) :=
  ⟨rfl, by decide +kernel, Or.inl ⟨Or.inr (by decide), rfl⟩, by decide +kernel, Or.inl ⟨Or.inr (by decide), rfl⟩, by decide, rfl⟩

/-- An 8-word burst into record 0 with a full header and a full commit word of VALID 0. -/
def unclaimed : WriteBurst :=
  ⟨0x50000, .eight, [⟨7, 15⟩, ⟨5, 15⟩, ⟨0x100, 15⟩, ⟨1, 15⟩, ⟨40, 15⟩, ⟨2, 15⟩, ⟨1024, 15⟩, ⟨0, 15⟩]⟩

/-- A job's burst on the port, and a burst of VALID 0 that carries header words: they are shadowed, and the job's burst is left. -/
theorem test_wit_overrun_whole : (onPort .loadingWrite (.write 0x40308 []) jobOn).accepts = true
    ∧ (jobOn.place unclaimed.base = .estimate 0 0) ∧ unclaimed.fullAt unclaimed.base = some 7
    ∧ ((jobOn.afterHeaders unclaimed 0 0).headerOf 0).carriers = 1024
    ∧ (reportWrite 0 (onPort .loadingWrite (.write 0x40308 []) jobOn)).path.port = some ⟨.ended, .write 0x40308 []⟩ := by
  decide +kernel

/-- A report that ends the job, and one that finds no job on the record. -/
theorem test_wit_report : (∃ report, OverrunReport jobOn 0 report ∧ (report jobOn).engine.job = none
      ∧ (report jobOn).pool.freeList = (op lnk).pool.freeList ++ [3])
    ∧ OverrunReport jobOn 1 id ∧ OverrunReport (op lnk) 0 id :=
  ⟨⟨_, Or.inr ⟨_, rfl, rfl, rfl⟩, by decide +kernel⟩,
    Or.inl ⟨fun j h => by obtain rfl := Option.some.inj h; decide, rfl⟩, Or.inl ⟨fun j h => (by cases h), rfl⟩⟩

/-- An 8-word burst into record 0: the header with slice i, epoch e, node x, C = c, and the commit word 7. -/
def est (x i e c : Nat) : WriteBurst :=
  ⟨0x50000, .eight, [⟨0x80000007, 15⟩, ⟨BitVec.ofNat 32 x, 15⟩, ⟨BitVec.ofNat 32 (e * 256 + i), 15⟩, ⟨1, 15⟩, ⟨40, 15⟩, ⟨2, 15⟩,
    ⟨BitVec.ofNat 32 c, 15⟩, ⟨0, 15⟩]⟩

/-- The state after the header words of that burst. -/
def heard (L : Link) (x i e c : Nat) : HeaderShadow := ((op L).afterHeaders (est x i e c) 0 0).headerOf 0

/-- The five checks, each the first to fail; the slice at S and the carriers apart from C. -/
theorem test_wit_ignored : (op lnk).place (est 5 0 1 1024).base = .estimate 0 0 ∧ PartialGuard (op lnk) .estimate (est 5 0 1 1024) 0 0 6 id
    ∧ (est 5 0 1 1024).fullAt (est 5 0 1 1024).base = some 0x80000007 ∧ (op lnk).engine.job = none
    ∧ (searching none Run.empty).tracker.state ≠ .locked
    ∧ (heard lnk 5 0 2 1024).sliceEpoch.extractLsb' 8 8 ≠ (op lnk).tracker.epoch
    ∧ (heard lnk 5 0 1 1024).sliceEpoch.extractLsb' 8 8 = (op lnk).tracker.epoch
    ∧ (∀ k, ((op lnk).link k).isOpen = true → ((op lnk).link k).node ≠ (heard lnk 6 0 1 1024).node.extractLsb' 0 8)
    ∧ (∀ k, ((op lnk).link k).isOpen = true → ((op lnk).link k).node = (heard lnk 5 0 1 1024).node.extractLsb' 0 8 → k = 0)
    ∧ (op lnk).shadow.slices ≤ (heard lnk 5 6 1 1024).sliceEpoch.toNat % 256
    ∧ (heard lnk 5 5 1 1024).sliceEpoch.toNat % 256 < (op lnk).shadow.slices
    ∧ (heard lnk 5 5 1 1025).carriers.toNat % 65536 ≠ (op lnk).shadow.carriers :=
  ⟨by decide +kernel, Or.inl ⟨Or.inr (by decide), rfl⟩, by decide, rfl, by decide, by decide +kernel, by decide +kernel,
    open_below (by decide +kernel), open_below (by decide +kernel), by decide +kernel, by decide +kernel, by decide +kernel⟩

/-- A valid arrival: Unbuilt holds of slice 5 of this link, and the request is made. -/
theorem test_wit_taken : ((op lnk).link 0).isOpen = true ∧ ((op lnk).link 0).node = (heard lnk 5 5 1 1024).node.extractLsb' 0 8
    ∧ (heard lnk 5 5 1 1024).carriers.toNat % 65536 = (op lnk).shadow.carriers
    ∧ ((op lnk).link 0).summary[5]? = some Summary.empty ∧ ((op lnk).link 0).unbuilt 5 = true
    ∧ (op lnk).tracker.state = .locked := by decide +kernel

/-- A full commit word of VALID 1 into the record under the job, valid and not: a report and an arrival in one burst. -/
theorem test_wit_both : jobOn.accepts = true ∧ jobOn.place (est 5 5 1 1024).base = .estimate 0 0
    ∧ PartialGuard jobOn .estimate (est 5 5 1 1024) 0 0 6 id ∧ (est 5 5 1 1024).fullAt (est 5 5 1 1024).base = some 0x80000007
    ∧ (∃ report, OverrunReport jobOn 0 report)
    ∧ ((jobOn.afterHeaders (est 5 5 1 1024) 0 0).headerOf 0).sliceEpoch.extractLsb' 8 8 = jobOn.tracker.epoch
    ∧ ((jobOn.afterHeaders (est 5 5 2 1024) 0 0).headerOf 0).sliceEpoch.extractLsb' 8 8 ≠ jobOn.tracker.epoch
    ∧ (reportWrite 0 (arrival 0 0x80000007 (jobOn.afterHeaders (est 5 5 1 1024) 0 0))).buildQueue = [⟨0, 5, 0, 7, .auto⟩]
    ∧ (arrival 0 0x80000007 (reportWrite 0 (jobOn.afterHeaders (est 5 5 1 1024) 0 0))).buildQueue = [⟨0, 5, 0, 7, .auto⟩] :=
  ⟨rfl, by decide +kernel, Or.inl ⟨Or.inr (by decide), rfl⟩, by decide, ⟨_, Or.inr ⟨_, rfl, rfl, rfl⟩⟩, by decide +kernel,
    by decide +kernel, by decide +kernel, by decide +kernel⟩

theorem test_wit_captured : (op lnk).place (one 0x20F9 1).base = .transmit 31 1 ∧ (op lnk).shadow.descriptors = 32
    ∧ PartialGuard (op lnk) .transmit (one 0x20F9 1) 1 0 2 id ∧ controlWord (one 0x20F9 1) 1 = none :=
  ⟨by decide +kernel, by decide +kernel, Or.inl ⟨Or.inr (by decide), rfl⟩, by decide⟩

/-- An 8-word descriptor burst with OWNER MODEM, a map reference and a node. -/
def desc (slot issue node : Nat) : WriteBurst :=
  ⟨0x2000, .eight, [⟨1, 15⟩, ⟨BitVec.ofNat 32 (issue * 256 + slot), 15⟩, ⟨BitVec.ofNat 32 node, 15⟩, ⟨0, 15⟩, ⟨0, 15⟩, ⟨0, 15⟩,
    ⟨0, 15⟩, ⟨0, 15⟩]⟩

/-- Link 0 with slot 3 in its cell 1. -/
def built : State := op { lnk with cells := [0, 3, 0, 0, 0, 0] }

/-- The captures of a descriptor burst, and then the commit's checks. -/
def checked (b : WriteBurst) : Except (RejectReason × Option Nat) Nat :=
  (unpin 0 (built.afterCaptures b 0 0)).checkCommit ((built.afterCaptures b 0 0).pinEntry 0)

/-- Slot 3 in force, and slot 0, whose reference needs no node. -/
theorem test_wit_accepted : built.place (desc 3 0 5).base = .transmit 0 0 ∧ PartialGuard built .transmit (desc 3 0 5) 0 0 2 id
    ∧ (desc 3 0 5).fullAt (desc 3 0 5).base = some 1 ∧ ((built.afterCaptures (desc 3 0 5) 0 0).pinEntry 0).ref = some ⟨3, 0⟩
    ∧ ((built.afterCaptures (desc 3 0 5) 0 0).pinEntry 0).node = some 5 ∧ (built.link 0).node = 5 ∧ 3 ∈ (built.link 0).cells
    ∧ (∀ j, (built.link j).isOpen = true → (built.link j).node = 5 → j = 0)
    ∧ ((built.afterCaptures (desc 0 0 9) 0 0).pinEntry 0).ref = some ⟨0, 0⟩ :=
  ⟨by decide +kernel, Or.inl ⟨Or.inr (by decide), rfl⟩, by decide, by decide +kernel, by decide +kernel, by decide +kernel,
    by decide +kernel, open_below (by decide +kernel), by decide +kernel⟩

/-- The five reasons: no reference, a slot at P, another issue, another node, a slot in no cell. -/
theorem test_wit_rejected : checked (one 0x2000 1) matches .error (.noRef, none) ∧ checked (desc 64 0 5) matches .error (.badSlot, none)
    ∧ checked (desc 63 1 5) matches .error (.issue, none) ∧ checked (desc 63 0 6) matches .error (.unknownNode, none)
    ∧ checked (desc 63 0 5) matches .error (.notInForce, some 0) := by decide +kernel

/-- A partial write of record word 6 in an arrival's burst, of descriptor word 2 in a commit's, and of ARG1 beside ARG2. -/
theorem test_wit_guard :
    PartialGuard (op lnk) .estimate (spoil (est 5 0 1 1024) 6) 0 0 6 (raise (.guardWrite .estimate 6 .partialWrite))
    ∧ (spoil (est 5 0 1 1024) 6).fullAt 0x50000 = some 0x80000007
    ∧ (((op lnk).afterHeaders (spoil (est 5 0 1 1024) 6) 0 0).headerOf 0).carriers = 0
    ∧ PartialGuard built .transmit (spoil (desc 3 0 5) 2) 0 0 2 (raise (.guardWrite .transmit 0x2002 .partialWrite))
    ∧ ((built.afterCaptures (spoil (desc 3 0 5) 2) 0 0).pinEntry 0).ref = some ⟨3, 0⟩
    ∧ PartialGuard (op lnk) .anchor ⟨0x10A, .two, [⟨1, 3⟩, ⟨2, 15⟩]⟩ 10 8 12 (raise (.guardWrite .anchor 0x10A .partialWrite))
    ∧ WriteBurst.fullAt ⟨0x10A, .two, [⟨1, 3⟩, ⟨2, 15⟩]⟩ 0x10B = some 2 :=
  ⟨Or.inr ⟨by decide, 6, by decide, by decide, by decide, by decide, by decide, rfl⟩, by decide +kernel, by decide +kernel,
    Or.inr ⟨by decide, 2, by decide, by decide, by decide, by decide, by decide, rfl⟩, by decide +kernel,
    Or.inr ⟨by decide, 0, by decide, by decide, by decide, by decide, by decide, rfl⟩, by decide +kernel⟩

/-- Entry 0 pins slot 3, which is in a state with a number of pins. -/
def pinned (st : SlotState) (n : Nat) : State :=
  { op lnk with
    pinTable := tset (op lnk).pinTable 0 ⟨none, none, some 3⟩
    pool := { (op lnk).pool with slots := tset (op lnk).pool.slots 3 { SlotRec.reset with state := st, pins := n } } }

theorem test_wit_released : ((pinned .active 1).afterCaptures (one 0x2000 2) 0 0).pinEntry 0 = ⟨none, none, some 3⟩
    ∧ ((pinned .active 1).slot 3).state ≠ .retiring ∧ 2 ≤ ((pinned .retiring 2).slot 3).pins
    ∧ ((pinned .retiring 1).slot 3).pins ≤ 1 ∧ (pinned .retiring 1).jobWaits = false
    ∧ ((op lnk).afterCaptures (one 0x2000 0) 0 0).pinEntry 0 = PinEntry.empty
    ∧ State.jobWaits (withJob (job .allocate none) (pinned .retiring 1)) = true
    ∧ (pinned .retiring 1).pool.freeList ++ [3] = 1 :: (List.range' 2 62 ++ [3])
    ∧ (one 0x2000 3).fullAt (one 0x2000 3).base = some 3 := by decide +kernel

/-- Selector 15 by the current slice, selector 7 beyond S = 6, an offset with and without the latch, a latch to be moved and one that
stays. -/
theorem test_wit_alias : built.place 0x20FFF = .aliasWin 0 15 255 ∧ built.place 0x20100 = .aliasWin 0 1 0 ∧ 3 < 128
    ∧ (built.link 0).latch = none ∧ (built.link 0).cells.getD 1 0 = 3 ∧ built.place 0x21000 = .aliasWin 1 0 0
    ∧ (built.link 1).isOpen = false ∧ built.tracker.state = .locked
    ∧ (State.link (op { lnk with latch := some ⟨1, 0⟩ }) 0).latch = some ⟨1, 0⟩ := by decide +kernel

/-- Link 0 with slot 3 in its cell 1 and its latch on slot 5, which is in a state with a number of pins; and a Free List. -/
def moving (st : SlotState) (n : Nat) (free : List Nat) : State :=
  { op { lnk with cells := [0, 3, 0, 0, 0, 0], latch := some ⟨2, 5⟩ } with
    pool :=
      { slots := tset (tset (op lnk).pool.slots 3 { SlotRec.reset with state := .active, refs := 1 }) 5
          { SlotRec.reset with state := st, pins := n }
        freeList := free } }

/-- The latch moves from slot 5: it stays ACTIVE, or RETIRING under another pin, or becomes FREE, or goes to the job that waits. Each
time the read is of slot 3, waiting or on the port. -/
theorem test_wit_latch_moves : (moving .active 1 [1]).place 0x20100 = .aliasWin 0 1 0
    ∧ ((moving .active 1 [1]).link 0).latch = some ⟨2, 5⟩ ∧ (moving .active 1 [1]).cellSlot 0 1 = 3
    ∧ ((moving .active 1 [1]).slot 5).state ≠ .retiring ∧ ((moving .retiring 2 [1]).slot 5).pins = 2
    ∧ (∃ t, exec (.aliasRead ⟨0x20100, .eight⟩) (moving .retiring 2 [1]) = .next t ∧ (t.link 0).latch = some ⟨1, 3⟩
      ∧ (t.slot 3).pins = 1 ∧ (t.slot 5).pins = 1 ∧ (t.slot 5).state = .retiring ∧ t.pool.freeList = [1]
      ∧ t.path.port = some ⟨.processor, .read 0x40300 8⟩)
    ∧ (∃ t, exec (.aliasRead ⟨0x20100, .eight⟩) (moving .retiring 1 [1]) = .next t ∧ (t.slot 5).state = .free
      ∧ t.pool.freeList = [1, 5] ∧ t.path.port = some ⟨.processor, .read 0x40300 8⟩)
    ∧ State.jobWaits (withJob (job .allocate none) (moving .retiring 1 [])) = true
    ∧ ∃ t, exec (.aliasRead ⟨0x20100, .eight⟩) (withJob (job .allocate none) (moving .retiring 1 [])) = .next t
      ∧ (t.slot 5).state = .building ∧ t.pool.freeList = [] ∧ t.engine.job.map Job.slot = some (some 5)
      ∧ t.path.port = some ⟨.processor, .read 0x40300 8⟩ :=
  ⟨by decide +kernel, by decide +kernel, by decide +kernel, by decide +kernel, by decide +kernel,
    ⟨_, rfl, by decide +kernel⟩, ⟨_, rfl, by decide +kernel⟩, rfl, _, rfl, by decide +kernel⟩

/-- The last half-cycle, the last place filled, and both at once. -/
theorem test_wit_gather : (0 ∈ State.owed { op lnk with owed := [0] })
    ∧ (State.link (op { lnk with swState := .gathering, gatherLeft := 1 }) 0).gatherLeft ≤ 1
    ∧ none ∉ (State.link (op { lnk with swState := .gathering, gatherLeft := 2, pendingSet := List.replicate 6 (some 3) }) 0).pendingSet
    ∧ State.inReset { op lnk with owed := [0] } = false := by decide +kernel

/-- X = 3: a second expiry, and a third. -/
theorem test_wit_expires : (op lnk).shadow.maxExpiries = 3 ∧ (op lnk).shadow.offerLife = 400
    ∧ (State.link (op { lnk with swState := .offered, offerAge := 399, streak := 1 }) 0).streak + 1 ≠ 3
    ∧ (State.link (op { lnk with swState := .offered, offerAge := 399, streak := 2 }) 0).streak + 1 = 3 := by decide +kernel

/-- A flip without a next set, with one that gathers, and with one that is whole. -/
theorem test_wit_flips : (op lnk).tracker.halfCount = 10 ∧ (op lnk).shadow.gather = 2
    ∧ (∀ n, some n ∉ (State.link (op { lnk with swState := .confirmed, effective := 10 }) 0).nextSet)
    ∧ some 3 ∈ (State.link (op { lnk with nextSet := [none, some 3, none, none, none, none] }) 0).nextSet
    ∧ none ∈ (State.link (op { lnk with nextSet := [none, some 3, none, none, none, none] }) 0).nextSet
    ∧ none ∉ (State.link (op { lnk with nextSet := List.replicate 6 (some 3) }) 0).nextSet :=
  ⟨by decide, by decide +kernel, fun n => by
    show some n ∉ List.replicate 6 none
    simp, by decide +kernel, by decide +kernel, by decide +kernel⟩

/-- A job of link 0 with slot 3 whose header is on the port. -/
theorem test_wit_result : OnPort (onPort .headerWrite (.write 0x40300 []) (withJob (job .write (some 3)) (op lnk))) .headerWrite
      (.write 0x40300 [])
    ∧ ((op lnk).link 0).isOpen = true ∧ ((op lnk).link 0).mode ≠ .fallback ∧ 0 < ((op lnk).link 0).pendingSet.length
    ∧ 0 < ((op lnk).link 0).nextSet.length ∧ ((op lnk).link 0).swState = .steady
    ∧ none ∈ ((op lnk).link 0).pendingSet.set 0 (some 3)
    ∧ none ∉ (List.replicate 5 (some 3) ++ [none]).set 5 (some 3) :=
  ⟨⟨rfl, rfl⟩, by decide +kernel, by decide +kernel, by decide +kernel, by decide +kernel, by decide +kernel, by decide +kernel,
    by decide⟩

/-- The list of 32 words: a burst before the last, and the last. -/
theorem test_wit_notch : OnPort (onPort .notchRead (.read 0x4000 8) (op lnk)) .notchRead (.read 0x4000 8)
    ∧ 16 + 8 < (op lnk).shadow.carriers / 32 ∧ (op lnk).shadow.carriers / 32 ≤ 24 + 8 :=
  ⟨⟨rfl, rfl⟩, by decide +kernel, by decide +kernel⟩

/-- C / 64 = 16 bursts: the last but one, and the last. -/
theorem test_wit_base : OnPort (onPort .baseLoading (.write 0 []) (op lnk)) .baseLoading (.write 0 [])
    ∧ OnPort (onPort .baseHeader (.write 0 []) (op lnk)) .baseHeader (.write 0 [])
    ∧ 14 + 1 < (op lnk).shadow.carriers / 64 ∧ (op lnk).shadow.carriers / 64 ≤ 15 + 1 :=
  ⟨⟨rfl, rfl⟩, ⟨rfl, rfl⟩, by decide +kernel, by decide +kernel⟩

theorem test_wit_job_start : State.buildQueue { op lnk with buildQueue := [req 0] } = req 0 :: []
    ∧ OnPort (onPort .ended (.read 0 8) (withJob (job .load none) (op lnk))) .ended (.read 0 8)
    ∧ (job .load none).mean = none ∧ (op lnk).engine.job = none ∧ (withJob (job .load none) (op lnk)).engine.ready = none
    ∧ (job .allocate none).slot = none ∧ (op lnk).pool.freeList = 1 :: List.range' 2 62 :=
  ⟨rfl, ⟨rfl, rfl⟩, rfl, rfl, rfl, rfl, by decide +kernel⟩

/-- Memory with record 0's header as the job wants it. -/
def recorded : Memory := writeBeats [] 0x50000 [⟨0x80000007, 15⟩, ⟨5, 15⟩, ⟨0, 15⟩, ⟨1, 15⟩, ⟨40, 15⟩]

theorem test_wit_header_check : OnPort (onPort .headerRead (.read 0x50000 8) (withJob (job .load none) (op lnk))) .headerRead
      (.read 0x50000 8)
    ∧ headerOk (job .load none) 5 (readWords recorded 0x50000 8) = true ∧ headerOk (job .load none) 5 (readWords [] 0x50000 8) = false :=
  ⟨⟨rfl, rfl⟩, by decide +kernel, by decide +kernel⟩

/-- C / 32 = 32 SNR bursts: the last but one, and the last; a TOTAL below the base total and one that reaches it. -/
theorem test_wit_snr : OnPort (onPort .snrRead (.read 0x50008 8) (withJob (job .load none) (op lnk))) .snrRead (.read 0x50008 8)
    ∧ 30 + 1 < (op lnk).shadow.carriers / 32 ∧ (op lnk).shadow.carriers / 32 ≤ 31 + 1 ∧ ((op lnk).slot 0).total = 1024
    ∧ ((op lnk).link 0).cells[0]? = some 0 ∧ (op lnk).pool.freeList.head? = some 1
    ∧ (∀ x ∈ ((op lnk).link 0).cells, ¬((((op lnk).slot x).total = 1025) ∧ ((op lnk).slot x).signature = 0)) :=
  ⟨⟨rfl, rfl⟩, by decide +kernel, by decide +kernel, by decide +kernel, by decide +kernel, by decide +kernel, by decide +kernel⟩

/-- A candidate at its last burst but one, at its last under the issue noted, and at one that differs with the Free List empty. -/
theorem test_wit_candidate : OnPort (onPort .candidateRead (.read 0x40308 8)
      (withJob { job .matching none with candidates := [(3, 0)] } built)) .candidateRead (.read 0x40308 8)
    ∧ Job.candidates { job .matching none with candidates := [(3, 0)] } = [(3, 0)] ∧ (built.slot 3).issue = 0
    ∧ (built.link 0).cells[1]? = some 3 ∧ (built.link 0).cells[0]? ≠ some 3 ∧ 3 ∈ (built.link 0).cells
    ∧ 14 + 1 < built.shadow.carriers / 64 ∧ built.shadow.carriers / 64 ≤ 15 + 1
    ∧ (State.pool { built with pool := { built.pool with freeList := [] } }).freeList = [] :=
  ⟨⟨rfl, rfl⟩, rfl, by decide +kernel, by decide +kernel, by decide +kernel, by decide +kernel, by decide +kernel,
    by decide +kernel, rfl⟩

/-- The link's slots as candidates, each once; an equal one first and after one that is not; one under another issue, and one that no
entry names. -/
theorem test_wit_candidates : (Link.candidateSlots { lnk with cells := [4, 3, 4, 0, 0, 0], nextSet := [some 5] } 1) = [3, 4, 0, 5]
    ∧ built.nextCandidate 0 0 [(0, 0), (3, 0)] 0 = some 1 ∧ (built.slot 3).issue ≠ 1 ∧ 4 ∉ (built.link 0).cells
    ∧ some 4 ∉ (built.link 0).pendingSet ∧ some 4 ∉ (built.link 0).nextSet ∧ built.pool.freeList = 1 :: List.range' 2 62
    ∧ (∀ x ∈ ([(0, 0)] : List (Nat × BitVec 8)), ¬((built.slot x.1).total = 0 ∧ (built.slot x.1).signature = 0)) := by
  decide +kernel

theorem test_wit_slot_written : OnPort (onPort .loadingWrite (.write 0x40308 []) (withJob (job .write (some 127)) (op lnk))) .loadingWrite
      (.write 0x40308 [])
    ∧ 14 + 1 < (op lnk).shadow.carriers / 64 ∧ (op lnk).shadow.carriers / 64 ≤ 15 + 1 ∧ 127 < 128 :=
  ⟨⟨rfl, rfl⟩, by decide +kernel, by decide +kernel, by decide⟩

/-- A notice staged, its burst not formed, and formed and on the port. -/
theorem test_wit_notice : (raise (.applyDone 0 0) (op lnk)).notices.staging = [⟨.applyDone 0 0, 10, 1⟩]
    ∧ (raise (.applyDone 0 0) (op lnk)).notices.ready = none ∧ (op lnk).portIs .notice = false
    ∧ OnPort (onPort .notice (.write 0x3000 []) (raise (.applyDone 0 0) (op lnk))) .notice (.write 0x3000 []) :=
  ⟨by decide +kernel, rfl, rfl, ⟨rfl, rfl⟩⟩

/-- Seven staged are admitted an eighth, and eight are not. -/
theorem test_wit_admission : State.admits { op lnk with notices := { NoticeWriter.reset with
      staging := List.replicate 7 ⟨.applyDone 0 0, 0, 0⟩ } } = true
    ∧ State.admits { op lnk with notices := { NoticeWriter.reset with
      staging := List.replicate 8 ⟨.applyDone 0 0, 0, 0⟩ } } = false
    ∧ State.admits { op lnk with notices := { NoticeWriter.reset with producer := 62 } } = true
    ∧ State.admits { op lnk with notices := { NoticeWriter.reset with producer := 63 } } = false := by decide +kernel

end Sys2Proof.Tests
end

section
/-! PROOFS. Every step keeps memory in its canonical form (R3, R24). -/
namespace Sys2Proof.Machine

/-! ### Memory over one command -/

/-- The processor's burst leaves memory canonical, whatever transaction is accepted behind it. -/
theorem wf_acceptPresented_processorDone {s : State} (h : Memory.wf s.memory = true) :
    Memory.wf (acceptPresented (processorDone s)).memory = true :=
  wf_of (s := processorDone s) (wf_finish h) (keep_accept _)

/-- Hardware reset leaves memory canonical: the abandoned burst is written as far as memory had accepted it (R24). -/
theorem wf_abandoned {s : State} (h : Memory.wf s.memory = true) (accepted : Nat) :
    Memory.wf (s.abandoned accepted) = true := by
  unfold State.abandoned
  split
  · exact wf_applyFirst h accepted _
  · exact h

/-- The deassertion of RESET_N writes no memory. -/
theorem memory_execResetDeassert {zc : Bool} {s t : State} (h : execResetDeassert zc s = .next t) : t.memory = s.memory := by
  unfold execResetDeassert at h
  cases h
  split
  · rfl
  · split <;> rfl

/-- A sample of ZC_IN writes no memory. -/
theorem memory_execZcEdge {level : Bool} {s t : State} (h : execZcEdge level s = .next t) : t.memory = s.memory := by
  unfold execZcEdge at h
  cases h
  split
  · rfl
  · split
    · exact ((keep_counting (f := edge) (keep_edge (takeSample level s))).trans (keep_settle _)).1
    · rfl

/-- Every command keeps memory canonical. The rows fall into four kinds: a transaction's arrival, an event that writes no memory, the end of
a burst, and hardware reset. -/
theorem exec_keeps_wf {c : Instr} {s t : State} (h : Memory.wf s.memory = true) (ht : exec c s = .next t) :
    Memory.wf t.memory = true := by
  have arrive : ∀ {u}, Host.Outcome.next u = (Host.Outcome.next t : Outcome) → Keep s u → Memory.wf t.memory = true := by
    intro u hu hk
    cases hu
    exact wf_of h hk
  have ended : ∀ {u} {f : List Word → State → State},
      Host.Outcome.next (onBurstDone u f s) = (Host.Outcome.next t : Outcome) → (∀ w v, Keep v (f w v)) →
      Memory.wf t.memory = true := by
    intro u f hu hf
    cases hu
    exact wf_onBurst u hf h
  have guarded : ∀ {f : State → State} {p : Bool},
      Host.Outcome.next (if p then settle (f s) else s) = (Host.Outcome.next t : Outcome) → Keep s (f s) →
      Memory.wf t.memory = true := by
    intro f p hu hf
    cases hu
    split
    · exact wf_of h (hf.trans (keep_settle _))
    · exact h
  cases c with
  | hardwareReset n => cases ht; exact wf_abandoned h n
  | resetDeassert zc =>
    rw [memory_execResetDeassert ht]
    exact h
  | aliasRead r => exact arrive ht (keep_ra r s)
  | processorRead r => exact arrive ht (keep_ra r s)
  | processorBurstDone =>
    cases ht
    split
    · rw [settle_memory]; exact wf_acceptPresented_processorDone h
    · exact h
  | zcEdge level =>
    rw [memory_execZcEdge ht]
    exact h
  | captureWindowMiss => exact guarded ht (keep_counting (keep_miss s))
  | sliceBoundary => cases ht; split <;> exact h
  | gatherEnd k => exact arrive ht (keep_startEvent k s)
  | offerExpiry k => exact arrive ht (keep_startEvent k s)
  | flip k => exact arrive ht (keep_startEvent k s)
  | jobStart => exact guarded ht (keep_sj s)
  | allocateAfterWait => exact guarded ht (keep_alloc s)
  | notchReadDone => exact ended ht keep_notch
  | baseLoadingWriteDone => exact ended ht fun _ => keep_baseLoading
  | baseHeaderWriteDone => exact ended ht fun _ => keep_baseHeader
  | headerReadDone => exact ended ht keep_header
  | snrBurstDone => exact ended ht keep_snr
  | candidateBurstDone => exact ended ht keep_cand
  | loadingWriteDone => exact ended ht fun _ => keep_lw
  | headerWriteDone => exact ended ht fun _ => keep_hw
  | noticeWriteDone => exact ended ht fun _ => keep_nw
  | endedClientBurstDone => exact ended ht fun _ => keep_rh
  | apply b | withdraw b | linkAdd b | linkRemove b | linkHold b | linkResume b | rebuild b | confirm b | decline b
  | badCodeCommand b | cmdArgWrite b | noticeConsumerWrite b | configWrite b | processorWrite b | discardedWrite b
  | estimateHeaderWrite b | estimateArrival b | descriptorRefCapture b | descriptorNodeCapture b | commit b
  | descriptorDone b | descriptorHostOwned b | descriptorRejected b => exact arrive ht (keep_wa b s)

/-- An idle step writes no memory. -/
theorem memory_idle (s : State) : (idle s).memory = s.memory := by
  unfold idle
  split
  · rfl
  · split
    · rfl
    · split
      · exact ((keep_counting (f := missWindow) (keep_miss s)).trans (keep_settle _)).1
      · split
        · exact (keep_startEvent _ s).1
        · split
          · exact ((keep_sj s).trans (keep_settle _)).1
          · rfl

/-- Settles O6: a command by its kind, and an idle step, which writes no memory. -/
theorem memoryCanonicalKept : Obligations.MemoryCanonicalKept := by
  intro s t h ht
  unfold step at ht
  split at ht
  · cases ht
    rw [memory_idle]
    exact h
  · rename_i rest _
    exact exec_keeps_wf (s := { s with pending := rest }) h ht

end Sys2Proof.Machine
end

section
/-! PROOFS. The Window Decoder: protected writes, the block of a burst, the place of an address, and the traffic that passes (R1, R4, R11). -/
namespace Sys2Proof.Machine

/-! ### Protected windows and words (R8, R11, R17) -/

/-- A write to a protected window or word is discarded. -/
theorem takeWrite_protected {s : State} {b : WriteBurst} {g : GuardWindow}
    (h : (∃ n, s.place b.base = .anchor n ∧ (n < 8 ∨ 16 ≤ n ∧ n < 48 ∧ s.filter ≠ .transparent)) ∧ g = .anchor
      ∨ (∃ k x o, s.place b.base = .aliasWin k x o) ∧ g = .aliasWin
      ∨ (∃ k w, s.place b.base = .view k w) ∧ g = .view
      ∨ (∃ n w, s.place b.base = .pool n w) ∧ g = .pool
      ∨ (∃ e w, s.place b.base = .noticeRing e w) ∧ g = .noticeRing) :
    takeWrite b s = discardWrite g b s := by
  unfold takeWrite
  rcases h with ⟨⟨n, hp, hn | ⟨hlo, hhi, hf⟩⟩, rfl⟩ | ⟨⟨k, x, o, hp⟩, rfl⟩ | ⟨⟨k, w, hp⟩, rfl⟩ | ⟨⟨n, w, hp⟩, rfl⟩ | ⟨⟨e, w, hp⟩, rfl⟩
  · simp only [hp, hn, if_true]
  · simp only [hp, show ¬ n < 8 by omega, show ¬ n < 16 by omega, hhi, hf, if_true, if_false]
  all_goals simp only [hp]

/-- A discarded write in TRANSPARENT: its completion, and nothing else. -/
theorem discardWrite_transparent {s : State} (g : GuardWindow) (b : WriteBurst) (h : s.filter = .transparent) :
    discardWrite g b s = { s with path := { s.path with completions := [.wrote] } } := by
  unfold discardWrite
  rw [if_pos h]

/-- A discarded write outside TRANSPARENT: its completion and a GUARD notice, reason PROTECTED. -/
theorem discardWrite_guarded {s : State} (g : GuardWindow) (b : WriteBurst) (h : s.filter ≠ .transparent) :
    discardWrite g b s = { raise (.guardWrite g (BitVec.ofNat 16 b.base) .protect) s with
      path := { s.path with completions := [.wrote] } } := by
  unfold discardWrite
  rw [if_neg h]
  rfl

/-- Settles O29: the decoder discards the burst, and the notice is raised outside TRANSPARENT alone. -/
theorem discardedWrite : Obligations.DiscardedWrite := by
  intro s b g ha hp
  have key : exec (.discardedWrite b) s = .next (settle (discardWrite g b s)) := by
    rw [← takeWrite_protected hp, ← writeArrival_accepts b ha]
    rfl
  rw [key]
  exact ⟨fun hf => by rw [discardWrite_transparent g b hf], fun hf => by rw [discardWrite_guarded g b hf]⟩

/-! ### The block of a burst (R1, R16) -/

/-- A burst covers the aligned block of its length that holds the address presented. -/
theorem blockOf_alignedBase (a : Addr) (len : BurstLen) : BlockOf a len (alignedBase a len) := by
  have hpos := words_pos len
  have hdiv := Nat.div_add_mod' a.toNat len.words
  have hmod := Nat.mod_lt a.toNat hpos
  refine ⟨by cases len <;> rfl, Nat.mul_mod_left _ _, ?_, ?_⟩ <;> unfold alignedBase <;> omega

/-- The word that a burst writes in full at an address, spelled over its beat. -/
theorem fullAt_iff (b : WriteBurst) (a : Nat) (x : Word) :
    b.fullAt a = some x ↔ b.base ≤ a ∧ a < b.base + b.len.words ∧ b.beat (a - b.base) = ⟨x, 15⟩ := by
  by_cases hc : b.base ≤ a ∧ a < b.base + b.len.words
  · obtain ⟨i, rfl⟩ : ∃ i, a = b.base + i := ⟨a - b.base, by omega⟩
    rw [fullAt_covered b (by omega), Nat.add_sub_cancel_left]
    obtain ⟨d, e⟩ := b.beat i
    simp [Beat.isFull, hc.2, and_comm]
  · rw [fullAt_outside b (by omega)]
    simp only [reduceCtorEq, false_iff]
    exact fun h => hc ⟨h.1, h.2.1⟩

/-- A write burst's block, its words in ascending order, and those it writes in full. -/
theorem writeSpelled (b : WriteBurst) : WriteSpelled b := by
  refine ⟨blockOf_alignedBase b.addr b.len, by simp [WriteBurst.words], ?_, fullAt_iff b⟩
  intro i x hi hx
  have hb : b.beat i = x := by simp [WriteBurst.beat, hx]
  exact ⟨by simp [WriteBurst.words, hi, hb], hb⟩

/-! ### The place of an address (R4 to R6) -/

/-- An address lies in a window of a base and a size. -/
theorem inWindow_iff (a base size : Nat) : inWindow a base size = true ↔ base ≤ a ∧ a < base + size := by
  simp [inWindow]

/-- No configured window is the Anchor Block. -/
theorem shadowPlace_ne_anchor (c : Shadow) (a w : Nat) : c.place a ≠ .anchor w := by
  unfold Shadow.place
  repeat' split
  all_goals simp

/-- Outside the Anchor Block the place of an address is the configured windows', and in TRANSPARENT it lies in none. -/
theorem place_outside_anchor (s : State) {a : Nat} (h : a < 0x100 ∨ 0x140 ≤ a) :
    s.place a = if s.filter = .transparent then .outside else s.shadow.place a := by
  have hw : ¬ inWindow a anchorBase 64 = true := by
    rw [inWindow_iff]
    unfold anchorBase
    omega
  unfold State.place
  rw [if_neg hw]
  cases s.filter <;> rfl

/-- The place of an address in the Anchor Block. -/
theorem place_eq_anchor_iff (s : State) (a w : Nat) : s.place a = .anchor w ↔ 0x100 ≤ a ∧ a < 0x140 ∧ w = a - 0x100 := by
  by_cases h : 0x100 ≤ a ∧ a < 0x140
  · rw [place_anchor s h.1 h.2]
    simp [h, eq_comm]
  · rw [place_outside_anchor s (by omega)]
    have hne : (if s.filter = .transparent then Place.outside else s.shadow.place a) ≠ .anchor w := by
      split
      · simp
      · exact shadowPlace_ne_anchor _ _ _
    exact iff_of_false hne fun g => h ⟨g.1, g.2.1⟩

/-- Two regions that share no word, spelled: no address lies in both. -/
theorem disjointRegions_iff (x y : Nat × Nat) :
    disjointRegions x y = true ↔ ∀ a, ¬ (inWindow a x.1 x.2 = true ∧ inWindow a y.1 y.2 = true) := by
  simp only [inWindow_iff, disjointRegions, Bool.or_eq_true, beq_iff_eq, decide_eq_true_eq]
  constructor
  · intro h a
    omega
  · intro h
    have := h x.1
    have := h y.1
    omega

/-- No two regions of a list share a word, spelled. -/
theorem pairwiseDisjoint_iff (l : List (Nat × Nat)) :
    pairwiseDisjoint l = true ↔ l.Pairwise fun x y => ∀ a, ¬ (inWindow a x.1 x.2 = true ∧ inWindow a y.1 y.2 = true) := by
  induction l with
  | nil => simp [pairwiseDisjoint]
  | cons x l ih =>
    simp only [pairwiseDisjoint, Bool.and_eq_true, List.all_eq_true, List.pairwise_cons, ih, disjointRegions_iff]

/-- Under a configuration that passed APPLY no address lies in two of the eight regions (R34). -/
theorem regions_disjoint {c : Shadow} (h : c.firstFailing = none) :
    c.regions.Pairwise fun x y => ∀ a, ¬ (inWindow a x.1 x.2 = true ∧ inWindow a y.1 y.2 = true) := by
  rw [← pairwiseDisjoint_iff]
  have h3 := List.find?_eq_none.1 h 3 (by decide)
  simpa [Shadow.check] using h3

/-- An address in one region of a legal configuration lies in no earlier one of the list (R34). -/
theorem regions_earlier {c : Shadow} (h : c.firstFailing = none) {a : Nat} (j : Nat) {y : Nat × Nat}
    (hy : c.regions[j]? = some y) (ha : inWindow a y.1 y.2 = true) : ∀ x ∈ c.regions.take j, ¬ inWindow a x.1 x.2 = true := by
  intro x hx
  obtain ⟨i, hi, rfl⟩ := List.mem_take_iff_getElem.1 hx
  obtain ⟨hj, rfl⟩ := List.getElem?_eq_some_iff.1 hy
  exact fun hb => List.pairwise_iff_getElem.1 (regions_disjoint h) i j _ hj (by omega) a ⟨hb, ha⟩

/-- What a place says of an address outside TRANSPARENT, over the window bases and sizes (R4). -/
def Shadow.PlaceHolds (c : Shadow) (a : Nat) : Place → Prop
  | .anchor w => inWindow a anchorBase 64 = true ∧ w = a - anchorBase
  | .aliasWin k x o => inWindow a c.aliasBase aliasSize = true ∧ k = (a - c.aliasBase) / 4096
      ∧ x = (a - c.aliasBase) % 4096 / 256 ∧ o = (a - c.aliasBase) % 256
  | .view k w => inWindow a c.viewBase viewSize = true ∧ k = (a - c.viewBase) / 64 ∧ w = (a - c.viewBase) % 64
  | .pool n w => inWindow a c.poolBase c.poolSize = true ∧ n = (a - c.poolBase) / 256 ∧ w = (a - c.poolBase) % 256
  | .estimate r w => inWindow a c.estBase c.estSize = true ∧ r = (a - c.estBase) / 512 ∧ w = (a - c.estBase) % 512
  | .transmit i w => inWindow a c.txBase c.txSize = true ∧ i = (a - c.txBase) / 8 ∧ w = (a - c.txBase) % 8
  | .noticeRing e w => inWindow a c.noteBase c.noteSize = true ∧ e = (a - c.noteBase) / 4 ∧ w = (a - c.noteBase) % 4
  | .outside => ∀ x ∈ c.regions.take 7, ¬ inWindow a x.1 x.2 = true

/-- Outside TRANSPARENT the decoder's place is the one that the windows' ranges give: the windows of a legal configuration are disjoint,
so that their order in the decoder does not matter. -/
theorem place_iff_holds {s : State} (hf : s.filter ≠ .transparent) (h : s.shadow.firstFailing = none) (a : Nat) (p : Place) :
    s.place a = p ↔ s.shadow.PlaceHolds a p := by
  have hplace : s.place a = if inWindow a anchorBase 64 then .anchor (a - anchorBase) else s.shadow.place a := by
    unfold State.place
    cases hs : s.filter <;> simp_all
  rw [hplace]
  unfold Shadow.place
  constructor
  · rintro rfl
    repeat' split
    iterate 7 exact ⟨‹_›, by simp⟩
    intro x hx
    simp only [Shadow.regions, List.take_succ_cons, List.take_zero, List.mem_cons, List.not_mem_nil, or_false] at hx
    rcases hx with rfl | rfl | rfl | rfl | rfl | rfl | rfl <;> assumption
  · have hr := fun j y => regions_earlier h (a := a) j (y := y)
    simp only [Shadow.regions] at hr
    cases p with
    | anchor w =>
      intro ⟨hin, hw⟩
      rw [if_pos hin, hw]
    | outside =>
      intro hout
      simp only [Shadow.PlaceHolds, Shadow.regions, List.take_succ_cons, List.take_zero, List.forall_mem_cons] at hout
      simp [hout]
    | aliasWin k x o =>
      rintro ⟨hin, rfl, rfl, rfl⟩
      have hout := hr 1 _ rfl hin
      simp_all
    | view k w =>
      rintro ⟨hin, rfl, rfl⟩
      have hout := hr 2 _ rfl hin
      simp_all
    | pool n w =>
      rintro ⟨hin, rfl, rfl⟩
      have hout := hr 3 _ rfl hin
      simp_all
    | estimate r w =>
      rintro ⟨hin, rfl, rfl⟩
      have hout := hr 4 _ rfl hin
      simp_all
    | transmit i w =>
      rintro ⟨hin, rfl, rfl⟩
      have hout := hr 5 _ rfl hin
      simp_all
    | noticeRing e w =>
      rintro ⟨hin, rfl, rfl⟩
      have hout := hr 6 _ rfl hin
      simp_all

/-- Where an address lies, in every filter state. -/
theorem placeSpelled (s : State) (a : Nat) : PlaceSpelled s a := by
  refine ⟨place_eq_anchor_iff s a, ?_, ?_⟩
  · intro hf ha
    rw [place_outside_anchor s ha, if_pos hf]
  · intro hf hc c hcs
    obtain rfl := hcs
    simp only [place_iff_holds hf (hc.resolve_left hf), Shadow.PlaceHolds, inWindow_iff, and_assoc, aliasSize, viewSize,
      Shadow.poolSize, Shadow.estSize, Shadow.txSize, Shadow.noteSize, roundUp64]
    refine ⟨fun k x o => ?_, fun _ _ => trivial, fun _ _ => trivial, fun _ _ => trivial, fun _ _ => trivial, fun _ _ => trivial, ?_⟩
    · rw [Nat.mod_mod_of_dvd _ (by decide)]
    · simp only [Shadow.regions, List.take_succ_cons, List.take_zero, List.forall_mem_cons, List.not_mem_nil, anchorBase,
        aliasSize, viewSize, Shadow.poolSize, Shadow.estSize, Shadow.txSize, Shadow.noteSize, roundUp64]
      simp

/-! ### What passes (R7, R8, R11, R13) -/

/-- A write outside all windows, in Anchor words 48 to 63 or in the Transmit Ring's padding waits for the memory-side port as written. -/
theorem takeWrite_passes {s : State} {b : WriteBurst}
    (h : s.place b.base = .outside ∨ (∃ n, s.place b.base = .anchor n ∧ 48 ≤ n)
      ∨ ∃ i w, s.place b.base = .transmit i w ∧ s.shadow.descriptors ≤ i) :
    takeWrite b s = forward (.write b.base b.words) s := by
  unfold takeWrite
  rcases h with hp | ⟨n, hp, hn⟩ | ⟨i, w, hp, hi⟩
  · simp only [hp]
  · simp only [hp, show ¬ n < 8 by omega, show ¬ n < 16 by omega, show ¬ n < 48 by omega, if_false]
  · simp only [hp, show ¬ i < s.shadow.descriptors by omega, if_false]

/-- A read that the part neither answers nor translates waits for the memory-side port at its own address. -/
theorem takeRead_passes {s : State} {r : ReadBurst}
    (h : s.place r.base = .outside ∨ (∃ n, s.place r.base = .anchor n ∧ 8 ≤ n) ∨ (∃ n w, s.place r.base = .pool n w)
      ∨ (∃ e w, s.place r.base = .estimate e w) ∨ (∃ i w, s.place r.base = .transmit i w)
      ∨ ∃ e w, s.place r.base = .noticeRing e w) :
    takeRead r s = forward (.read r.base r.len.words) s := by
  unfold takeRead
  rcases h with hp | ⟨n, hp, hn⟩ | ⟨n, w, hp⟩ | ⟨e, w, hp⟩ | ⟨i, w, hp⟩ | ⟨e, w, hp⟩
  · simp only [hp]
  · simp only [hp, show ¬ n < 8 by omega, if_false]
  all_goals simp only [hp]

/-- An accepted write, under the row that any write comes in. -/
theorem exec_processorWrite {s : State} (b : WriteBurst) (h : s.accepts = true) :
    exec (.processorWrite b) s = .next (settle (takeWrite b s)) := by
  rw [← writeArrival_accepts b h]
  rfl

/-- An accepted read, under the row that any read comes in. -/
theorem exec_processorRead {s : State} (r : ReadBurst) (h : s.accepts = true) :
    exec (.processorRead r) s = .next (settle (takeRead r s)) := by
  rw [← readArrival_accepts r h]
  rfl

/-- Settles O30: the block of a burst, the place of an address, and what passes. -/
theorem trafficPasses : Obligations.TrafficPasses := by
  refine ⟨writeSpelled, fun r => blockOf_alignedBase r.addr r.len, placeSpelled, fun s ha => ⟨fun b hb => ?_, fun r hr => ?_⟩⟩
  · rw [exec_processorWrite b ha, takeWrite_passes hb]
    rfl
  · rw [exec_processorRead r ha, takeRead_passes hr]
    rfl

end Sys2Proof.Machine
end

section
/-! PROOFS. The words that the part answers a read with, bit by bit: the live words and the Link View (R7, R10, R26, R81, 12.2, 12.3). -/
namespace Sys2Proof.Machine

/-! ### A word as its fields -/

/-- A field of a word: its bits from a place on, and 0 elsewhere. -/
@[irreducible] def fieldAt {w : Nat} (x : BitVec w) (lo : Nat) : Word := x.setWidth 32 <<< lo

/-- A whole word is a field at place 0. -/
theorem fieldAt_word (x : Word) : fieldAt x 0 = x := by simp [fieldAt]

/-- Fields side by side are a field each, at its own place. -/
theorem fieldAt_append {v w : Nat} (x : BitVec v) (y : BitVec w) (lo : Nat) :
    fieldAt (x ++ y) lo = fieldAt x (lo + w) ||| fieldAt y lo := by
  apply BitVec.eq_of_getLsbD_eq
  intro i hi
  simp only [fieldAt, BitVec.getLsbD_or, BitVec.getLsbD_shiftLeft, BitVec.getLsbD_setWidth, BitVec.getLsbD_append]
  by_cases hl : i < lo
  · simp [hl, show i < lo + w by omega]
  · by_cases h : i - lo < w
    · simp [h, hi, hl, show i < lo + w by omega, show i - lo < 32 by omega]
    · simp [h, hi, hl, BitVec.getLsbD_of_ge y (i - lo) (by omega), show ¬ i < lo + w by omega, show i - lo < 32 by omega,
        show i - (lo + w) < 32 by omega, Nat.sub_sub]

/-- A field of zeros. -/
theorem fieldAt_zero (w lo : Nat) : fieldAt (0#w) lo = 0#32 := by simp [fieldAt]

/-- A number put into a word is a field. -/
theorem put_eq_fieldAt (lo w n : Nat) : put lo w n = fieldAt (BitVec.ofNat w n) lo := by
  unfold fieldAt
  exact put_eq lo w n

/-- A bit vector put into a word at its own width is that field. -/
theorem put_toNat {w : Nat} (x : BitVec w) (lo : Nat) : put lo w x.toNat = fieldAt x lo := by
  rw [put_eq_fieldAt, BitVec.ofNat_toNat, BitVec.setWidth_eq]

/-- A flag put into a word. -/
theorem put_flag (b : Bool) (lo : Nat) : put lo 1 (flag b) = fieldAt (BitVec.ofBool b) lo := by
  rw [put_eq_fieldAt]
  cases b <;> rfl

/-! ### The live words (R26, R31, R61 to R63) -/

/-- FILTER_STATUS in TRANSPARENT. -/
theorem filterStatus_transparent {s : State} (h : s.filter = .transparent) : s.filterStatus = 0 := by
  unfold State.filterStatus
  rw [h]
  rfl

/-- FILTER_STATUS outside TRANSPARENT, in its fields. -/
theorem filterStatus_active {s : State} (h : s.filter ≠ .transparent) : s.filterStatus =
    0#1 ++ BitVec.ofBool s.noteIrq ++ BitVec.ofBool (decide (0 < s.notices.urgentCount)) ++ BitVec.ofBool s.notices.overflow ++ 0#1
      ++ BitVec.ofNat 3 s.stageCode ++ 0#3 ++ BitVec.ofNat 5 s.buildQueue.length ++ 0#1 ++ BitVec.ofNat 7 s.pool.freeList.length
      ++ 0#6 ++ (if s.filter = .applying then 1#2 else 2#2) := by
  have hcode : s.filterStatus = put 0 2 s.filter.code ||| put 8 7 s.pool.freeList.length ||| put 16 5 s.buildQueue.length
      ||| put 24 3 s.stageCode ||| put 28 1 (flag s.notices.overflow) ||| put 29 1 (flag (0 < s.notices.urgentCount))
      ||| put 30 1 (flag s.noteIrq) := by
    unfold State.filterStatus
    cases hf : s.filter with
    | transparent => exact absurd hf h
    | applying => rfl
    | operating => rfl
  have hfilter : BitVec.ofNat 2 s.filter.code = if s.filter = .applying then 1#2 else 2#2 := by
    cases hf : s.filter with
    | transparent => exact absurd hf h
    | applying => rfl
    | operating => rfl
  rw [hcode, ← hfilter, ← fieldAt_word (_ ++ _), fieldAt_append]
  simp only [fieldAt_append]
  simp only [put_flag]
  simp only [put_eq_fieldAt, fieldAt_zero, Nat.reduceAdd, BitVec.zero_or, BitVec.or_zero]
  ac_rfl

/-- RESULT, in its fields. -/
theorem resultWord_eq (s : State) : s.resultWord = s.result.seq ++ BitVec.ofNat 8 s.result.code.code ++ s.result.value := by
  unfold State.resultWord
  rw [← fieldAt_word (_ ++ _), fieldAt_append]
  simp only [fieldAt_append, put_toNat]
  simp only [put_eq_fieldAt, Nat.reduceAdd]

/-- The codes of RESULT, in their order (12.7). -/
theorem resultCodes : ([.noCommand, .ok, .badCode, .wrongState, .busy, .badConfig, .badLink, .badNode, .dupNode, .tableFull, .notLocked,
    .notOffered, .stale, .late, .queueFull] : List ResultCode).map ResultCode.code = List.range 15 := by decide

/-- TRACK_STATUS, in its fields. -/
theorem trackStatus_eq (s : State) : s.trackStatus =
    0#11 ++ (if s.tracker.state = .holdover then BitVec.ofNat 5 s.tracker.missCount else 0#5) ++ s.tracker.epoch
      ++ BitVec.ofNat 4 (s.tracker.slice.getD 15) ++ 0#2 ++ BitVec.ofNat 2 s.tracker.state.code := by
  have hmiss : BitVec.ofNat 5 (if s.tracker.state = .holdover then s.tracker.missCount else 0)
      = if s.tracker.state = .holdover then BitVec.ofNat 5 s.tracker.missCount else 0#5 := by split <;> rfl
  unfold State.trackStatus
  rw [← hmiss, ← fieldAt_word (_ ++ _), fieldAt_append]
  simp only [fieldAt_append, put_toNat]
  simp only [put_eq_fieldAt, fieldAt_zero, Nat.reduceAdd, BitVec.zero_or, BitVec.or_zero]
  ac_rfl

/-- The tracker holds lock in LOCKED and HOLDOVER. -/
theorem isLocked_iff (x : TrackState) : x.isLocked = true ↔ x = .locked ∨ x = .holdover := by cases x <;> decide

/-- HALF_COUNT, in its fields. -/
theorem halfCountWord_eq (s : State) : s.halfCountWord =
    (if s.tracker.state = .locked ∨ s.tracker.state = .holdover then BitVec.ofNat 16 (s.tick - s.tracker.lastStart) else 0#16)
      ++ s.tracker.halfCount := by
  have hticks : BitVec.ofNat 16 (if s.tracker.state.isLocked then s.tick - s.tracker.lastStart else 0)
      = if s.tracker.state = .locked ∨ s.tracker.state = .holdover then BitVec.ofNat 16 (s.tick - s.tracker.lastStart) else 0#16 := by
    simp only [isLocked_iff]
    split <;> rfl
  unfold State.halfCountWord
  rw [← hticks, ← fieldAt_word (_ ++ _), fieldAt_append]
  simp only [put_toNat]
  simp only [put_eq_fieldAt, Nat.reduceAdd]
  ac_rfl

/-- PERIOD and the stray count, in their fields. -/
theorem periodWord_eq (s : State) : s.periodWord = 0#8 ++ s.tracker.strayCount ++ BitVec.ofNat 16 s.tracker.period := by
  unfold State.periodWord
  rw [← fieldAt_word (_ ++ _), fieldAt_append]
  simp only [fieldAt_append, put_toNat]
  simp only [put_eq_fieldAt, fieldAt_zero, Nat.reduceAdd, BitVec.zero_or]
  ac_rfl

/-- The producer index, in its field. -/
theorem producerWord_eq (n : Nat) : put 0 8 n = 0#24 ++ BitVec.ofNat 8 n := by
  rw [← fieldAt_word (_ ++ _), fieldAt_append]
  simp only [put_eq_fieldAt, fieldAt_zero, BitVec.zero_or]

/-! ### Slot entries (12.3) -/

/-- A slot entry, in its fields. -/
theorem slotEntry_eq (s : State) (n : Nat) : s.slotEntry n = 1#1 ++ 0#15 ++ (s.slot n).issue ++ BitVec.ofNat 8 n := by
  unfold State.slotEntry
  rw [← fieldAt_word (_ ++ _), fieldAt_append]
  simp only [fieldAt_append, put_toNat]
  simp only [put_eq_fieldAt, fieldAt_zero, Nat.reduceAdd, BitVec.or_zero]

/-- The latch word of a latch that is set, in its fields. -/
theorem latchWord_some (s : State) (l : Latch) : s.latchWord (some l) =
    1#1 ++ 0#11 ++ BitVec.ofNat 4 l.selector ++ (s.slot l.slot).issue ++ BitVec.ofNat 8 l.slot := by
  unfold State.latchWord State.slotEntry
  rw [← fieldAt_word (_ ++ _), fieldAt_append]
  simp only [fieldAt_append, put_toNat]
  simp only [put_eq_fieldAt, fieldAt_zero, Nat.reduceAdd, BitVec.or_zero]
  ac_rfl

/-- An entry word is what renders a present slot, and 0 for an absent one. -/
theorem optEntry_eq {s : State} {entry : Option Nat → Word}
    (hsome : ∀ n, entry (some n) = 1#1 ++ 0#15 ++ (s.slot n).issue ++ BitVec.ofNat 8 n) (hnone : entry none = 0) (e : Option Nat) :
    s.optEntry e = entry e := by
  cases e with
  | none => exact hnone.symm
  | some n => exact (slotEntry_eq s n).trans (hsome n).symm

/-! ### The Link View (R81, R82) -/

/-- A FREE record reads 0. -/
theorem viewWord_free {s : State} {k : Nat} (h : (s.link k).isOpen = false) (w : Nat) : s.viewWord k w = 0 := by
  unfold State.viewWord
  rw [h]
  rfl

/-- An OPEN record is rendered. -/
theorem viewWord_open {s : State} {k : Nat} (h : (s.link k).isOpen = true) (w : Nat) :
    s.viewWord k w = s.openViewWord k (s.link k) w := by
  unfold State.viewWord
  rw [if_pos h]

section
variable (s : State) (k : Nat) (L : Link)

/-- View word 0: OPEN, MODE, SW_STATE and CHANGES. -/
theorem openViewWord_zero : s.openViewWord k L 0 =
    L.changes ++ BitVec.ofNat 4 L.swState.code ++ BitVec.ofNat 4 L.mode.code ++ 1#8 := by
  unfold State.openViewWord
  rw [if_pos rfl, ← fieldAt_word (_ ++ _), fieldAt_append]
  simp only [fieldAt_append, put_toNat]
  simp only [put_eq_fieldAt, Nat.reduceAdd]
  ac_rfl

/-- View word 1: NODE, STREAK, ACTIVE_SET and LAST_ISSUED. -/
theorem openViewWord_one : s.openViewWord k L 1 = L.lastIssued ++ L.activeSet ++ BitVec.ofNat 8 L.streak ++ L.node := by
  unfold State.openViewWord
  rw [if_neg (by decide), if_pos rfl, ← fieldAt_word (_ ++ _), fieldAt_append]
  simp only [fieldAt_append, put_toNat]
  simp only [put_eq_fieldAt, Nat.reduceAdd]
  ac_rfl

/-- View word 2: PENDING_SET_NO, GATHER_LEFT and OFFER_AGE. -/
theorem openViewWord_two : s.openViewWord k L 2 = BitVec.ofNat 16 L.offerAge ++ BitVec.ofNat 8 L.gatherLeft ++ L.pendingSetNo := by
  simp (disch := omega) only [State.openViewWord, if_neg, if_true]
  rw [← fieldAt_word (_ ++ _), fieldAt_append]
  simp only [fieldAt_append, put_toNat]
  simp only [put_eq_fieldAt, Nat.reduceAdd]
  ac_rfl

/-- View word 3: EFFECTIVE and the masks of the present entries. -/
theorem openViewWord_three : s.openViewWord k L 3 =
    BitVec.ofNat 8 (presentMask L.nextSet) ++ BitVec.ofNat 8 (presentMask L.pendingSet) ++ L.effective := by
  simp (disch := omega) only [State.openViewWord, if_neg, if_true]
  rw [← fieldAt_word (_ ++ _), fieldAt_append]
  simp only [fieldAt_append, put_toNat]
  simp only [put_eq_fieldAt, Nat.reduceAdd]
  ac_rfl

/-- View word 5: the link's index and S. -/
theorem openViewWord_five : s.openViewWord k L 5 = 0#16 ++ BitVec.ofNat 8 s.shadow.slices ++ BitVec.ofNat 8 k := by
  simp (disch := omega) only [State.openViewWord, if_neg, if_true]
  rw [← fieldAt_word (_ ++ _), fieldAt_append]
  simp only [fieldAt_append]
  simp only [put_eq_fieldAt, fieldAt_zero, Nat.reduceAdd, BitVec.zero_or]
  ac_rfl

/-- View word 63: CHANGES. -/
theorem openViewWord_last : s.openViewWord k L 63 = 0#16 ++ L.changes := by
  simp (disch := omega) only [State.openViewWord, if_neg, if_true]
  rw [← fieldAt_word (_ ++ _), fieldAt_append]
  simp only [put_toNat, fieldAt_zero, BitVec.zero_or]

/-- View word 4: the latch. -/
theorem openViewWord_latch : s.openViewWord k L 4 = s.latchWord L.latch := by
  simp (disch := omega) only [State.openViewWord, if_neg, if_true]

/-- View words 8 to 31: the cells, the pending entries and the next entries. -/
theorem openViewWord_entries {i : Nat} (hi : i < 8) : s.openViewWord k L (8 + i) = s.optEntry L.cells[i]?
    ∧ s.openViewWord k L (16 + i) = s.optEntry (L.pendingSet.getD i none)
    ∧ s.openViewWord k L (24 + i) = s.optEntry (L.nextSet.getD i none) := by
  refine ⟨?_, ?_, ?_⟩ <;> simp (disch := omega) only [State.openViewWord, if_neg, if_pos, Nat.add_sub_cancel_left]

/-- View words 32 to 47: both words of a slice's summary. -/
theorem openViewWord_summary {i : Nat} {m : Summary} (hi : i < 8) (hm : L.summary[i]? = some m) :
    s.openViewWord k L (32 + 2 * i) = m.word0 ∧ s.openViewWord k L (33 + 2 * i) = m.word1 := by
  have hslice : (32 + 2 * i - 32) / 2 = i ∧ (33 + 2 * i - 32) / 2 = i := by omega
  obtain ⟨h0, h1⟩ := hslice
  constructor <;> simp (disch := omega) only [State.openViewWord, if_neg, if_pos, h0, h1, hm]

/-- View words 32 to 47 of a slice without a summary. -/
theorem openViewWord_noSummary {i : Nat} (hi : i < 8) (hm : L.summary[i]? = none) :
    s.openViewWord k L (32 + 2 * i) = 0 ∧ s.openViewWord k L (33 + 2 * i) = 0 := by
  have hslice : (32 + 2 * i - 32) / 2 = i ∧ (33 + 2 * i - 32) / 2 = i := by omega
  obtain ⟨h0, h1⟩ := hslice
  constructor <;> simp (disch := omega) only [State.openViewWord, if_neg, if_pos, h0, h1, hm]

/-- The view words that hold nothing. -/
theorem openViewWord_unused {w : Nat} (h : w = 6 ∨ w = 7 ∨ 48 ≤ w ∧ w ≤ 62) : s.openViewWord k L w = 0 := by
  rcases h with rfl | rfl | ⟨hlo, hhi⟩
  · rfl
  · rfl
  · simp (disch := omega) only [State.openViewWord, if_neg]

end

/-- The first word of a summary, in its fields. -/
theorem summaryWord0_eq (m : Summary) : m.word0 = BitVec.ofBool m.last.isSome ++ BitVec.ofBool m.buildMean.isSome ++ 0#1
    ++ BitVec.ofNat 5 (match m.last with
      | some p => p.1
      | none => 0)
    ++ m.buildMean.getD 0 ++ m.lastMean ++ m.arrivals := by
  have hmean : (m.buildMean.map BitVec.toNat).getD 0 = (m.buildMean.getD 0).toNat := by cases m.buildMean <;> rfl
  have hrec : (m.last.map Prod.fst).getD 0 = match m.last with
      | some p => p.1
      | none => 0 := by cases m.last <;> rfl
  unfold Summary.word0
  rw [hmean, hrec, ← fieldAt_word (_ ++ _), fieldAt_append]
  simp only [fieldAt_append, put_toNat, put_flag]
  simp only [put_eq_fieldAt, fieldAt_zero, Nat.reduceAdd, BitVec.or_zero]
  ac_rfl

/-- The second word of a summary, in its fields. -/
theorem summaryWord1_eq (m : Summary) : m.word1 = m.lastErr ++ (match m.last with
    | some p => p.2
    | none => 0#16) := by
  have hseq : ((m.last.map fun p => p.2.toNat).getD 0) = (match m.last with
      | some p => p.2
      | none => 0#16).toNat := by cases m.last <;> rfl
  unfold Summary.word1
  rw [hseq, ← fieldAt_word (_ ++ _), fieldAt_append]
  simp only [put_toNat, Nat.reduceAdd]
  ac_rfl

/-- The low eight bits of a present mask show the present entries. -/
theorem maskOf_presentMask (es : List (Option Nat)) : MaskOf es (BitVec.ofNat 8 (presentMask es)) := by
  intro i hi
  rw [← presentMask_testBit, BitVec.getLsbD_ofNat]
  simp [hi]

/-! ### The answer to a read (R2, R7, R10) -/

/-- A read of the live words is answered. -/
theorem takeRead_live {s : State} {r : ReadBurst} {n : Nat} (hp : s.place r.base = .anchor n) (hn : n < 8) :
    takeRead r s = answer ((List.range r.len.words).map fun i => s.liveWord (n + i)) s := by
  unfold takeRead
  simp only [hp, hn, if_true]

/-- A read of the Link View is answered. -/
theorem takeRead_view {s : State} {r : ReadBurst} {k w : Nat} (hp : s.place r.base = .view k w) :
    takeRead r s = answer ((List.range r.len.words).map fun i => s.viewWord k (w + i)) s := by
  unfold takeRead
  simp only [hp]

/-- Settles O31: the two answered places, and each word by the lemma of its own. -/
theorem readsAnswered : Obligations.ReadsAnswered := by
  intro s r ha
  refine ⟨fun n hp hn => ?_, fun k w hp => ?_, rfl, rfl, filterStatus_transparent, fun hf => ?_, resultWord_eq s, resultCodes, ?_,
    halfCountWord_eq s, periodWord_eq s, producerWord_eq _, fun k w h => viewWord_free h w, ?_⟩
  · rw [exec_processorRead r ha, takeRead_live hp hn]
    rfl
  · rw [exec_processorRead r ha, takeRead_view hp]
    rfl
  · refine (filterStatus_active hf).trans ?_
    unfold State.stageCode
    cases s.engine.job with
    | none => rfl
    | some j => dsimp only; cases j.stage <;> rfl
  · refine (trackStatus_eq s).trans ?_
    cases s.tracker.state <;> rfl
  · rintro k L entry rfl hopen _ hsome hnone
    simp only [viewWord_open hopen]
    refine ⟨?_, openViewWord_one .., openViewWord_two .., ⟨_, _, maskOf_presentMask _, maskOf_presentMask _, openViewWord_three ..⟩,
      fun hl => ?_, fun l hl => ?_, openViewWord_five .., fun i hi => ?_, fun i m hi hm => ?_,
      fun i hi hm => openViewWord_noSummary s k _ hi hm, openViewWord_last .., fun w hw => openViewWord_unused s k _ hw⟩
    · refine (openViewWord_zero ..).trans ?_
      cases (s.link k).swState <;> cases (s.link k).mode <;> rfl
    · rw [openViewWord_latch, hl]
      rfl
    · rw [openViewWord_latch, hl]
      exact latchWord_some s l
    · obtain ⟨hcell, hpending, hnext⟩ := openViewWord_entries s k (s.link k) hi
      rw [hcell, hpending, hnext]
      exact ⟨optEntry_eq hsome hnone _, optEntry_eq hsome hnone _, optEntry_eq hsome hnone _⟩
    · obtain ⟨hword0, hword1⟩ := openViewWord_summary s k (s.link k) hi hm
      rw [hword0, hword1]
      exact ⟨summaryWord0_eq m, summaryWord1_eq m⟩

end Sys2Proof.Machine
end

section
/-! PROOFS. The arbiter's decision, and the end of a burst on the memory-side port (R1 to R3, R19, R22, R23). -/
namespace Sys2Proof.Machine

/-! ### The state in which the arbiter decides (R19, R23, R176, R178) -/

/-- WAIT's clearing does not change which clients have a burst ready. -/
theorem requesterWaits_clearWait (s : State) : (clearWait s).requesterWaits = s.requesterWaits := rfl

/-- The Internal Requester waits where some client has a burst ready (R19). -/
theorem requesterWaits_iff (s : State) :
    s.requesterWaits = true ↔ s.notices.ready ≠ none ∨ s.applier.ready ≠ none ∨ s.engine.ready ≠ none := by
  simp only [State.requesterWaits, Bool.or_eq_true, Option.isSome_iff_ne_none, or_assoc]

/-- A ready notice burst stays as it is. -/
theorem formNotice_ready_some {s : State} {p : PortBurst} (h : s.notices.ready = some p) :
    (formNotice s).notices.ready = some p := by
  simp [formNotice, h]

/-- With nothing staged, or a notice on the port, no notice burst is formed. -/
theorem formNotice_ready_none {s : State} (h : s.notices.ready = none) (hn : s.notices.staging = [] ∨ s.portIs .notice = true) :
    (formNotice s).notices.ready = none := by
  unfold formNotice
  rcases hn with hn | hn
  · simp [h, hn]
  · cases hs : s.notices.staging <;> simp [h, hn]

/-- The burst of the staged head is formed. -/
theorem formNotice_ready_staged {s : State} {x : Notice} {rest : List Notice} (h : s.notices.ready = none)
    (hs : s.notices.staging = x :: rest) (hp : s.portIs .notice = false) :
    (formNotice s).notices.ready = some (s.noticeBurst x) := by
  simp [formNotice, h, hs, hp]

/-- WAIT is 0 while the Internal Requester does not wait. -/
theorem clearWait_wait {s : State} (h : s.requesterWaits = false) : (clearWait s).path.wait = 0 := by
  simp [clearWait, h]

/-! ### The grants (R19, R22, R23) -/

/-- The Notice Writer's burst is issued first. -/
theorem grantInternal_notice {s : State} {p : PortBurst} (h : s.notices.ready = some p) : grantInternal s =
    { s with notices := { s.notices with ready := none }, path := { s.path with port := some p, wait := 0 } } := by
  unfold grantInternal
  rw [h]

/-- The Apply Reader's or Base Writer's burst is issued next. -/
theorem grantInternal_applier {s : State} {p : PortBurst} (hn : s.notices.ready = none) (h : s.applier.ready = some p) :
    grantInternal s =
      { s with applier := { s.applier with ready := none }, path := { s.path with port := some p, wait := 0 } } := by
  unfold grantInternal
  rw [hn, h]

/-- The Loading Engine's burst is issued last. -/
theorem grantInternal_engine {s : State} {p : PortBurst} (hn : s.notices.ready = none) (ha : s.applier.ready = none)
    (h : s.engine.ready = some p) : grantInternal s =
      { s with engine := { s.engine with ready := none }, path := { s.path with port := some p, wait := 0 } } := by
  unfold grantInternal
  rw [hn, ha, h]

/-- The processor's grant, where WAIT is 0 unless the Internal Requester waits. -/
theorem grantProcessor_eq {t : MemBurst} {s : State} (h : s.requesterWaits = false → s.path.wait = 0) : grantProcessor t s =
    { s with path := { s.path with
      port := some ⟨.processor, t⟩
      waiting := none
      wait := if s.requesterWaits then s.path.wait + 1 else 0 } } := by
  unfold grantProcessor
  cases hr : s.requesterWaits with
  | true => rfl
  | false => simp [h hr]

/-- The Internal Requester waits, and no processor transaction does or WAIT has reached the hold-off limit: it is granted the port. -/
theorem arbitrate_requester {s : State} (hport : s.path.port = none) (hr : s.requesterWaits = true)
    (h : s.path.waiting = none ∨ s.path.wait = s.shadow.holdOff) : arbitrate s = grantInternal s := by
  rcases h with h | h
  · exact arbitrate_internal hport h hr
  · exact arbitrate_holdOff hport hr h

/-- Settles O33: the state in which the arbiter decides, and its grants in their order. -/
theorem arbiterGrants : Obligations.ArbiterGrants := by
  intro s u hu
  have hsettle : settle s = arbitrate u := by rw [hu]; rfl
  have hready : u.notices.ready = (formNotice (decideIrq s)).notices.ready := by rw [hu]; rfl
  have hwait : u.requesterWaits = false → u.path.wait = 0 := by
    rw [hu, requesterWaits_clearWait]
    exact clearWait_wait
  refine ⟨?_, requesterWaits_iff u |>.trans (by rw [hu]; rfl), ?_, fun p hp => ?_, fun hn hs => ?_, fun x rest hn hs hp => ?_,
    fun hport => ?_, fun t hport ht hw => ?_, fun p hport hw => ⟨fun hn => ?_, fun hn ha => ?_, fun hn ha he => ?_⟩, fun ht hr => ?_⟩
  · rw [hu, requesterWaits_clearWait]
    rfl
  · rw [hu, irqOk_iff]
    rfl
  · rw [hready]
    exact formNotice_ready_some hp
  · rw [hready]
    exact formNotice_ready_none hn hs
  · rw [hready]
    exact formNotice_ready_staged hn hs hp
  · rw [hsettle, arbitrate_held hport]
  · rw [hsettle, arbitrate_processor hport ht]
    · exact grantProcessor_eq hwait
    · by_cases hr : u.requesterWaits = true
      · exact Or.inr fun h => hw ⟨hr, h⟩
      · exact Or.inl (Bool.eq_false_iff.2 hr)
  · rw [hsettle, arbitrate_requester hport ((requesterWaits_iff u).2 (Or.inl (by simp [hn]))) hw, grantInternal_notice hn]
  · rw [hsettle, arbitrate_requester hport ((requesterWaits_iff u).2 (Or.inr (Or.inl (by simp [ha])))) hw, grantInternal_applier hn ha]
  · rw [hsettle, arbitrate_requester hport ((requesterWaits_iff u).2 (Or.inr (Or.inr (by simp [he])))) hw,
      grantInternal_engine hn ha he]
  · rw [hsettle, arbitrate_none ht hr]

/-! ### The bytes that a burst leaves (R3) -/

/-- Two words of one burst share no byte. -/
theorem byteKey_ne {a p q i j : Nat} (hp : p < 8) (hq : q < 8) (hpq : p ≠ q) (hi : i < 4) (hj : j < 4) :
    byteKey (a + p) i ≠ byteKey (a + q) j := by
  unfold byteKey
  omega

/-- A byte of a burst's word: the beat's where its enable is set, and as before where it is clear. -/
theorem readByte_writeBeats_at {m : Memory} (h : m.wf = true) (a : Nat) {xs : List Beat} (hlen : xs.length ≤ 8) {p i : Nat} {x : Beat}
    (hx : xs[p]? = some x) (hi : i < 4) : readByte (writeBeats m a xs) (byteKey (a + p) i) =
      if x.be.getLsbD i = true then x.data.extractLsb' (8 * i) 8 else readByte m (byteKey (a + p) i) := by
  induction xs generalizing m a p with
  | nil => cases hx
  | cons y ys ih =>
    have hlen' : ys.length + 1 ≤ 8 := hlen
    rw [writeBeats]
    cases p with
    | zero =>
      obtain rfl := Option.some.inj hx
      rw [readByte_writeBeats_ne (wf_writeBeat h a y) (a + 1) ys, Nat.add_zero, readByte_writeBeat_same h a y hi]
      intro q hq j hj
      rw [Nat.add_assoc, Nat.add_comm 1 q]
      exact byteKey_ne (by omega) (by omega) (by omega) hj hi
    | succ p =>
      have hp : p < ys.length := Nat.lt_of_succ_lt_succ (List.getElem?_eq_some_iff.1 hx).1
      rw [show a + (p + 1) = a + 1 + p by omega, ih (wf_writeBeat h a y) (a + 1) (by omega) hx, readByte_writeBeat_ne h a y]
      intro j hj
      rw [show a + 1 + p = a + (p + 1) by omega]
      exact byteKey_ne (p := 0) (by omega) (by omega) (by omega) hj hi

/-- Every byte after a write burst, in its words and outside them. -/
theorem readByte_applyTo_write {m : Memory} (h : m.wf = true) (a : Nat) (beats : List Beat) :
    (∀ k, (∀ p, p < beats.length → ∀ i, i < 4 → byteKey (a + p) i ≠ k) →
      readByte ((MemBurst.write a beats).applyTo m) k = readByte m k)
    ∧ (beats.length ≤ 8 → ∀ p x i, beats[p]? = some x → i < 4 →
      readByte ((MemBurst.write a beats).applyTo m) (byteKey (a + p) i) =
        if x.be.getLsbD i = true then x.data.extractLsb' (8 * i) 8 else readByte m (byteKey (a + p) i)) :=
  ⟨fun _ hk => readByte_writeBeats_ne h a beats hk, fun hlen _ _ _ hx hi => readByte_writeBeats_at h a hlen hx hi⟩

/-! ### Which row takes a burst's end (R20) -/

/-- A use's burst is on the port. -/
theorem portIs_iff (s : State) (u : PortUse) : s.portIs u = true ↔ ∃ m, s.path.port = some ⟨u, m⟩ := by
  unfold State.portIs
  split
  · rename_i p hp
    obtain ⟨v, m⟩ := p
    simp [hp]
  · rename_i hp
    simp [hp]

/-- The processor-side port accepts with RESET_N deasserted, and no transaction of the processor waiting or on the port (R1). -/
theorem accepts_iff (s : State) :
    s.accepts = true ↔ s.inReset = false ∧ s.path.waiting = none ∧ ∀ m, s.path.port ≠ some ⟨.processor, m⟩ := by
  have hport : s.portIs .processor = false ↔ ∀ m, s.path.port ≠ some ⟨.processor, m⟩ := by
    rw [← Bool.not_eq_true, portIs_iff, not_exists]
  simp only [State.accepts, Bool.and_eq_true, Bool.not_eq_true', hport, Option.isNone_iff_eq_none, and_assoc]

/-- A use that is not on the port has no burst to end. -/
theorem onBurstDone_other {u : PortUse} {s : State} (h : s.portIs u = false) (f : List Word → State → State) :
    onBurstDone u f s = s := by
  unfold onBurstDone
  rw [h, Bool.and_false]
  rfl

/-- The end of an internal burst: its words land, and its client's event follows. -/
theorem memory_onBurstDone {u : PortUse} {m : MemBurst} {s : State} (h : OnPort s u m) {f : List Word → State → State}
    (hf : ∀ ws v, Keep v (f ws v)) : (onBurstDone u f s).memory = m.applyTo s.memory := by
  rw [onPort_done h, settle_memory, counting_memory, (hf _ _).1]

/-- What the processor is handed for its burst: a read's words, or a write's completion (R2). -/
def MemBurst.completion : MemBurst → Memory → Completion
  | .read a n, mem => .data ((List.range n).map fun i => readWord mem (a + i))
  | .write _ _, _ => .wrote

/-- The processor's burst has completed: memory holds its words, the port is FREE, and the completion is handed over (R2, R3). -/
theorem processorDone_onPort {m : MemBurst} {s : State} (h : OnPort s .processor m) : processorDone s =
    { s with
      memory := m.applyTo s.memory
      path := { s.path with port := none, completions := [m.completion s.memory] } } := by
  obtain ⟨_, hp⟩ := h
  unfold processorDone finishBurst State.processorCompletion
  cases m <;> simp [hp, readWords, MemBurst.completion]

/-- The processor's row, with its burst on the port. -/
theorem exec_processorBurstDone {m : MemBurst} {s : State} (h : OnPort s .processor m) :
    exec .processorBurstDone s = .next (settle (acceptPresented (processorDone s))) := by
  obtain ⟨hr, hp⟩ := h
  show Host.Outcome.next _ = _
  rw [hr, (portIs_iff s .processor).2 ⟨m, hp⟩]
  rfl

/-- The row of a use that is not on the port changes nothing (log 5). -/
theorem exec_doneRow_other {s : State} {u : PortUse} (h : s.portIs u = false) : exec (doneRow u) s = .next s := by
  cases u with
  | processor =>
    show Host.Outcome.next _ = _
    rw [h, Bool.and_false]
    rfl
  | _ => exact congrArg Host.Outcome.next (onBurstDone_other h _)

/-- The row of the use on the port leaves in memory what the burst does. -/
theorem exec_doneRow_memory {s : State} {u : PortUse} {m : MemBurst} (h : OnPort s u m) :
    ∃ t, exec (doneRow u) s = .next t ∧ t.memory = m.applyTo s.memory := by
  cases u with
  | processor =>
    refine ⟨_, exec_processorBurstDone h, ?_⟩
    rw [settle_memory, (keep_accept _).1, processorDone_onPort h]
  | notice => exact ⟨_, rfl, memory_onBurstDone h fun _ => keep_nw⟩
  | notchRead => exact ⟨_, rfl, memory_onBurstDone h keep_notch⟩
  | baseLoading => exact ⟨_, rfl, memory_onBurstDone h fun _ => keep_baseLoading⟩
  | baseHeader => exact ⟨_, rfl, memory_onBurstDone h fun _ => keep_baseHeader⟩
  | headerRead => exact ⟨_, rfl, memory_onBurstDone h keep_header⟩
  | snrRead => exact ⟨_, rfl, memory_onBurstDone h keep_snr⟩
  | candidateRead => exact ⟨_, rfl, memory_onBurstDone h keep_cand⟩
  | loadingWrite => exact ⟨_, rfl, memory_onBurstDone h fun _ => keep_lw⟩
  | headerWrite => exact ⟨_, rfl, memory_onBurstDone h fun _ => keep_hw⟩
  | ended => exact ⟨_, rfl, memory_onBurstDone h fun _ => keep_rh⟩

/-! ### The presented transaction (R1, R22, log 7) -/

/-- The row of a transaction is its arrival where the port accepts it. -/
theorem exec_row_accepts {s : State} (x : Transaction) (h : s.accepts = true) : exec x.row s = .next (settle (x.take s)) := by
  cases x with
  | write b => exact exec_processorWrite b h
  | read r => exact exec_processorRead r h

/-- The row of a transaction presents it where the port does not accept it. -/
theorem exec_row_busy {s : State} (x : Transaction) (h : s.accepts = false) : exec x.row s = .next (present x s) := by
  cases x with
  | write b =>
    show Host.Outcome.next (writeArrival b s) = _
    unfold writeArrival
    rw [h]
    rfl
  | read r =>
    show Host.Outcome.next (readArrival r s) = _
    unfold readArrival
    rw [h]
    rfl

/-- A second transaction at a busy port is turned away. -/
theorem present_second {s : State} (x : Transaction) (h : s.path.presented ≠ none) : present x s = s := by
  unfold present
  rw [Option.isNone_eq_false_iff.2 (Option.isSome_iff_ne_none.2 h), Bool.and_false]
  rfl

/-- With nothing presented, or a transaction waiting, the port accepts nothing. -/
theorem acceptPresented_none {s : State} (h : s.path.presented = none ∨ s.path.waiting ≠ none) : acceptPresented s = s := by
  unfold acceptPresented
  split
  · rename_i hw hp
    rcases h with h | h
    · rw [h] at hp
      cases hp
    · exact absurd hw h
  · rfl

/-- The state with other words handed to the processor. -/
def State.handing (s : State) (c : List Completion) : State := { s with path := { s.path with completions := c } }

/-- The presented transaction arrives; its completion follows what was handed over before. -/
theorem acceptPresented_some {s : State} {x : Transaction} (hp : s.path.presented = some x) (hw : s.path.waiting = none) {v : State}
    (hv : v = x.take { s with path := { s.path with presented := none, completions := [] } }) :
    acceptPresented s = v.handing (s.path.completions ++ v.path.completions) := by
  unfold acceptPresented
  rw [hp, hw, hv]
  rfl

/-- What the processor is handed takes no part in the Internal Requester's grant. -/
theorem grantInternal_handing (s : State) (c : List Completion) : grantInternal (s.handing c) = (grantInternal s).handing c := by
  unfold grantInternal State.handing
  cases s.notices.ready with
  | some p => rfl
  | none =>
    cases s.applier.ready with
    | some p => rfl
    | none => cases s.engine.ready <;> rfl

/-- What the processor is handed takes no part in the arbiter's decision. -/
theorem arbitrate_handing (s : State) (c : List Completion) : arbitrate (s.handing c) = (arbitrate s).handing c := by
  cases hport : s.path.port with
  | some p =>
    have hheld : s.path.port.isSome = true := by rw [hport]; rfl
    rw [arbitrate_held hheld, arbitrate_held (s := s.handing c) hheld]
  | none =>
    by_cases hgrant : s.requesterWaits = true ∧ (s.path.waiting = none ∨ s.path.wait = s.shadow.holdOff)
    · obtain ⟨hr, hw⟩ := hgrant
      rw [arbitrate_requester hport hr hw, arbitrate_requester (s := s.handing c) hport hr hw, grantInternal_handing]
    · cases hw : s.path.waiting with
      | some t =>
        have hprocessor : s.requesterWaits = false ∨ s.path.wait ≠ s.shadow.holdOff := by
          rw [← Bool.not_eq_true]
          tauto
        rw [arbitrate_processor hport hw hprocessor, arbitrate_processor (s := s.handing c) hport hw hprocessor]
        rfl
      | none =>
        have hr : s.requesterWaits = false := Bool.eq_false_iff.2 fun h => hgrant ⟨h, Or.inl hw⟩
        rw [arbitrate_none hw hr, arbitrate_none (s := s.handing c) hw hr]

/-- What the processor is handed takes no part in what follows an event. -/
theorem settle_handing (s : State) (c : List Completion) : settle (s.handing c) = (settle s).handing c :=
  arbitrate_handing (clearWait (formNotice (decideIrq s))) c

/-- Settles O32: the ports' conditions, a burst's end by its row, and the arrival of a presented transaction. -/
theorem burstCompletes : Obligations.BurstCompletes := by
  intro s
  refine ⟨accepts_iff s, portIs_iff s, fun hr ha x => ⟨fun hp => ?_, fun hp => ?_⟩, fun u => ⟨exec_doneRow_other, fun m hm => ⟨?_, ?_⟩⟩⟩
  · rw [exec_row_busy x ha, present_path hr hp]
  · rw [exec_row_busy x ha, present_second x hp]
  · obtain ⟨t, ht, hmem⟩ := exec_doneRow_memory hm
    refine ⟨t, ht, hmem, ?_, ?_⟩
    · rintro a n rfl
      exact hmem
    · rintro hwf a beats rfl
      rw [hmem]
      exact readByte_applyTo_write hwf a beats
  · rintro rfl c hc
    have hdone := processorDone_onPort hm
    obtain rfl : c = m.completion s.memory := by rw [hc]; cases m <;> rfl
    refine ⟨fun h => ?_, fun x hp hw => ?_⟩
    · rw [exec_processorBurstDone hm, acceptPresented_none (s := processorDone s) (by rw [hdone]; exact h), hdone]
    · refine ⟨_, exec_row_accepts x ((accepts_iff _).2 ⟨hm.1, hw, by simp⟩), ?_⟩
      have harrives := acceptPresented_some (s := processorDone s) (by rw [hdone]; exact hp) (by rw [hdone]; exact hw) rfl
      rw [exec_processorBurstDone hm, harrives, settle_handing, hdone]
      show _ = Host.Outcome.next ((settle _).handing (_ :: (settle _).path.completions))
      rw [settle_completions]
      rfl

end Sys2Proof.Machine
end

section
/-! PROOFS. A write burst into an estimate record: the overrun it reports, and its arrival (R104 to R108, R130, R131). -/
namespace Sys2Proof.Machine

/-! ### Acts in a free order (log 12) -/

/-- What every act of a list keeps, the acts one after another keep. -/
theorem runActs_keeps {J : State → Prop} {l : List (State → State)} (hl : ∀ f ∈ l, ∀ v, J v → J (f v)) {v : State} (hv : J v) :
    J (runActs l v) := by
  induction l generalizing v with
  | nil => exact hv
  | cons f l ih => exact ih (fun g hg => hl g (List.mem_cons_of_mem _ hg)) (hl f List.mem_cons_self v hv)

/-- In an order of acts one act may be replaced by another that does the same wherever the rest may have led. -/
theorem runActs_replace {A A' : State → State} {others order : List (State → State)} {J : State → Prop} {u : State}
    (hp : order.Perm (A :: others)) (hu : J u) (hkeep : ∀ f ∈ others, ∀ v, J v → J (f v)) (hA : ∀ v, J v → A v = A' v) :
    ∃ order', order'.Perm (A' :: others) ∧ runActs order u = runActs order' u := by
  obtain ⟨before, after, rfl⟩ := List.append_of_mem (hp.mem_iff.2 List.mem_cons_self)
  have hrest : (before ++ after).Perm others := (List.perm_middle.symm.trans hp).cons_inv
  refine ⟨before ++ A' :: after, List.perm_middle.trans (hrest.cons A'), ?_⟩
  have hJ : J (runActs before u) := runActs_keeps (fun f hf => hkeep f (hrest.mem_iff.1 (List.mem_append_left _ hf))) hu
  rw [runActs_append, runActs_append]
  show runActs after (A _) = runActs after (A' _)
  rw [hA _ hJ]

/-- An act that changes places with every other one may be taken first. -/
theorem runActs_first {A : State → State} {others order : List (State → State)} (hp : order.Perm (A :: others))
    (hswap : ∀ f ∈ others, ∀ v, f (A v) = A (f v)) (u : State) :
    ∃ order', order'.Perm others ∧ runActs order u = runActs order' (A u) := by
  obtain ⟨before, after, rfl⟩ := List.append_of_mem (hp.mem_iff.2 List.mem_cons_self)
  have hrest : (before ++ after).Perm others := (List.perm_middle.symm.trans hp).cons_inv
  have hpass : ∀ (l : List (State → State)) (v : State), (∀ f ∈ l, f ∈ others) → A (runActs l v) = runActs l (A v) := by
    intro l
    induction l with
    | nil => intro v _; rfl
    | cons f l ih =>
      intro v hl
      show A (runActs l (f v)) = runActs l (f (A v))
      rw [ih (f v) fun g hg => hl g (List.mem_cons_of_mem _ hg), hswap f (hl f List.mem_cons_self)]
  refine ⟨before ++ after, hrest, ?_⟩
  rw [runActs_append, runActs_append, ← hpass before u fun f hf => hrest.mem_iff.1 (List.mem_append_left _ hf)]
  rfl

/-! ### The header words (R103, R104) -/

/-- The address of a record's word. -/
theorem place_estimate_base {s : State} {a r w : Nat} (h : s.place a = .estimate r w) : a = s.shadow.estBase + r * 512 + w := by
  by_cases ha : 0x100 ≤ a ∧ a < 0x140
  · rw [place_anchor s ha.1 ha.2] at h
    cases h
  · rw [place_outside_anchor s (by omega)] at h
    split at h
    · cases h
    · unfold Shadow.place at h
      repeat' split at h
      all_goals cases h
      rename_i hin
      rw [inWindow_iff] at hin
      omega

/-- A write beyond the end of a table changes nothing. -/
theorem tset_beyond {α : Type} {n : Nat} (v : Vector α n) (a : α) {i : Nat} (h : n ≤ i) : tset v i a = v := by
  refine tget_ext a fun j hj => ?_
  rw [tget_tset, if_neg (by omega)]

/-- The header words of a burst into any record, spelled; a record beyond the table has no shadow (log 23). -/
theorem afterHeaders_spelled {s : State} {b : WriteBurst} {r w : Nat} (hp : s.place b.base = .estimate r w) :
    s.afterHeaders b r w = { s with
      choices := s.choices + 1
      headers := tset s.headers r
        { node := (b.fullAt (s.shadow.estBase + r * 512 + 1)).getD (s.headerOf r).node
          sliceEpoch := (b.fullAt (s.shadow.estBase + r * 512 + 2)).getD (s.headerOf r).sliceEpoch
          measCount := (b.fullAt (s.shadow.estBase + r * 512 + 3)).getD (s.headerOf r).measCount
          meanSnr := (b.fullAt (s.shadow.estBase + r * 512 + 4)).getD (s.headerOf r).meanSnr
          errCount := (b.fullAt (s.shadow.estBase + r * 512 + 5)).getD (s.headerOf r).errCount
          carriers := (b.fullAt (s.shadow.estBase + r * 512 + 6)).getD (s.headerOf r).carriers } } := by
  by_cases hr : r < 32
  · exact afterHeaders_eq (place_estimate_base hp) hr
  · have hid : ∀ f ∈ headerActs b r w, ∀ t, f t = t :=
      headerActs_all (P := fun f => ∀ t, f t = t) fun i x t => by
        unfold shadowHeader
        rw [tset_beyond _ _ (Nat.not_lt.1 hr)]
    rw [tset_beyond _ _ (Nat.not_lt.1 hr)]
    exact runActs_keeps (J := fun v => v = { s with choices := s.choices + 1 }) (fun f hf v hv => (hid f hf v).trans hv) rfl

/-! ### The acts beside the report (R106, R107, R130) -/

/-- An act of the intake: it touches the link records, the Build Queue and the notices alone. -/
def IntakeAct (f : State → State) : Prop :=
  ∀ t, ∃ l q n, f t = { t with links := l, buildQueue := q, notices := n }

/-- The GUARD notice of a partial write is an act of the intake. -/
theorem PartialGuard.intakeAct {s : State} {g : GuardWindow} {b : WriteBurst} {w lo hi : Nat} {guard : State → State}
    (h : PartialGuard s g b w lo hi guard) : IntakeAct guard := by
  intro t
  rcases h.cases with rfl | ⟨x, rfl⟩
  · exact ⟨_, _, _, rfl⟩
  · exact ⟨_, _, _, rfl⟩

/-- An arrival is an act of the intake. -/
theorem arrival_intakeAct (r : Nat) (x : Word) : IntakeAct (arrival r x) := arrival_frame r x

/-- Acts of the intake, one after another, touch no more than one does. -/
theorem runActs_intake {l : List (State → State)} (hl : ∀ f ∈ l, IntakeAct f) : IntakeAct (runActs l) := by
  intro t
  refine runActs_keeps (J := fun v => ∃ l q n, v = { t with links := l, buildQueue := q, notices := n }) ?_ ⟨_, _, _, rfl⟩
  rintro f hf _ ⟨l, q, n, rfl⟩
  obtain ⟨l', q', n', h⟩ := hl f hf { t with links := l, buildQueue := q, notices := n }
  exact ⟨l', q', n', h⟩

/-- What a burst into a record sets off after its header words: the report, and acts of the intake, in some order (R12, log 12). -/
theorem takeSnooped_estimate {s : State} {b : WriteBurst} {r w : Nat} {guard : State → State}
    (h : PartialGuard s .estimate b w 0 6 guard) : ∃ others order, (∀ f ∈ others, IntakeAct f)
      ∧ order.Perm (reportWrite r :: others)
      ∧ takeSnooped .estimate b w 0 6 (estimateActs b r w s) s = runActs order (s.afterHeaders b r w) := by
  have hg := h.intakeAct
  by_cases hc : w ≠ 0 ∨ b.fullAt b.base = none ∨ ∃ x, b.fullAt b.base = some x ∧ x.getLsbD 31 = false
  · rcases takeSnooped_report (r := r) h hc with he | he
    · exact ⟨[guard], [guard, reportWrite r], by simpa using hg, List.Perm.swap .., he⟩
    · exact ⟨[guard], [reportWrite r, guard], by simpa using hg, List.Perm.refl _, he⟩
  · obtain ⟨hw, hfull, hvalid⟩ : w = 0 ∧ b.fullAt b.base ≠ none ∧ ∀ x, b.fullAt b.base = some x → x.getLsbD 31 ≠ false := by
      simpa only [not_or, not_exists, not_and, not_not] using hc
    subst hw
    obtain ⟨x, hx⟩ := Option.ne_none_iff_exists'.1 hfull
    obtain ⟨order, hp, he⟩ := takeSnooped_arrival (r := r) h hx (by simpa using hvalid x hx)
    exact ⟨[guard, arrival r x], order, by simpa using ⟨hg, arrival_intakeAct r x⟩, hp.trans (List.Perm.swap ..), he⟩

/-! ### The overrun (R130, R131) -/

/-- The overrun report keeps away from what the intake's acts touch, but for its notice. -/
theorem OverrunReport.after_intake {s : State} {r : Nat} {report : State → State} (h : OverrunReport s r report) (u : State)
    (l : Vector Link 32) (q : List BuildReq) (n : NoticeWriter) :
    ∃ n', report { u with links := l, buildQueue := q, notices := n } = { report u with links := l, buildQueue := q, notices := n' } := by
  rcases h with ⟨_, rfl⟩ | ⟨j, _, _, rfl⟩
  · exact ⟨n, rfl⟩
  · exact ⟨_, rfl⟩

/-- A burst into a record leaves its header words and its report, whatever the intake's acts bring beside them and in whatever order. -/
theorem takeSnooped_overrun {s : State} {b : WriteBurst} {r w : Nat} {guard report : State → State}
    (h : PartialGuard s .estimate b w 0 6 guard) (hr : OverrunReport s r report) :
    ∃ l q n, takeSnooped .estimate b w 0 6 (estimateActs b r w s) s =
      { report (s.afterHeaders b r w) with links := l, buildQueue := q, notices := n } := by
  obtain ⟨others, order, hothers, hp, he⟩ := takeSnooped_estimate (r := r) h
  obtain ⟨before, after, rfl⟩ := List.append_of_mem (hp.mem_iff.2 List.mem_cons_self)
  have hrest : (before ++ after).Perm others := (List.perm_middle.symm.trans hp).cons_inv
  have hbefore := runActs_intake fun f hf => hothers f (hrest.mem_iff.1 (List.mem_append_left after hf))
  have hafter := runActs_intake fun f hf => hothers f (hrest.mem_iff.1 (List.mem_append_right before hf))
  obtain ⟨l, q, n, hl⟩ := hbefore (s.afterHeaders b r w)
  obtain ⟨n', hn⟩ := hr.after_intake (s.afterHeaders b r w) l q n
  obtain ⟨l', q', n'', hl'⟩ := hafter { report (s.afterHeaders b r w) with links := l, buildQueue := q, notices := n' }
  have hjob : (runActs before (s.afterHeaders b r w)).engine.job = s.engine.job := by
    obtain ⟨headers, hh⟩ := afterHeaders_frame s b r w
    rw [hl, hh]
  refine ⟨l', q', n'', ?_⟩
  rw [he, runActs_append]
  show runActs after (reportWrite r _) = _
  rw [reportWrite_eq hr hjob, hl, hn, hl']

/-- An idle engine has nothing ready after an event either. -/
theorem settle_engine_idle {s : State} (h : s.engine.ready = none) : (settle s).engine.ready = none := by
  have hr : (clearWait (formNotice (decideIrq s))).engine.ready = none := h
  unfold settle
  generalize clearWait (formNotice (decideIrq s)) = u at hr
  unfold arbitrate grantInternal grantProcessor
  repeat' split
  all_goals simp [hr]

/-- The rows under which the statements send a burst into a record: each is the burst's arrival (log 6). -/
theorem exec_estimateRow {s : State} {b : WriteBurst} {row : Instr}
    (hrow : row = .processorWrite b ∨ row = .estimateHeaderWrite b ∨ row = .estimateArrival b) :
    exec row s = .next (writeArrival b s) := by
  rcases hrow with rfl | rfl | rfl <;> rfl

/-- Settles O40: without an arrival the report and the GUARD notice alone follow the header words; and with one too, what the overrun
leaves is untouched by the acts beside it. -/
theorem recordOverrun : Obligations.RecordOverrun := by
  intro s u b r w j row h guard report ha hp hg hj hjr hr hh hu hrow
  have hu' : s.afterHeaders b r w = u := by rw [afterHeaders_spelled hp, hu, hh]
  have hexec : exec row s = .next (passOn b (takeSnooped .estimate b w 0 6 (estimateActs b r w s) s)) := by
    rw [exec_estimateRow hrow, writeArrival_estimate ha hp]
  have hjob : u.engine.job = s.engine.job := by rw [hu]
  have hjobGuard : (guard u).engine.job = s.engine.job := by
    obtain ⟨l, q, n, hf⟩ := hg.intakeAct u
    rw [hf]
    exact hjob
  refine ⟨fun hw => ?_, ?_⟩
  · rw [hexec]
    rcases takeSnooped_report (r := r) hg hw with he | he
    · rw [he, hu', reportWrite_eq hr hjobGuard]
      exact Or.inl rfl
    · rw [he, hu', reportWrite_eq hr hjob]
      exact Or.inr rfl
  · obtain ⟨l, q, n, he⟩ := takeSnooped_overrun (r := r) hg hr
    refine ⟨_, hexec, ?_⟩
    rw [he, hu']
    rcases hr with ⟨hno, _⟩ | ⟨j', hj', _, rfl⟩
    · exact absurd hjr (hno j hj)
    · obtain rfl := Option.some.inj (hj.symm.trans hj')
      subst hu
      refine ⟨?_, settle_engine_idle rfl, fun hslot => ?_, fun m hslot => ?_, ?_, ?_, ⟨?_, ?_, ?_, ?_⟩, ⟨?_, ?_, ?_, ?_, ?_, ?_⟩,
        ⟨?_, ?_, ?_, ?_⟩, fun k => ?_⟩
      case refine_3 => simp [passOn, hslot]; rfl
      all_goals simp [passOn, *]

end Sys2Proof.Machine
end

section
/-! PROOFS. The arrival of an estimate: the five checks, the notice of an ignored one, and the summary and request of a valid one
(R105 to R108). -/
namespace Sys2Proof.Machine

/-! ### The link of a node (R73) -/

/-- An OPEN record has an index of the table. -/
theorem lt_of_isOpen {s : State} {k : Nat} (h : (s.link k).isOpen = true) : k < 32 := by
  refine Nat.lt_of_not_le fun hk => ?_
  rw [link_beyond s hk] at h
  cases h

/-- No OPEN record has the node. -/
theorem findNode_none {s : State} {node : BitVec 8} (h : ∀ k, (s.link k).isOpen = true → (s.link k).node ≠ node) :
    s.findNode node = none := by
  unfold State.findNode
  rw [List.find?_eq_none]
  intro k _ hk
  obtain ⟨hopen, hnode⟩ := Bool.and_eq_true_iff.1 hk
  exact h k hopen (eq_of_beq hnode)

/-- One OPEN record alone has the node. -/
theorem findNode_unique {s : State} {node : BitVec 8} {k : Nat} (hopen : (s.link k).isOpen = true) (hnode : (s.link k).node = node)
    (h : ∀ i, (s.link i).isOpen = true → (s.link i).node = node → i = k) : s.findNode node = some k := by
  unfold State.findNode
  rw [List.find?_range_eq_some]
  refine ⟨by simp [hopen, hnode], List.mem_range.2 (lt_of_isOpen hopen), fun i hi => ?_⟩
  rw [Bool.not_eq_true', Bool.eq_false_iff]
  intro hc
  obtain ⟨hiopen, hinode⟩ := Bool.and_eq_true_iff.1 hc
  exact absurd (h i hiopen (eq_of_beq hinode)) (by omega)

/-! ### The five checks (R106) -/

/-- The low bits of a word as a number. -/
theorem bits_low (x : Word) (w : Nat) : bits x 0 w = x.toNat % 2 ^ w := by
  simp [bits, BitVec.extractLsb'_toNat]

/-- The first check that fails, spelled, with the link where check 3 passed. -/
theorem checkArrival_error {s : State} {h : HeaderShadow} {why : IgnoreReason} {link : Option Nat}
    (hcheck : s.tracker.state ≠ .locked ∧ s.tracker.state ≠ .holdover ∧ why = .notLocked ∧ link = none
      ∨ (s.tracker.state = .locked ∨ s.tracker.state = .holdover)
        ∧ (h.sliceEpoch.extractLsb' 8 8 ≠ s.tracker.epoch ∧ why = .staleEpoch ∧ link = none
          ∨ h.sliceEpoch.extractLsb' 8 8 = s.tracker.epoch
            ∧ ((∀ k, (s.link k).isOpen = true → (s.link k).node ≠ h.node.extractLsb' 0 8) ∧ why = .unknownNode ∧ link = none
              ∨ ∃ k, link = some k ∧ (s.link k).isOpen = true ∧ (s.link k).node = h.node.extractLsb' 0 8
                ∧ (∀ i, (s.link i).isOpen = true → (s.link i).node = h.node.extractLsb' 0 8 → i = k)
                ∧ (s.shadow.slices ≤ h.sliceEpoch.toNat % 256 ∧ why = .badSlice
                  ∨ h.sliceEpoch.toNat % 256 < s.shadow.slices ∧ h.carriers.toNat % 65536 ≠ s.shadow.carriers
                    ∧ why = .badSize)))) :
    s.checkArrival h = .error (why, link) := by
  unfold State.checkArrival estSlice estCarriers
  rw [bits_low, bits_low]
  rcases hcheck with ⟨hl, hh, rfl, rfl⟩ | ⟨hlocked, ⟨hepoch, rfl, rfl⟩ | ⟨hepoch, ⟨hnode, rfl, rfl⟩ | ⟨k, rfl, hopen, hnode, hunique, hlast⟩⟩⟩
  · have hlock : s.tracker.state.isLocked = false := by
      rw [← Bool.not_eq_true, isLocked_iff]
      exact fun h => h.elim hl hh
    simp [hlock]
  · simp [(isLocked_iff _).2 hlocked, show estEpoch h.sliceEpoch ≠ s.tracker.epoch from hepoch]
  · simp [(isLocked_iff _).2 hlocked, show estEpoch h.sliceEpoch = s.tracker.epoch from hepoch,
      show s.findNode (estNode h.node) = none from findNode_none hnode]
  · have hfind : s.findNode (estNode h.node) = some k := findNode_unique hopen hnode hunique
    rcases hlast with ⟨hslice, rfl⟩ | ⟨hslice, hsize, rfl⟩
    · simp [(isLocked_iff _).2 hlocked, show estEpoch h.sliceEpoch = s.tracker.epoch from hepoch, hfind, hslice]
    · simp [(isLocked_iff _).2 hlocked, show estEpoch h.sliceEpoch = s.tracker.epoch from hepoch, hfind, Nat.not_le.2 hslice, hsize]

/-- All five checks pass. -/
theorem checkArrival_ok {s : State} {h : HeaderShadow} {k : Nat} (hlocked : s.tracker.state = .locked ∨ s.tracker.state = .holdover)
    (hepoch : h.sliceEpoch.extractLsb' 8 8 = s.tracker.epoch) (hopen : (s.link k).isOpen = true)
    (hnode : (s.link k).node = h.node.extractLsb' 0 8)
    (hunique : ∀ j, (s.link j).isOpen = true → (s.link j).node = h.node.extractLsb' 0 8 → j = k)
    (hslice : h.sliceEpoch.toNat % 256 < s.shadow.slices) (hsize : h.carriers.toNat % 65536 = s.shadow.carriers) :
    s.checkArrival h = .ok k := by
  have hfind : s.findNode (estNode h.node) = some k := findNode_unique hopen hnode hunique
  unfold State.checkArrival estSlice estCarriers
  rw [bits_low, bits_low]
  simp [(isLocked_iff _).2 hlocked, show estEpoch h.sliceEpoch = s.tracker.epoch from hepoch, hfind, Nat.not_le.2 hslice, hsize]

/-- An arrival that fails a check raises its notice. -/
theorem arrival_of_error {s : State} {r : Nat} {x : Word} {h : HeaderShadow} {why : IgnoreReason} {link : Option Nat}
    (hh : s.headerOf r = h) (he : s.checkArrival h = .error (why, link)) : arrival r x s =
      raise (.estimateIgnored link r why (estSeq x) (estNode h.node) (estMeas h.measCount)) s := by
  subst hh
  unfold arrival
  dsimp only
  rw [he]

/-- An arrival that passes the checks is taken, in one event. -/
theorem arrival_of_ok {s : State} {r : Nat} {x : Word} {h : HeaderShadow} {k : Nat}
    (hh : s.headerOf r = h) (he : s.checkArrival h = .ok k) : arrival r x s = counting (takeEstimate r k (estSeq x) h) s := by
  subst hh
  unfold arrival
  dsimp only
  rw [he]

/-! ### What an arrival reads (R106 to R108) -/

/-- Two states in which an arrival does the same: the tracker, the link records, the configuration, the header shadow and the Build
Queue are alike. -/
def ArrivalAlike (s t : State) : Prop :=
  t.tracker = s.tracker ∧ t.links = s.links ∧ t.shadow = s.shadow ∧ t.headers = s.headers ∧ t.buildQueue = s.buildQueue

/-- The checks come out the same in states alike. -/
theorem ArrivalAlike.checkArrival {s t : State} (h : ArrivalAlike s t) (x : HeaderShadow) : t.checkArrival x = s.checkArrival x := by
  obtain ⟨htracker, hlinks, hshadow, _, _⟩ := h
  unfold State.checkArrival State.findNode State.link
  rw [htracker, hlinks, hshadow]

/-- The shadowed header is the same in states alike. -/
theorem ArrivalAlike.headerOf {s t : State} (h : ArrivalAlike s t) (r : Nat) : t.headerOf r = s.headerOf r := by
  obtain ⟨_, _, _, hheaders, _⟩ := h
  unfold State.headerOf
  rw [hheaders]

/-- The header words of a burst leave alike what an arrival reads beside them. -/
theorem checkArrival_afterHeaders (s : State) (b : WriteBurst) (r w : Nat) (x : HeaderShadow) :
    (s.afterHeaders b r w).checkArrival x = s.checkArrival x := by
  obtain ⟨headers, h⟩ := afterHeaders_frame s b r w
  rw [h]
  rfl

/-- The GUARD notice of a partial write leaves alike what an arrival reads. -/
theorem PartialGuard.alike {s u t : State} {g : GuardWindow} {b : WriteBurst} {w lo hi : Nat} {guard : State → State}
    (h : PartialGuard s g b w lo hi guard) (ht : ArrivalAlike u t) : ArrivalAlike u (guard t) := by
  rcases h.cases with rfl | ⟨x, rfl⟩
  · exact ht
  · exact ht

/-- The overrun report leaves alike what an arrival reads. -/
theorem OverrunReport.alike {s u t : State} {r : Nat} {report : State → State} (h : OverrunReport s r report)
    (ht : ArrivalAlike u t) : ArrivalAlike u (report t) := by
  rcases h with ⟨_, rfl⟩ | ⟨j, _, _, rfl⟩
  · exact ht
  · exact ht

/-! ### An arrival among the acts of its burst (R12, log 12) -/

/-- A burst that is an arrival: the GUARD notice, the report and the arrival in some order, where the arrival may be written as any act
that does the same in states like the one its header words leave. -/
theorem writeArrival_arrival {s : State} {b : WriteBurst} {r : Nat} {x : Word} {guard report taken : State → State}
    (ha : s.accepts = true) (hp : s.place b.base = .estimate r 0) (hg : PartialGuard s .estimate b 0 0 6 guard)
    (hx : b.fullAt b.base = some x) (hv : x.getLsbD 31 = true) (hr : OverrunReport s r report)
    (htaken : ∀ v, ArrivalAlike (s.afterHeaders b r 0) v → arrival r x v = taken v) :
    ∃ order : List (State → State), order.Perm [taken, guard, report]
      ∧ exec (.estimateArrival b) s = .next (passOn b (runActs order (s.afterHeaders b r 0))) := by
  obtain ⟨order, hperm, he⟩ := takeSnooped_arrival (r := r) hg hx hv
  have hjob : (s.afterHeaders b r 0).engine.job = s.engine.job := by
    obtain ⟨headers, h⟩ := afterHeaders_frame s b r 0
    rw [h]
  have hothers : ∀ f ∈ [guard, arrival r x], ∀ v : State, v.engine.job = s.engine.job → (f v).engine.job = s.engine.job := by
    intro f hf v hj
    have hact : IntakeAct f := by
      simp only [List.mem_cons, List.not_mem_nil, or_false] at hf
      rcases hf with rfl | rfl
      · exact hg.intakeAct
      · exact arrival_intakeAct r x
    obtain ⟨l, q, n, h⟩ := hact v
    rw [h]
    exact hj
  obtain ⟨order1, hperm1, he1⟩ := runActs_replace (A' := report) (J := fun v => v.engine.job = s.engine.job)
    (hperm.trans (List.Perm.swap ..)) hjob hothers fun v hj => reportWrite_eq hr hj
  have halike : ∀ f ∈ [guard, report], ∀ v, ArrivalAlike (s.afterHeaders b r 0) v → ArrivalAlike (s.afterHeaders b r 0) (f v) := by
    intro f hf v h
    simp only [List.mem_cons, List.not_mem_nil, or_false] at hf
    rcases hf with rfl | rfl
    · exact hg.alike h
    · exact hr.alike h
  have hlast : [report, guard, arrival r x].Perm [arrival r x, guard, report] := (List.reverse_perm _).symm
  obtain ⟨order2, hperm2, he2⟩ := runActs_replace (A' := taken) (J := ArrivalAlike (s.afterHeaders b r 0))
    (hperm1.trans hlast) ⟨rfl, rfl, rfl, rfl, rfl⟩ halike htaken
  refine ⟨order2, hperm2, ?_⟩
  rw [← he2, ← he1, ← he]
  show Host.Outcome.next (writeArrival b s) = _
  rw [writeArrival_estimate ha hp]

/-- Settles O41: the arrival raises its notice in whatever state the report and the GUARD notice have led to. -/
theorem estimateIgnored : Obligations.EstimateIgnored := by
  intro s u b r x h why link guard report ignored ha hp hg hx hv hr hu hh hcheck hignored
  have herror : u.checkArrival h = .error (why, link) := by
    rw [hu, checkArrival_afterHeaders]
    exact checkArrival_error hcheck
  have htaken : ∀ v, ArrivalAlike (s.afterHeaders b r 0) v → arrival r x v = ignored v := by
    intro v halike
    rw [← hu] at halike
    rw [arrival_of_error ((halike.headerOf r).trans hh.symm) ((halike.checkArrival h).trans herror), hignored]
    rfl
  obtain ⟨order, hperm, he⟩ := writeArrival_arrival ha hp hg hx hv hr htaken
  rw [hu]
  exact ⟨order, hperm.trans (List.perm_append_singleton _ _).symm, he⟩

/-! ### The summary and the automatic request (R107, R108) -/

/-- Unbuilt, Drift or Errors of a link's slice, on the summary after an arrival (R108). -/
def Link.triggers (L : Link) (m : Summary) (i drift limit : Nat) : Bool :=
  L.mode == .adaptive && (L.unbuilt i || m.drifted drift || m.erring limit)

/-- The trigger, spelled. -/
theorem triggers_iff (L : Link) (m : Summary) (i drift limit : Nat) : L.triggers m i drift limit = true ↔ L.mode = .adaptive
    ∧ (L.cells[i]? = some 0 ∧ L.pendingSet.getD i none = none ∧ L.nextSet.getD i none = none
      ∨ (∃ mean, m.buildMean = some mean ∧ (mean.toNat + drift ≤ m.lastMean.toNat ∨ m.lastMean.toNat + drift ≤ mean.toNat))
      ∨ limit ≤ m.lastErr.toNat) := by
  have hunbuilt : L.unbuilt i = true ↔ L.cells[i]? = some 0 ∧ L.pendingSet.getD i none = none ∧ L.nextSet.getD i none = none := by
    simp only [Link.unbuilt, Bool.and_eq_true, beq_iff_eq, Option.isNone_iff_eq_none, and_assoc]
  have hdrift : m.drifted drift = true ↔ ∃ mean, m.buildMean = some mean
      ∧ (mean.toNat + drift ≤ m.lastMean.toNat ∨ m.lastMean.toNat + drift ≤ mean.toNat) := by
    unfold Summary.drifted
    cases m.buildMean with
    | none => simp
    | some mean =>
      simp only [decide_eq_true_eq, Option.some.injEq, exists_eq_left']
      omega
  simp only [Link.triggers, Bool.and_eq_true, Bool.or_eq_true, beq_iff_eq, hunbuilt, hdrift, Summary.erring, decide_eq_true_eq, or_assoc]

/-- A valid arrival: the slice's summary is replaced, and a request offered where the trigger holds. -/
theorem takeEstimate_eq {s : State} {r k i : Nat} {seq : BitVec 16} {h : HeaderShadow} {m m' : Summary} (hk : k < 32)
    (hi : estSlice h.sliceEpoch = i) (hm : (s.link k).summary[i]? = some m)
    (hm' : m.arrived r seq (estMean h.meanSnr) (estErr h.errCount) = m') : takeEstimate r k seq h s =
      { s with
        links := tset s.links k { s.link k with summary := (s.link k).summary.set i m' }
        buildQueue :=
          if (s.link k).triggers m' i s.shadow.drift s.shadow.errLimit then
            (enqueue ⟨k, i, r, seq, .auto⟩ s.buildQueue).getD s.buildQueue
          else s.buildQueue } := by
  have hmodify : ((s.link k).summary.modify i fun m => m.arrived r seq (estMean h.meanSnr) (estErr h.errCount))
      = (s.link k).summary.set i m' := by
    rw [List.modify_eq_set_getElem?, hm]
    exact congrArg _ hm'
  have hlt : i < (s.link k).summary.length := (List.getElem?_eq_some_iff.1 hm).1
  unfold takeEstimate
  dsimp only
  rw [hi, hmodify]
  have hwants : ∀ L, L = { s.link k with summary := (s.link k).summary.set i m' } →
      (s.setLink k L).wantsBuild ((s.setLink k L).link k) i = (s.link k).triggers m' i s.shadow.drift s.shadow.errLimit := by
    rintro L rfl
    rw [link_setLink_same s _ hk]
    unfold State.wantsBuild
    rw [List.getElem?_set_self hlt]
    rfl
  rw [hwants _ rfl]
  cases (s.link k).triggers m' i s.shadow.drift s.shadow.errLimit <;> rfl

/-- A record's CHANGES rises where the summary of a slice changed (R72). -/
theorem counted_summary {L : Link} {i : Nat} {m m' : Summary} (hm : L.summary[i]? = some m) :
    Link.counted L { L with summary := L.summary.set i m' } =
      { L with summary := L.summary.set i m', changes := if m' = m then L.changes else L.changes + 1 } := by
  obtain ⟨hlt, rfl⟩ := List.getElem?_eq_some_iff.1 hm
  by_cases h : m' = L.summary[i]
  · subst h
    rw [List.set_getElem_self, counted_self, if_pos rfl]
  · rw [counted_changed, if_neg h]
    intro hc
    have hs : L.summary = L.summary.set i m' := congrArg Link.summary hc
    refine h ?_
    have hget := List.getElem?_set_self (a := m') hlt
    rw [← hs, List.getElem?_eq_getElem hlt] at hget
    exact (Option.some.inj hget).symm

/-- A valid arrival in one event: the summary of its slice, CHANGES where it changed, and the request (R72, R107, R108). -/
theorem arrival_taken {s : State} {r k i : Nat} {x : Word} {h : HeaderShadow} {m m' : Summary} (hk : k < 32)
    (hh : s.headerOf r = h) (hok : s.checkArrival h = .ok k) (hi : estSlice h.sliceEpoch = i) (hm : (s.link k).summary[i]? = some m)
    (hm' : m.arrived r (estSeq x) (estMean h.meanSnr) (estErr h.errCount) = m') : arrival r x s =
      { s with
        links := tset s.links k
          { s.link k with
            summary := (s.link k).summary.set i m'
            changes := if m' = m then (s.link k).changes else (s.link k).changes + 1 }
        buildQueue :=
          if (s.link k).triggers m' i s.shadow.drift s.shadow.errLimit then
            (enqueue ⟨k, i, r, estSeq x, .auto⟩ s.buildQueue).getD s.buildQueue
          else s.buildQueue } := by
  have htake := takeEstimate_eq hk hi hm hm'
  rw [arrival_of_ok hh hok, counting_one (by rw [htake]), counted_summary hm, htake]

/-- The state with the link records and the Build Queue replaced. -/
def State.withIntake (s : State) (links : Vector Link 32) (queue : List BuildReq) : State :=
  { s with links := links, buildQueue := queue }

/-- A valid arrival brings the same link records and the same queue in states alike. -/
theorem arrival_alike {u v : State} {r k i : Nat} {x : Word} {h : HeaderShadow} {m : Summary} (hk : k < 32)
    (hh : u.headerOf r = h) (hok : u.checkArrival h = .ok k) (hi : estSlice h.sliceEpoch = i) (hm : (u.link k).summary[i]? = some m)
    (halike : ArrivalAlike u v) : arrival r x v = v.withIntake (arrival r x u).links (arrival r x u).buildQueue := by
  have hlink : v.link k = u.link k := by
    obtain ⟨_, hlinks, _, _, _⟩ := halike
    unfold State.link
    rw [hlinks]
  rw [arrival_taken hk hh hok hi hm rfl,
    arrival_taken hk ((halike.headerOf r).trans hh) ((halike.checkArrival h).trans hok) hi (by rw [hlink]; exact hm) rfl, hlink]
  obtain ⟨_, hlinks, hshadow, _, hqueue⟩ := halike
  have hdrift : v.shadow.drift = u.shadow.drift := congrArg Shadow.drift hshadow
  have hlimit : v.shadow.errLimit = u.shadow.errLimit := congrArg Shadow.errLimit hshadow
  rw [hlinks, hdrift, hlimit, hqueue]
  rfl

/-- The GUARD notice of a partial write takes no account of the link records and the queue. -/
theorem PartialGuard.withIntake {s : State} {g : GuardWindow} {b : WriteBurst} {w lo hi : Nat} {guard : State → State}
    (h : PartialGuard s g b w lo hi guard) (v : State) (links : Vector Link 32) (queue : List BuildReq) :
    guard (v.withIntake links queue) = (guard v).withIntake links queue := by
  rcases h.cases with rfl | ⟨x, rfl⟩ <;> rfl

/-- The overrun report takes no account of the link records and the queue. -/
theorem OverrunReport.withIntake {s : State} {r : Nat} {report : State → State} (h : OverrunReport s r report) (v : State)
    (links : Vector Link 32) (queue : List BuildReq) : report (v.withIntake links queue) = (report v).withIntake links queue := by
  rcases h with ⟨_, rfl⟩ | ⟨j, _, _, rfl⟩ <;> rfl

/-- Settles O42: the arrival does the same wherever it stands among the acts of its burst, and changes places with them. -/
theorem estimateTaken : Obligations.EstimateTaken := by
  intro s u b r k i x h m m' guard report ha hp hg hx hv hr hu hh hlocked hepoch hopen hnode hunique hi hslice hsize hm hm'
  have hk := lt_of_isOpen hopen
  have hi' : estSlice h.sliceEpoch = i := by rw [hi]; exact bits_low _ 8
  obtain ⟨headers, hframe⟩ := afterHeaders_frame s b r 0
  have hlink : u.link k = s.link k := by rw [hu, hframe]; rfl
  have hok : u.checkArrival h = .ok k := by
    rw [hu, checkArrival_afterHeaders]
    exact checkArrival_ok hlocked hepoch hopen hnode hunique (hi ▸ hslice) hsize
  have hmu : (u.link k).summary[i]? = some m := by rw [hlink]; exact hm
  have halike : ∀ v, ArrivalAlike u v → arrival r x v = v.withIntake (arrival r x u).links (arrival r x u).buildQueue :=
    fun v => arrival_alike hk hh.symm hok hi' hmu
  have hself := halike u ⟨rfl, rfl, rfl, rfl, rfl⟩
  obtain ⟨order, hperm, he⟩ := writeArrival_arrival (taken := fun v => v.withIntake (arrival r x u).links (arrival r x u).buildQueue)
    ha hp hg hx hv hr (hu ▸ halike)
  obtain ⟨rest, hrest, hfirst⟩ := runActs_first hperm (by
    intro f hf v
    simp only [List.mem_cons, List.not_mem_nil, or_false] at hf
    rcases hf with rfl | rfl
    · exact hg.withIntake v _ _
    · exact hr.withIntake v _ _) u
  refine ⟨(s.link k).triggers m' i s.shadow.drift s.shadow.errLimit, arrival r x u, ?_, ?_, ?_⟩
  · rw [triggers_iff, hm']
  · rw [arrival_taken hk hh.symm hok hi' hmu rfl, hlink, hm', hu, hframe]
    rfl
  · rw [he, ← hu, hfirst]
    rw [← hself]
    rcases List.perm_pair.1 hrest with rfl | rfl
    · exact Or.inr rfl
    · exact Or.inl rfl

end Sys2Proof.Machine
end

section
/-! PROOFS. A write burst into the mailbox with a partial write among its words (R15 to R17, R29, R30). -/
namespace Sys2Proof.Machine

/-! ### A mailbox burst at its arrival -/

/-- An accepted burst into Anchor words 8 to 15, under the row that any write comes in. -/
theorem exec_mailbox {s : State} {b : WriteBurst} (ha : s.accepts = true) (hlo : 0x108 ≤ b.base) (hhi : b.base < 0x110) :
    exec (.processorWrite b) s = .next (passOn b
      (takeSnooped .anchor b (b.base - 0x100) 8 12 (mailboxActs b (b.base - 0x100)) s)) := by
  have hw : ¬ b.base - 0x100 < 8 := by omega
  have hw2 : b.base - 0x100 < 16 := by omega
  rw [exec_processorWrite b ha]
  unfold takeWrite
  rw [place_anchor s (by omega) (by omega)]
  simp only [hw, hw2, if_true, if_false]
  rfl

/-- The row of a command code is the burst's arrival, whatever the code (log 6). -/
theorem exec_commandRow (code : Nat) (b : WriteBurst) (s : State) : exec (commandRow code b) s = .next (writeArrival b s) := by
  unfold commandRow
  split <;> rfl

/-- A command burst of full words: its data words, its command, and the burst passes. -/
theorem exec_commandBurst {s : State} {b : WriteBurst} {code : Nat} {x : Word} (h : CommandBurst s b code)
    (hx : b.fullAt 0x10C = some x) : exec (commandRow code b) s = .next (passOn b (takeCommand x (s.afterData b))) := by
  obtain ⟨hmailbox, -⟩ := h
  have ⟨hacc, hlo, _, _⟩ := hmailbox
  rw [exec_commandRow, writeArrival_accepts b hacc, takeWrite_mailbox hmailbox, codeWord_eq (by omega), hx]
  rfl

/-! ### The data words -/

/-- The data words keep the filter state. -/
theorem mailboxData_filter (b : WriteBurst) (w : Nat) : ∀ f ∈ mailboxData b w, ∀ t, (f t).filter = t.filter := by
  intro f hf t
  simp only [mailboxData, List.mem_filterMap] at hf
  obtain ⟨i, _, hi⟩ := hf
  split at hi
  · cases hi
    unfold takeMailboxData consume
    dsimp only
    repeat' split
    all_goals rfl
  · cases hi

/-- The word at an address that a burst writes in full, else an old one, is the field of that word in the burst (R16). -/
theorem fullAt_getD {b : WriteBurst} {start w : Nat} (hb : b.base = start + w) (k : Nat) (old : Word) :
    (b.fullAt (start + k)).getD old = headerField b w b.len.words k old := by
  unfold headerField
  by_cases hc : w ≤ k ∧ k < w + b.len.words
  · obtain ⟨i, rfl⟩ : ∃ i, k = w + i := ⟨k - w, by omega⟩
    rw [← Nat.add_assoc, ← hb, fullAt_covered b (by omega), Nat.add_sub_cancel_left]
    by_cases hf : (b.beat i).isFull = true
    · rw [if_pos hf, if_pos ⟨hc.1, hc.2, hf⟩]
      rfl
    · rw [if_neg hf, if_neg fun h => hf h.2.2]
      rfl
  · rw [fullAt_outside b (by omega), if_neg fun h => hc ⟨h.1, h.2.1⟩]
    rfl

/-- The data words among the first n of a burst that does not write the consumer index latch the arguments. -/
theorem mailboxData_fold (b : WriteBurst) (w : Nat) (s : State) (n : Nat) (h : ∀ i, i < n → w + i = 8 → (b.beat i).isFull = false) :
    runActs ((List.range n).filterMap fun i =>
      if 8 ≤ w + i ∧ w + i ≤ 11 ∧ (b.beat i).isFull then some (takeMailboxData (w + i) (b.beat i).data) else none) s =
      { s with
        arg0 := headerField b w n 9 s.arg0
        arg1 := headerField b w n 10 s.arg1
        arg2 := headerField b w n 11 s.arg2 } := by
  induction n with
  | zero =>
    have hz : ∀ k old, headerField b w 0 k old = old := fun k old => if_neg (by omega)
    simp only [hz]
    rfl
  | succ n ih =>
    rw [List.range_succ, List.filterMap_append, runActs_append, ih fun i hi => h i (by omega)]
    simp only [headerField_succ]
    by_cases hc : 8 ≤ w + n ∧ w + n ≤ 11 ∧ (b.beat n).isFull = true
    · obtain ⟨hlo, hhi, hf⟩ := hc
      have hne : w + n ≠ 8 := fun e => by
        rw [h n (Nat.lt_succ_self n) e] at hf
        cases hf
      obtain e | e | e : w + n = 9 ∨ w + n = 10 ∨ w + n = 11 := by omega
      all_goals simp [e, hf, runActs, takeMailboxData]
    · have out : ∀ k, 9 ≤ k → k ≤ 11 → ¬ (w + n = k ∧ (b.beat n).isFull = true) := by
        rintro k hlo hhi ⟨rfl, hf⟩
        exact hc ⟨by omega, hhi, hf⟩
      simp [hc, out 9, out 10, out 11, runActs]

/-- The data words of a burst that does not write the consumer index in full: the arguments written in full are latched (R29). -/
theorem afterData_args {s : State} {b : WriteBurst} (hlo : 0x108 ≤ b.base) (h : b.fullAt 0x108 = none) : s.afterData b =
    { s with
      choices := s.choices + 1
      arg0 := (b.fullAt 0x109).getD s.arg0
      arg1 := (b.fullAt 0x10A).getD s.arg1
      arg2 := (b.fullAt 0x10B).getD s.arg2 } := by
  have hb : b.base = 0x100 + (b.base - 0x100) := by omega
  have hconsumer : ∀ i, i < b.len.words → b.base - 0x100 + i = 8 → (b.beat i).isFull = false := by
    intro i hi hw
    rw [show 0x108 = b.base + i by omega, fullAt_covered b hi] at h
    exact Bool.eq_false_iff.2 fun hf => by simp [hf] at h
  have harg := fun k old => fullAt_getD hb k old
  unfold State.afterData mailboxData
  rw [mailboxData_fold b _ _ _ hconsumer, ← harg, ← harg, ← harg]

/-! ### The places of the GUARD notice (log 12) -/

/-- A mailbox burst with a partial write: the GUARD notice stands before the data words, after them, or after the command, where a
WITHDRAW has left the part in TRANSPARENT and none is raised. -/
theorem takeSnooped_mailbox {s : State} {b : WriteBurst} {w : Nat} {guard : State → State} {command : List (State → State)}
    (h : PartialGuard s .anchor b w 8 12 guard) (hlen : command.length ≤ 1) {T : State}
    (hT : T = takeSnooped .anchor b w 8 12 (mailboxData b w ++ command) s) :
    T = runActs command (runActs (mailboxData b w) (guard { s with choices := s.choices + 1 }))
    ∨ T = runActs command (guard (runActs (mailboxData b w) { s with choices := s.choices + 1 }))
    ∨ s.filter ≠ .transparent ∧ ∀ t, t = runActs command (runActs (mailboxData b w) { s with choices := s.choices + 1 }) →
        T = if t.filter = .transparent then t else guard t := by
  have hkeep : ∀ l : List (State → State), (∀ f ∈ l, f ∈ mailboxData b w) → ∀ v : State, (runActs l v).filter = v.filter :=
    fun l hl v => runActs_keeps (J := fun u => u.filter = v.filter)
      (fun f hf u hu => (mailboxData_filter b w f (hl f hf) u).trans hu) rfl
  rcases lowestPartial_cases h with ⟨hwhole, rfl⟩ | ⟨hf, i, hi, rfl⟩
  · rw [hT, takeSnooped_whole .anchor _ hwhole, runActs_append]
    exact Or.inl rfl
  · unfold takeSnooped at hT
    rw [if_neg hf, hi] at hT
    simp only at hT
    generalize Config.guardPlace s.choices = p at hT
    rw [runActs_append] at hT
    change T = runActs (List.drop p _) (guardPartial .anchor (b.base + i) _) at hT
    unfold guardPartial at hT
    rcases Nat.eq_zero_or_pos p with rfl | hp
    · refine Or.inl ?_
      rw [List.take_zero, List.drop_zero, runActs_append] at hT
      exact hT.trans (by rw [if_neg (by exact hf)]; rfl)
    · by_cases hle : p ≤ (mailboxData b w).length
      · refine Or.inr (Or.inl ?_)
        rw [List.take_append_of_le_length hle, List.drop_append_of_le_length hle, runActs_append,
          if_neg (by rw [hkeep _ fun f => List.mem_of_mem_take]; exact hf),
          runActs_raise (mailboxData_raise b w _ (Or.inl hp)), ← runActs_append, List.take_append_drop] at hT
        exact hT
      · refine Or.inr (Or.inr ⟨hf, ?_⟩)
        have hall : (mailboxData b w ++ command).length ≤ p := by
          rw [List.length_append]
          omega
        rw [List.take_of_length_le hall, List.drop_of_length_le hall, runActs_append] at hT
        rintro t rfl
        exact hT

/-- The data words after the GUARD notice, which leaves the source of the places (log 12) alone. -/
theorem PartialGuard.afterData {s : State} {g : GuardWindow} {b : WriteBurst} {w lo hi : Nat} {guard : State → State}
    (h : PartialGuard s g b w lo hi guard) (u : State) :
    (guard u).afterData b = runActs (mailboxData b (b.base - 0x100)) (guard { u with choices := u.choices + 1 }) := by
  rcases h.cases with rfl | ⟨x, rfl⟩ <;> rfl

/-! ### Bursts without a command, and with one -/

/-- A burst that writes no command in full: the notice stands before the data words or after them. -/
theorem exec_mailbox_noCommand {s : State} {b : WriteBurst} {guard : State → State} (ha : s.accepts = true) (hlo : 0x108 ≤ b.base)
    (hhi : b.base < 0x110) (hg : PartialGuard s .anchor b (b.base - 0x100) 8 12 guard) (hcode : b.fullAt 0x10C = none) :
    exec (.processorWrite b) s = .next (passOn b ((guard s).afterData b))
      ∨ exec (.processorWrite b) s = .next (passOn b (guard (s.afterData b))) := by
  have hacts : mailboxActs b (b.base - 0x100) = mailboxData b (b.base - 0x100) ++ [] := by
    rw [mailboxActs, codeWord_eq (by omega), hcode]
    rfl
  rw [exec_mailbox ha hlo hhi, hacts, hg.afterData]
  rcases takeSnooped_mailbox hg (by decide : ([] : List (State → State)).length ≤ 1) rfl with h | h | ⟨hf, h⟩
  · exact Or.inl (by rw [h]; rfl)
  · exact Or.inr (by rw [h]; rfl)
  · have hstay : ¬ (s.afterData b).filter = .transparent := by rwa [afterData_filter]
    exact Or.inr (by rw [h (s.afterData b) rfl, if_neg hstay])

/-- A burst that writes neither the consumer index nor a command in full: the arguments it writes, and the notice (R16, R29). -/
theorem exec_mailbox_args {s : State} {b : WriteBurst} {guard : State → State} (ha : s.accepts = true) (hlo : 0x108 ≤ b.base)
    (hhi : b.base < 0x110) (hg : PartialGuard s .anchor b (b.base - 0x100) 8 12 guard) (hconsumer : b.fullAt 0x108 = none)
    (hcode : b.fullAt 0x10C = none) : exec (.processorWrite b) s = .next (passOn b (guard
      { s with
        choices := s.choices + 1
        arg0 := (b.fullAt 0x109).getD s.arg0
        arg1 := (b.fullAt 0x10A).getD s.arg1
        arg2 := (b.fullAt 0x10B).getD s.arg2 })) := by
  rcases exec_mailbox_noCommand ha hlo hhi hg hcode with h | h
  · rw [h, afterData_args hlo hconsumer]
    rcases hg.cases with rfl | ⟨x, rfl⟩ <;> rfl
  · rw [h, afterData_args hlo hconsumer]

/-- A burst that writes a command in full: the notice stands before the data words, after them, or after the command. -/
theorem exec_mailbox_command {s t : State} {b : WriteBurst} {guard : State → State} {x : Word} (ha : s.accepts = true)
    (hlo : 0x108 ≤ b.base) (hhi : b.base < 0x110) (hg : PartialGuard s .anchor b (b.base - 0x100) 8 12 guard)
    (hcode : b.fullAt 0x10C = some x) (ht : t = takeCommand x (s.afterData b)) :
    exec (.processorWrite b) s = .next (passOn b (takeCommand x ((guard s).afterData b)))
      ∨ exec (.processorWrite b) s = .next (passOn b (takeCommand x (guard (s.afterData b))))
      ∨ exec (.processorWrite b) s = .next (passOn b (if t.filter = .transparent then t else guard t)) := by
  have hacts : mailboxActs b (b.base - 0x100) = mailboxData b (b.base - 0x100) ++ [takeCommand x] := by
    rw [mailboxActs, codeWord_eq (by omega), hcode]
    rfl
  rw [exec_mailbox ha hlo hhi, hacts, hg.afterData]
  rcases takeSnooped_mailbox hg (Nat.le_refl [takeCommand x].length) rfl with h | h | ⟨-, h⟩
  · exact Or.inl (by rw [h]; rfl)
  · exact Or.inr (Or.inl (by rw [h]; rfl))
  · exact Or.inr (Or.inr (by rw [h t ht]))

/-! ### A burst of one word -/

/-- What a partial write of one snooped mailbox word raises. -/
def oneWordGuard (s : State) (b : WriteBurst) : State → State :=
  if s.filter = .transparent then id else raise (.guardWrite .anchor (BitVec.ofNat 16 b.base) .partialWrite)

/-- The word of a one-word burst is not written in full where its byte enables are not all set. -/
theorem beat_be_of_fullAt_none {b : WriteBurst} (h : b.fullAt b.base = none) : (b.beat 0).be ≠ 15 := by
  intro hbe
  have hx := fullAt_covered b (i := 0) (words_pos _)
  rw [Nat.add_zero, h] at hx
  simp [Beat.isFull, hbe] at hx

/-- A one-word partial write raises what `oneWordGuard` says. -/
theorem oneWordGuard_partial {s : State} {b : WriteBurst} (hlo : 0x108 ≤ b.base) (hhi : b.base ≤ 0x10C)
    (h : b.fullAt b.base = none) : PartialGuard s .anchor b (b.base - 0x100) 8 12 (oneWordGuard s b) := by
  unfold oneWordGuard
  by_cases hf : s.filter = .transparent
  · exact Or.inl ⟨Or.inl hf, if_pos hf⟩
  · exact Or.inr ⟨hf, 0, words_pos _, by omega, by omega, beat_be_of_fullAt_none h, fun j hj => absurd hj (Nat.not_lt_zero j),
      if_neg hf⟩

/-- A one-word burst that does not write its word in full writes no word in full. -/
theorem fullAt_none_of_one {b : WriteBurst} (hlen : b.len = .one) (h : b.fullAt b.base = none) (a : Nat) : b.fullAt a = none := by
  rcases eq_or_ne a b.base with rfl | hne
  · exact h
  · have hwords : b.len.words = 1 := by rw [hlen]; rfl
    exact fullAt_outside b (by omega)

/-- Settles O27: the three places of the GUARD notice, told apart by what the burst writes in full. -/
theorem mailboxPartial : Obligations.MailboxPartial := by
  unfold Obligations.MailboxPartial
  intro s b ha
  refine ⟨fun code x hc hx => exec_commandBurst hc hx, fun hlen hlo hhi hnone => ?_, fun guard hlo hhi hg =>
    ⟨exec_mailbox_args ha hlo hhi hg, exec_mailbox_noCommand ha hlo hhi hg, fun x t => exec_mailbox_command ha hlo hhi hg⟩⟩
  have hall := fullAt_none_of_one hlen hnone
  rw [exec_mailbox_args ha hlo (by omega) (oneWordGuard_partial hlo hhi hnone) (hall _) (hall _), hall, hall, hall]
  unfold oneWordGuard
  split <;> rfl

end Sys2Proof.Machine
end

section
/-! PROOFS. What an event leaves of the filter state and the configuration shadow: outside TRANSPARENT no command but hardware reset changes
the shadow (R27, R41). -/
namespace Sys2Proof.Machine

/-- The filter state and the configuration shadow are as they were. -/
def SameSettings (s t : State) : Prop := t.filter = s.filter ∧ t.shadow = s.shadow

theorem SameSettings.refl (s : State) : SameSettings s s := ⟨rfl, rfl⟩

theorem SameSettings.trans {s t u : State} (h : SameSettings s t) (h2 : SameSettings t u) : SameSettings s u :=
  ⟨h2.1.trans h.1, h2.2.trans h.2⟩

/-- The change counts of an event are no settings (R72). -/
theorem SameSettings.counting {f : State → State} {s : State} (h : SameSettings s (f s)) : SameSettings s (counting f s) := ⟨h.1, h.2⟩

/-- RESULT is no setting (R31). -/
theorem SameSettings.respond {s t : State} (h : SameSettings s t) (r : ResultCode) (v : Nat) : SameSettings s (respond r v t) := h

/-- Acts that each keep the settings keep them together. -/
theorem SameSettings.runActs {acts : List (State → State)} (h : ∀ f ∈ acts, ∀ s, SameSettings s (f s)) (s : State) :
    SameSettings s (runActs acts s) := by
  induction acts generalizing s with
  | nil => exact .refl s
  | cons f acts ih =>
    exact (h f List.mem_cons_self s).trans (ih (fun g hg => h g (List.mem_cons_of_mem _ hg)) (f s))

/-- The acts of a burst, with the GUARD notice of a partial write among them, are each an act of the burst or that notice. -/
theorem takeSnooped_acts (g : GuardWindow) (b : WriteBurst) (w lo hi : Nat) (acts : List (State → State)) (s : State) :
    ∃ acts' : List (State → State), (∀ f ∈ acts', f ∈ acts ∨ ∃ a, f = guardPartial g a)
      ∧ takeSnooped g b w lo hi acts s = runActs acts' { s with choices := s.choices + 1 } := by
  unfold takeSnooped
  split
  · exact ⟨acts, fun _ => Or.inl, rfl⟩
  · split
    · exact ⟨acts, fun _ => Or.inl, rfl⟩
    · refine ⟨_, fun f hf => ?_, rfl⟩
      rcases List.mem_append.1 hf with hf | hf
      · exact Or.inl (List.mem_of_mem_take hf)
      · rcases List.mem_cons.1 hf with rfl | hf
        · exact Or.inr ⟨_, rfl⟩
        · exact Or.inl (List.mem_of_mem_drop hf)

/-- The GUARD notice of a partial write keeps the settings. -/
theorem SameSettings.guardPartial (g : GuardWindow) (a : Nat) (s : State) : SameSettings s (guardPartial g a s) := by
  unfold Machine.guardPartial
  split
  · exact .refl s
  · exact ⟨rfl, rfl⟩

/-- A burst whose acts keep the settings keeps them. -/
theorem SameSettings.takeSnooped {acts : List (State → State)} (h : ∀ f ∈ acts, ∀ s, SameSettings s (f s)) (g : GuardWindow)
    (b : WriteBurst) (w lo hi : Nat) (s : State) : SameSettings s (takeSnooped g b w lo hi acts s) := by
  obtain ⟨acts', hmem, heq⟩ := takeSnooped_acts g b w lo hi acts s
  rw [heq]
  refine SameSettings.trans (t := { s with choices := s.choices + 1 }) ⟨rfl, rfl⟩ (.runActs (fun f hf u => ?_) _)
  rcases hmem f hf with hf | ⟨a, rfl⟩
  · exact h f hf u
  · exact .guardPartial g a u

/-! ### Arrivals -/

/-- The data words of the mailbox keep the settings. -/
theorem SameSettings.takeMailboxData (w : Nat) (x : Word) (s : State) : SameSettings s (takeMailboxData w x s) := by
  unfold Machine.takeMailboxData consume
  dsimp only
  repeat' split
  all_goals exact ⟨rfl, rfl⟩

/-- A data act of a mailbox burst takes one of its words. -/
theorem mem_mailboxData {b : WriteBurst} {w : Nat} {f : State → State} (h : f ∈ mailboxData b w) :
    ∃ word x, f = takeMailboxData word x := by
  simp only [mailboxData, List.mem_filterMap] at h
  obtain ⟨i, _, hi⟩ := h
  split at hi
  · cases hi
    exact ⟨_, _, rfl⟩
  · cases hi

/-- An act of a mailbox burst takes a data word or the command. -/
theorem mem_mailboxActs {b : WriteBurst} {w : Nat} {f : State → State} (h : f ∈ mailboxActs b w) :
    (∃ word x, f = takeMailboxData word x) ∨ ∃ x, f = takeCommand x := by
  rcases List.mem_append.1 h with h | h
  · exact Or.inl (mem_mailboxData h)
  · simp only [Option.mem_toList, Option.map_eq_some_iff] at h
    obtain ⟨x, _, rfl⟩ := h
    exact Or.inr ⟨x, rfl⟩

/-- The acts of a write into an estimate record keep the settings. -/
theorem SameSettings.estimateActs {b : WriteBurst} {r w : Nat} {u : State} :
    ∀ f ∈ estimateActs b r w u, ∀ s, SameSettings s (f s) := by
  have hreport : ∀ s, SameSettings s (reportWrite r s) := fun s => by
    obtain ⟨_, _, _, _, h⟩ := reportWrite_frame r s
    rw [h]
    exact ⟨rfl, rfl⟩
  have harrival : ∀ x s, SameSettings s (arrival r x s) := fun x s => by
    obtain ⟨_, _, _, h⟩ := arrival_frame r x s
    rw [h]
    exact ⟨rfl, rfl⟩
  intro f hf s
  rcases List.mem_append.1 hf with hf | hf
  · exact headerActs_all (fun f => SameSettings s (f s)) (fun _ _ => ⟨rfl, rfl⟩) f hf
  · split at hf
    · unfold arriveAndReport at hf
      split at hf
      all_goals
        simp only [List.mem_cons, List.not_mem_nil, or_false] at hf
        rcases hf with rfl | rfl
      · exact hreport s
      · exact harrival _ s
      · exact harrival _ s
      · exact hreport s
    · rw [List.mem_singleton.1 hf]
      exact hreport s

/-- The acts of a write into a descriptor keep the settings. -/
theorem SameSettings.transmitActs {b : WriteBurst} {i w : Nat} : ∀ f ∈ transmitActs b i w, ∀ s, SameSettings s (f s) := by
  intro f hf s
  rcases List.mem_append.1 hf with hf | hf
  · simp only [captureActs, List.mem_filterMap] at hf
    obtain ⟨j, _, hj⟩ := hf
    repeat' split at hj
    all_goals cases hj
    all_goals exact ⟨rfl, rfl⟩
  · simp only [Option.mem_toList, Option.map_eq_some_iff] at hf
    obtain ⟨x, _, rfl⟩ := hf
    obtain ⟨_, _, _, _, h⟩ := transition_frame i x s
    rw [h]
    exact ⟨rfl, rfl⟩

/-- A discarded write keeps the settings. -/
theorem SameSettings.discardWrite (g : GuardWindow) (b : WriteBurst) (s : State) : SameSettings s (discardWrite g b s) := by
  unfold Machine.discardWrite
  dsimp only
  split <;> exact ⟨rfl, rfl⟩

/-- A read keeps the settings. -/
theorem SameSettings.takeRead (r : ReadBurst) (s : State) : SameSettings s (takeRead r s) := by
  unfold Machine.takeRead
  split
  · split <;> exact ⟨rfl, rfl⟩
  · exact ⟨rfl, rfl⟩
  · rename_i k selector offset _
    have hlatch : SameSettings s (latchRead k selector offset s) := by
      unfold latchRead
      split
      · obtain ⟨_, _, h⟩ := setLatch_frame k selector (s.cellSlot k selector) s
        rw [SameSettings, counting_filter, counting_shadow, h]
        exact ⟨rfl, rfl⟩
      · exact .refl s
    exact hlatch
  all_goals exact ⟨rfl, rfl⟩

/-! ### The part's own events -/

/-- An edge of ZC_IN keeps the settings. -/
theorem SameSettings.edge (s : State) : SameSettings s (edge s) := by
  obtain ⟨_, _, _, _, _, _, _, _, _, h⟩ := edge_frame s
  rw [h]
  exact ⟨rfl, rfl⟩

/-- A missed window keeps the settings. -/
theorem SameSettings.missWindow (s : State) : SameSettings s (missWindow s) := by
  obtain ⟨_, _, _, _, _, _, _, _, _, h⟩ := missWindow_frame s
  rw [h]
  exact ⟨rfl, rfl⟩

/-- A link's act at a start keeps the settings. -/
theorem SameSettings.startEvent (k : Nat) (s : State) : SameSettings s (startEvent k s) := by
  unfold Machine.startEvent
  split
  · obtain ⟨_, _, _, _, _, _, _, h⟩ := actAtStart_frame k { s with owed := s.owed.filter (· != k) }
    rw [SameSettings, settle_filter, settle_shadow, counting_filter, counting_shadow, h]
    exact ⟨rfl, rfl⟩
  · exact .refl s

/-- The start of a job keeps the settings. -/
theorem SameSettings.startJob (s : State) : SameSettings s (startJob s) := by
  unfold Machine.startJob
  split <;> exact ⟨rfl, rfl⟩

/-- An allocation keeps the settings. -/
theorem SameSettings.allocate (s : State) : SameSettings s (allocate s) := by
  obtain ⟨_, _, h⟩ := allocate_frame s
  rw [h]
  exact ⟨rfl, rfl⟩

/-! ### The end of a burst: the event of each use but the Base Writer's header, which enters OPERATING (R39) -/

/-- The Apply Reader's burst. -/
theorem SameSettings.notchRead (ws : List Word) (s : State) : SameSettings s (notchRead ws s) := by
  unfold Machine.notchRead startBase
  dsimp only
  split <;> exact ⟨rfl, rfl⟩

/-- The Base Writer's loading words. -/
theorem SameSettings.baseLoadingWritten (s : State) : SameSettings s (baseLoadingWritten s) := by
  unfold Machine.baseLoadingWritten
  dsimp only
  split <;> exact ⟨rfl, rfl⟩

/-- The job's reads. -/
theorem SameSettings.headerRead (ws : List Word) (s : State) : SameSettings s (headerRead ws s) := by
  obtain ⟨_, _, _, _, h⟩ := headerRead_frame ws s
  rw [h]
  exact ⟨rfl, rfl⟩

theorem SameSettings.snrRead (ws : List Word) (s : State) : SameSettings s (snrRead ws s) := by
  obtain ⟨_, _, _, _, _, h⟩ := snrRead_frame ws s
  rw [h]
  exact ⟨rfl, rfl⟩

theorem SameSettings.candidateRead (ws : List Word) (s : State) : SameSettings s (candidateRead ws s) := by
  obtain ⟨_, _, _, _, _, h⟩ := candidateRead_frame ws s
  rw [h]
  exact ⟨rfl, rfl⟩

/-- The job's last write, and its hand-off. -/
theorem SameSettings.headerWritten (s : State) : SameSettings s (headerWritten s) := by
  obtain ⟨_, _, _, _, _, h⟩ := headerWritten_frame s
  rw [h]
  exact ⟨rfl, rfl⟩

/-- An operation on the job that keeps the settings where there is one keeps them. -/
theorem SameSettings.withJob {f : Job → State → State} (h : ∀ j s, SameSettings s (f j s)) (s : State) :
    SameSettings s (withJob f s) := by
  unfold Machine.withJob
  split
  · exact h _ s
  · exact .refl s

/-- The job's loading words. -/
theorem SameSettings.loadingWritten (s : State) : SameSettings s (loadingWritten s) := by
  refine .withJob (fun j s => ?_) s
  repeat' split
  all_goals exact ⟨rfl, rfl⟩

/-- The burst of an ended client. -/
theorem SameSettings.readyHeaderRead (s : State) : SameSettings s (readyHeaderRead s) := by
  refine .withJob (fun j s => ?_) s
  split <;> exact ⟨rfl, rfl⟩

/-- A notice's burst. -/
theorem SameSettings.noticeWritten (s : State) : SameSettings s (noticeWritten s) := by
  unfold Machine.noticeWritten
  split <;> exact ⟨rfl, rfl⟩

/-- The words of a burst land outside the part. -/
theorem SameSettings.finishBurst (s : State) : SameSettings s (finishBurst s) := by
  unfold Machine.finishBurst
  split <;> exact ⟨rfl, rfl⟩

/-! ### The shadow (R27) -/

/-- A link command keeps the settings. -/
theorem SameSettings.linkCommand {c : Command} (ha : c ≠ .apply) (hw : c ≠ .withdraw) (s : State) : SameSettings s (c.run s) := by
  have hresult : ∀ r v, SameSettings s (Machine.respond r v s) := fun r v => (SameSettings.refl s).respond r v
  cases c with
  | apply => exact absurd rfl ha
  | withdraw => exact absurd rfl hw
  | linkAdd =>
    simp only [Command.run, linkAdd]
    split
    · exact hresult _ _
    · split
      · exact hresult _ _
      · split
        · exact hresult _ _
        · rename_i k _
          exact (SameSettings.counting (f := openLink k _) ⟨rfl, rfl⟩).respond _ _
  | linkRemove =>
    simp only [Command.run, linkRemove]
    split
    · rename_i h
      obtain ⟨_, _, _, hf⟩ := removeLink_frame (namesOpen_lt h) s
      have hkeep : SameSettings s (removeLink s.arg0.toNat s) := by
        rw [hf]
        exact ⟨rfl, rfl⟩
      exact (SameSettings.counting hkeep).respond _ _
    · exact hresult _ _
  | linkHold =>
    simp only [Command.run, linkHold]
    split
    · exact hresult _ _
    · split
      · exact hresult _ _
      · exact (SameSettings.counting ⟨rfl, rfl⟩).respond _ _
  | linkResume =>
    simp only [Command.run, linkResume]
    split
    · exact hresult _ _
    · exact (SameSettings.counting ⟨rfl, rfl⟩).respond _ _
  | rebuild =>
    simp only [Command.run, rebuild]
    split
    · exact hresult _ _
    · split
      · exact hresult _ _
      · split
        · exact hresult _ _
        · exact SameSettings.respond ⟨rfl, rfl⟩ _ _
  | confirm =>
    simp only [Command.run, confirm]
    split
    · exact hresult _ _
    · split
      · exact hresult _ _
      · exact (SameSettings.counting ⟨rfl, rfl⟩).respond _ _
  | decline =>
    simp only [Command.run, decline]
    split
    · exact hresult _ _
    · rename_i h
      obtain ⟨_, _, hf⟩ := discardOffer_frame (lt32 (offerRefusal_open h)) s
      have hkeep : SameSettings s (discardOffer s.arg0.toNat s) := by
        rw [hf]
        exact ⟨rfl, rfl⟩
      exact (SameSettings.counting hkeep).respond _ _

/-- APPLY passes the screen in TRANSPARENT alone (R30). -/
theorem transparent_of_screen_apply {f : FilterState} (h : Command.apply.screen f = none) : f = .transparent := by
  cases f with
  | transparent => rfl
  | applying | operating => exact absurd h (by decide)

/-- Every other command passes the screen outside TRANSPARENT alone (R30). -/
theorem active_of_screen {c : Command} {f : FilterState} (hc : c ≠ .apply) (h : c.screen f = none) : f ≠ .transparent := by
  rintro rfl
  cases c with
  | apply => exact hc rfl
  | _ => exact absurd h (by decide)

/-- What a command word does: it is refused, it sets APPLY's or WITHDRAW's state, or it is a link command (R30). -/
theorem takeCommand_cases (x : Word) (s : State) : (∃ r, takeCommand x s = respond r 0 s)
    ∨ s.filter = .transparent ∧ takeCommand x s = applyCommand s
    ∨ s.filter ≠ .transparent ∧ takeCommand x s = withdrawCommand s
    ∨ s.filter ≠ .transparent ∧ SameSettings s (takeCommand x s) := by
  unfold takeCommand
  split
  · exact Or.inl ⟨_, rfl⟩
  · rename_i c _
    split
    · exact Or.inl ⟨_, rfl⟩
    · rename_i hscreen
      by_cases ha : c = .apply
      · subst ha
        exact Or.inr (Or.inl ⟨transparent_of_screen_apply hscreen, rfl⟩)
      · have hactive := active_of_screen ha hscreen
        by_cases hw : c = .withdraw
        · subst hw
          exact Or.inr (Or.inr (Or.inl ⟨hactive, rfl⟩))
        · exact Or.inr (Or.inr (Or.inr ⟨hactive, .linkCommand ha hw s⟩))

/-- No command of the mailbox changes the shadow (R27, R33, R41). -/
theorem takeCommand_shadow (x : Word) (s : State) : (takeCommand x s).shadow = s.shadow := by
  rcases takeCommand_cases x s with ⟨r, h⟩ | ⟨-, h⟩ | ⟨-, h⟩ | ⟨-, h⟩
  · rw [h]
    rfl
  · rw [h]
    unfold applyCommand
    split <;> rfl
  · rw [h]
    rfl
  · exact h.2

/-- Acts that keep the shadow, and the GUARD notice among them, keep it together. -/
theorem takeSnooped_shadow {acts : List (State → State)} (h : ∀ f ∈ acts, ∀ s, (f s).shadow = s.shadow) (g : GuardWindow)
    (b : WriteBurst) (w lo hi : Nat) (s : State) : (takeSnooped g b w lo hi acts s).shadow = s.shadow := by
  obtain ⟨acts', hmem, heq⟩ := takeSnooped_acts g b w lo hi acts s
  rw [heq]
  have keep : ∀ u, (runActs acts' u).shadow = u.shadow := by
    clear heq
    induction acts' with
    | nil => exact fun _ => rfl
    | cons f acts' ih =>
      intro u
      refine (ih (fun f hf => hmem f (List.mem_cons_of_mem _ hf)) (f u)).trans ?_
      rcases hmem f List.mem_cons_self with hf | ⟨a, rfl⟩
      · exact h f hf u
      · exact (SameSettings.guardPartial g a u).2
  exact keep _

/-- Outside TRANSPARENT no write changes the shadow (R27). -/
theorem takeWrite_shadow {s : State} (b : WriteBurst) (hf : s.filter ≠ .transparent) : (takeWrite b s).shadow = s.shadow := by
  unfold takeWrite
  split
  · rename_i w _
    rw [if_neg hf]
    split
    · exact (SameSettings.discardWrite _ b s).2
    · split
      · refine takeSnooped_shadow (fun f hf u => ?_) .anchor b w 8 12 s
        rcases mem_mailboxActs hf with ⟨word, x, rfl⟩ | ⟨x, rfl⟩
        · exact (SameSettings.takeMailboxData word x u).2
        · exact takeCommand_shadow x u
      · split
        · exact (SameSettings.discardWrite _ b s).2
        · rfl
  · exact (SameSettings.discardWrite _ b s).2
  · exact (SameSettings.discardWrite _ b s).2
  · exact (SameSettings.discardWrite _ b s).2
  · exact (SameSettings.discardWrite _ b s).2
  · exact (SameSettings.takeSnooped SameSettings.estimateActs .estimate b _ 0 6 s).2
  · split
    · exact (SameSettings.takeSnooped SameSettings.transmitActs .transmit b _ 0 2 s).2
    · rfl
  · rfl

/-- Outside TRANSPARENT no transaction changes the shadow at its arrival. -/
theorem take_shadow {s : State} (x : Transaction) (hf : s.filter ≠ .transparent) : (x.take s).shadow = s.shadow := by
  cases x with
  | write b => exact takeWrite_shadow b hf
  | read r => exact (SameSettings.takeRead r s).2

/-- Outside TRANSPARENT a write that comes to the port, accepted or presented, leaves the shadow. -/
theorem writeArrival_shadow {s : State} (b : WriteBurst) (hf : s.filter ≠ .transparent) : (writeArrival b s).shadow = s.shadow := by
  unfold writeArrival
  split
  · rw [settle_shadow, takeWrite_shadow b hf]
  · exact present_shadow _ s

/-- A read that comes to the port leaves the shadow. -/
theorem readArrival_shadow (r : ReadBurst) (s : State) : (readArrival r s).shadow = s.shadow := by
  unfold readArrival
  split
  · rw [settle_shadow, (SameSettings.takeRead r s).2]
  · exact present_shadow _ s

/-- The processor's burst completes and the presented transaction arrives: outside TRANSPARENT the shadow stays. -/
theorem acceptPresented_shadow {s : State} (hf : s.filter ≠ .transparent) :
    (acceptPresented (processorDone s)).shadow = s.shadow := by
  have hdone : SameSettings s (processorDone s) := (SameSettings.finishBurst s).trans ⟨rfl, rfl⟩
  unfold acceptPresented
  split
  · rename_i t _ _
    have hkeep := take_shadow t (s := { processorDone s with path := { (processorDone s).path with presented := none, completions := [] } })
      (by rw [← hdone.1] at hf; exact hf)
    exact hkeep.trans hdone.2
  · exact hdone.2

/-- The end of an internal burst leaves the shadow where its event does. -/
theorem onBurstDone_shadow {u : PortUse} {f : List Word → State → State} (h : ∀ ws s, (f ws s).shadow = s.shadow) (s : State) :
    (onBurstDone u f s).shadow = s.shadow := by
  unfold onBurstDone
  split
  · rw [settle_shadow, counting_shadow, h, (SameSettings.finishBurst s).2]
  · rfl

/-- Settles O11: a command by its kind; only a configuration write in TRANSPARENT and hardware reset write the shadow. -/
theorem shadowLocked : Obligations.ShadowLocked := by
  intro c s t hf hreset ht
  have guarded : ∀ {p : Bool} {u : State}, SameSettings s u → (if p then settle u else s).shadow = s.shadow := by
    intro p u hu
    split
    · rw [settle_shadow, hu.2]
    · rfl
  cases c with
  | hardwareReset n => exact absurd rfl (hreset n)
  | resetDeassert zc => cases ht; split <;> [rfl; split <;> rfl]
  | aliasRead r | processorRead r => cases ht; exact readArrival_shadow r s
  | processorBurstDone =>
    cases ht
    split
    · rw [settle_shadow, acceptPresented_shadow hf]
    · rfl
  | zcEdge level =>
    cases ht
    split
    · rfl
    · split
      · rw [settle_shadow, counting_shadow, (SameSettings.edge _).2]
        rfl
      · rfl
  | captureWindowMiss => cases ht; exact guarded (SameSettings.missWindow s)
  | sliceBoundary => cases ht; split <;> rfl
  | gatherEnd k | offerExpiry k | flip k => cases ht; exact (SameSettings.startEvent k s).2
  | jobStart => cases ht; exact guarded (SameSettings.startJob s)
  | allocateAfterWait => cases ht; exact guarded (SameSettings.allocate s)
  | notchReadDone => cases ht; exact onBurstDone_shadow (fun ws u => (SameSettings.notchRead ws u).2) s
  | baseLoadingWriteDone => cases ht; exact onBurstDone_shadow (fun _ u => (SameSettings.baseLoadingWritten u).2) s
  | baseHeaderWriteDone => cases ht; exact onBurstDone_shadow (fun _ u => show (baseHeaderWritten u).shadow = _ from rfl) s
  | headerReadDone => cases ht; exact onBurstDone_shadow (fun ws u => (SameSettings.headerRead ws u).2) s
  | snrBurstDone => cases ht; exact onBurstDone_shadow (fun ws u => (SameSettings.snrRead ws u).2) s
  | candidateBurstDone => cases ht; exact onBurstDone_shadow (fun ws u => (SameSettings.candidateRead ws u).2) s
  | loadingWriteDone => cases ht; exact onBurstDone_shadow (fun _ u => (SameSettings.loadingWritten u).2) s
  | headerWriteDone => cases ht; exact onBurstDone_shadow (fun _ u => (SameSettings.headerWritten u).2) s
  | noticeWriteDone => cases ht; exact onBurstDone_shadow (fun _ u => (SameSettings.noticeWritten u).2) s
  | endedClientBurstDone => cases ht; exact onBurstDone_shadow (fun _ u => (SameSettings.readyHeaderRead u).2) s
  | apply b | withdraw b | linkAdd b | linkRemove b | linkHold b | linkResume b | rebuild b | confirm b | decline b
  | badCodeCommand b | cmdArgWrite b | noticeConsumerWrite b | configWrite b | processorWrite b | discardedWrite b
  | estimateHeaderWrite b | estimateArrival b | descriptorRefCapture b | descriptorNodeCapture b | commit b
  | descriptorDone b | descriptorHostOwned b | descriptorRejected b => cases ht; exact writeArrival_shadow b hf

end Sys2Proof.Machine
end

section
/-! PROOFS. Every step keeps TRANSPARENT empty (R32, R41, R42). -/
namespace Sys2Proof.Machine

/-! ### The empty part -/

/-- The part holds nothing and issues nothing: what `State.EmptyIfTransparent` asks in TRANSPARENT, item by item. -/
structure State.HoldsNothing (s : State) : Prop where
  tracker : s.tracker = Tracker.reset
  links : s.links = Vector.replicate 32 Link.free
  pool : s.pool = Pool.reset
  buildQueue : s.buildQueue = []
  engine : s.engine = Engine.idle
  headers : s.headers = Vector.replicate 32 HeaderShadow.empty
  pinTable : s.pinTable = Vector.replicate 64 PinEntry.empty
  notices : s.notices = NoticeWriter.reset
  applier : s.applier = Applier.reset
  wait : s.path.wait = 0
  owed : s.owed = []
  port : ∀ p, s.path.port = some p → p.use = .processor ∨ p.use = .ended

/-- The statement's form of the invariant, and the structure's. -/
theorem emptyIfTransparent_iff (s : State) : s.EmptyIfTransparent ↔ (s.filter = .transparent → s.HoldsNothing) :=
  forall_congr' fun _ =>
    ⟨fun ⟨h1, h2, h3, h4, h5, h6, h7, h8, h9, h10, h11, h12⟩ => ⟨h1, h2, h3, h4, h5, h6, h7, h8, h9, h10, h11, h12⟩,
    fun ⟨h1, h2, h3, h4, h5, h6, h7, h8, h9, h10, h11, h12⟩ => ⟨h1, h2, h3, h4, h5, h6, h7, h8, h9, h10, h11, h12⟩⟩

/-- Outside TRANSPARENT nothing is asked. -/
theorem State.EmptyIfTransparent.active {s : State} (h : s.filter ≠ .transparent) : s.EmptyIfTransparent := fun hf => absurd hf h

/-- Where an event keeps the settings outside TRANSPARENT, and the emptiness in it, it keeps the invariant. -/
theorem State.EmptyIfTransparent.event {s t : State} (h : s.EmptyIfTransparent) (hactive : s.filter ≠ .transparent → t.EmptyIfTransparent)
    (hempty : s.filter = .transparent → s.HoldsNothing → t.EmptyIfTransparent) : t.EmptyIfTransparent := by
  by_cases hf : s.filter = .transparent
  · exact hempty hf ((emptyIfTransparent_iff s).1 h hf)
  · exact hactive hf

/-- An event that keeps the settings, outside TRANSPARENT. -/
theorem SameSettings.active {s t : State} (h : SameSettings s t) (hf : s.filter ≠ .transparent) : t.EmptyIfTransparent :=
  .active fun ht => hf (h.1.symm.trans ht)

/-- A place in a configured window is found outside TRANSPARENT alone (R5, R6). -/
theorem active_of_place {s : State} {a : Nat} {p : Place} (h : s.place a = p) (ha : ∀ w, p ≠ .anchor w) (ho : p ≠ .outside) :
    s.filter ≠ .transparent := by
  intro hf
  unfold State.place at h
  rw [hf] at h
  split at h
  · exact ha _ h.symm
  · exact ho h.symm

/-! ### What an empty part has no part in -/

section
variable {s : State} (h : s.HoldsNothing)
include h

/-- No client of the Internal Requester has a burst ready. -/
theorem State.HoldsNothing.requesterWaits : s.requesterWaits = false := by
  unfold State.requesterWaits
  rw [h.notices, h.applier, h.engine]
  rfl

/-- The tracker is not locked. -/
theorem State.HoldsNothing.isLocked : s.tracker.state.isLocked = false := by
  rw [h.tracker]
  rfl

/-- No slice boundary is due. -/
theorem State.HoldsNothing.boundaryDue : s.boundaryDue = false := by
  unfold State.boundaryDue
  rw [h.isLocked, Bool.false_and]

/-- No missed window is due. -/
theorem State.HoldsNothing.missDue : s.missDue = false := by
  unfold State.missDue
  rw [h.isLocked, Bool.false_and]

/-- No job is due. -/
theorem State.HoldsNothing.jobDue : s.jobDue = false := by
  unfold State.jobDue
  rw [h.buildQueue]
  exact Bool.and_false _

/-- No job waits for a slot. -/
theorem State.HoldsNothing.jobWaits : s.jobWaits = false := by
  unfold State.jobWaits
  rw [h.engine]
  rfl

/-- No link owes an act. -/
theorem State.HoldsNothing.startEvent (k : Nat) : startEvent k s = s := by
  unfold Machine.startEvent
  rw [h.owed]
  simp

/-- An edge of ZC_IN does nothing (R45). -/
theorem State.HoldsNothing.edge : edge s = s := by
  have hidle : s.tracker.state = .idle := by rw [h.tracker]; rfl
  unfold Machine.edge
  rw [h.missDue]
  simp only [Bool.false_eq_true, if_false, hidle]

/-- The port holds no burst of an internal client. -/
theorem State.HoldsNothing.portIs {u : PortUse} (hp : u ≠ .processor) (he : u ≠ .ended) : s.portIs u = false := by
  rw [← Bool.not_eq_true, portIs_iff]
  rintro ⟨m, hm⟩
  rcases h.port _ hm with hu | hu
  · exact hp hu
  · exact he hu

/-- A new path keeps the part empty where WAIT is 0 and no internal client's burst holds the port. -/
theorem State.HoldsNothing.withPath {path : Path} (hw : path.wait = 0) (hp : ∀ p, path.port = some p → p.use = .processor ∨ p.use = .ended) :
    State.HoldsNothing { s with path := path } := { h with wait := hw, port := hp }

end

/-! ### What follows every event -/

/-- In an empty part the event's end comes down to NOTE_IRQ and the arbiter: no notice is formed, and WAIT is 0 already. -/
theorem State.HoldsNothing.settle_eq {s : State} (h : s.HoldsNothing) : settle s = arbitrate (decideIrq s) := by
  have hnotices : ∀ n, n = s.notices → ({ decideIrq s with notices := n } : State) = decideIrq s := by
    rintro _ rfl
    rfl
  have hpath : ∀ p, p = s.path → ({ decideIrq s with path := p } : State) = decideIrq s := by
    rintro _ rfl
    rfl
  have hform : formNotice (decideIrq s) = decideIrq s := by
    unfold formNotice
    refine hnotices _ ?_
    simp only [decideIrq_notices, h.notices, NoticeWriter.reset]
  have hclear : clearWait (decideIrq s) = decideIrq s := by
    unfold clearWait
    refine hpath _ ?_
    rw [decideIrq_path, h.wait, ite_self, ← h.wait]
  unfold Machine.settle
  rw [hform, hclear]

/-- An empty part stays empty in what follows an event: the port can be granted to the processor alone. -/
theorem State.HoldsNothing.settle {s : State} (h : s.HoldsNothing) : (settle s).HoldsNothing := by
  have hd : (decideIrq s).HoldsNothing := { h with }
  rw [h.settle_eq]
  cases hp : (decideIrq s).path.port with
  | some p =>
    rw [arbitrate_held (by rw [hp]; rfl)]
    exact hd
  | none =>
    cases hw : (decideIrq s).path.waiting with
    | some t =>
      rw [arbitrate_processor hp hw (Or.inl hd.requesterWaits), grantProcessor_eq fun _ => hd.wait]
      refine hd.withPath (by simp [hd.requesterWaits]) fun p hp => Or.inl ?_
      obtain rfl := Option.some.inj hp
      rfl
    | none =>
      rw [arbitrate_none hw hd.requesterWaits]
      exact hd

/-- What follows an event keeps the invariant. -/
theorem State.EmptyIfTransparent.settle {s : State} (h : s.EmptyIfTransparent) : (settle s).EmptyIfTransparent :=
  h.event (fun hf => .active (by rwa [settle_filter])) fun _ he => (emptyIfTransparent_iff _).2 fun _ => he.settle

/-- A state whose part is empty. -/
theorem State.HoldsNothing.emptyIfTransparent {s : State} (h : s.HoldsNothing) : s.EmptyIfTransparent :=
  (emptyIfTransparent_iff s).2 fun _ => h

/-- A new path keeps the invariant where it changes neither WAIT nor the port. -/
theorem State.EmptyIfTransparent.withPath {s : State} (h : s.EmptyIfTransparent) {path : Path} (hw : path.wait = s.path.wait)
    (hp : path.port = s.path.port) : State.EmptyIfTransparent { s with path := path } :=
  h.event (fun hf => .active hf) fun _ he => (he.withPath (hw.trans he.wait) fun p hport => he.port p (hp ▸ hport)).emptyIfTransparent

/-- WITHDRAW's acceptance empties the part, and leaves an internal burst on the port for no client (R24, R41). -/
theorem withdraw_holdsNothing (s : State) : (withdrawCommand s).HoldsNothing where
  tracker := rfl
  links := rfl
  pool := rfl
  buildQueue := rfl
  engine := rfl
  headers := rfl
  pinTable := rfl
  notices := rfl
  applier := rfl
  wait := rfl
  owed := rfl
  port p hp := by
    obtain ⟨q, -, rfl⟩ := Option.map_eq_some_iff.1 hp
    cases hq : q.use <;> simp [PortUse.isInternal, hq]

/-! ### The mailbox (R29, R30) -/

/-- The consumer index has nowhere to move in an empty ring (R177). -/
theorem State.HoldsNothing.consume {s : State} (h : s.HoldsNothing) (x : Word) : (consume x s).notices = NoticeWriter.reset := by
  have hunconsumed : s.unconsumed = 0 := by
    unfold State.unconsumed
    rw [h.notices]
    simp [NoticeWriter.reset]
  have hahead : x.toNat < s.shadow.entries → s.ahead x.toNat = x.toNat := by
    intro hx
    unfold State.ahead
    rw [h.notices]
    simp [NoticeWriter.reset, Nat.mod_eq_of_lt hx]
  unfold Machine.consume
  dsimp only
  split
  · rename_i hx
    obtain ⟨hx, ha⟩ := hx
    have hzero : x.toNat = 0 := by
      rw [hahead hx, hunconsumed] at ha
      omega
    show ({ s.notices with consumer := _, urgentCount := _, overflow := _ } : NoticeWriter) = _
    rw [h.notices, hzero]
    simp [NoticeWriter.reset]
  · show ({ s.notices with consumer := _, urgentCount := _, overflow := _ } : NoticeWriter) = _
    rw [h.notices]
    rfl

/-- A data word of the mailbox keeps the invariant. -/
theorem State.EmptyIfTransparent.takeMailboxData {s : State} (h : s.EmptyIfTransparent) (w : Nat) (x : Word) :
    (takeMailboxData w x s).EmptyIfTransparent := by
  refine h.event (SameSettings.takeMailboxData w x s).active fun _ he => State.HoldsNothing.emptyIfTransparent ?_
  unfold Machine.takeMailboxData
  split
  · obtain ⟨n, hn⟩ : ∃ n, Machine.consume x s = { s with notices := n } := by
      unfold Machine.consume
      dsimp only
      split <;> exact ⟨_, rfl⟩
    have hr := he.consume x
    rw [hn] at hr ⊢
    exact { he with notices := hr }
  · repeat' split
    all_goals exact { he with }

/-- A command keeps the invariant: in TRANSPARENT only APPLY is taken, and outside it only WITHDRAW enters TRANSPARENT, with the part
emptied (R36, R41). -/
theorem State.EmptyIfTransparent.takeCommand {s : State} (h : s.EmptyIfTransparent) (x : Word) :
    (takeCommand x s).EmptyIfTransparent := by
  have hrespond : ∀ r v, (respond r v s).EmptyIfTransparent := fun r v =>
    h.event (fun hf => .active hf) fun _ he => State.HoldsNothing.emptyIfTransparent { he with }
  rcases takeCommand_cases x s with ⟨r, hr⟩ | ⟨-, hr⟩ | ⟨-, hr⟩ | ⟨hf, hr⟩
  · rw [hr]
    exact hrespond r 0
  · rw [hr]
    unfold applyCommand
    split
    · exact hrespond _ _
    · exact .active (s := respond .ok 0 (acceptApply s)) (by intro hf; cases hf)
  · rw [hr]
    exact (withdraw_holdsNothing s).emptyIfTransparent
  · exact hr.active hf

/-- The acts of a mailbox burst keep the invariant, with the GUARD notice of a partial write, which TRANSPARENT raises none of. -/
theorem State.EmptyIfTransparent.takeSnooped {s : State} (h : s.EmptyIfTransparent) (b : WriteBurst) (w : Nat) :
    (takeSnooped .anchor b w 8 12 (mailboxActs b w) s).EmptyIfTransparent := by
  obtain ⟨acts, hmem, heq⟩ := takeSnooped_acts .anchor b w 8 12 (mailboxActs b w) s
  have hstart : State.EmptyIfTransparent { s with choices := s.choices + 1 } := h
  rw [heq]
  generalize ({ s with choices := s.choices + 1 } : State) = u at hstart
  clear heq
  induction acts generalizing u with
  | nil => exact hstart
  | cons f acts ih =>
    refine ih (fun g hg => hmem g (List.mem_cons_of_mem _ hg)) (f u) ?_
    rcases hmem f List.mem_cons_self with hf | ⟨a, rfl⟩
    · rcases mem_mailboxActs hf with ⟨word, x, rfl⟩ | ⟨x, rfl⟩
      · exact hstart.takeMailboxData word x
      · exact hstart.takeCommand x
    · refine hstart.event (SameSettings.guardPartial .anchor a u).active fun hf he => ?_
      unfold guardPartial
      rw [if_pos hf]
      exact hstart

/-! ### Arrivals -/

/-- A discarded write keeps the invariant: in TRANSPARENT no notice is raised (R17). -/
theorem State.EmptyIfTransparent.discardWrite {s : State} (h : s.EmptyIfTransparent) (g : GuardWindow) (b : WriteBurst) :
    (discardWrite g b s).EmptyIfTransparent := by
  refine h.event (SameSettings.discardWrite g b s).active fun hf _ => ?_
  rw [discardWrite_transparent g b hf]
  exact h.withPath rfl rfl

/-- A write keeps the invariant at its arrival: in TRANSPARENT the Anchor Block is the one window (R5). -/
theorem State.EmptyIfTransparent.takeWrite {s : State} (h : s.EmptyIfTransparent) (b : WriteBurst) :
    (takeWrite b s).EmptyIfTransparent := by
  have hforward : ∀ {u : State}, u.EmptyIfTransparent → (forward (.write b.base b.words) u).EmptyIfTransparent := fun hu =>
    hu.withPath rfl rfl
  unfold Machine.takeWrite
  split
  · rename_i w _
    split
    · exact h.discardWrite _ b
    · split
      · exact hforward (h.takeSnooped b w)
      · split
        · split
          · exact hforward (u := shadowWrite b w s)
              (h.event (fun hf => .active hf) fun _ he => State.HoldsNothing.emptyIfTransparent { he with })
          · exact h.discardWrite _ b
        · exact hforward h
  · exact h.discardWrite _ b
  · exact h.discardWrite _ b
  · exact h.discardWrite _ b
  · exact h.discardWrite _ b
  · rename_i hp
    exact hforward ((SameSettings.takeSnooped SameSettings.estimateActs .estimate b _ 0 6 s).active (active_of_place hp (by simp) (by simp)))
  · rename_i hp
    split
    · exact ((SameSettings.takeSnooped SameSettings.transmitActs .transmit b _ 0 2 s).active (active_of_place hp (by simp) (by simp))).withPath
        rfl rfl
    · exact hforward h
  · exact hforward h

/-- A read keeps the invariant at its arrival. -/
theorem State.EmptyIfTransparent.takeRead {s : State} (h : s.EmptyIfTransparent) (r : ReadBurst) :
    (takeRead r s).EmptyIfTransparent := by
  refine h.event (SameSettings.takeRead r s).active fun hf _ => ?_
  unfold Machine.takeRead
  split
  · split <;> exact h.withPath rfl rfl
  · exact h.withPath rfl rfl
  · rename_i hp
    exact absurd hf (active_of_place hp (by simp) (by simp))
  all_goals exact h.withPath rfl rfl

/-- A transaction keeps the invariant at its arrival. -/
theorem State.EmptyIfTransparent.take {s : State} (h : s.EmptyIfTransparent) (x : Transaction) : (x.take s).EmptyIfTransparent := by
  cases x with
  | write b => exact h.takeWrite b
  | read r => exact h.takeRead r

/-- A transaction at a busy port changes the transaction presented alone. -/
theorem State.EmptyIfTransparent.present {s : State} (h : s.EmptyIfTransparent) (x : Transaction) :
    (present x s).EmptyIfTransparent := by
  unfold Machine.present
  split
  · exact h.withPath rfl rfl
  · exact h

/-- A write that comes to the port, accepted or presented. -/
theorem State.EmptyIfTransparent.writeArrival {s : State} (h : s.EmptyIfTransparent) (b : WriteBurst) :
    (writeArrival b s).EmptyIfTransparent := by
  unfold Machine.writeArrival
  split
  · exact (h.takeWrite b).settle
  · exact h.present _

/-- A read that comes to the port, accepted or presented. -/
theorem State.EmptyIfTransparent.readArrival {s : State} (h : s.EmptyIfTransparent) (r : ReadBurst) :
    (readArrival r s).EmptyIfTransparent := by
  unfold Machine.readArrival
  split
  · exact (h.takeRead r).settle
  · exact h.present _

/-! ### The end of a burst -/

/-- The words of a burst land, and the port is FREE. -/
theorem State.EmptyIfTransparent.finishBurst {s : State} (h : s.EmptyIfTransparent) : (finishBurst s).EmptyIfTransparent := by
  unfold Machine.finishBurst
  split
  · exact h.event (fun hf => .active hf) fun _ he => State.HoldsNothing.emptyIfTransparent
      { he with port := fun _ hp => by cases hp }
  · exact h

/-- The processor's burst completes, and the presented transaction arrives. -/
theorem State.EmptyIfTransparent.processorBurst {s : State} (h : s.EmptyIfTransparent) :
    (acceptPresented (processorDone s)).EmptyIfTransparent := by
  have hdone : (processorDone s).EmptyIfTransparent := h.finishBurst.withPath rfl rfl
  unfold acceptPresented
  split
  · rename_i x _ _
    have harrives := (hdone.withPath (path := { (processorDone s).path with presented := none, completions := [] }) rfl rfl).take x
    exact harrives.withPath rfl rfl
  · exact hdone

/-- An internal client's burst is not on the port in TRANSPARENT, and outside it its end keeps the part there. -/
theorem State.EmptyIfTransparent.burstDone {s : State} (h : s.EmptyIfTransparent) {u : PortUse} (hu : u ≠ .processor) (hu' : u ≠ .ended)
    {f : List Word → State → State} (hf : ∀ ws v, (f ws v).filter = .transparent → v.filter = .transparent) :
    (onBurstDone u f s).EmptyIfTransparent := by
  refine h.event (fun ha => ?_) fun _ he => ?_
  · unfold onBurstDone
    split
    · refine State.EmptyIfTransparent.active fun ht => ha ?_
      rw [settle_filter, counting_filter] at ht
      rw [← (SameSettings.finishBurst s).1]
      exact hf _ _ ht
    · exact h
  · rw [onBurstDone_other (he.portIs hu hu')]
    exact h

/-- The burst of a client that has ended completes; an empty part has no job whose header read waited for it (R117). -/
theorem State.EmptyIfTransparent.endedDone {s : State} (h : s.EmptyIfTransparent) :
    (onBurstDone .ended (fun _ => readyHeaderRead) s).EmptyIfTransparent := by
  unfold onBurstDone
  split
  · refine State.EmptyIfTransparent.settle ?_
    refine h.finishBurst.event (SameSettings.counting (SameSettings.readyHeaderRead _)).active fun _ he => ?_
    have hnone : readyHeaderRead (Machine.finishBurst s) = Machine.finishBurst s := withJob_none (by rw [he.engine]; rfl)
    rw [counting_eq (f := readyHeaderRead) (by rw [hnone]), hnone]
    exact h.finishBurst
  · exact h

/-! ### The step -/

/-- An event that is not due in an empty part, and keeps the settings. -/
theorem State.EmptyIfTransparent.guarded {s u : State} {p : Bool} (h : s.EmptyIfTransparent) (hu : SameSettings s u)
    (hp : s.HoldsNothing → p = false) : (if p then Machine.settle u else s).EmptyIfTransparent := by
  refine h.event (fun hf => ?_) fun _ he => ?_
  · split
    · exact (hu.active hf).settle
    · exact h
  · rw [hp he]
    exact h

/-- A sample of ZC_IN, with its edge if it is one. -/
theorem State.EmptyIfTransparent.zcEdge {s t : State} (h : s.EmptyIfTransparent) {level : Bool} (ht : execZcEdge level s = .next t) :
    t.EmptyIfTransparent := by
  have hsample : (takeSample level s).EmptyIfTransparent := h.event (fun hf => .active hf) fun _ he =>
    State.HoldsNothing.emptyIfTransparent { he with }
  cases ht
  split
  · exact h
  · split
    · refine State.EmptyIfTransparent.settle (hsample.event (SameSettings.counting (SameSettings.edge _)).active fun _ he => ?_)
      rw [counting_eq (f := edge) (by rw [he.edge]), he.edge]
      exact hsample
    · exact hsample

/-- The state after hardware reset. -/
theorem holdsNothing_reset : State.reset.HoldsNothing :=
  ⟨rfl, rfl, rfl, rfl, rfl, rfl, rfl, rfl, rfl, rfl, rfl, fun _ h => by cases h⟩

/-- Every command keeps TRANSPARENT empty. -/
theorem exec_keeps_empty {c : Instr} {s t : State} (h : s.EmptyIfTransparent) (ht : exec c s = .next t) : t.EmptyIfTransparent := by
  cases c with
  | hardwareReset n => cases ht; exact State.HoldsNothing.emptyIfTransparent { holdsNothing_reset with }
  | resetDeassert zc =>
    have hsame : ∀ r z a, State.EmptyIfTransparent { s with inReset := r, zcLevel := z, zcSampledAt := a } := fun _ _ _ =>
      h.event (fun hf => .active hf) fun _ he => State.HoldsNothing.emptyIfTransparent { he with }
    cases ht
    split
    · exact h
    · split
      · exact hsame _ _ _
      · exact hsame _ _ _
  | aliasRead r | processorRead r => cases ht; exact h.readArrival r
  | processorBurstDone =>
    cases ht
    split
    · exact h.processorBurst.settle
    · exact h
  | zcEdge level => exact h.zcEdge ht
  | captureWindowMiss => cases ht; exact h.guarded (SameSettings.missWindow s) fun he => by rw [he.missDue, Bool.and_false]
  | sliceBoundary =>
    cases ht
    refine h.event (fun hf => .active (by split <;> exact hf)) fun _ he => ?_
    rw [he.boundaryDue, Bool.and_false]
    exact h
  | gatherEnd k | offerExpiry k | flip k =>
    cases ht
    exact h.event (SameSettings.startEvent k s).active fun _ he => by rwa [he.startEvent]
  | jobStart => cases ht; exact h.guarded (SameSettings.startJob s) fun he => by rw [he.jobDue, Bool.and_false]
  | allocateAfterWait =>
    cases ht
    exact h.guarded (SameSettings.allocate s) fun he => by rw [he.jobWaits, Bool.and_false, Bool.false_and]
  | notchReadDone => cases ht; exact h.burstDone (by decide) (by decide) fun ws v hv => (SameSettings.notchRead ws v).1.symm.trans hv
  | baseLoadingWriteDone =>
    cases ht; exact h.burstDone (by decide) (by decide) fun _ v hv => (SameSettings.baseLoadingWritten v).1.symm.trans hv
  | baseHeaderWriteDone => cases ht; exact h.burstDone (by decide) (by decide) fun _ v hv => by cases hv
  | headerReadDone => cases ht; exact h.burstDone (by decide) (by decide) fun ws v hv => (SameSettings.headerRead ws v).1.symm.trans hv
  | snrBurstDone => cases ht; exact h.burstDone (by decide) (by decide) fun ws v hv => (SameSettings.snrRead ws v).1.symm.trans hv
  | candidateBurstDone =>
    cases ht; exact h.burstDone (by decide) (by decide) fun ws v hv => (SameSettings.candidateRead ws v).1.symm.trans hv
  | loadingWriteDone =>
    cases ht; exact h.burstDone (by decide) (by decide) fun _ v hv => (SameSettings.loadingWritten v).1.symm.trans hv
  | headerWriteDone =>
    cases ht; exact h.burstDone (by decide) (by decide) fun _ v hv => (SameSettings.headerWritten v).1.symm.trans hv
  | noticeWriteDone =>
    cases ht; exact h.burstDone (by decide) (by decide) fun _ v hv => (SameSettings.noticeWritten v).1.symm.trans hv
  | endedClientBurstDone => cases ht; exact h.endedDone
  | apply b | withdraw b | linkAdd b | linkRemove b | linkHold b | linkResume b | rebuild b | confirm b | decline b
  | badCodeCommand b | cmdArgWrite b | noticeConsumerWrite b | configWrite b | processorWrite b | discardedWrite b
  | estimateHeaderWrite b | estimateArrival b | descriptorRefCapture b | descriptorNodeCapture b | commit b
  | descriptorDone b | descriptorHostOwned b | descriptorRejected b => cases ht; exact h.writeArrival b

/-- An idle step outside TRANSPARENT keeps the filter state. -/
theorem idle_filter (s : State) : (idle s).filter = s.filter := by
  unfold idle
  split
  · rfl
  · split
    · rfl
    · split
      · rw [settle_filter, counting_filter, (SameSettings.missWindow s).1]
      · split
        · exact (SameSettings.startEvent _ s).1
        · split
          · rw [settle_filter, (SameSettings.startJob s).1]
          · rfl

/-- In an empty part nothing is due: one tick passes. -/
theorem State.HoldsNothing.idle {s : State} (h : s.HoldsNothing) : idle s = { s with tick := s.tick + 1 } := by
  unfold Machine.idle
  rw [h.boundaryDue, h.missDue, h.owed, h.jobDue]
  simp

/-- Settles O7: a command by its kind, and an idle step, in which nothing of an empty part is due. -/
theorem transparentEmptyKept : Obligations.TransparentEmptyKept := by
  intro s t h ht
  unfold step at ht
  split at ht
  · cases ht
    refine h.event (fun hf => .active (by rwa [idle_filter])) fun _ he => ?_
    rw [he.idle]
    exact State.HoldsNothing.emptyIfTransparent { he with }
  · rename_i rest _
    exact exec_keeps_empty (s := { s with pending := rest }) h ht

end Sys2Proof.Machine
end

section
/-! PROOFS. No step stops (R40); hardware reset, the part held in it, and the state it begins in (R24, R42, R43). -/
namespace Sys2Proof.Machine

/-! ### No stop (R40) -/

/-- Each command's meaning answers a next state. -/
theorem exec_noStop (c : Instr) (s : State) : NoStop (exec c s) := by
  cases c <;> exact ⟨_, rfl⟩

/-- Settles O2: a command by its meaning, and an idle step. -/
theorem everyStepIsNext : Obligations.EveryStepIsNext := by
  intro s
  unfold step
  split
  · exact ⟨_, rfl⟩
  · exact exec_noStop _ _

/-! ### Hardware reset (R24, R42) -/

/-- The memory that a hardware reset leaves: of a write burst on the port, the words accepted (R24). -/
theorem abandoned_eq (s : State) (accepted : Nat) : s.abandoned accepted = match s.path.port with
    | some ⟨_, .write a beats⟩ => writeBeats s.memory a (beats.take accepted)
    | _ => s.memory := by
  unfold State.abandoned
  cases s.path.port with
  | none => rfl
  | some p =>
    obtain ⟨use, burst⟩ := p
    cases burst <;> rfl

/-- After reset no carrier is marked. -/
theorem isNotched_reset (c : Nat) : Applier.reset.isNotched c = false := by
  unfold Applier.isNotched
  rw [show Applier.reset.notchMask = Vector.replicate 48 0 from rfl, tget_replicate]
  exact BitVec.getLsbD_zero

/-- Settles O3: every item at its value in `State.reset`, and the tables entry by entry. -/
theorem hardwareResetState : Obligations.HardwareResetState := by
  intro accepted s
  have hlink : ∀ k, tget State.reset.links Link.free k = Link.free := tget_replicate _
  refine ⟨_, rfl, rfl, rfl, rfl, rfl, rfl, rfl, rfl, rfl, rfl, rfl, rfl, rfl, rfl, rfl, fun k => ?_, tget_replicate _, rfl, rfl, rfl,
    tget_replicate _, tget_replicate _, rfl, rfl, rfl, rfl, rfl, rfl, isNotched_reset, rfl, rfl, rfl, rfl, rfl, rfl, rfl, rfl, rfl,
    abandoned_eq s accepted⟩
  unfold State.link
  rw [hlink]
  exact ⟨rfl, rfl, rfl⟩

/-! ### The part held in reset (R42, R43, log 22) -/

section
variable {s : State} (h : s.inReset = true)
include h

/-- No transaction is presented. -/
theorem present_held (x : Transaction) : present x s = s := by
  unfold present
  rw [h]
  rfl

/-- No transaction is accepted. -/
theorem accepts_held : s.accepts = false := by
  unfold State.accepts
  rw [h]
  rfl

/-- A write is turned away. -/
theorem writeArrival_held (b : WriteBurst) : writeArrival b s = s := by
  unfold writeArrival
  rw [accepts_held h]
  exact present_held h _

/-- A read is turned away. -/
theorem readArrival_held (r : ReadBurst) : readArrival r s = s := by
  unfold readArrival
  rw [accepts_held h]
  exact present_held h _

/-- No burst ends. -/
theorem onBurstDone_held (u : PortUse) (f : List Word → State → State) : onBurstDone u f s = s := by
  unfold onBurstDone
  rw [h]
  rfl

/-- No link acts. -/
theorem startEvent_held (k : Nat) : startEvent k s = s := by
  unfold startEvent
  rw [h]
  rfl

/-- An event that asks for RESET_N deasserted first does nothing. -/
theorem guarded_held (p : Bool) (t : State) : (if !s.inReset && p then t else s) = s := by
  rw [h]
  rfl

/-- No command but a reset row changes the part. -/
theorem exec_held {c : Instr} (hassert : ∀ n, c ≠ .hardwareReset n) (hdeassert : ∀ zc, c ≠ .resetDeassert zc) :
    exec c s = .next s := by
  cases c with
  | hardwareReset n => exact absurd rfl (hassert n)
  | resetDeassert zc => exact absurd rfl (hdeassert zc)
  | aliasRead r | processorRead r => exact congrArg _ (readArrival_held h r)
  | processorBurstDone | captureWindowMiss | sliceBoundary | jobStart => exact congrArg _ (guarded_held h _ _)
  | allocateAfterWait =>
    refine congrArg Host.Outcome.next ?_
    rw [Bool.and_assoc]
    exact guarded_held h _ _
  | zcEdge level =>
    have hsample : s.canSample = false := by
      unfold State.canSample
      rw [h]
      rfl
    refine congrArg Host.Outcome.next ?_
    rw [hsample]
    rfl
  | gatherEnd k | offerExpiry k | flip k => exact congrArg _ (startEvent_held h k)
  | notchReadDone | baseLoadingWriteDone | baseHeaderWriteDone | headerReadDone | snrBurstDone | candidateBurstDone
  | loadingWriteDone | headerWriteDone | noticeWriteDone | endedClientBurstDone => exact congrArg _ (onBurstDone_held h _ _)
  | apply b | withdraw b | linkAdd b | linkRemove b | linkHold b | linkResume b | rebuild b | confirm b | decline b
  | badCodeCommand b | cmdArgWrite b | noticeConsumerWrite b | configWrite b | processorWrite b | discardedWrite b
  | estimateHeaderWrite b | estimateArrival b | descriptorRefCapture b | descriptorNodeCapture b | commit b
  | descriptorDone b | descriptorHostOwned b | descriptorRejected b => exact congrArg _ (writeArrival_held h b)

end

/-- Settles O4: the guard on RESET_N in each command, and the deassertion by its definition. -/
theorem resetHolds : Obligations.ResetHolds := by
  intro s h
  refine ⟨fun c => exec_held h, fun zc => ?_⟩
  show Host.Outcome.next _ = _
  rw [h]
  rfl

/-! ### The state after reset (R42) -/

/-- Every link record is FREE after reset, with change count 0. -/
theorem link_reset (k : Nat) : State.reset.link k = Link.free := tget_replicate _ k

/-- Every slot's record is as reset leaves it. -/
theorem slot_reset (n : Nat) : State.reset.slot n = SlotRec.reset := tget_replicate _ n

/-- Settles O5: the empty tables, entry by entry and by the counts of what names a slot. -/
theorem resetInvariants : Obligations.ResetInvariants := by
  refine ⟨wf_reset, holdsNothing_reset.emptyIfTransparent, (irqOk_iff _).2 rfl, Or.inl rfl, fun k _ => ?_, fun n _ => ?_, fun n _ => ?_,
    fun hf => absurd rfl hf⟩
  · rw [link_reset]
  · rw [slot_reset]
    exact (refs_free n).symm
  · have hpins := pinEnts_empty n
    have hlatches := latchCount_free n
    rw [slot_reset]
    exact (congrArg₂ (· + ·) hpins hlatches).symm

end Sys2Proof.Machine
end

section
/-! PROOFS. The mailbox: its screen, the words it latches, APPLY's checks and acceptance, and WITHDRAW (R29 to R36, R41). -/
namespace Sys2Proof.Machine

/-! ### The screen (R30) -/

/-- The codes of no command. -/
theorem ofCode_none {n : Nat} (h : n = 0 ∨ 9 < n) : Command.ofCode n = none := by
  obtain rfl | ⟨m, rfl⟩ : n = 0 ∨ ∃ m, n = m + 10 := h.imp_right fun h => ⟨n - 10, by omega⟩
  · rfl
  · rfl

/-- A code of no command is refused with BAD_CODE. -/
theorem takeCommand_badCode {x : Word} (h : x.toNat = 0 ∨ 9 < x.toNat) (s : State) : takeCommand x s = respond .badCode 0 s := by
  unfold takeCommand
  rw [ofCode_none h]

/-- A command that the screen refuses answers the screen's code. -/
theorem takeCommand_screened {x : Word} {c : Command} {r : ResultCode} {s : State} (hc : Command.ofCode x.toNat = some c)
    (hr : c.screen s.filter = some r) : takeCommand x s = respond r 0 s := by
  unfold takeCommand
  rw [hc]
  simp only [hr]

/-- A command past the screen is run. -/
theorem takeCommand_run {x : Word} {c : Command} {s : State} (hc : Command.ofCode x.toNat = some c)
    (hr : c.screen s.filter = none) : takeCommand x s = c.run s := by
  unfold takeCommand
  rw [hc]
  simp only [hr]

/-- The commands by their codes from 1 to 9 (12.2). -/
theorem ofCode_cases {n : Nat} (h1 : 1 ≤ n) (h9 : n ≤ 9) :
    ∃ c, Command.ofCode n = some c ∧ (n = 1 ↔ c = .apply) ∧ (n = 2 ↔ c = .withdraw) := by
  interval_cases n
  all_goals exact ⟨_, rfl, by decide, by decide⟩

/-- In TRANSPARENT every command but APPLY is refused with WRONG_STATE (R30). -/
theorem screen_transparent {c : Command} (h : c ≠ .apply) : c.screen .transparent = some .wrongState := by
  cases c with
  | apply => exact absurd rfl h
  | _ => rfl

/-- In APPLYING every command but WITHDRAW is refused with BUSY (R30). -/
theorem screen_applying {c : Command} (h : c ≠ .withdraw) : c.screen .applying = some .busy := by
  cases c with
  | withdraw => exact absurd rfl h
  | _ => rfl

/-- Settles O13: the screen's refusal by filter state; a refusal answers in RESULT alone. -/
theorem mailboxScreen : Obligations.MailboxScreen := by
  intro s b code r hburst hrow
  obtain ⟨-, x, hx, rfl⟩ := id hburst
  have hrefused : takeCommand x (s.afterData b) = respond r 0 (s.afterData b) := by
    rcases hrow with ⟨hcode, rfl⟩ | ⟨hf, hlo, hhi, rfl⟩ | ⟨hf, hcode, hhi, h0, rfl⟩ | ⟨hf, hcode, rfl⟩
    · exact takeCommand_badCode hcode _
    · obtain ⟨c, hc, happly, -⟩ := ofCode_cases (by omega) hhi
      refine takeCommand_screened hc ?_
      rw [afterData_filter, hf]
      exact screen_transparent fun h => by have := happly.2 h; omega
    · obtain ⟨c, hc, -, hwithdraw⟩ := ofCode_cases (by omega) hhi
      refine takeCommand_screened hc ?_
      rw [afterData_filter, hf]
      exact screen_applying fun h => by have := hwithdraw.2 h; omega
    · refine takeCommand_screened (c := .apply) (by rw [hcode]; rfl) ?_
      rw [afterData_filter, hf]
      rfl
  rw [exec_commandBurst hburst hx, hrefused]
  rfl

/-! ### The data words (R29, R177) -/

/-- The notices after the first n words of a mailbox burst whose first word is Anchor word w: NOTICE_CONSUMER written in full moves the
consumer index. -/
def noticesAfter (b : WriteBurst) (w n : Nat) (s : State) : NoticeWriter :=
  if w = 8 ∧ 0 < n ∧ (b.beat 0).isFull = true then (consume (b.beat 0).data s).notices else s.notices

/-- The consumer index moves within the notices. -/
theorem consume_eq (x : Word) (s : State) : consume x s = { s with notices := (consume x s).notices } := by
  unfold consume
  dsimp only
  split <;> rfl

/-- The data words among the first n of a mailbox burst latch the arguments and move the consumer index. -/
theorem mailboxData_take (b : WriteBurst) {w : Nat} (hw : 8 ≤ w) (s : State) (n : Nat) :
    runActs ((List.range n).filterMap fun i =>
      if 8 ≤ w + i ∧ w + i ≤ 11 ∧ (b.beat i).isFull then some (takeMailboxData (w + i) (b.beat i).data) else none) s =
      { s with
        arg0 := headerField b w n 9 s.arg0
        arg1 := headerField b w n 10 s.arg1
        arg2 := headerField b w n 11 s.arg2
        notices := noticesAfter b w n s } := by
  induction n with
  | zero =>
    have hz : ∀ k old, headerField b w 0 k old = old := fun k old => if_neg (by omega)
    simp only [hz, noticesAfter, Nat.lt_irrefl, false_and, and_false, if_false]
    rfl
  | succ n ih =>
    rw [List.range_succ, List.filterMap_append, runActs_append, ih]
    simp only [headerField_succ]
    by_cases hc : 8 ≤ w + n ∧ w + n ≤ 11 ∧ (b.beat n).isFull = true
    · obtain ⟨-, hhi, hf⟩ := hc
      obtain e | e : w + n = 8 ∨ 9 ≤ w + n := by omega
      · obtain ⟨rfl, rfl⟩ : w = 8 ∧ n = 0 := by omega
        have hz : ∀ k old, headerField b 8 0 k old = old := fun k old => if_neg (by omega)
        simpa [hz, noticesAfter, hf, runActs, takeMailboxData] using consume_eq _ s
      · have hn : noticesAfter b w (n + 1) s = noticesAfter b w n s := by
          unfold noticesAfter
          by_cases h0 : n = 0
          · rw [if_neg (by omega), if_neg (by omega)]
          · simp [Nat.pos_of_ne_zero h0]
        obtain e | e | e : w + n = 9 ∨ w + n = 10 ∨ w + n = 11 := by omega
        all_goals simp [e, hf, hn, runActs, takeMailboxData]
    · have out : ∀ k, 9 ≤ k → k ≤ 11 → ¬ (w + n = k ∧ (b.beat n).isFull = true) := by
        rintro k hlo hhi ⟨rfl, hf⟩
        exact hc ⟨by omega, hhi, hf⟩
      have hn : noticesAfter b w (n + 1) s = noticesAfter b w n s := by
        unfold noticesAfter
        by_cases h0 : n = 0
        · subst h0
          rw [if_neg fun h => hc ⟨by omega, by omega, h.2.2⟩, if_neg (by omega)]
        · simp [Nat.pos_of_ne_zero h0]
      simp [hc, hn, out 9, out 10, out 11, runActs]

/-- The notices after a value is written to NOTICE_CONSUMER, spelled: the consumer index, the URGENT count and OVERFLOW (R177). -/
theorem consume_notices (x : Word) (s : State) : (consume x s).notices =
    if x.toNat < s.shadow.entries ∧ (x.toNat + s.shadow.entries - s.notices.consumer) % s.shadow.entries
        ≤ (s.notices.producer + s.shadow.entries - s.notices.consumer) % s.shadow.entries then
      { s.notices with
        consumer := x.toNat
        urgentCount := s.notices.urgentCount -
          ((List.range ((x.toNat + s.shadow.entries - s.notices.consumer) % s.shadow.entries)).filter fun i =>
            tget s.notices.classes .routine ((s.notices.consumer + i) % s.shadow.entries) == .urgent).length
        overflow := false }
    else { s.notices with consumer := s.notices.producer, urgentCount := 0, overflow := false } := by
  unfold consume State.ahead State.unconsumed State.urgentAmong
  dsimp only
  split <;> rfl

/-- The state after the data words of a mailbox burst, with CMD_CODE or without: the words written in full are latched, and the consumer
index is taken (R15, R29, R177). -/
theorem afterData_eq (s : State) {b : WriteBurst} (hlo : 0x108 ≤ b.base) : s.afterData b =
    { s with
      choices := s.choices + 1
      arg0 := (b.fullAt 0x109).getD s.arg0
      arg1 := (b.fullAt 0x10A).getD s.arg1
      arg2 := (b.fullAt 0x10B).getD s.arg2
      notices := match b.fullAt 0x108 with
        | some x => (consume x s).notices
        | none => s.notices } := by
  have hb : b.base = 0x100 + (b.base - 0x100) := by omega
  have harg := fun k old => fullAt_getD hb k old
  have hnotices : noticesAfter b (b.base - 0x100) b.len.words { s with choices := s.choices + 1 } =
      match b.fullAt 0x108 with
      | some x => (consume x s).notices
      | none => s.notices := by
    unfold noticesAfter
    by_cases h8 : b.base = 0x108
    · have hx := fullAt_covered b (i := 0) (words_pos _)
      rw [Nat.add_zero, h8] at hx
      rw [h8, hx]
      by_cases hf : (b.beat 0).isFull = true
      · rw [if_pos hf, if_pos ⟨rfl, words_pos _, hf⟩, consume_notices]
        exact (consume_notices _ s).symm
      · rw [if_neg hf, if_neg fun h => hf h.2.2]
    · rw [fullAt_outside b (by omega), if_neg (by omega)]
  unfold State.afterData mailboxData
  rw [mailboxData_take b (by omega), hnotices, ← harg, ← harg, ← harg]

/-- A burst that waits for the memory-side port goes on waiting, or is granted it. -/
theorem settle_waiting {s : State} {m : MemBurst} (h : s.path.waiting = some m) :
    (settle s).path.waiting = some m ∨ (settle s).path.port = some ⟨.processor, m⟩ := by
  have hw : (clearWait (formNotice (decideIrq s))).path.waiting = some m := h
  unfold settle
  generalize clearWait (formNotice (decideIrq s)) = u at hw
  unfold arbitrate
  rw [hw]
  dsimp only
  split
  · exact Or.inl hw
  · split
    · left
      unfold grantInternal
      split <;> exact hw
    · exact Or.inr rfl

/-- A mailbox burst without a command word: its data words are taken, and it passes. -/
theorem writeArrival_data {s : State} {b : WriteBurst} (h : MailboxBurst s b) (hcode : b.fullAt 0x10C = none) :
    writeArrival b s = passOn b (s.afterData b) := by
  have ⟨hacc, hlo, _, _⟩ := h
  rw [writeArrival_accepts b hacc, takeWrite_mailbox h, codeWord_eq (by omega), hcode]
  rfl

/-- Settles O25: the state after the data words, which the burst's passing leaves but for NOTE_IRQ, the ready bursts and the path. -/
theorem argumentsLatched : Obligations.ArgumentsLatched := by
  intro s b hburst
  have hdata := afterData_eq s hburst.2.1
  refine ⟨fun hcode => ⟨passOn b (s.afterData b), congrArg Host.Outcome.next (writeArrival_data hburst hcode), ?_⟩, _, ?_, ?_, hdata⟩
  · have hwait := settle_waiting (s := forward (.write b.base b.words) (s.afterData b)) rfl
    unfold passOn SameTracker SamePool SameIntake SameApplier SameMemory SameNotices
    rw [hdata] at hwait ⊢
    refine ⟨by simp, by simp, by simp, by simp, by simp, by simp, by simp, by simp, by simp, by simp, by simp, by simp, fun hnone => ?_,
      hwait⟩
    simp [hnone]
  · intro hnone
    rw [hnone]
  · rintro x d unconsumed hx rfl rfl
    rw [hx]
    exact consume_notices x s

end Sys2Proof.Machine
end

section
/-! PROOFS. Start-up by the mailbox: the configuration words, APPLY's checks and acceptance, and WITHDRAW (R24, R27, R33 to R36, R41). -/
namespace Sys2Proof.Machine

/-! ### WITHDRAW (R24, R41) -/

/-- What follows an event in an empty part leaves a held port as it is. -/
theorem State.HoldsNothing.settle_path_held {s : State} (h : s.HoldsNothing) {p : PortBurst} (hp : s.path.port = some p) :
    (Machine.settle s).path = s.path := by
  rw [h.settle_eq, arbitrate_held (by rw [decideIrq_path, hp]; rfl), decideIrq_path]

/-- What follows an event in an empty part grants a FREE port to the processor's burst that waits. -/
theorem State.HoldsNothing.settle_path_free {s : State} (h : s.HoldsNothing) {m : MemBurst} (hp : s.path.port = none)
    (hw : s.path.waiting = some m) : (Machine.settle s).path.port = some ⟨.processor, m⟩ ∧ (Machine.settle s).path.waiting = none := by
  have hd : (decideIrq s).HoldsNothing := { h with }
  rw [h.settle_eq, arbitrate_processor (s := decideIrq s) hp hw (Or.inl hd.requesterWaits)]
  exact ⟨rfl, rfl⟩

/-- Every link record of an empty part is FREE. -/
theorem State.HoldsNothing.link {s : State} (h : s.HoldsNothing) (k : Nat) : s.link k = Link.free := by
  unfold State.link
  rw [h.links, tget_replicate]

/-- Every header shadow of an empty part is empty. -/
theorem State.HoldsNothing.headerOf {s : State} (h : s.HoldsNothing) (r : Nat) : s.headerOf r = HeaderShadow.empty := by
  unfold State.headerOf
  rw [h.headers, tget_replicate]

/-- Every pin table entry of an empty part is empty. -/
theorem State.HoldsNothing.pinEntry {s : State} (h : s.HoldsNothing) (i : Nat) : s.pinEntry i = PinEntry.empty := by
  unfold State.pinEntry
  rw [h.pinTable, tget_replicate]

/-- A burst that is not the processor's is an internal one. -/
theorem isInternal_of_ne {u : PortUse} (h : u ≠ .processor) : u.isInternal = true := by
  cases u with
  | processor => exact absurd rfl h
  | _ => rfl

/-- A WITHDRAW burst outside TRANSPARENT: WITHDRAW's acceptance after the data words, and the burst passes. -/
theorem exec_withdraw {s : State} {b : WriteBurst} (h : CommandBurst s b 2) (hf : s.filter ≠ .transparent) :
    exec (.withdraw b) s = .next (passOn b (withdrawCommand (s.afterData b))) := by
  obtain ⟨x, hx, hc⟩ := h.2
  have hscreen : Command.withdraw.screen (s.afterData b).filter = none := by
    rw [afterData_filter]
    cases hs : s.filter with
    | transparent => exact absurd hs hf
    | applying | operating => rfl
  have hrun := takeCommand_run (s := s.afterData b) (c := .withdraw) (x := x) (by rw [hc]; rfl) hscreen
  exact (exec_commandBurst h hx).trans (by rw [hrun]; rfl)

/-- NOTE_IRQ is deasserted in TRANSPARENT (R178). -/
theorem irqLevel_transparent {s : State} (h : s.filter = .transparent) : s.irqLevel = false := by
  rw [← Bool.not_eq_true, irqLevel_iff, h]
  rintro ⟨-, hf, -⟩
  cases hf

/-- Settles O15: the part is empty after the command, so that what follows it decides NOTE_IRQ, and the port for the burst alone. -/
theorem withdrawAccepted : Obligations.WithdrawAccepted := by
  intro s b hburst hf
  obtain ⟨-, hwaiting, hport⟩ := (accepts_iff s).1 hburst.1.1
  obtain ⟨u, hu⟩ : ∃ u, u = forward (.write b.base b.words) (withdrawCommand (s.afterData b)) := ⟨_, rfl⟩
  have hpath : u.path.port = (s.path.port).map fun p => if p.use.isInternal then { p with use := .ended } else p := by
    rw [hu, ← afterData_path s b]
    rfl
  have hwaits : u.path.waiting = some (.write b.base b.words) := by rw [hu]; rfl
  have hempty : u.HoldsNothing := by
    rw [hu]
    exact (withdraw_holdsNothing (s.afterData b)).withPath rfl (withdraw_holdsNothing (s.afterData b)).port
  have hafter := hempty.settle
  have hfilter : u.filter = .transparent := by rw [hu]; rfl
  refine ⟨settle u, (exec_withdraw hburst hf).trans (by rw [hu]; rfl), by rw [settle_filter, hfilter], ?_, by rw [settle_arg0, hu]; rfl,
    by rw [settle_arg1, hu]; rfl, by rw [settle_arg2, hu]; rfl, ?_, hafter.tracker, hafter.link, hafter.pool, hafter.buildQueue,
    hafter.engine, hafter.headerOf, hafter.pinEntry, hafter.notices, by rw [settle_noteIrq, irqLevel_transparent hfilter],
    hafter.applier, hafter.wait, ?_, ?_, ?_⟩
  · rw [settle_result, hu, ← afterData_result s b]
    rfl
  · rw [settle_shadow, hu, ← afterData_shadow s b]
    rfl
  · cases hp : s.path.port with
    | some p =>
      have huse : p.use ≠ .processor := fun h => hport p.burst (by rw [hp, ← h])
      rw [hp, Option.map_some, if_pos (isInternal_of_ne huse)] at hpath
      rw [hempty.settle_path_held hpath]
      exact ⟨hpath, hwaits⟩
    | none =>
      rw [hp] at hpath
      exact hempty.settle_path_free hpath hwaits
  · intro k
    rw [settle_memory, hu, ← afterData_memory s b]
    rfl
  · rw [settle_tick, hu, ← afterData_tick s b]
    rfl

/-! ### Configuration words (R27, log 1) -/

/-- Lane i of a word put together from its four lanes. -/
theorem lane_append {i : Nat} (hi : i < 4) (b3 b2 b1 b0 : Byte) : (b3 ++ b2 ++ b1 ++ b0).extractLsb' (8 * i) 8 =
    match i with
    | 0 => b0
    | 1 => b1
    | 2 => b2
    | _ => b3 := by
  apply BitVec.eq_of_getLsbD_eq
  intro j hj
  obtain rfl | rfl | rfl | rfl : i = 0 ∨ i = 1 ∨ i = 2 ∨ i = 3 := by omega
  all_goals simp only [BitVec.getLsbD_extractLsb', BitVec.getLsbD_append, hj, decide_true, Bool.true_and]
  · simp [hj]
  · simp [hj, show ¬ 8 * 1 + j < 8 by omega, show 8 * 1 + j - 8 = j by omega]
  · simp [hj, show ¬ 8 * 2 + j < 8 by omega, show ¬ 8 * 2 + j - 8 < 8 by omega, show 8 * 2 + j - 8 - 8 = j by omega]
  · simp [show ¬ 8 * 3 + j < 8 by omega, show ¬ 8 * 3 + j - 8 < 8 by omega, show ¬ 8 * 3 + j - 8 - 8 < 8 by omega,
      show 8 * 3 + j - 8 - 8 - 8 = j by omega]

/-- Byte lane i of a merged word: the beat's byte where its enable is set, else the old word's. -/
theorem merge_lane (x : Beat) (old : Word) {i : Nat} (hi : i < 4) : (x.merge old).extractLsb' (8 * i) 8 =
    if x.be.getLsbD i = true then x.data.extractLsb' (8 * i) 8 else old.extractLsb' (8 * i) 8 := by
  unfold Beat.merge
  rw [lane_append hi]
  obtain rfl | rfl | rfl | rfl : i = 0 ∨ i = 1 ∨ i = 2 ∨ i = 3 := by omega
  all_goals rfl

/-- Anchor word a of the shadow after a configuration write whose first word is Anchor word w. -/
theorem word_shadowWrite (b : WriteBurst) (w : Nat) (s : State) {a : Nat} (hlo : 16 ≤ a) (hhi : a < 48) :
    (shadowWrite b w s).shadow.word a =
      if w ≤ a ∧ a < w + b.len.words then (b.beat (a - w)).merge (s.shadow.word a) else s.shadow.word a := by
  have ha : a - 16 + 16 = a := by omega
  show tget (tmapIdx _ s.shadow) 0 (a - 16) = _
  rw [tget_tmapIdx _ _ 0 _ (by omega)]
  simp only [ha]
  rfl

/-- A configuration write in TRANSPARENT is written into the shadow, and passes. -/
theorem takeWrite_config {s : State} {b : WriteBurst} (hf : s.filter = .transparent) (hlo : 0x110 ≤ b.base) (hhi : b.base < 0x130) :
    takeWrite b s = forward (.write b.base b.words) (shadowWrite b (b.base - 0x100) s) := by
  unfold takeWrite
  rw [place_anchor s (by omega) (by omega)]
  simp only [show ¬ b.base - 0x100 < 8 by omega, show ¬ b.base - 0x100 < 16 by omega, show b.base - 0x100 < 48 by omega, hf, if_true,
    if_false]

/-- Settles O28: the shadow after the write, word by word and lane by lane. -/
theorem configShadowed : Obligations.ConfigShadowed := by
  intro s b hacc hf hlo hhi
  refine ⟨(shadowWrite b (b.base - 0x100) s).shadow, ?_, fun a i ha ha' hi => ?_⟩
  · show Host.Outcome.next (writeArrival b s) = _
    rw [writeArrival_accepts b hacc, takeWrite_config hf hlo hhi]
    rfl
  · rw [word_shadowWrite b _ s ha ha']
    unfold WriteBurst.beatAt
    by_cases hc : b.base ≤ 0x100 + a ∧ 0x100 + a < b.base + b.len.words
    · rw [if_pos hc, if_pos (by omega), merge_lane _ _ hi, show a - (b.base - 0x100) = 0x100 + a - b.base by omega]
    · rw [if_neg hc, if_neg (by omega)]

/-! ### The parameters over the configuration words (R181) -/

/-- A field of one bit, as a flag. -/
theorem bits_one (x : Word) (lo : Nat) : (bits x lo 1 == 1) = x.getLsbD lo := by
  have hbit : x.extractLsb' lo 1 = BitVec.ofBool (x.getLsbD lo) := by
    apply BitVec.eq_of_getLsbD_eq
    intro i hi
    obtain rfl : i = 0 := by omega
    simp
  unfold bits
  rw [hbit]
  cases x.getLsbD lo <;> rfl

/-- The thresholds stand four to a word, from Anchor word 27 on. -/
theorem threshold_eq (c : Shadow) {i : Nat} (j : Nat) (hi : i < 4) : c.threshold (1 + 4 * j + i) = bits (c.word (27 + j)) (8 * i) 8 := by
  unfold Shadow.threshold
  rw [show (1 + 4 * j + i - 1) / 4 = j by omega, show (1 + 4 * j + i - 1) % 4 = i by omega]

/-- Every parameter is its field of its configuration word. -/
theorem fieldsOfWords (c : Shadow) : FieldsOfWords c := by
  intro W hW
  have hword : ∀ a, 16 ≤ a → a < 48 → W a = c.word a := fun a ha ha' => by
    have h := hW (a - 16) (by omega)
    rwa [show 16 + (a - 16) = a by omega] at h
  simp (disch := decide) only [hword]
  exact ⟨rfl, rfl, rfl, rfl, rfl, rfl, rfl, rfl, rfl, rfl, rfl, rfl, rfl, rfl, rfl, fun i hi => ⟨threshold_eq c 0 hi, threshold_eq c 1 hi⟩,
    rfl, rfl, rfl, rfl, rfl, rfl, rfl, rfl, rfl, rfl, rfl, rfl, rfl, rfl, bits_one _ 24⟩

/-! ### APPLY's checks (R34, R35) -/

/-- A number lies in a closed range. -/
theorem within_iff (lo hi n : Nat) : within lo hi n = true ↔ lo ≤ n ∧ n ≤ hi := by simp [within]

/-- Check 2: the bases are multiples of 64, NOTCH_ADDR of 8, and every region lies in memory. -/
theorem check_two (c : Shadow) : c.check 2 = true ↔ CheckSpelled c 2 := by
  have hregions : c.regions.tail = c.placedRegions := rfl
  simp only [Shadow.check, CheckSpelled, hregions, List.all_cons, List.all_nil, Bool.and_true, Bool.and_eq_true, beq_iff_eq,
    List.all_eq_true, decide_eq_true_eq, and_assoc]

/-- Check 3: no two of the eight regions share a word. -/
theorem check_three (c : Shadow) : c.check 3 = true ↔ CheckSpelled c 3 := by
  show pairwiseDisjoint ((0x100, 64) :: c.placedRegions) = true ↔ _
  rw [pairwiseDisjoint_iff]
  simp only [inWindow_iff, and_assoc, CheckSpelled]

/-- Check 7: the thresholds are strictly ascending. -/
theorem check_seven (c : Shadow) : c.check 7 = true ↔ CheckSpelled c 7 := by
  show c.thresholdsAscend = true ↔ _
  unfold Shadow.thresholdsAscend
  simp only [List.all_eq_true, List.mem_range'_1, decide_eq_true_eq, CheckSpelled]
  exact ⟨fun h b h1 h2 => h b ⟨h1, h2⟩, fun h b hb => h b hb.1 hb.2⟩

/-- Every check is what it asks of the parameters. -/
theorem check_iff (c : Shadow) {i : Nat} (h1 : 1 ≤ i) (h15 : i ≤ 15) : c.check i = true ↔ CheckSpelled c i := by
  obtain rfl | rfl | rfl | hrange : i = 2 ∨ i = 3 ∨ i = 7 ∨ i ≠ 2 ∧ i ≠ 3 ∧ i ≠ 7 := by omega
  · exact check_two c
  · exact check_three c
  · exact check_seven c
  · interval_cases i
    all_goals simp only [Shadow.check, CheckSpelled, within_iff, Bool.and_eq_true, beq_iff_eq]
    all_goals omega

/-- The first check that fails, where all before it pass (R33). -/
theorem firstFailing_some {c : Shadow} {i : Nat} (h1 : 1 ≤ i) (h15 : i ≤ 15) (hi : c.check i = false)
    (hbefore : ∀ j, 1 ≤ j → j < i → c.check j = true) : c.firstFailing = some i := by
  unfold Shadow.firstFailing
  rw [List.find?_range'_eq_some]
  refine ⟨by rw [hi]; rfl, by simp only [List.mem_range'_1]; omega, fun j hj hji => by rw [hbefore j hj hji]; rfl⟩

/-- No check fails, where all fifteen pass. -/
theorem firstFailing_none {c : Shadow} (h : ∀ j, 1 ≤ j → j ≤ 15 → c.check j = true) : c.firstFailing = none := by
  unfold Shadow.firstFailing
  rw [List.find?_eq_none]
  intro j hj
  obtain ⟨h1, h15⟩ := List.mem_range'_1.1 hj
  rw [h j h1 (by omega)]
  decide

/-! ### APPLY (R33, R36) -/

/-- An APPLY burst in TRANSPARENT: APPLY after the data words, and the burst passes. -/
theorem exec_apply {s : State} {b : WriteBurst} (h : CommandBurst s b 1) (hf : s.filter = .transparent) :
    exec (.apply b) s = .next (passOn b (applyCommand (s.afterData b))) := by
  obtain ⟨x, hx, hc⟩ := h.2
  have hrun := takeCommand_run (s := s.afterData b) (c := .apply) (x := x) (by rw [hc]; rfl) (by rw [afterData_filter, hf]; rfl)
  exact (exec_commandBurst h hx).trans (by rw [hrun]; rfl)

/-- APPLY with a check that fails. -/
theorem applyCommand_fails {s : State} {i : Nat} (h : s.shadow.firstFailing = some i) : applyCommand s = respond .badConfig i s := by
  unfold applyCommand
  rw [h]

/-- APPLY with every check passed. -/
theorem applyCommand_accepts {s : State} (h : s.shadow.firstFailing = none) : applyCommand s = respond .ok 0 (acceptApply s) := by
  unfold applyCommand
  rw [h]

/-- Settles O14: the parameters and the checks spelled, and APPLY by the first check that fails, or none. -/
theorem applyTaken : Obligations.ApplyTaken := by
  refine ⟨fun c => ⟨fieldsOfWords c, fun i => check_iff c⟩, fun s b hburst hf => ⟨fun i h1 h15 hi hbefore => ?_, fun hall => ?_⟩⟩
  · have hfail := firstFailing_some h1 h15 hi hbefore
    rw [← afterData_shadow s b] at hfail
    rw [exec_apply hburst hf, applyCommand_fails hfail]
    rfl
  · have hpass := firstFailing_none hall
    rw [← afterData_shadow s b] at hpass
    rw [exec_apply hburst hf, applyCommand_accepts hpass]
    simp only [respond, acceptApply, Tracker.applied, Shadow.applierStarted, Shadow.notchBurst, notchBurstLen, poolApplied, Pool.reset,
      afterData_shadow, afterData_tracker, afterData_result, Nat.zero_add, Nat.add_zero]
    rfl

end Sys2Proof.Machine
end

section
/-! PROOFS. The Apply Reader and the Base Writer: the notch list, the Base Map's bursts, and OPERATING (R37 to R39, R97, R182). -/
namespace Sys2Proof.Machine

/-! ### The notch mask (R37) -/

/-- The mask after words are copied into it from word i on. -/
theorem copyWords_mask (ws : List Word) (a : Applier) (i : Nat) {j : Nat} (hj : j < 48) :
    tget (a.copyWords i ws).notchMask 0 j = if i ≤ j ∧ j < i + ws.length then ws.getD (j - i) 0 else tget a.notchMask 0 j := by
  induction ws generalizing a i with
  | nil => rw [if_neg (by simp only [List.length_nil]; omega)]; rfl
  | cons w ws ih =>
    rw [Applier.copyWords, ih, tget_tset, List.length_cons]
    by_cases hhead : i = j
    · subst hhead
      rw [if_neg (by omega), if_pos ⟨rfl, hj⟩, if_pos ⟨Nat.le_refl i, by omega⟩, Nat.sub_self, List.getD_cons_zero]
    · rw [if_neg (c := i = j ∧ j < 48) fun h => hhead h.1]
      by_cases htail : i + 1 ≤ j ∧ j < i + 1 + ws.length
      · rw [if_pos htail, if_pos ⟨by omega, by omega⟩, show j - i = j - (i + 1) + 1 by omega, List.getD_cons_succ]
      · rw [if_neg htail, if_neg fun h => htail ⟨by omega, by omega⟩]

/-- The copying of words changes the mask alone. -/
theorem copyWords_phase (ws : List Word) (a : Applier) (i : Nat) : (a.copyWords i ws).phase = a.phase := by
  obtain ⟨_, h⟩ := copyWords_frame ws a i
  rw [h]

/-- A word of a read burst's data. -/
theorem readWords_getD (m : Memory) (a n : Nat) {i : Nat} (hi : i < n) : (readWords m a n).getD i 0 = readWord m (a + i) := by
  simp [readWords, hi]

/-- A read burst returns its words. -/
theorem readWords_length (m : Memory) (a n : Nat) : (readWords m a n).length = n := by simp [readWords]

/-- The Base Map's words hold B for a carrier that the mask does not mark, and 0 for one that it does (R38, R97). -/
theorem baseMapWords (s : State) : BaseMapWords s.applier.notchMask s.shadow.baseBits s.baseWord := fun j _ hc => baseWord_place s j hc

/-- The end of a burst of the Apply Reader or Base Writer, whose event leaves the Link Table. -/
theorem onPort_done_links {u : PortUse} {m : MemBurst} {f : List Word → State → State} {s : State} (h : OnPort s u m)
    (hf : ∀ ws v, (f ws v).links = v.links) : onBurstDone u f s =
      settle (f (m.dataFrom s.memory) { s with memory := m.applyTo s.memory, path := { s.path with port := none } }) := by
  rw [onPort_done h, counting_eq (hf _ _)]

/-- The Apply Reader leaves the Link Table. -/
theorem notchRead_links (ws : List Word) (s : State) : (notchRead ws s).links = s.links := by
  unfold notchRead startBase
  dsimp only
  split <;> rfl

/-- The Apply Reader after a burst's words: the mask, and the place of the next. -/
def Applier.read (a : Applier) (ws : List Word) : Applier := { a.copyWords a.pos ws with pos := a.pos + ws.length }

/-- A burst that leaves words of the notch list to read: the next is made ready. -/
theorem notchRead_next {ws : List Word} {s : State} (h : s.applier.pos + ws.length < s.shadow.carriers / 32) : notchRead ws s =
    { s with applier := { s.applier.read ws with ready := some (s.shadow.notchBurst (s.applier.pos + ws.length)) } } := by
  unfold notchRead
  simp only [if_pos h]
  rfl

/-- The last burst of the notch list: the Base Writer begins. -/
theorem notchRead_last {ws : List Word} {s : State} (h : s.shadow.carriers / 32 ≤ s.applier.pos + ws.length) : notchRead ws s =
    startBase { s with applier := s.applier.read ws } := by
  unfold notchRead
  simp only [if_neg (Nat.not_lt.2 h)]
  rfl

/-- The burst of loading words 8i to 8i + 7 of slot 0, with every byte enabled. -/
theorem baseLoadingBurst_eq (s : State) (i : Nat) : s.baseLoadingBurst i =
    ⟨.baseLoading, .write (s.shadow.poolBase + (8 + 8 * i)) ((List.range 8).map fun j => ⟨s.baseWord (8 * i + j), 15⟩)⟩ := by
  unfold State.baseLoadingBurst Shadow.slotWord
  rw [Nat.zero_mul, Nat.add_zero]
  rfl

/-- The Base Writer's first burst, of the Base Map's first eight loading words. -/
theorem startBase_ready (s : State) : ∃ w : Nat → Word, BaseMapWords s.applier.notchMask s.shadow.baseBits w
    ∧ (startBase s).applier.ready = some ⟨.baseLoading, .write (s.shadow.poolBase + 8) ((List.range 8).map fun i => ⟨w i, 15⟩)⟩ := by
  refine ⟨_, baseMapWords { s with applier := { s.applier with
    notched := s.applier.countNotched s.shadow.carriers, phase := .loading, pos := 0 } }, ?_⟩
  refine congrArg some ((baseLoadingBurst_eq _ 0).trans ?_)
  simp only [Nat.mul_zero, Nat.add_zero, Nat.zero_add]

/-- Settles O52: the mask word by word, and what is made ready while words remain, and after the last. -/
theorem notchListRead : Obligations.NotchListRead := by
  intro s a n hport
  obtain ⟨ws, hws⟩ : ∃ ws, ws = readWords s.memory a n := ⟨_, rfl⟩
  have hlen : ws.length = n := by rw [hws, readWords_length]
  have hdone := onPort_done_links hport notchRead_links
  rw [show (MemBurst.read a n).dataFrom s.memory = ws from hws.symm] at hdone
  obtain ⟨mask, hmask⟩ : ∃ mask, mask = (s.applier.read ws).notchMask := ⟨_, rfl⟩
  have hwords : ∀ i, i < 48 → tget mask 0 i =
      if s.applier.pos ≤ i ∧ i < s.applier.pos + n then readWord s.memory (a + (i - s.applier.pos)) else tget s.applier.notchMask 0 i := by
    intro i hi
    rw [hmask, Applier.read, copyWords_mask ws s.applier s.applier.pos hi, hlen]
    by_cases hc : s.applier.pos ≤ i ∧ i < s.applier.pos + n
    · rw [if_pos hc, if_pos hc, hws, readWords_getD _ _ _ (by omega)]
    · rw [if_neg hc, if_neg hc]
  by_cases hmore : s.applier.pos + n < s.shadow.carriers / 32
  · have hread := notchRead_next (ws := ws) (s := { s with path := { s.path with port := none } }) (by rw [hlen]; exact hmore)
    refine ⟨mask, _, congrArg Host.Outcome.next (hdone.trans (congrArg settle hread)), hwords, hmask.symm, fun _ => ⟨?_, ?_, ?_⟩,
      fun h => absurd hmore (Nat.not_lt.2 h)⟩
    · exact congrArg _ hlen
    · exact copyWords_phase ws s.applier s.applier.pos
    · show some (s.shadow.notchBurst (s.applier.pos + ws.length)) = _
      rw [hlen]
      rfl
  · have hread := notchRead_last (ws := ws) (s := { s with path := { s.path with port := none } })
      (by rw [hlen]; exact Nat.not_lt.1 hmore)
    refine ⟨mask, _, congrArg Host.Outcome.next (hdone.trans (congrArg settle hread)), hwords, hmask.symm, fun h => absurd h hmore,
      fun _ => ⟨rfl, rfl, ?_, ?_⟩⟩
    · rw [hmask]
      rfl
    · rw [hmask]
      exact startBase_ready { s with path := { s.path with port := none }, applier := s.applier.read ws }

/-! ### The Base Writer (R38, R39) -/

/-- A fixed field of the slot header that is 0. -/
theorem put_zero (lo w : Nat) : put lo w 0 = 0 := by
  unfold put
  rw [Nat.zero_mod, Nat.zero_mul]
  rfl

/-- A field of 16 bits in the low half of a word. -/
theorem put_low (n : Nat) : put 0 16 n = BitVec.ofNat 32 (n % 65536) := by
  unfold put
  rw [Nat.pow_zero, Nat.mul_one]
  rfl

/-- The Base Writer's header burst, word by word (R98). -/
theorem baseHeaderBurst_eq (s : State) : s.baseHeaderBurst = ⟨.baseHeader, .write s.shadow.poolBase
    ([0, 0, 0, 0, BitVec.ofNat 32 (s.baseTotal % 65536), BitVec.ofNat 32 (s.shadow.carriers % 65536), sumWords s.baseWords, 0].map
      fun x => ⟨x, 15⟩)⟩ := by
  unfold State.baseHeaderBurst Shadow.slotWord headerWords
  rw [Nat.zero_mul, Nat.add_zero, put_zero, put_low, put_low]
  rfl

/-- A loading-word burst that leaves words of the Base Map to write: the next is made ready. -/
theorem baseLoadingWritten_next {s : State} (h : s.applier.pos + 1 < s.shadow.carriers / 64) : baseLoadingWritten s =
    { s with applier := { s.applier with pos := s.applier.pos + 1, ready := some (s.baseLoadingBurst (s.applier.pos + 1)) } } := by
  unfold baseLoadingWritten
  simp only [if_pos h]

/-- The last loading-word burst: the header is formed. -/
theorem baseLoadingWritten_last {s : State} (h : s.shadow.carriers / 64 ≤ s.applier.pos + 1) : baseLoadingWritten s = formBaseHeader s := by
  unfold baseLoadingWritten
  simp only [if_neg (Nat.not_lt.2 h)]

/-- The Base Writer leaves the Link Table. -/
theorem baseLoadingWritten_links (s : State) : (baseLoadingWritten s).links = s.links := by
  unfold baseLoadingWritten
  dsimp only
  split <;> rfl

/-- Settles O53: the loading words of the Base Map, and each burst's end by what is left to write. -/
theorem baseMapWritten : Obligations.BaseMapWritten := by
  intro s m
  refine ⟨s.baseWord, baseMapWords s, fun hport hmore => ?_, fun total sum hport hlast htotal hsum => ?_, fun hport => ?_⟩
  · refine congrArg Host.Outcome.next ((onPort_done_links hport fun _ => baseLoadingWritten_links).trans (congrArg settle ?_))
    rw [baseLoadingWritten_next (by exact hmore), baseLoadingBurst_eq]
    rfl
  · refine congrArg Host.Outcome.next ((onPort_done_links hport fun _ => baseLoadingWritten_links).trans (congrArg settle ?_))
    have hsum' : sumWords s.baseWords = sum := by rw [hsum, sumWords_foldr]; rfl
    rw [baseLoadingWritten_last (by exact hlast), htotal, ← hsum']
    unfold formBaseHeader
    rw [baseHeaderBurst_eq]
    rfl
  · exact congrArg Host.Outcome.next (onPort_done_links hport fun _ _ => rfl)

end Sys2Proof.Machine
end

section
/-! PROOFS. The step on an empty queue, and the Mains Tracker short of the loss: the slice boundaries, the edges in SEARCH, and the half-cycle
starts of an acquired lock and of a missed window (R43, R46 to R49, R53, R55, R57 to R59, R117, R143). -/
namespace Sys2Proof.Machine

/-! ### What is due at a tick (R50, R59, R117) -/

/-- A capture window has been missed, spelled. -/
theorem missDue_iff (s : State) : s.missDue = true ↔ (s.tracker.state = .locked ∨ s.tracker.state = .holdover)
    ∧ s.tracker.lastStart + s.tracker.period + s.shadow.tolerance < s.tick := by
  rw [State.missDue, Bool.and_eq_true, isLocked_iff, decide_eq_true_eq, Tracker.predicted]

/-- A slice boundary has come, spelled. -/
theorem boundaryDue_iff (s : State) : s.boundaryDue = true ↔ (s.tracker.state = .locked ∨ s.tracker.state = .holdover)
    ∧ ∃ c offset, s.tracker.slice = some c ∧ s.tracker.boundaries[c]? = some offset ∧ s.tracker.lastStart + offset ≤ s.tick := by
  rw [State.boundaryDue, Bool.and_eq_true, isLocked_iff]
  refine and_congr_right fun _ => ?_
  cases hslice : s.tracker.slice with
  | none => simp
  | some c => cases hoffset : s.tracker.boundaries[c]? <;> simp [hoffset]

/-- A job start is due, spelled. -/
theorem jobDue_iff (s : State) : s.jobDue = true ↔ s.engine.job = none ∧ s.buildQueue ≠ [] := by
  simp [State.jobDue]

/-! ### The step (log 4, 24, 25) -/

/-- With a command in front the step is the command's meaning on the queue's rest. -/
theorem step_front {s : State} {c : Instr} {rest : List Instr} (h : s.pending = c :: rest) :
    step s = exec c { s with pending := rest } := by
  unfold step
  rw [h]

/-- On an empty queue the step is the idle step. -/
theorem step_empty {s : State} (h : s.pending = []) : step s = .next (idle s) := by
  unfold step
  rw [h]

/-- While RESET_N is asserted an idle step lets a tick pass. -/
theorem idle_held {s : State} (hr : s.inReset = true) : idle s = { s with tick := s.tick + 1 } := by
  unfold idle
  rw [if_pos hr]

section
variable {s : State} (hr : s.inReset = false)
include hr

/-- A boundary that has come is taken first. -/
theorem idle_boundary (hb : s.boundaryDue = true) : .next (idle s) = exec .sliceBoundary s := by
  have hexec : exec .sliceBoundary s = .next { s with tracker := { s.tracker with slice := s.tracker.slice.map (· + 1) } } :=
    congrArg Host.Outcome.next (if_pos (by rw [hr, hb]; rfl))
  rw [hexec]
  simp [idle, hr, hb]

/-- A window that has passed is taken next. -/
theorem idle_miss (hb : ¬ s.boundaryDue = true) (hm : s.missDue = true) : .next (idle s) = exec .captureWindowMiss s := by
  have hexec : exec .captureWindowMiss s = .next (settle (counting missWindow s)) :=
    congrArg Host.Outcome.next (if_pos (by rw [hr, hm]; rfl))
  rw [hexec]
  simp [idle, hr, hb, hm]

/-- The act of the first link that owes one is taken next. -/
theorem idle_owed (hb : ¬ s.boundaryDue = true) (hm : ¬ s.missDue = true) {k : Nat} {rest : List Nat} (ho : s.owed = k :: rest) :
    idle s = startEvent k s := by
  simp [idle, hr, hb, hm, ho]

/-- A job start is taken last. -/
theorem idle_job (hb : ¬ s.boundaryDue = true) (hm : ¬ s.missDue = true) (ho : s.owed = []) (hj : s.jobDue = true) :
    .next (idle s) = exec .jobStart s := by
  have hexec : exec .jobStart s = .next (settle (startJob s)) := congrArg Host.Outcome.next (if_pos (by rw [hr, hj]; rfl))
  rw [hexec]
  simp [idle, hr, hb, hm, ho, hj]

/-- With nothing due a tick passes. -/
theorem idle_tick (hb : ¬ s.boundaryDue = true) (hm : ¬ s.missDue = true) (ho : s.owed = []) (hj : ¬ s.jobDue = true) :
    idle s = { s with tick := s.tick + 1 } := by
  simp [idle, hr, hb, hm, ho, hj]

end

/-- Settles O1: the command in front, or the idle step by the first event that is due. -/
theorem stepTakesFront : Obligations.StepTakesFront := by
  refine ⟨fun c rest s h => step_front h, fun s hq => ?_⟩
  rw [step_empty hq]
  refine ⟨fun hr => by rw [idle_held hr], fun boundary missed hr hboundary hmissed => ?_⟩
  rw [← boundaryDue_iff] at hboundary
  rw [← missDue_iff] at hmissed
  rw [hboundary, hmissed]
  refine ⟨idle_boundary hr, idle_miss hr, fun hb hm k rest ho => ?_, fun hb hm ho hj hbq => ?_, fun hb hm ho hj => ?_⟩
  · rw [idle_owed hr hb hm ho]
    exact ⟨rfl, rfl, rfl⟩
  · exact idle_job hr hb hm ho ((jobDue_iff s).2 ⟨hj, hbq⟩)
  · rw [idle_tick hr hb hm ho]
    rw [jobDue_iff]
    tauto

/-! ### Slice boundaries (R58, R59) -/

/-- Boundary k lies at k × PERIOD_EST / S. -/
theorem boundariesOf_get (period : Nat) {slices k : Nat} (h1 : 1 ≤ k) (hk : k < slices) :
    (boundariesOf period slices)[k - 1]? = some (k * period / slices) := by
  simp [boundariesOf, show k - 1 < slices - 1 by omega, show 1 + (k - 1) = k by omega]

/-- Settles O38: the list of boundaries, and the boundary's row by whether it is due. -/
theorem boundaryPasses : Obligations.BoundaryPasses := by
  refine ⟨fun period slices k => boundariesOf_get period, fun s c offset hr hst hc ho => ⟨fun hdue => ?_, fun hearly => ?_⟩⟩
  · have hb : s.boundaryDue = true := (boundaryDue_iff s).2 ⟨hst, c, offset, hc, ho, hdue⟩
    rw [← idle_boundary hr hb]
    simp [idle, hr, hb, hc]
  · have hb : ¬ s.boundaryDue = true := by
      rw [boundaryDue_iff]
      rintro ⟨_, c', offset', hc', ho', hdue⟩
      obtain rfl : c = c' := Option.some.inj (hc.symm.trans hc')
      obtain rfl : offset = offset' := Option.some.inj (ho.symm.trans ho')
      omega
    exact congrArg Host.Outcome.next (if_neg (by simp [hb]))

/-! ### A link at a half-cycle start (R57, R143) -/

/-- A STEADY link does nothing at a start. -/
theorem actsAtStart_steady {L : Link} (h : L.swState = .steady) (life : Nat) (count : BitVec 16) :
    ¬ L.actsAtStart life count = true := by
  simp [Link.actsAtStart, h]

/-- A GATHERING link acts at a start that ends its gather window, or finds every pending entry present. -/
theorem actsAtStart_gathering {L : Link} (h : L.swState = .gathering) (life : Nat) (count : BitVec 16) :
    L.actsAtStart life count = true ↔ L.gatherLeft ≤ 1 ∨ none ∉ L.pendingSet := by
  simp [Link.actsAtStart, Link.offerDue, Link.tick, h, -List.all_eq_true, all_present_iff, Nat.sub_eq_zero_iff_le]

/-- An OFFERED link acts at the start that brings its age to T_CONF. -/
theorem actsAtStart_offered {L : Link} (h : L.swState = .offered) (life : Nat) (count : BitVec 16) :
    L.actsAtStart life count = true ↔ life ≤ L.offerAge + 1 := by
  simp [Link.actsAtStart, h]

/-- A CONFIRMED link acts at the start of its effective count. -/
theorem actsAtStart_confirmed {L : Link} (h : L.swState = .confirmed) (life : Nat) (count : BitVec 16) :
    L.actsAtStart life count = true ↔ L.effective = count := by
  simp [Link.actsAtStart, h]

/-- The count of a GATHERING link that a start leaves at 1 or more is a change of its record. -/
theorem counted_tick_gathering {L : Link} (h : L.swState = .gathering) (hleft : 2 ≤ L.gatherLeft) :
    Link.counted L L.tick = { L with gatherLeft := L.gatherLeft - 1, changes := L.changes + 1 } := by
  simp only [Link.tick, h]
  refine counted_changed fun e => ?_
  have hg : L.gatherLeft = L.gatherLeft - 1 := congrArg Link.gatherLeft e
  omega

/-- The count of an OFFERED link is a change of its record. -/
theorem counted_tick_offered {L : Link} (h : L.swState = .offered) :
    Link.counted L L.tick = { L with offerAge := L.offerAge + 1, changes := L.changes + 1 } := by
  simp only [Link.tick, h]
  refine counted_changed fun e => ?_
  have hg : L.offerAge = L.offerAge + 1 := congrArg Link.offerAge e
  omega

/-- A STEADY or CONFIRMED link does not count. -/
theorem tick_waitless {L : Link} (h : L.swState = .steady ∨ L.swState = .confirmed) : L.tick = L := by
  rcases h with h | h <;> simp only [Link.tick, h]

/-- The links that owe an act after an announcement are the OPEN ones that act at the start. -/
theorem mem_owed_announceStart (s : State) (k : Nat) : k ∈ (announceStart s).owed ↔
    (s.link k).isOpen = true ∧ (s.link k).actsAtStart s.shadow.offerLife s.tracker.halfCount = true := by
  simp only [announceStart, List.mem_filter, List.mem_range, Bool.and_eq_true]
  exact ⟨fun h => h.2, fun h => ⟨lt_of_isOpen h.1, h⟩⟩

/-- An event that announces a start, and does nothing more to the links, brings the start to every OPEN link. -/
theorem startReaches_announceStart {f : State → State} {s : State} {T : Tracker}
    (hlinks : (f s).links = (announceStart { s with tracker := T }).links)
    (howed : (f s).owed = (announceStart { s with tracker := T }).owed) :
    StartReaches s (settle (counting f s)) T.halfCount := by
  intro k hopen
  have hk := lt_of_isOpen hopen
  have howes : k ∈ (settle (counting f s)).owed ↔ (s.link k).actsAtStart s.shadow.offerLife T.halfCount = true := by
    rw [settle_owed, counting_owed, howed, mem_owed_announceStart]
    exact and_iff_right hopen
  have hlink : (settle (counting f s)).link k = Link.counted (s.link k)
      (if (s.link k).actsAtStart s.shadow.offerLife T.halfCount = true then s.link k else (s.link k).tick) := by
    have hf : (f s).link k = (announceStart { s with tracker := T }).link k := by rw [State.link, hlinks]; rfl
    have ho : State.link { s with tracker := T } k = s.link k := rfl
    rw [settle_link, link_counting, if_pos hk, hf, link_announceStart _ hk, ho, hopen]
    cases (s.link k).actsAtStart s.shadow.offerLife T.halfCount <;> rfl
  have hacts (h : (s.link k).actsAtStart s.shadow.offerLife T.halfCount = true) :
      (settle (counting f s)).link k = s.link k ∧ k ∈ (settle (counting f s)).owed := by
    rw [howes, hlink, if_pos h]
    exact ⟨counted_self _, h⟩
  have hcounts (h : ¬ (s.link k).actsAtStart s.shadow.offerLife T.halfCount = true) :
      (settle (counting f s)).link k = Link.counted (s.link k) (s.link k).tick ∧ k ∉ (settle (counting f s)).owed := by
    rw [howes, hlink, if_neg h]
    exact ⟨rfl, h⟩
  refine ⟨fun h hleft habsent => ?_, fun h hdue => ?_, fun h hyoung => ?_, fun h hold => ?_, fun h => ?_, fun h => ?_⟩
  · rw [← counted_tick_gathering h hleft]
    exact hcounts (by rw [actsAtStart_gathering h]; exact not_or.2 ⟨by omega, not_not.2 habsent⟩)
  · exact hacts ((actsAtStart_gathering h _ _).2 hdue)
  · rw [← counted_tick_offered h]
    exact hcounts (by rw [actsAtStart_offered h]; omega)
  · exact hacts ((actsAtStart_offered h _ _).2 hold)
  · rw [howes, hlink, tick_waitless (.inr h), ite_self]
    exact ⟨counted_self _, actsAtStart_confirmed h _ _⟩
  · rw [hlink, tick_waitless (.inl h), ite_self]
    exact ⟨counted_self _, (hcounts (actsAtStart_steady h _ _)).2⟩

/-! ### An event of the tracker short of the loss -/

/-- From s to t the tracker, the Link Table, the links that owe an act and the notices alone are touched. -/
def TrackerAlone (s t : State) : Prop := ∃ T v o n, t = { s with tracker := T, links := v, owed := o, notices := n }

theorem TrackerAlone.trans {s t u : State} (h : TrackerAlone s t) (h' : TrackerAlone t u) : TrackerAlone s u := by
  obtain ⟨_, _, _, _, rfl⟩ := h
  obtain ⟨_, _, _, _, rfl⟩ := h'
  exact ⟨_, _, _, _, rfl⟩

/-- What such an event leaves as it was, the time and the samples included. -/
theorem TrackerAlone.same {f : State → State} {s t : State} (h : TrackerAlone s (f s)) (ht : t = settle (counting f s)) :
    (t.tick = s.tick ∧ t.zcLevel = s.zcLevel ∧ t.zcSampledAt = s.zcSampledAt)
      ∧ SameMailbox s t ∧ SamePool s t ∧ SameIntake s t ∧ SameApplier s t ∧ SameMemory s t := by
  obtain ⟨_, _, _, _, h⟩ := h
  subst ht
  simp [SameMailbox, SamePool, SameIntake, SameApplier, SameMemory, h]

/-- A half-cycle of tracker T has begun, its start is announced to the links, and the notices have come to n. -/
def State.announced (s : State) (T : Tracker) (n : NoticeWriter) : State :=
  { announceStart { s with tracker := T } with tracker := T, notices := n }

theorem announced_alone (s : State) (T : Tracker) (n : NoticeWriter) : TrackerAlone s (s.announced T n) := ⟨_, _, _, _, rfl⟩

/-- An event that begins one half-cycle, of tracker T, and then leaves the tracker at T'. -/
theorem start_event_then {f : State → State} {s t : State} {T T' : Tracker} {n : NoticeWriter}
    (h : f s = { s.announced T n with tracker := T' }) (ht : t = settle (counting f s)) :
    t.tracker = T' ∧ t.notices.staging = n.staging ∧ StartReaches s t T.halfCount
      ∧ SameMailbox s t ∧ SamePool s t ∧ SameIntake s t ∧ SameApplier s t ∧ SameMemory s t := by
  have halone : TrackerAlone s (f s) := ⟨_, _, _, _, h⟩
  refine ⟨?_, ?_, ?_, (halone.same ht).2⟩
  · rw [ht, settle_tracker, counting_tracker, h]
  · rw [ht, settle_notices_staging, counting_notices, h]
    rfl
  · rw [ht]
    exact startReaches_announceStart (by rw [h]; rfl) (by rw [h]; rfl)

/-- An event that begins one half-cycle, of tracker T. -/
theorem start_event {f : State → State} {s t : State} {T : Tracker} {n : NoticeWriter} (h : f s = s.announced T n)
    (ht : t = settle (counting f s)) :
    t.tracker = T ∧ t.notices.staging = n.staging ∧ StartReaches s t T.halfCount
      ∧ SameMailbox s t ∧ SamePool s t ∧ SameIntake s t ∧ SameApplier s t ∧ SameMemory s t :=
  start_event_then (T' := T) (h.trans rfl) ht

/-! ### The sample of ZC_IN (R43) -/

/-- A sample at a tick that has had one changes nothing. -/
theorem exec_zcEdge_again {s : State} (level : Bool) (h : s.zcSampledAt = some s.tick) : exec (.zcEdge level) s = .next s :=
  congrArg Host.Outcome.next (if_pos (by simp [State.canSample, h]))

/-- A sample that is no edge is only sampled. -/
theorem exec_zcEdge_level {s : State} {level : Bool} (hr : s.inReset = false) (hnew : s.zcSampledAt ≠ some s.tick)
    (hlevel : s.zcLevel ≠ some (!level)) : exec (.zcEdge level) s = .next (s.sampled level) := by
  refine congrArg Host.Outcome.next ((if_neg ?_).trans (if_neg hlevel))
  simp [State.canSample, hr, hnew]

/-- An edge is one event, on the state with the sample taken. -/
theorem exec_zcEdge_edge {s : State} {level : Bool} (h : EdgeNow s level) :
    exec (.zcEdge level) s = .next (settle (counting edge (s.sampled level))) := by
  obtain ⟨hr, hlevel, hnew⟩ := h
  refine congrArg Host.Outcome.next ((if_neg ?_).trans (if_pos hlevel))
  simp [State.canSample, hr, hnew]

/-- An edge that leaves the Link Table as it was. -/
theorem exec_zcEdge_plain {s t : State} {level : Bool} (h : EdgeNow s level) (he : edge (s.sampled level) = t)
    (hlinks : t.links = s.links) : exec (.zcEdge level) s = .next (settle t) := by
  rw [exec_zcEdge_edge h, counting_eq (by rw [he, hlinks]; rfl), he]

/-! ### Edges in SEARCH (R46 to R49) -/

/-- In SEARCH no window is missed, and an edge is one of the search. -/
theorem edge_search {s : State} (h : s.tracker.state = .search) : edge s = searchEdge s := by
  have hm : ¬ s.missDue = true := by simp [missDue_iff, h]
  simp [edge, hm, h]

/-- The first edge becomes the reference edge. -/
theorem searchEdge_first {s : State} (h : s.tracker.refEdge = none) :
    searchEdge s = { s with tracker := { s.tracker with refEdge := some s.tick } } := by
  unfold searchEdge
  rw [h]

section
variable {s : State} {r : Nat} (href : s.tracker.refEdge = some r)
include href

/-- An edge within BLANK of the reference edge is ignored. -/
theorem searchEdge_blanked (h : s.tick - r ≤ s.shadow.blank) : searchEdge s = s := by
  unfold searchEdge
  rw [href]
  exact if_pos h

variable {run : Run} (hlate : s.shadow.blank < s.tick - r)
  (hrun : run = s.tracker.run.extend (min (s.tick - r) 65535) s.shadow.tolerance)
include hlate hrun

/-- An interval that leaves the run short of L. -/
theorem searchEdge_interval (h : run.count ≠ s.shadow.lockRun) :
    searchEdge s = { s with tracker := { s.tracker with refEdge := some s.tick, run := run } } := by
  subst hrun
  unfold searchEdge
  rw [href]
  exact (if_neg (by omega)).trans (if_neg h)

/-- The interval that brings the run to L acquires lock. -/
theorem searchEdge_acquires {T : Tracker} (h : run.count = s.shadow.lockRun)
    (hT : T = s.tracker.acquire run s.tick s.shadow.lockRun s.shadow.slices) :
    searchEdge s = s.announced T (raise (.trackLocked .acquired T.period 0) { s with tracker := T }).notices := by
  subst hrun hT
  unfold searchEdge
  rw [href]
  exact (if_neg (by omega)).trans (if_pos h)

end

/-- Settles O34: what is no edge, and an edge in SEARCH by the reference edge, the interval and the run. -/
theorem searchEdges : Obligations.SearchEdges := by
  refine ⟨fun s level hr => ⟨exec_zcEdge_again level, exec_zcEdge_level hr⟩, fun s level he hst => ?_⟩
  have hedge : edge (s.sampled level) = searchEdge (s.sampled level) := edge_search hst
  refine ⟨fun href => ?_, fun r href hblank => ?_, fun r len run href hlate hlen hrun => ⟨fun hcount => ?_, fun hcount => ?_⟩⟩
  · exact exec_zcEdge_plain he (hedge.trans (searchEdge_first (s := s.sampled level) href)) rfl
  · exact exec_zcEdge_plain he (hedge.trans (searchEdge_blanked (s := s.sampled level) href hblank)) rfl
  all_goals subst hlen
  · exact exec_zcEdge_plain he (hedge.trans (searchEdge_interval (s := s.sampled level) href hlate hrun hcount)) rfl
  · obtain ⟨htracker, hstaging, hrest⟩ :=
      start_event (hedge.trans (searchEdge_acquires (s := s.sampled level) href hlate hrun hcount rfl)) rfl
    refine ⟨_, exec_zcEdge_edge he, htracker, ?_, hrest⟩
    rw [hstaging, htracker]
    rfl

/-! ### A missed window below M (R53, R55) -/

/-- A window that has passed is missed. -/
theorem exec_captureWindowMiss {s : State} (hr : s.inReset = false) (h : s.missDue = true) :
    exec .captureWindowMiss s = .next (settle (counting missWindow s)) :=
  congrArg Host.Outcome.next (if_pos (by rw [hr, h]; rfl))

/-- TRACK_HOLDOVER is raised at the first miss, stamped under tracker T; later misses raise nothing. -/
def State.noteMiss (s : State) (T : Tracker) : State :=
  if s.tracker.state = .locked then raise (.trackHoldover T.period T.strayCount) { s with tracker := T } else s

theorem noteMiss_staging (s : State) (T : Tracker) : (s.noteMiss T).notices.staging = if s.tracker.state = .locked then
    (raise (.trackHoldover T.period T.strayCount) { s with tracker := T }).notices.staging else s.notices.staging :=
  apply_ite (fun u : State => u.notices.staging) ..

theorem noteMiss_shadow (s : State) (T : Tracker) : (s.noteMiss T).shadow = s.shadow := by
  unfold State.noteMiss
  split <;> rfl

theorem noteMiss_sampled (s : State) (level : Bool) (T : Tracker) : (s.sampled level).noteMiss T = (s.noteMiss T).sampled level := by
  unfold State.noteMiss
  rw [apply_ite (fun u : State => u.sampled level)]
  rfl

/-- Below M a start is synthesized and announced, with TRACK_HOLDOVER at the first miss. -/
theorem missWindow_holds {s : State} {T : Tracker} (h : s.tracker.nextMiss < s.shadow.missLimit)
    (hT : T = s.tracker.synthesize s.shadow.slices) :
    missWindow s = s.announced T (s.noteMiss T).notices := by
  subst hT
  unfold missWindow State.noteMiss
  rw [if_pos h]
  by_cases hst : s.tracker.state = .locked
  · simp only [if_pos hst]
    rfl
  · simp only [if_neg hst]
    rfl

/-- Settles O36: the start that a missed window synthesizes, as any start, with its notice. -/
theorem windowMissed : Obligations.WindowMissed := by
  intro s misses predicted hr hst hpredicted hpassed hmisses hlimit
  subst hpredicted hmisses
  obtain ⟨htracker, hstaging, hrest⟩ := start_event (missWindow_holds hlimit rfl) rfl
  refine ⟨_, exec_captureWindowMiss hr ((missDue_iff s).2 ⟨hst, hpassed⟩), htracker, ?_, hrest⟩
  rw [hstaging, htracker, noteMiss_staging]
  rfl

end Sys2Proof.Machine
end

section
/-! PROOFS. The Mains Tracker's loss, and the edges in LOCKED and HOLDOVER, before the window's end and after it (R46, R50 to R57, R113,
R132, R151, R172). -/
namespace Sys2Proof.Machine

/-! ### One record under the releases of a loss (R151, R172) -/

/-- The table with one record replaced, read at an index. -/
theorem link_of_tset {s t : State} {k : Nat} {M : Link} (h : t.links = tset s.links k M) (j : Nat) :
    t.link j = if k = j ∧ j < 32 then M else s.link j := by
  rw [State.link, h, tget_tset]
  rfl

/-- A record some of whose entries the releases of a loss have replaced, place by place, and perhaps the latch. -/
def PartSwept (L M : Link) : Prop :=
  ∃ cells pendingSet nextSet latch,
    M = { L with cells := cells, pendingSet := pendingSet, nextSet := nextSet, latch := latch }
      ∧ cells.length = L.cells.length ∧ pendingSet.length = L.pendingSet.length ∧ nextSet.length = L.nextSet.length

theorem PartSwept.refl (L : Link) : PartSwept L L := ⟨_, _, _, _, rfl, rfl, rfl, rfl⟩

theorem PartSwept.trans {L M N : Link} (h : PartSwept L M) (h' : PartSwept M N) : PartSwept L N := by
  obtain ⟨_, _, _, _, rfl, hc, hp, hn⟩ := h
  obtain ⟨_, _, _, _, rfl, hc', hp', hn'⟩ := h'
  exact ⟨_, _, _, _, rfl, hc'.trans hc, hp'.trans hp, hn'.trans hn⟩

/-- An OPEN record swept to the Base Map; its latch is another matter (R151). -/
def Link.swept (L : Link) : Link :=
  if L.isOpen then
    { L with
      cells := L.cells.map fun _ => 0
      pendingSet := L.pendingSet.map fun _ => none
      nextSet := L.nextSet.map fun _ => none
      swState := .steady
      gatherLeft := 0
      offerAge := 0
      effective := 0
      streak := 0
      summary := L.summary.map fun _ => Summary.empty }
  else L

/-- The sweep makes the same of a record whatever part of it was done before. -/
theorem PartSwept.swept {L M : Link} (h : PartSwept L M) (hopen : L.isOpen = true) :
    { M.swept with latch := none } = { L.swept with latch := none } := by
  obtain ⟨c, p, n, l, rfl, hc, hp, hn⟩ := h
  simp [Link.swept, hopen, List.map_const', hc, hp, hn]

/-! ### The releases in a free order (R56, R151, log 11) -/

/-- A sweep's next release is a part of the sweep of its link. -/
theorem sweepStep_partSwept (k : Nat) (s : State) : ∃ M, (sweepStep k s).links = tset s.links k M ∧ PartSwept (s.link k) M := by
  have same : ∃ M, s.links = tset s.links k M ∧ PartSwept (s.link k) M := ⟨_, (tset_tget _ _ _).symm, .refl _⟩
  unfold sweepStep
  dsimp only
  split
  · split
    · rename_i i _
      obtain ⟨_, _, h⟩ := setCell_frame k i 0 s
      rw [h]
      exact ⟨_, rfl, _, _, _, _, rfl, List.length_set .., rfl, rfl⟩
    · rename_i i _ _
      obtain ⟨_, _, h⟩ := clearPending_frame k i s
      rw [h]
      exact ⟨_, rfl, _, _, _, _, rfl, rfl, List.length_set .., rfl⟩
    · rename_i i _ _ _
      obtain ⟨_, _, h⟩ := clearNext_frame k i s
      rw [h]
      exact ⟨_, rfl, _, _, _, _, rfl, rfl, rfl, List.length_set ..⟩
    · exact same
  · exact same

/-- The sweep of a link replaces its record alone. -/
theorem sweepLink_links (k : Nat) (s : State) : (sweepLink k s).links = tset s.links k (s.link k).swept := by
  obtain ⟨_, _, h⟩ := sweepLink_frame k s
  rw [h]
  rfl

/-- The release of a latch replaces its record alone. -/
theorem releaseLatch_links (k : Nat) (s : State) : (releaseLatch k s).links = tset s.links k { s.link k with latch := none } := by
  obtain ⟨_, _, h⟩ := releaseLatch_frame k s
  rw [h]

/-- The end of a job leaves the Link Table. -/
theorem link_dropJob (s : State) (k : Nat) : (dropJob s).link k = s.link k := by
  obtain ⟨_, _, h⟩ := dropJob_frame s
  rw [h]
  rfl

/-- One activity of a loss is a part of the sweep, for every link. -/
theorem lossItem_partSwept (x : LossItem) (s : State) (j : Nat) : PartSwept (s.link j) ((lossItem x s).link j) := by
  have one : ∀ {t : State} {k : Nat} {M : Link}, t.links = tset s.links k M → PartSwept (s.link k) M →
      PartSwept (s.link j) (t.link j) := by
    intro t k M hl hM
    rw [link_of_tset hl]
    split
    · rename_i h
      rw [← h.1]
      exact hM
    · exact .refl _
  cases x with
  | sweep k =>
    obtain ⟨M, hl, hM⟩ := sweepStep_partSwept k s
    exact one hl hM
  | latch k => exact one (releaseLatch_links k s) ⟨_, _, _, _, rfl, rfl, rfl, rfl⟩
  | job =>
    show PartSwept _ ((dropJob s).link j)
    rw [link_dropJob]
    exact .refl _

/-- So are the activities of any order. -/
theorem lossItems_partSwept (order : List LossItem) (s : State) (j : Nat) :
    PartSwept (s.link j) ((order.foldl (fun t x => lossItem x t) s).link j) := by
  induction order generalizing s with
  | nil => exact .refl _
  | cons x order ih => exact (lossItem_partSwept x s j).trans (ih (lossItem x s))

/-- An operation on each link that replaces that link's record alone. -/
theorem link_forLinks {f : Nat → State → State} {g : Link → Link} (hf : ∀ k t, (f k t).links = tset t.links k (g (t.link k)))
    (s : State) {j : Nat} (hj : j < 32) : (forLinks f s).link j = g (s.link j) := by
  have key : ∀ (l : List Nat) (t : State), l.Nodup →
      (l.foldl (fun u k => f k u) t).link j = if j ∈ l then g (t.link j) else t.link j := by
    intro l
    induction l with
    | nil => intro t _; rfl
    | cons k l ih =>
      intro t hnodup
      obtain ⟨hk, hl⟩ := List.nodup_cons.1 hnodup
      rw [List.foldl_cons, ih _ hl, link_of_tset (hf k t)]
      by_cases h : k = j
      · subst h
        simp [hk, hj]
      · simp [h, Ne.symm h]
  exact (key _ s List.nodup_range).trans (if_pos (List.mem_range.2 hj))

/-- Whatever the order of the releases, every OPEN record ends swept, its latch absent. -/
theorem link_sweepAll (order : List LossItem) {s : State} {k : Nat} (hopen : (s.link k).isOpen = true) :
    (sweepAll order s).link k = { (s.link k).swept with latch := none } := by
  have hk := lt_of_isOpen hopen
  unfold sweepAll
  rw [link_dropJob, link_forLinks (g := fun L => { L with latch := none }) releaseLatch_links _ hk, link_forLinks sweepLink_links _ hk]
  exact (lossItems_partSwept order s k).swept hopen

/-- The job is cancelled. -/
theorem job_sweepAll (order : List LossItem) (s : State) : (sweepAll order s).engine.job = none := by
  unfold sweepAll
  rw [job_dropJob]

/-! ### The loss (R56) -/

/-- The state in which the releases of a loss begin: TRACK_LOST is raised, and the Build Queue is empty. -/
def State.losing (s : State) : State :=
  { raise (.trackLost s.tracker.period s.tracker.strayCount) s with buildQueue := [], choices := s.choices + 1 }

/-- The loss is the releases, in the free order, and the tracker's entry to SEARCH. -/
theorem loseLock_eq {s u : State} (h : sweepAll (Config.lossOrder s.choices) s.losing = u) :
    loseLock s = { u with tracker := u.tracker.lose } := by
  subst h
  rfl

/-- The tracker in SEARCH after the loss. -/
theorem loseLock_tracker (s : State) : (loseLock s).tracker = s.tracker.lose := by
  obtain ⟨_, _, _, _, h⟩ := loseLock_frame s
  rw [h]

/-- The loss lets no time pass. -/
theorem loseLock_tick (s : State) : (loseLock s).tick = s.tick := by
  obtain ⟨_, _, _, _, h⟩ := loseLock_frame s
  rw [h]

/-- After the loss there is no job. -/
theorem loseLock_job (s : State) : (loseLock s).engine.job = none := by
  have h := job_sweepAll (Config.lossOrder s.choices) s.losing
  generalize hu : sweepAll (Config.lossOrder s.choices) s.losing = u at h
  rw [loseLock_eq hu]
  exact h

/-- Every OPEN record after the loss. -/
theorem link_loseLock {s : State} {k : Nat} (hopen : (s.link k).isOpen = true) :
    (loseLock s).link k = { (s.link k).swept with latch := none } := by
  have h := link_sweepAll (Config.lossOrder s.choices) (s := s.losing) hopen
  generalize hu : sweepAll (Config.lossOrder s.choices) s.losing = u at h
  rw [loseLock_eq hu]
  exact h

/-- An event that is the loss, whatever it makes of the tracker besides. -/
theorem loss_event {f : State → State} {s t : State} {T : Tracker} (h : f s = { loseLock s with tracker := T })
    (ht : t = settle (counting f s)) :
    (t.tracker = T ∧ t.tick = s.tick ∧ t.zcLevel = s.zcLevel ∧ t.zcSampledAt = s.zcSampledAt) ∧ LossReaches s t := by
  obtain ⟨_, _, _, _, hframe⟩ := loseLock_frame s
  have hjob := loseLock_job s
  have hswept (k : Nat) := link_loseLock (s := s) (k := k)
  generalize loseLock s = u at *
  have hlink : ∀ k, (s.link k).isOpen = true → ∃ c, t.link k = { (s.link k).swept with latch := none, changes := c } := by
    intro k hopen
    have hf : (f s).link k = { (s.link k).swept with latch := none } := by
      rw [h, ← hswept k hopen]
      rfl
    obtain ⟨c, hc⟩ := counted_fields (s.link k) ((f s).link k)
    refine ⟨c, ?_⟩
    rw [ht, settle_link, link_counting, if_pos (lt_of_isOpen hopen), hc, hf]
  have hidle : t.engine.job = none := by
    rw [ht, settle_engine_job, counting_engine, h]
    exact hjob
  subst hframe
  refine ⟨by simp [ht, h], by simp [ht, h], by simp [ht, h], hidle, fun k hopen => ?_, by simp [ht, h], by simp [ht, h], ?_, ?_, ?_⟩
  · obtain ⟨c, hc⟩ := hlink k hopen
    refine ⟨c, ?_⟩
    rw [hc, Link.swept, if_pos hopen]
  · simp [SameMailbox, ht, h]
  · simp [SameApplier, ht, h]
  · simp [SameMemory, ht, h]

/-- The miss that reaches M is the loss. -/
theorem missWindow_loses {s : State} (h : s.shadow.missLimit ≤ s.tracker.nextMiss) : missWindow s = loseLock s :=
  if_neg (Nat.not_lt.2 h)

/-- Settles O37: the window's miss is the loss, in whatever order its releases are taken. -/
theorem lockLost : Obligations.LockLost := by
  intro s hr hst hpassed hlimit
  have hloss : missWindow s = { loseLock s with tracker := s.tracker.lose } := by
    rw [missWindow_loses hlimit, ← loseLock_tracker]
  obtain ⟨⟨htracker, _⟩, hreaches⟩ := loss_event hloss rfl
  exact ⟨_, exec_captureWindowMiss hr ((missDue_iff s).2 ⟨hst, hpassed⟩), htracker, hreaches⟩

/-! ### An edge in LOCKED or HOLDOVER, by the window (R46, R50 to R52, R54) -/

/-- Where no window is missed, an edge is blanked, stray or accepted. -/
theorem edge_locked {s : State} (hst : s.tracker.state = .locked ∨ s.tracker.state = .holdover) (hm : ¬ s.missDue = true) :
    edge s = lockedEdge s := by
  rcases hst with h | h <;> simp [edge, hm, h]

/-- An edge within BLANK of the last start is ignored. -/
theorem lockedEdge_blanked {s : State} (h : s.tick - s.tracker.lastStart ≤ s.shadow.blank) : lockedEdge s = s := if_pos h

/-- The stray count one on, up to 255 (R52). -/
def Tracker.strayed (T : Tracker) : Tracker :=
  { T with strayCount := if T.strayCount = 255 then 255 else T.strayCount + 1 }

section
variable {s : State} (hlate : s.shadow.blank < s.tick - s.tracker.lastStart)
include hlate

/-- An edge before the window is a stray. -/
theorem lockedEdge_stray (h : s.tick + s.shadow.tolerance < s.tracker.predicted) :
    lockedEdge s = { s with tracker := s.tracker.strayed } :=
  (if_neg (Nat.not_le.2 hlate)).trans (if_pos h)

/-- An edge in the window begins a half-cycle at its own tick, with a TRACK_LOCKED notice from HOLDOVER. -/
theorem lockedEdge_accepts {T : Tracker} (h : s.tracker.predicted ≤ s.tick + s.shadow.tolerance)
    (hT : T = s.tracker.accept s.tick s.shadow.slices) : lockedEdge s = s.announced T (if s.tracker.state = .holdover then
      raise (.trackLocked .resumed T.period s.tracker.missCount) { s with tracker := T } else s).notices := by
  subst hT
  refine (if_neg (Nat.not_le.2 hlate)).trans ((if_neg (Nat.not_lt.2 h)).trans ?_)
  unfold acceptEdge
  by_cases hst : s.tracker.state = .holdover
  · simp only [if_pos hst]
    rfl
  · simp only [if_neg hst]
    rfl

end

/-! ### An edge after the window (R50, R53, R55, R56, log 4) -/

/-- An edge after a window whose miss reaches M is the reference edge of SEARCH. -/
theorem edge_lost {s : State} (hm : s.missDue = true) (hlimit : s.shadow.missLimit ≤ s.tracker.nextMiss) :
    edge s = { loseLock s with tracker := { s.tracker.lose with refEdge := some s.tick } } := by
  have hT := loseLock_tracker s
  have ht := loseLock_tick s
  have hmiss := missWindow_loses hlimit
  generalize loseLock s = u at *
  have hedge : edge s = searchEdge u := by simp [edge, hm, hmiss, hT, Tracker.lose]
  rw [hedge, searchEdge_first (by rw [hT]; rfl), ← hT, ← ht]

/-- What a notice makes of staging rests on the notices, N, and the stamp alone. -/
theorem raise_staging_congr (x : NoticeBody) {s t : State} (hn : t.notices = s.notices) (hs : t.shadow = s.shadow)
    (hT : t.tracker = s.tracker) : (raise x t).notices.staging = (raise x s).notices.staging := by
  have hadmits : t.admits = s.admits := by
    unfold State.admits State.unconsumed
    rw [hn, hs]
  rw [raise_staging, raise_staging, hadmits, hn, hT]

/-- An edge in LOCKED or HOLDOVER is an event of the tracker short of the loss. -/
theorem lockedEdge_alone (s : State) : TrackerAlone s (lockedEdge s) := by
  by_cases hblank : s.tick - s.tracker.lastStart ≤ s.shadow.blank
  · exact ⟨_, _, _, _, lockedEdge_blanked hblank⟩
  · by_cases hearly : s.tick + s.shadow.tolerance < s.tracker.predicted
    · exact ⟨_, _, _, _, lockedEdge_stray (Nat.not_le.1 hblank) hearly⟩
    · rw [lockedEdge_accepts (Nat.not_le.1 hblank) (Nat.not_lt.1 hearly) rfl]
      exact announced_alone _ _ _

section
variable {s : State} {T : Tracker} (hm : s.missDue = true) (hlimit : s.tracker.nextMiss < s.shadow.missLimit)
  (hT : T = s.tracker.synthesize s.shadow.slices)
include hm hlimit hT

/-- An edge after a window whose miss stays below M is classed under the half-cycle, of tracker T, that the miss begins. -/
theorem edge_late : edge s = lockedEdge (s.announced T (s.noteMiss T).notices) := by
  have hst : (s.announced T (s.noteMiss T).notices).tracker.state = .holdover := by
    rw [hT]
    rfl
  simp [edge, hm, missWindow_holds hlimit hT, hst]

/-- Such an edge touches no more than any of the tracker's, short of the loss. -/
theorem edge_late_alone : TrackerAlone s (edge s) := by
  rw [edge_late hm hlimit hT]
  exact (announced_alone ..).trans (lockedEdge_alone _)

/-- Such an edge within BLANK of the synthesized start leaves the half-cycle that the miss begins. -/
theorem edge_late_blanked (h : s.tick - T.lastStart ≤ s.shadow.blank) : edge s = s.announced T (s.noteMiss T).notices :=
  (edge_late hm hlimit hT).trans (lockedEdge_blanked h)

variable (hlate : s.shadow.blank < s.tick - T.lastStart)
include hlate

/-- Such an edge before the next window is a stray. -/
theorem edge_late_stray (h : s.tick + s.shadow.tolerance < T.predicted) :
    edge s = { s.announced T (s.noteMiss T).notices with tracker := T.strayed } :=
  (edge_late hm hlimit hT).trans (lockedEdge_stray hlate h)

/-- Such an edge in the next window begins a second half-cycle, of tracker A, with a TRACK_LOCKED notice. -/
theorem edge_late_accepted {A : Tracker} (h : T.predicted ≤ s.tick + s.shadow.tolerance) (hA : A = T.accept s.tick s.shadow.slices) :
    edge s = (s.announced T (s.noteMiss T).notices).announced A (raise (.trackLocked .resumed A.period T.missCount)
      { s.announced T (s.noteMiss T).notices with tracker := A }).notices := by
  have hst : T.state = .holdover := by
    rw [hT]
    rfl
  rw [edge_late hm hlimit hT, lockedEdge_accepts hlate h hA]
  exact congrArg (fun v : State => State.announced _ A v.notices) (if_pos hst)

end

/-! ### An edge in LOCKED or HOLDOVER as one event, before the end of the window and after it (log 4) -/

/-- An edge in LOCKED or HOLDOVER, the window not yet missed: blanked, stray or accepted. -/
theorem exec_zcEdge_locked (s : State) (level : Bool) (predicted measured : Nat) (he : EdgeNow s level)
    (hst : s.tracker.state = .locked ∨ s.tracker.state = .holdover) (hpredicted : predicted = s.tracker.lastStart + s.tracker.period)
    (hopen : s.tick ≤ predicted + s.shadow.tolerance) (hmeasured : measured = s.tick - s.tracker.lastStart) :
    (measured ≤ s.shadow.blank → exec (.zcEdge level) s = .next (settle (s.sampled level)))
      ∧ (s.shadow.blank < measured → s.tick + s.shadow.tolerance < predicted →
        exec (.zcEdge level) s = .next (settle { s.sampled level with tracker := s.tracker.strayed }))
      ∧ (s.shadow.blank < measured → predicted ≤ s.tick + s.shadow.tolerance → ∀ T, T = s.tracker.accept s.tick s.shadow.slices →
        ∃ t, exec (.zcEdge level) s = .next t ∧ t.tracker = T
          ∧ t.notices.staging = (if s.tracker.state = .holdover then
              (raise (.trackLocked .resumed T.period s.tracker.missCount) { s with tracker := t.tracker }).notices.staging
            else s.notices.staging)
          ∧ StartReaches s t T.halfCount
          ∧ SameMailbox s t ∧ SamePool s t ∧ SameIntake s t ∧ SameApplier s t ∧ SameMemory s t) := by
  subst hpredicted hmeasured
  have hedge : edge (s.sampled level) = lockedEdge (s.sampled level) := edge_locked hst fun hm =>
    Nat.not_lt.2 hopen ((missDue_iff _).1 hm).2
  refine ⟨fun hblank => ?_, fun hlate hearly => ?_, fun hlate hwindow T hT => ?_⟩
  · exact exec_zcEdge_plain he (hedge.trans (lockedEdge_blanked (s := s.sampled level) hblank)) rfl
  · exact exec_zcEdge_plain he (hedge.trans (lockedEdge_stray (s := s.sampled level) hlate hearly)) rfl
  · obtain ⟨htracker, hstaging, hrest⟩ :=
      start_event (hedge.trans (lockedEdge_accepts (s := s.sampled level) hlate hwindow hT)) rfl
    refine ⟨_, exec_zcEdge_edge he, htracker, ?_, hrest⟩
    rw [hstaging, htracker, apply_ite (fun u : State => u.notices.staging)]
    rfl

section
variable {s : State} {level : Bool} (he : EdgeNow s level) (hm : s.missDue = true)
include he hm

/-- An edge after a window whose miss reaches M: the loss, and the edge is the reference edge of SEARCH. -/
theorem exec_zcEdge_lost (hlimit : s.shadow.missLimit ≤ s.tracker.nextMiss) : ∃ t, exec (.zcEdge level) s = .next t
    ∧ t.tracker = { s.tracker.lose with refEdge := some s.tick }
    ∧ LossReaches s t ∧ t.tick = s.tick ∧ t.zcLevel = some level ∧ t.zcSampledAt = some s.tick := by
  obtain ⟨⟨htracker, htick, hlevel, hsampled⟩, hreaches⟩ := loss_event (edge_lost (s := s.sampled level) hm hlimit) rfl
  exact ⟨_, exec_zcEdge_edge he, htracker, hreaches, htick, hlevel, hsampled⟩

/-- An edge after a window whose miss stays below M: blanked, stray or accepted under the half-cycle of tracker T that the miss begins. -/
theorem exec_zcEdge_late {T : Tracker} (hlimit : s.tracker.nextMiss < s.shadow.missLimit)
    (hT : T = s.tracker.synthesize s.shadow.slices) : ∃ t, exec (.zcEdge level) s = .next t
      ∧ (s.tick - T.lastStart ≤ s.shadow.blank → t.tracker = T)
      ∧ (s.shadow.blank < s.tick - T.lastStart → s.tick + s.shadow.tolerance < T.predicted → t.tracker = T.strayed)
      ∧ (s.tick - T.lastStart ≤ s.shadow.blank ∨ s.tick + s.shadow.tolerance < T.predicted →
        t.notices.staging = (s.noteMiss T).notices.staging ∧ StartReaches s t T.halfCount)
      ∧ (s.shadow.blank < s.tick - T.lastStart → T.predicted ≤ s.tick + s.shadow.tolerance →
        t.tracker = T.accept s.tick s.shadow.slices
        ∧ t.notices.staging = (raise (.trackLocked .resumed (T.accept s.tick s.shadow.slices).period T.missCount)
          { s.noteMiss T with tracker := t.tracker }).notices.staging)
      ∧ t.tick = s.tick ∧ t.zcLevel = some level ∧ t.zcSampledAt = some s.tick
      ∧ SameMailbox s t ∧ SamePool s t ∧ SameIntake s t ∧ SameApplier s t ∧ SameMemory s t := by
  have hnotices : ((s.sampled level).noteMiss T).notices = (s.noteMiss T).notices := by
    rw [noteMiss_sampled]
    rfl
  have hblanked := edge_late_blanked (s := s.sampled level) hm hlimit hT
  have hstray := edge_late_stray (s := s.sampled level) hm hlimit hT
  have haccepted (hlate : s.shadow.blank < s.tick - T.lastStart) (hwindow : T.predicted ≤ s.tick + s.shadow.tolerance) :=
    edge_late_accepted (s := s.sampled level) hm hlimit hT hlate hwindow rfl
  rw [hnotices] at hblanked hstray haccepted
  obtain ⟨⟨htick, hlevel, hsampled⟩, hsame⟩ := (edge_late_alone (s := s.sampled level) hm hlimit hT).same rfl
  refine ⟨_, exec_zcEdge_edge he, fun h => (start_event (hblanked h) rfl).1,
    fun h hearly => (start_event_then (hstray h hearly) rfl).1, fun h => ?_, fun h hwindow => ?_, htick, hlevel, hsampled, hsame⟩
  · by_cases hb : s.tick - T.lastStart ≤ s.shadow.blank
    · obtain ⟨_, hstaging, hreaches, _⟩ := start_event (hblanked hb) rfl
      exact ⟨hstaging, hreaches⟩
    · obtain ⟨_, hstaging, hreaches, _⟩ := start_event_then (hstray (Nat.not_le.1 hb) (h.resolve_left hb)) rfl
      exact ⟨hstaging, hreaches⟩
  · rw [settle_notices_staging, settle_tracker, counting_notices, counting_tracker, haccepted h hwindow]
    exact ⟨rfl, raise_staging_congr _ rfl (noteMiss_shadow s T).symm rfl⟩

end

/-- Settles O35: before the window's end the edge by the window, and after it the edge under the miss. -/
theorem lockedEdges : Obligations.LockedEdges := by
  refine ⟨fun s level predicted measured he hst hpredicted hopen hmeasured => ?_,
    fun s level predicted measured misses he hst hpredicted hpassed hmeasured hmisses => ?_⟩
  · obtain ⟨hblanked, hstray, haccepted⟩ := exec_zcEdge_locked s level predicted measured he hst hpredicted hopen hmeasured
    refine ⟨hblanked, hstray, fun period hlate hwindow hperiod => ?_⟩
    subst hmeasured hperiod
    exact haccepted hlate hwindow _ rfl
  · subst hpredicted hmeasured hmisses
    have hm : s.missDue = true := (missDue_iff s).2 ⟨hst, hpassed⟩
    refine ⟨exec_zcEdge_lost he hm, fun T hlimit hT => ?_⟩
    obtain ⟨t, hexec, hblanked, hstray, hshort, haccepted, hsame⟩ := exec_zcEdge_late he hm hlimit (hT.trans rfl)
    rw [noteMiss_staging] at hshort
    subst hT
    refine ⟨t, hexec, hblanked, hstray, hshort, fun period hlate hwindow hperiod => ?_, hsame⟩
    subst hperiod
    exact haccepted hlate hwindow

end Sys2Proof.Machine
end

section
/-! PROOFS. The link commands in OPERATING: LINK_ADD, the commands that name a link, LINK_HOLD and LINK_RESUME (R73 to R78, R114, R146,
R148). -/
namespace Sys2Proof.Machine

/-! ### A command past the screen in OPERATING (R30) -/

/-- In OPERATING every command but APPLY passes the screen. -/
theorem screen_operating {c : Command} (h : c ≠ .apply) : c.screen .operating = none := by
  cases c with
  | apply => exact absurd rfl h
  | _ => rfl

/-- A command burst in OPERATING: its data words, its command, and the burst passes. -/
theorem exec_command_operating {s : State} {b : WriteBurst} {code : Nat} {c : Command} (h : CommandBurst s b code)
    (hf : s.filter = .operating) (hc : Command.ofCode code = some c) (ha : c ≠ .apply) :
    exec (commandRow code b) s = .next (passOn b (c.run (s.afterData b))) := by
  obtain ⟨x, hx, rfl⟩ := h.2
  rw [exec_commandBurst h hx, takeCommand_run hc (by rw [afterData_filter, hf]; exact screen_operating ha)]

/-- An argument names an OPEN record where the record of its index is OPEN. -/
theorem namesOpen_iff (s : State) (arg : Word) : s.namesOpen arg = true ↔ (s.link arg.toNat).isOpen = true := by
  unfold State.namesOpen
  rw [Bool.and_eq_true, decide_eq_true_eq]
  exact ⟨fun h => h.2, fun h => ⟨lt_of_isOpen h, h⟩⟩

/-! ### LINK_ADD (R73, R74) -/

/-- A node number from 1 to 254 is its low byte. -/
theorem node_eq_iff {arg : Word} (h : arg.toNat ≤ 254) (node : BitVec 8) : node = arg.setWidth 8 ↔ node.toNat = arg.toNat := by
  rw [← BitVec.toNat_inj, BitVec.toNat_setWidth, Nat.mod_eq_of_lt (by omega)]

section
variable {s : State}

/-- A node of 0 or of 255 and above. -/
theorem linkAdd_badNode (h : s.arg0.toNat = 0 ∨ 255 ≤ s.arg0.toNat) : linkAdd s = respond .badNode 0 s := if_pos h

variable (hlo : 1 ≤ s.arg0.toNat) (hhi : s.arg0.toNat ≤ 254)
include hlo hhi

/-- A node that an OPEN record has. -/
theorem linkAdd_dupNode {k : Nat} (hopen : (s.link k).isOpen = true) (hnode : (s.link k).node.toNat = s.arg0.toNat) :
    linkAdd s = respond .dupNode 0 s := by
  have hfound : (s.findNode (s.arg0.setWidth 8)).isSome = true := by
    rw [State.findNode, List.find?_isSome]
    refine ⟨k, List.mem_range.2 (lt_of_isOpen hopen), ?_⟩
    rw [hopen, Bool.true_and, beq_iff_eq]
    exact (node_eq_iff hhi _).2 hnode
  unfold linkAdd
  rw [if_neg (by omega), if_pos hfound]

variable (hfresh : ∀ k, (s.link k).isOpen = true → (s.link k).node.toNat ≠ s.arg0.toNat)
include hfresh

/-- A node that no OPEN record has: what is left is the first FREE record. -/
theorem linkAdd_fresh : linkAdd s = match s.lowestFree with
    | none => respond .tableFull 0 s
    | some k => respond .ok k (counting (openLink k (s.arg0.setWidth 8)) s) := by
  have hnone : s.findNode (s.arg0.setWidth 8) = none :=
    findNode_none fun k hopen hnode => hfresh k hopen ((node_eq_iff hhi _).1 hnode)
  unfold linkAdd
  rw [if_neg (by omega), hnone]
  exact if_neg (by decide)

/-- A fresh node with every record OPEN. -/
theorem linkAdd_tableFull (hopen : ∀ k, k < 32 → (s.link k).isOpen = true) : linkAdd s = respond .tableFull 0 s := by
  have hnone : s.lowestFree = none := by
    rw [State.lowestFree, List.find?_eq_none]
    intro k hk
    simp [hopen k (List.mem_range.1 hk)]
  rw [linkAdd_fresh hlo hhi hfresh, hnone]

/-- A fresh node opens the lowest FREE record. -/
theorem linkAdd_opens {k : Nat} (hk : k < 32) (hfree : (s.link k).isOpen = false) (hlower : ∀ j, j < k → (s.link j).isOpen = true) :
    linkAdd s = respond .ok k (counting (openLink k (s.arg0.setWidth 8)) s) := by
  have hlowest : s.lowestFree = some k := by
    rw [State.lowestFree, List.find?_range_eq_some]
    exact ⟨by simp [hfree], List.mem_range.2 hk, fun j hj => by simp [hlower j hj]⟩
  rw [linkAdd_fresh hlo hhi hfresh, hlowest]

end

/-- The opening of a FREE record in one event: the record's CHANGES rises, since it was not OPEN (R72, R74). -/
theorem counting_openLink {s : State} {k : Nat} (hfree : (s.link k).isOpen = false) (node : BitVec 8) :
    counting (openLink k node) s =
      { s with
        links := tset s.links k { (s.link k).opened node s.shadow.slices with changes := (s.link k).changes + 1 }
        pool := { s.pool with slots := tset s.pool.slots 0 { s.slot 0 with refs := (s.slot 0).refs + s.shadow.slices } } } := by
  have hcounted : Link.counted (s.link k) ((s.link k).opened node s.shadow.slices) =
      { (s.link k).opened node s.shadow.slices with changes := (s.link k).changes + 1 } :=
    counted_changed fun h => by
      have hopen := congrArg Link.isOpen h
      rw [show ({ s.link k with changes := 0 } : Link).isOpen = false from hfree] at hopen
      cases hopen
  rw [counting_one (f := openLink k node) (M := (s.link k).opened node s.shadow.slices) rfl, hcounted]
  rfl

/-- Settles O16: the three refusals in R73's order, each with the earlier ones passed. -/
theorem linkAddRefused : Obligations.LinkAddRefused := by
  rintro s b node r hburst hf rfl hcases
  have hrefused : linkAdd (s.afterData b) = respond r 0 (s.afterData b) := by
    rcases hcases with ⟨hnode, rfl⟩ | ⟨hlo, hhi, ⟨k, -, hopen, hnode⟩, rfl⟩ | ⟨hlo, hhi, hfull, rfl⟩
    · exact linkAdd_badNode hnode
    · rw [← afterData_link s b] at hopen hnode
      exact linkAdd_dupNode hlo hhi hopen hnode
    · simp only [← afterData_link s b] at hfull
      exact linkAdd_tableFull hlo hhi (fun k hopen => (hfull k (lt_of_isOpen hopen)).2) fun k hk => (hfull k hk).1
  exact (exec_command_operating (c := .linkAdd) hburst hf rfl (by decide)).trans (by rw [Command.run, hrefused]; rfl)

/-- Settles O17: the lowest FREE record is opened, and the event counts one change of it. -/
theorem linkAddOpens : Obligations.LinkAddOpens := by
  intro s b k hburst hf hlo hhi hfresh hk hfree hlower
  have hopens : linkAdd (s.afterData b) = _ := linkAdd_opens hlo hhi
    (fun j hopen => by rw [afterData_link] at hopen ⊢; exact hfresh j (lt_of_isOpen hopen) hopen) hk
    (by rw [afterData_link]; exact hfree) fun j hj => by rw [afterData_link]; exact hlower j hj
  have hslices : (s.afterData b).shadow.slices = s.shadow.slices := by rw [afterData_shadow]
  rw [counting_openLink (by rw [afterData_link]; exact hfree), hslices, afterData_links, afterData_link, afterData_pool,
    afterData_slot] at hopens
  exact (exec_command_operating (c := .linkAdd) hburst hf rfl (by decide)).trans (by rw [Command.run, hopens]; rfl)

/-! ### The commands that name a link (R75, R77, R78, R114, R146, R148) -/

/-- The commands whose ARG0 names a link that is to be OPEN. -/
def Command.namesLink : Command → Bool
  | .apply | .withdraw | .linkAdd => false
  | .linkRemove | .linkHold | .linkResume | .rebuild | .confirm | .decline => true

/-- They are those of the codes 4 to 9. -/
theorem ofCode_namesLink {n : Nat} (h4 : 4 ≤ n) (h9 : n ≤ 9) : ∃ c, Command.ofCode n = some c ∧ c.namesLink = true := by
  interval_cases n
  all_goals exact ⟨_, rfl, rfl⟩

/-- Where ARG0 names no OPEN record each of them is refused with BAD_LINK, before any other of its checks. -/
theorem run_badLink {c : Command} {s : State} (hc : c.namesLink = true) (h : s.namesOpen s.arg0 = false) :
    c.run s = respond .badLink 0 s := by
  have hrefusal : s.offerRefusal = some .badLink := by
    unfold State.offerRefusal
    rw [h]
    rfl
  cases c with
  | apply | withdraw | linkAdd => cases hc
  | linkRemove => rw [Command.run, linkRemove, h]; rfl
  | linkHold => rw [Command.run, linkHold, h]; rfl
  | linkResume => rw [Command.run, linkResume, h]; rfl
  | rebuild => rw [Command.run, rebuild, h]; rfl
  | confirm => rw [Command.run, confirm, hrefusal]
  | decline => rw [Command.run, decline, hrefusal]

/-- Settles O18: an index of 32 or above reads a FREE record, and a FREE record is none that these commands take. -/
theorem badLink : Obligations.BadLink := by
  intro s b code hburst hf h4 h9 hlink
  obtain ⟨c, hc, hnames⟩ := ofCode_namesLink h4 h9
  have hclosed : (s.afterData b).namesOpen (s.afterData b).arg0 = false := by
    rw [← Bool.not_eq_true, namesOpen_iff, afterData_link, Bool.not_eq_true]
    rcases hlink with hbeyond | hfree
    · rw [link_beyond s hbeyond]
      rfl
    · exact hfree
  rw [exec_command_operating hburst hf hc (by rintro rfl; cases hnames), run_badLink hnames hclosed]
  rfl

/-! ### LINK_HOLD and LINK_RESUME (R77, R78) -/

section
variable {s : State} (hopen : (s.link s.arg0.toNat).isOpen = true)
include hopen

/-- LINK_HOLD of a link in FALLBACK. -/
theorem linkHold_fallback (hm : (s.link s.arg0.toNat).mode = .fallback) : linkHold s = respond .wrongState 0 s := by
  unfold linkHold
  rw [(namesOpen_iff s s.arg0).2 hopen]
  exact if_pos hm

/-- LINK_HOLD of any other link: CHANGES rises where MODE was not HOLD yet (R72). -/
theorem linkHold_holds (hm : (s.link s.arg0.toNat).mode ≠ .fallback) : linkHold s = respond .ok 0
    { s with
      links := tset s.links s.arg0.toNat
        { s.link s.arg0.toNat with
          mode := .hold
          changes := if (s.link s.arg0.toNat).mode = .hold then (s.link s.arg0.toNat).changes
            else (s.link s.arg0.toNat).changes + 1 } } := by
  have hcounted : ∀ L : Link, Link.counted L { L with mode := .hold } =
      { L with mode := .hold, changes := if L.mode = .hold then L.changes else L.changes + 1 } := by
    intro L
    split
    · rename_i h
      rw [← h]
      exact counted_self L
    · rename_i h
      exact counted_changed fun he => h (congrArg Link.mode he)
  unfold linkHold
  rw [(namesOpen_iff s s.arg0).2 hopen]
  refine (if_neg hm).trans ?_
  rw [counting_one (f := fun t => t.setLink s.arg0.toNat { t.link s.arg0.toNat with mode := .hold }) rfl, hcounted]
  rfl

/-- LINK_RESUME: CHANGES rises where MODE was not ADAPTIVE or STREAK not 0 (R72). -/
theorem linkResume_resumes : linkResume s = respond .ok 0
    { s with
      links := tset s.links s.arg0.toNat
        { s.link s.arg0.toNat with
          mode := .adaptive
          streak := 0
          changes := if (s.link s.arg0.toNat).mode = .adaptive ∧ (s.link s.arg0.toNat).streak = 0 then
            (s.link s.arg0.toNat).changes else (s.link s.arg0.toNat).changes + 1 } } := by
  have hcounted : ∀ L : Link, Link.counted L { L with mode := .adaptive, streak := 0 } =
      { L with
        mode := .adaptive, streak := 0, changes := if L.mode = .adaptive ∧ L.streak = 0 then L.changes else L.changes + 1 } := by
    intro L
    split
    · rename_i h
      obtain ⟨hmode, hstreak⟩ := h
      rw [← hmode, ← hstreak]
      exact counted_self L
    · rename_i h
      exact counted_changed fun he => h ⟨congrArg Link.mode he, congrArg Link.streak he⟩
  unfold linkResume
  rw [(namesOpen_iff s s.arg0).2 hopen]
  refine (if_neg Bool.false_ne_true).trans ?_
  rw [counting_one (f := fun t => t.setLink s.arg0.toNat { t.link s.arg0.toNat with mode := .adaptive, streak := 0 }) rfl, hcounted]
  rfl

end

/-- Settles O20: MODE and STREAK by the command, and CHANGES by whether one of them changed. -/
theorem linkHeldOrResumed : Obligations.LinkHeldOrResumed := by
  rintro s b _ hf rfl - hopen
  have hopen' : ((s.afterData b).link (s.afterData b).arg0.toNat).isOpen = true := by rwa [afterData_link]
  refine ⟨fun hburst => ?_, fun hburst => ?_⟩
  · refine (exec_command_operating (c := .linkHold) hburst hf rfl (by decide)).trans ?_
    rw [Command.run]
    split
    · rename_i hm
      rw [linkHold_fallback hopen' (by rwa [afterData_link])]
      rfl
    · rename_i hm
      rw [linkHold_holds hopen' (by rwa [afterData_link]), afterData_links, afterData_link]
      rfl
  · refine (exec_command_operating (c := .linkResume) hburst hf rfl (by decide)).trans ?_
    rw [Command.run, linkResume_resumes hopen', afterData_links, afterData_link]
    rfl

end Sys2Proof.Machine
end

section
/-! PROOFS. LINK_REMOVE: the record, the queue and the job, and the order in which the slots it frees join the Free List (R75, R93, R94,
R113, R126, R132). -/
namespace Sys2Proof.Machine

/-! ### The link of the job -/

/-- The link that the Loading Engine's job is for. -/
def State.jobLink (s : State) : Option Nat := s.engine.job.map Job.link

/-- An allocation gives the job a slot, and leaves it its link. -/
@[simp] theorem jobLink_allocate (s : State) : (allocate s).jobLink = s.jobLink := by
  unfold allocate
  split
  · rename_i hj _
    simp [State.jobLink, hj]
  · rfl

@[simp] theorem jobLink_joinFree (n : Nat) (s : State) : (joinFree n s).jobLink = s.jobLink := by
  unfold joinFree handToWaiting
  split
  · rw [jobLink_allocate]
    rfl
  · rfl

@[simp] theorem jobLink_releaseRef (n : Nat) (s : State) : (releaseRef n s).jobLink = s.jobLink := by
  unfold releaseRef
  dsimp only
  split
  · rw [jobLink_joinFree]
    rfl
  · rfl

@[simp] theorem jobLink_releasePin (n : Nat) (s : State) : (releasePin n s).jobLink = s.jobLink := by
  unfold releasePin
  dsimp only
  split
  · rw [jobLink_joinFree]
    rfl
  · rfl

@[simp] theorem jobLink_dropFirstCell (k : Nat) (s : State) : (dropFirstCell k s).jobLink = s.jobLink := by
  unfold dropFirstCell
  split
  · rw [jobLink_releaseRef]
    rfl
  · rfl

@[simp] theorem jobLink_clearPending (k i : Nat) (s : State) : (clearPending k i s).jobLink = s.jobLink := by
  unfold clearPending
  split
  · rw [jobLink_releaseRef]
    rfl
  · rfl

@[simp] theorem jobLink_clearNext (k i : Nat) (s : State) : (clearNext k i s).jobLink = s.jobLink := by
  unfold clearNext
  split
  · rw [jobLink_releaseRef]
    rfl
  · rfl

@[simp] theorem jobLink_releaseLatch (k : Nat) (s : State) : (releaseLatch k s).jobLink = s.jobLink := by
  unfold releaseLatch
  split
  · rw [jobLink_releasePin]
    rfl
  · rfl

/-- Operations that each leave the job its link leave it together. -/
theorem jobLink_forSlices {f : Nat → State → State} (hf : ∀ i s, (f i s).jobLink = s.jobLink) (b : Nat) (s : State) :
    (forSlices b f s).jobLink = s.jobLink := by
  induction b with
  | zero => rfl
  | succ b ih => rw [forSlices_succ, hf, ih]

@[simp] theorem jobLink_clearPendings (k : Nat) (s : State) : (clearPendings k s).jobLink = s.jobLink :=
  jobLink_forSlices (jobLink_clearPending k) _ s

@[simp] theorem jobLink_clearNexts (k : Nat) (s : State) : (clearNexts k s).jobLink = s.jobLink :=
  jobLink_forSlices (jobLink_clearNext k) _ s

/-! ### The cancellation of a job (R132) -/

/-- The drop of a job leaves the engine idle, and its slot at the Free List's tail. -/
theorem dropJob_some {s : State} {j : Job} (hj : s.engine.job = some j) :
    (dropJob s).engine = Engine.idle ∧ (dropJob s).pool.freeList = s.pool.freeList ++ j.slot.toList := by
  unfold dropJob
  rw [hj]
  dsimp only
  cases j.slot with
  | none => exact ⟨rfl, (List.append_nil _).symm⟩
  | some n =>
    have hidle : (endJob s).jobWaits = false := rfl
    dsimp only
    rw [joinFree_idle n hidle]
    exact ⟨rfl, rfl⟩

/-- A job of the link is dropped. -/
theorem cancelJobOf_own {k : Nat} {s : State} {j : Job} (hj : s.engine.job = some j) (hl : j.link = k) :
    cancelJobOf k s = dropJob s := by
  unfold cancelJobOf
  rw [hj]
  exact if_pos hl

/-- Another link's job stays. -/
theorem cancelJobOf_other {k : Nat} {s : State} (h : s.jobLink ≠ some k) : cancelJobOf k s = s := by
  unfold cancelJobOf
  split
  · rename_i j hj
    exact if_neg fun hl => h (by rw [State.jobLink, hj, Option.map_some, hl])
  · rfl

/-- With no job of the link left the engine is idle, whatever slot the job had by then. -/
theorem cancelJobOf_idle {k : Nat} {s : State} (h : s.jobLink = some k) : (cancelJobOf k s).engine = Engine.idle := by
  obtain ⟨j, hj, hl⟩ := Option.map_eq_some_iff.1 h
  rw [cancelJobOf_own hj hl]
  exact (dropJob_some hj).1

/-- LINK_REMOVE's last part, the cancellation, meets the job with the link it had. -/
theorem removeLink_cancels (k : Nat) (s : State) :
    ∃ u, u.jobLink = s.jobLink ∧ (removeLink k s).engine = (cancelJobOf k u).engine := by
  refine ⟨dropQueueOf k (releaseLatch k (clearNexts k (clearPendings k
    (forSlices (s.link k).cells.length (fun _ => dropFirstCell k) s)))), ?_, rfl⟩
  have hcells := jobLink_forSlices (fun _ => jobLink_dropFirstCell k) (s.link k).cells.length s
  exact (jobLink_releaseLatch k _).trans ((jobLink_clearNexts k _).trans ((jobLink_clearPendings k _).trans hcells))

/-- A job of the link removed is gone, with its ready burst. -/
theorem removeLink_ownJob {k : Nat} {s : State} (h : s.jobLink = some k) : (removeLink k s).engine = Engine.idle := by
  obtain ⟨u, hu, he⟩ := removeLink_cancels k s
  rw [he, cancelJobOf_idle (hu.trans h)]

/-- LINK_REMOVE makes no job. -/
theorem removeLink_noJob {k : Nat} {s : State} (h : s.engine.job = none) : (removeLink k s).engine.job = none := by
  obtain ⟨u, hu, he⟩ := removeLink_cancels k s
  have hnone : u.jobLink = none := by rw [hu, State.jobLink, h]; rfl
  rw [he, cancelJobOf_other (by rw [hnone]; exact fun h => by cases h)]
  exact Option.map_eq_none_iff.1 hnone

/-! ### The slots freed before the cancellation, and the cancellation after them (R93, R94, R126, R132) -/

/-- The slots that an event frees leave the job its link, whether it takes one or not. -/
theorem Fate.jobLink {s u : State} {F : List Nat} (h : Fate s F u) : u.jobLink = s.jobLink := by
  by_cases hq : s.jobWaits = false ∨ F = []
  · rw [State.jobLink, (h.quiet hq).2]
    rfl
  · obtain ⟨hw, hF⟩ := not_or.1 hq
    obtain ⟨j, hj, hst, hs⟩ := jobWaits_job (Bool.not_eq_false _ ▸ hw)
    obtain ⟨f, rest, hl⟩ := List.exists_cons_of_ne_nil (l := s.pool.freeList ++ F) fun hn => hF (List.append_eq_nil_iff.1 hn).2
    obtain ⟨-, he, -⟩ := h.taken j f rest hj hst hs hF hl
    rw [State.jobLink, he, State.jobLink, hj]
    rfl

section
variable {s u : State} {F : List Nat} {k : Nat} (h : Fate s F u)
include h

/-- With no job waiting the freed slots join the list, and then the slot of a job of the link. -/
theorem Fate.cancel_quiet (hw : s.jobWaits = false) : (cancelJobOf k u).pool.freeList = s.pool.freeList ++ F
    ++ (match s.engine.job with
      | some j => if j.link = k then j.slot.toList else []
      | none => []) := by
  obtain ⟨hlist, hengine⟩ := h.quiet (Or.inl hw)
  cases hj : s.engine.job with
  | none =>
    rw [cancelJobOf_other (by rw [h.jobLink, State.jobLink, hj]; exact fun h => by cases h), hlist, List.append_nil]
  | some j =>
    dsimp only
    by_cases hl : j.link = k
    · have hju : u.engine.job = some j := by rw [hengine, hj]
      rw [cancelJobOf_own hju hl, (dropJob_some hju).2, hlist, if_pos hl]
    · rw [cancelJobOf_other (by rw [h.jobLink, State.jobLink, hj]; exact fun h => hl (Option.some.inj h)), hlist, if_neg hl,
        List.append_nil]

variable {j : Job} (hj : s.engine.job = some j) (hs : j.slot = none) (hl : j.link = k)
include hj hs hl

/-- A waiting job of the link, with no slot freed, has none to give back. -/
theorem Fate.cancel_none (hF : F = []) : (cancelJobOf k u).pool.freeList = s.pool.freeList := by
  obtain ⟨hlist, hengine⟩ := h.quiet (Or.inr hF)
  have hju : u.engine.job = some j := by rw [hengine, hj]
  rw [cancelJobOf_own hju hl, (dropJob_some hju).2, hlist, hF, hs, List.append_nil]
  exact List.append_nil _

/-- A waiting job of the link takes the first slot freed, and gives it back. -/
theorem Fate.cancel_taken (hst : j.stage = .allocate) {f : Nat} {rest : List Nat} (hF : F ≠ []) (hc : s.pool.freeList ++ F = f :: rest) :
    (cancelJobOf k u).pool.freeList = rest ++ [f] := by
  obtain ⟨hlist, hengine, -⟩ := h.taken j f rest hj hst hs hF hc
  have hju : u.engine.job = some { j with stage := .write, slot := some f, pos := 0 } := by rw [hengine]
  rw [cancelJobOf_own hju hl, (dropJob_some hju).2, hlist]
  rfl

end

/-! ### The command -/

/-- The laws of the pool take no account of the data words. -/
theorem poolLaws_afterData {s : State} (h : s.PoolLaws) (b : WriteBurst) : (s.afterData b).PoolLaws := by
  obtain ⟨_, _, _, _, _, _, hframe⟩ := afterData_frame s b
  rw [hframe]
  exact h

/-- Nothing is freed by the data words. -/
theorem fate_afterData (s : State) (b : WriteBurst) : Fate s [] (s.afterData b) :=
  Fate.stay (afterData_shadow s b) (fun k => by rw [afterData_link]) (afterData_pool s b) (afterData_engine s b)

/-- The state with the record of link k FREE, one change on, without its queue entries and its act owed, and with another pool, engine and
path. -/
def State.withoutLink (s : State) (k : Nat) (pool : Pool) (engine : Engine) (path : Path) : State :=
  { s with
    links := tset s.links k { Link.free with changes := (s.link k).changes + 1 }
    pool := pool
    engine := engine
    path := path
    buildQueue := s.buildQueue.filter fun q => q.link != k
    owed := s.owed.filter (· != k) }

/-- LINK_REMOVE of an OPEN link in one event, up to the slots it frees and the job (R72, R75, R113). -/
theorem counting_removeLink {k : Nat} {s : State} (hopen : (s.link k).isOpen = true) :
    ∃ path, counting (removeLink k) s = s.withoutLink k (removeLink k s).pool (removeLink k s).engine path := by
  obtain ⟨_, _, path, hframe⟩ := removeLink_frame (lt_of_isOpen hopen) s
  have hcounted : Link.counted (s.link k) { Link.free with changes := (s.link k).changes } =
      { Link.free with changes := (s.link k).changes + 1 } :=
    counted_changed fun h => by
      have hclosed := congrArg Link.isOpen h
      rw [show ({ s.link k with changes := 0 } : Link).isOpen = true from hopen] at hclosed
      cases hclosed
  refine ⟨path, ?_⟩
  rw [counting_one (by rw [hframe]), hcounted, hframe]
  rfl

/-- A LINK_REMOVE burst for an OPEN link: the link removed after the data words, RESULT, and the burst passes. -/
theorem exec_linkRemove {s : State} {b : WriteBurst} {k : Nat} (hburst : CommandBurst s b 4) (hf : s.filter = .operating)
    (harg : (s.afterData b).arg0.toNat = k) (hopen : (s.link k).isOpen = true) :
    exec (.linkRemove b) s = .next (passOn b (respond .ok 0 (counting (removeLink k) (s.afterData b)))) := by
  have hnames : (s.afterData b).namesOpen (s.afterData b).arg0 = true := by
    rw [namesOpen_iff, afterData_link, harg]
    exact hopen
  refine (exec_command_operating (c := .linkRemove) hburst hf rfl (by decide)).trans ?_
  rw [Command.run, linkRemove, if_pos hnames, harg]

/-- What LINK_REMOVE frees of the link's entries and latch, in the order of its releases, and then the cancellation of its job. -/
theorem removeLink_freed {s : State} {b : WriteBurst} {k : Nat} {released freed : List Nat} (hlaws : s.PoolLaws) (hf : s.filter = .operating)
    (hopen : (s.link k).isOpen = true)
    (hreleased : released = (s.link k).cells ++ (s.link k).pendingSet.filterMap id ++ (s.link k).nextSet.filterMap id)
    (hfreed : freed = s.freed released
      ++ (match (s.link k).latch with
        | some l =>
          if l.slot ≠ 0 ∧ (s.slot l.slot).pins = 1 ∧ (s.slot l.slot).refs = released.count l.slot then [l.slot] else []
        | none => [])) :
    ∃ u, Fate s freed u ∧ (removeLink k (s.afterData b)).pool = (cancelJobOf k u).pool
      ∧ (removeLink k (s.afterData b)).engine = (cancelJobOf k u).engine := by
  have hready : Ready (s.afterData b) := Ready.of (poolLaws_afterData hlaws b) (by rw [afterData_filter, hf]; exact fun h => by cases h)
  obtain ⟨u, hpool, hengine, hfate⟩ := fate_removeLink hready (k := k) (by rw [afterData_link]; exact hopen)
  refine ⟨dropQueueOf k u, ?_, hpool, hengine⟩
  have hall := (fate_afterData s b).trans (hfate.trans (Fate.stay (t := dropQueueOf k u) rfl (fun _ => rfl) rfl rfl))
  have hsame : ∀ l, (s.afterData b).freed l = s.freed l := fun l => by simp only [State.freed, afterData_slot]
  rw [List.nil_append, List.append_nil, hsame, afterData_link, ← hreleased] at hall
  simp only [afterData_slot] at hall
  rw [hfreed]
  exact hall

/-- Settles O19: LINK_REMOVE's frame gives what stays, and what becomes of the freed slots and of the job gives the Free List. -/
theorem linkRemoved : Obligations.LinkRemoved := by
  intro s b k hburst hf harg hk hopen
  obtain ⟨path, hevent⟩ := counting_removeLink (s := s.afterData b) (k := k) (by rw [afterData_link]; exact hopen)
  have hexec := exec_linkRemove hburst hf harg hopen
  have hjobLink : (s.afterData b).jobLink = s.jobLink := by rw [State.jobLink, afterData_engine]; rfl
  have hown : s.jobLink = some k → (removeLink k (s.afterData b)).engine = Engine.idle := fun h => removeLink_ownJob (hjobLink.trans h)
  have hnone : s.engine.job = none → (removeLink k (s.afterData b)).engine.job = none := fun h =>
    removeLink_noJob (by rw [afterData_engine, h])
  have hfreed := fun released freed hlaws => removeLink_freed (b := b) (released := released) (freed := freed) hlaws hf hopen
  rw [hevent] at hexec
  generalize (removeLink k (s.afterData b)).pool = pool at *
  generalize (removeLink k (s.afterData b)).engine = engine at *
  have hpool' : (passOn b (respond .ok 0 ((s.afterData b).withoutLink k pool engine path))).pool = pool := settle_pool _
  refine ⟨_, hexec, ?_, ?record, ?others, ?_, ?ownJob, ?noJob, ?_, ?_, ?_, ?_, ?_, ?_, ?_, ?_, ?_, ?_, ?_, ?freeList⟩
  case record => simp [passOn, forward, State.withoutLink, State.link, tget_tset_same _ _ _ hk]
  case others =>
    intro j hj
    simp [passOn, forward, State.withoutLink, State.link, tget_tset_ne _ _ _ (Ne.symm hj)]
  case ownJob =>
    intro j hj hl
    have hidle := hown (by rw [State.jobLink, hj, Option.map_some, hl])
    refine ⟨?_, settle_engine_idle ?_⟩
    · simp [passOn, forward, State.withoutLink, hidle, Engine.idle]
    · simp [forward, State.withoutLink, hidle, Engine.idle]
  case noJob =>
    intro hj
    simp [passOn, forward, State.withoutLink, hnone hj]
  case freeList =>
    intro released freed hlaws hreleased hfreed'
    obtain ⟨u, hfate, hpool, hengine⟩ := hfreed released freed hlaws hreleased hfreed'
    refine ⟨fun hw => ?_, fun j hj hst hs => ⟨fun hl => ?_, fun hl hF => ?_, fun f rest hl hF hc => ?_⟩⟩
    · rw [hpool', hpool]
      exact hfate.cancel_quiet hw
    · have hother : cancelJobOf k u = u :=
        cancelJobOf_other (by rw [hfate.jobLink, State.jobLink, hj]; exact fun h => hl (Option.some.inj h))
      rw [hother] at hpool hengine
      refine hfate.freedJoin (hpool'.trans hpool) ?_ fun p hp => settle_engine_ready _ ?_
      · simp [passOn, forward, State.withoutLink, hengine]
      · simp [forward, State.withoutLink, hengine, hp]
    · rw [hpool', hpool]
      exact hfate.cancel_none hj hs hl hF
    · rw [hpool', hpool]
      exact hfate.cancel_taken hj hs hl hst hF hc
  all_goals simp [passOn, forward, State.withoutLink, SameTracker, SameApplier, SameMemory, SameNotices]

end Sys2Proof.Machine
end

section
/-! PROOFS. The change count: an event counts one change of each record that it changes in a rendered field (R72). -/
namespace Sys2Proof.Machine

/-! ### One record (R72) -/

/-- What R72 says of a record L and the record M that it is after an event. -/
def CountsChange (L M : Link) : Prop :=
  if { M with changes := 0 } = { L with changes := 0 } then M.changes = L.changes else M.changes = L.changes + 1

/-- A record that stays counts no change. -/
theorem countsChange_self (L : Link) : CountsChange L L := by
  unfold CountsChange
  rw [if_pos rfl]

/-- The change count of an event that has not touched CHANGES itself. -/
theorem countsChange_counted {L M : Link} (h : M.changes = L.changes) : CountsChange L (Link.counted L M) := by
  unfold CountsChange Link.counted
  by_cases hsame : { L with changes := 0 } = { M with changes := 0 }
  · rw [if_pos hsame, if_pos hsame.symm]
    exact h
  · rw [if_neg hsame]
    exact (if_neg (Ne.symm hsame)).mpr rfl

/-! ### Every record -/

/-- Every record's CHANGES is as it was. -/
def SameChanges (s t : State) : Prop := ∀ k, (t.link k).changes = (s.link k).changes

/-- Every record counts a change as R72 says. -/
def CountsChanges (s t : State) : Prop := ∀ k, CountsChange (s.link k) (t.link k)

theorem SameChanges.trans {s t u : State} (h : SameChanges s t) (h' : SameChanges t u) : SameChanges s u :=
  fun k => (h' k).trans (h k)

/-- An event that leaves the Link Table. -/
theorem SameChanges.of_links {s t : State} (h : t.links = s.links) : SameChanges s t := fun k => by
  unfold State.link
  rw [h]

/-- An event that replaces one record by one of the same CHANGES. -/
theorem SameChanges.of_tset {s t : State} {k : Nat} {M : Link} (h : t.links = tset s.links k M) (hM : M.changes = (s.link k).changes) :
    SameChanges s t := by
  intro j
  rw [link_of_tset h]
  split
  · rename_i hj
    rw [← hj.1]
    exact hM
  · rfl

/-- An event that leaves the Link Table counts no change. -/
theorem CountsChanges.of_links {s t : State} (h : t.links = s.links) : CountsChanges s t := fun k => by
  have hk : t.link k = s.link k := by unfold State.link; rw [h]
  rw [hk]
  exact countsChange_self _

/-- An event under the change count, which leaves CHANGES to it. -/
theorem CountsChanges.counting {f : State → State} {s : State} (h : SameChanges s (f s)) : CountsChanges s (counting f s) := by
  intro k
  rw [link_counting]
  split
  · exact countsChange_counted (h k)
  · rename_i hk
    rw [link_beyond s (Nat.not_lt.1 hk)]
    exact countsChange_self _

/-- Only the link records matter, before the event and after it. -/
theorem CountsChanges.congr {s s' t t' : State} (h : CountsChanges s t) (hs : s'.links = s.links) (ht : t'.links = t.links) :
    CountsChanges s' t' := by
  intro k
  rw [State.link, State.link, hs, ht]
  exact h k

/-! ### What leaves CHANGES: Switchover and the loss (08, R151) -/

/-- The offer test. -/
theorem SameChanges.offerTest (k : Nat) (s : State) : SameChanges s (offerTest k s) := by
  unfold Machine.offerTest
  split
  · exact .of_tset rfl (by rfl)
  · exact .of_links rfl

/-- A result that starts or renumbers a pending set. -/
theorem SameChanges.newPendingSet (k i n : Nat) (s : State) : SameChanges s (newPendingSet k i n s) := by
  obtain ⟨_, _, h⟩ := setPending_frame k i n s
  have hset : SameChanges s (setPending k i n s) := .of_tset (congrArg State.links h) (by rfl)
  exact (hset.trans (.of_tset rfl (by rfl))).trans (.offerTest k _)

/-- The taking of a build result (R138 to R141). -/
theorem SameChanges.takeResult (k i n : Nat) (s : State) : SameChanges s (takeResult k i n s) := by
  unfold Machine.takeResult
  split
  · split
    · exact .newPendingSet k i n s
    · obtain ⟨_, _, h⟩ := setPending_frame k i n s
      exact SameChanges.trans (.of_tset (congrArg State.links h) (by rfl)) (.offerTest k _)
    · exact .newPendingSet k i n s
    · obtain ⟨_, _, h⟩ := setNext_frame k i n s
      exact .of_tset (congrArg State.links h) (by rfl)
  · exact .of_links rfl

/-- The entry to FALLBACK (R145). -/
theorem SameChanges.enterFallback {k : Nat} (hk : k < 32) (s : State) : SameChanges s (enterFallback k s) := by
  obtain ⟨_, _, _, _, _, h, rfl, _⟩ := enterFallback_eq hk s
  exact .of_tset (congrArg State.links h) (by rfl)

/-- The expiry of an offer (R144). -/
theorem SameChanges.expireOffer {k : Nat} (hk : k < 32) (s : State) : SameChanges s (expireOffer k s) := by
  obtain ⟨_, _, _, h⟩ := expireOffer_eq hk s
  rw [h]
  dsimp only
  split
  · exact SameChanges.trans (.of_tset rfl (by rfl)) (.enterFallback hk _)
  · exact .of_tset rfl (by rfl)

/-- The dealing with the next set (R150). -/
theorem SameChanges.promoteNext (k : Nat) (s : State) : SameChanges s (promoteNext k s) := by
  unfold Machine.promoteNext
  dsimp only
  split
  · exact SameChanges.trans (.of_tset rfl (by rfl)) (.offerTest k _)
  · exact .of_tset rfl (by rfl)

/-- The flip (R149). -/
theorem SameChanges.flipLink {k : Nat} (hk : k < 32) (s : State) : SameChanges s (flipLink k s) := by
  obtain ⟨_, _, _, _, h⟩ := flipLink_eq hk s
  rw [h]
  exact SameChanges.trans (.of_tset rfl (by rfl)) (.promoteNext k _)

/-- A link's wait runs. -/
theorem tick_changes (L : Link) : L.tick.changes = L.changes := by
  unfold Link.tick
  split <;> rfl

/-- A link's act at a start (R143). -/
theorem SameChanges.actAtStart (k : Nat) (s : State) : SameChanges s (actAtStart k s) := by
  have htick : SameChanges s (s.setLink k (s.link k).tick) := .of_tset rfl (tick_changes _)
  unfold Machine.actAtStart
  dsimp only
  split
  · rename_i hopen
    have hk := lt_of_isOpen hopen
    split
    · exact .of_links rfl
    · exact htick.trans (.offerTest k _)
    · split
      · exact htick.trans (.expireOffer hk _)
      · exact htick
    · split
      · exact .flipLink hk s
      · exact .of_links rfl
  · exact .of_links rfl

/-- The announcement of a start (R143). -/
theorem SameChanges.announceStart (s : State) : SameChanges s (announceStart s) := by
  intro k
  by_cases hk : k < 32
  · rw [link_announceStart s hk]
    split
    · exact tick_changes _
    · rfl
  · rw [link_beyond _ (Nat.not_lt.1 hk), link_beyond _ (Nat.not_lt.1 hk)]

/-- A start announced under another tracker. -/
theorem SameChanges.announced (s : State) (T : Tracker) : SameChanges s (Machine.announceStart { s with tracker := T }) :=
  SameChanges.announceStart { s with tracker := T }

/-- The sweep of a record (R151). -/
theorem swept_changes (L : Link) : L.swept.changes = L.changes := by
  unfold Link.swept
  split <;> rfl

/-- The loss of lock, whatever the order of its releases (R56, R151). -/
theorem SameChanges.loseLock (s : State) : SameChanges s (loseLock s) := by
  intro k
  by_cases hk : k < 32
  · obtain ⟨u, hu⟩ : ∃ u, u = sweepAll (Config.lossOrder s.choices) s.losing := ⟨_, rfl⟩
    obtain ⟨_, _, _, _, hparts, -⟩ := lossItems_partSwept (Config.lossOrder s.choices) s.losing k
    have hlink : (Machine.loseLock s).link k = u.link k := by rw [loseLock_eq hu.symm]; rfl
    rw [hlink, hu, sweepAll, link_dropJob, link_forLinks (g := fun L => { L with latch := none }) releaseLatch_links _ hk,
      link_forLinks sweepLink_links _ hk, hparts]
    exact swept_changes _
  · rw [link_beyond _ (Nat.not_lt.1 hk), link_beyond _ (Nat.not_lt.1 hk)]

/-- A missed window (R53, R55). -/
theorem SameChanges.missWindow (s : State) : SameChanges s (missWindow s) := by
  unfold Machine.missWindow
  split
  · dsimp only
    split
    · exact .announced s _
    · exact .announced s _
  · exact .loseLock s

/-- An edge in SEARCH (R47 to R49). -/
theorem SameChanges.searchEdge (s : State) : SameChanges s (searchEdge s) := by
  unfold Machine.searchEdge
  split
  · exact .of_links rfl
  · split
    · exact .of_links rfl
    · dsimp only
      split
      · exact .announced s _
      · exact .of_links rfl

/-- An edge in LOCKED or HOLDOVER (R50 to R54). -/
theorem SameChanges.lockedEdge (s : State) : SameChanges s (lockedEdge s) := by
  unfold Machine.lockedEdge acceptEdge
  split
  · exact .of_links rfl
  · split
    · exact .of_links rfl
    · dsimp only
      split
      · exact .announced s _
      · exact .announced s _

/-- An edge of ZC_IN (R45 to R50). -/
theorem SameChanges.edge (s : State) : SameChanges s (edge s) := by
  have hmiss : SameChanges s (if s.missDue then Machine.missWindow s else s) := by
    split
    · exact .missWindow s
    · exact .of_links rfl
  unfold Machine.edge
  dsimp only
  split
  · exact hmiss
  · exact hmiss.trans (.searchEdge _)
  · exact hmiss.trans (.lockedEdge _)
  · exact hmiss.trans (.lockedEdge _)

/-! ### What leaves CHANGES: the ends of a job (07) -/

/-- An operation on the job. -/
theorem SameChanges.withJob {f : Job → State → State} (h : ∀ j s, SameChanges s (f j s)) (s : State) :
    SameChanges s (withJob f s) := by
  unfold Machine.withJob
  split
  · exact h _ s
  · exact .of_links rfl

/-- A job that ends without a result, or is cancelled, leaves BUILD_MEAN alone (R121, R124). -/
theorem SameChanges.endUnchanged (j : Job) (s : State) : SameChanges s (endUnchanged j s) := .of_tset (k := j.link) rfl rfl

/-- A job that ends with a result (R128). -/
theorem SameChanges.handOff (j : Job) (n : Nat) (s : State) : SameChanges s (handOff j n s) :=
  SameChanges.trans (.endUnchanged j s) (.takeResult j.link j.slice n _)

/-- The examination of the candidates leaves the Link Table (R123). -/
theorem examineFrom_links (i : Nat) (s : State) : (examineFrom i s).links = s.links := by
  obtain ⟨_, _, _, h⟩ := examineFrom_frame i s
  rw [h]

/-- The entry to MATCH (R121). -/
theorem SameChanges.enterMatch (s : State) : SameChanges s (enterMatch s) := by
  refine .withJob (fun j s => ?_) s
  dsimp only
  split
  · split
    · exact .endUnchanged j s
    · exact .handOff j 0 s
  · exact .of_links (examineFrom_links _ _)

/-- A matching candidate (R124). -/
theorem SameChanges.useMatch (n : Nat) (issue : BitVec 8) (s : State) : SameChanges s (useMatch n issue s) := by
  refine .withJob (fun j s => ?_) s
  split
  · split
    · exact .endUnchanged j s
    · exact .handOff j n s
  · exact .of_links (examineFrom_links _ _)

/-- A candidate's burst (R123). -/
theorem SameChanges.candidateRead (ws : List Word) (s : State) : SameChanges s (candidateRead ws s) := by
  refine .withJob (fun j s => ?_) s
  split
  · exact .of_links rfl
  · split
    · split
      · exact .of_links rfl
      · exact .useMatch _ _ s
    · exact .of_links (examineFrom_links _ _)

/-- An SNR burst (R119). -/
theorem SameChanges.snrRead (ws : List Word) (s : State) : SameChanges s (snrRead ws s) := by
  refine .withJob (fun j s => ?_) s
  dsimp only
  split
  · exact .of_links rfl
  · exact .enterMatch _

/-- The header's burst of a job (R128). -/
theorem SameChanges.headerWritten (s : State) : SameChanges s (headerWritten s) := by
  refine .withJob (fun j s => ?_) s
  split
  · exact .of_links rfl
  · exact .handOff j _ s

/-- A header read leaves the Link Table (R118). -/
theorem headerRead_links (ws : List Word) (s : State) : (headerRead ws s).links = s.links := by
  obtain ⟨_, _, _, _, h⟩ := headerRead_frame ws s
  rw [h]

/-- So does a loading-word burst (R127). -/
theorem loadingWritten_links (s : State) : (loadingWritten s).links = s.links := by
  unfold loadingWritten withJob
  split
  · dsimp only
    repeat' split
    all_goals rfl
  · rfl

/-- So does the burst of a client that has ended (R117). -/
theorem readyHeaderRead_links (s : State) : (readyHeaderRead s).links = s.links := by
  unfold readyHeaderRead withJob
  split
  · dsimp only
    repeat' split
    all_goals rfl
  · rfl

/-- So does a notice's burst (R176). -/
theorem noticeWritten_links (s : State) : (noticeWritten s).links = s.links := by
  unfold noticeWritten
  split <;> rfl

/-- So does a burst's landing in memory (R3). -/
theorem finishBurst_links (s : State) : (finishBurst s).links = s.links := by
  unfold finishBurst
  split <;> rfl

/-- The end of an internal burst is one event. -/
theorem CountsChanges.onBurstDone {u : PortUse} {f : List Word → State → State} (h : ∀ ws v, SameChanges v (f ws v)) (s : State) :
    CountsChanges s (onBurstDone u f s) := by
  unfold Machine.onBurstDone
  split
  · exact (CountsChanges.counting (h _ (finishBurst s))).congr (finishBurst_links s).symm (settle_links _)
  · exact .of_links rfl

/-! ### Arrivals: at most one act of a burst is an event of the Link Table -/

/-- Where the part stays on its side of TRANSPARENT the change counts are R72's. APPLY and WITHDRAW, which set every record anew, leave
it. -/
def CountsIfStays (s t : State) : Prop := (s.filter = .transparent ↔ t.filter = .transparent) → CountsChanges s t

/-- An act that leaves the Link Table and the filter state. -/
def PlainAct (f : State → State) : Prop := ∀ s, (f s).links = s.links ∧ (f s).filter = s.filter

theorem CountsChanges.ifStays {s t : State} (h : CountsChanges s t) : CountsIfStays s t := fun _ => h

/-- Only the link records and the filter state matter. -/
theorem CountsIfStays.congr {s s' t t' : State} (h : CountsIfStays s t) (hs : s'.links = s.links ∧ s'.filter = s.filter)
    (ht : t'.links = t.links ∧ t'.filter = t.filter) : CountsIfStays s' t' := fun hstays =>
  (h (by rwa [hs.2, ht.2] at hstays)).congr hs.1 ht.1

theorem PlainAct.ifStays {f : State → State} (h : PlainAct f) (s : State) : CountsIfStays s (f s) :=
  (CountsChanges.of_links (h s).1).ifStays

/-- Plain acts are plain together. -/
theorem PlainAct.runActs {acts : List (State → State)} (h : ∀ f ∈ acts, PlainAct f) : PlainAct (runActs acts) := by
  induction acts with
  | nil => exact fun _ => ⟨rfl, rfl⟩
  | cons f acts ih =>
    intro s
    obtain ⟨hlinks, hfilter⟩ := ih (fun g hg => h g (List.mem_cons_of_mem _ hg)) (f s)
    obtain ⟨hlinks', hfilter'⟩ := h f List.mem_cons_self s
    exact ⟨hlinks.trans hlinks', hfilter.trans hfilter'⟩

/-- Acts of which one alone, if any, is not plain: they count what it counts. -/
theorem CountsIfStays.runActs {acts : List (State → State)} (hone : acts.Pairwise fun f g => PlainAct f ∨ PlainAct g)
    (h : ∀ f ∈ acts, ∀ s, CountsIfStays s (f s)) (s : State) : CountsIfStays s (runActs acts s) := by
  induction acts generalizing s with
  | nil => exact (CountsChanges.of_links rfl).ifStays
  | cons f acts ih =>
    obtain ⟨hf, hacts⟩ := List.pairwise_cons.1 hone
    by_cases hplain : PlainAct f
    · exact (ih hacts (fun g hg => h g (List.mem_cons_of_mem _ hg)) (f s)).congr
        ⟨(hplain s).1.symm, (hplain s).2.symm⟩ ⟨rfl, rfl⟩
    · have hrest : PlainAct (Machine.runActs acts) := .runActs fun g hg => (hf g hg).resolve_left hplain
      exact (h f List.mem_cons_self s).congr ⟨rfl, rfl⟩ (hrest (f s))

/-- The GUARD notice of a partial write is plain. -/
theorem plainAct_guardPartial (g : GuardWindow) (a : Nat) : PlainAct (guardPartial g a) := by
  intro s
  unfold guardPartial
  split <;> exact ⟨rfl, rfl⟩

/-- The acts of a burst, wherever the GUARD notice of a partial write stands among them. -/
theorem CountsIfStays.takeSnooped {acts : List (State → State)} (hone : acts.Pairwise fun f g => PlainAct f ∨ PlainAct g)
    (h : ∀ f ∈ acts, ∀ s, CountsIfStays s (f s)) (g : GuardWindow) (b : WriteBurst) (w lo hi : Nat) (s : State) :
    CountsIfStays s (takeSnooped g b w lo hi acts s) := by
  unfold Machine.takeSnooped
  dsimp only
  split
  · exact (CountsIfStays.runActs hone h _).congr (s := { s with choices := s.choices + 1 }) ⟨rfl, rfl⟩ ⟨rfl, rfl⟩
  · split
    · exact (CountsIfStays.runActs hone h _).congr (s := { s with choices := s.choices + 1 }) ⟨rfl, rfl⟩ ⟨rfl, rfl⟩
    · rename_i a _
      generalize Config.guardPlace s.choices = p
      have hguard := plainAct_guardPartial g a
      have hperm : (acts.take p ++ guardPartial g a :: acts.drop p).Perm (guardPartial g a :: acts) := by
        simpa using List.perm_middle (a := guardPartial g a) (l₁ := acts.take p) (l₂ := acts.drop p)
      have hone' := (hperm.pairwise_iff (R := fun f g => PlainAct f ∨ PlainAct g) Or.symm).2
        (List.pairwise_cons.2 ⟨fun _ _ => Or.inl hguard, hone⟩)
      have hacts : ∀ f ∈ acts.take p ++ guardPartial g a :: acts.drop p, ∀ s, CountsIfStays s (f s) := by
        intro f hf s
        rcases List.mem_cons.1 (hperm.mem_iff.1 hf) with rfl | hf
        · exact hguard.ifStays s
        · exact h f hf s
      exact (CountsIfStays.runActs hone' hacts _).congr (s := { s with choices := s.choices + 1 }) ⟨rfl, rfl⟩ ⟨rfl, rfl⟩

/-- Plain acts before others. -/
theorem pairwise_plain_append {l r : List (State → State)} (hl : ∀ f ∈ l, PlainAct f)
    (hr : r.Pairwise fun f g => PlainAct f ∨ PlainAct g) : (l ++ r).Pairwise fun f g => PlainAct f ∨ PlainAct g := by
  refine List.pairwise_append.2 ⟨?_, hr, fun f hf _ _ => Or.inl (hl f hf)⟩
  exact List.pairwise_of_forall_mem_list fun f hf _ _ => Or.inl (hl f hf)

/-! ### The mailbox (R29, R30) -/

/-- A data word of the mailbox is plain. -/
theorem plainAct_takeMailboxData (w : Nat) (x : Word) : PlainAct (takeMailboxData w x) := by
  intro s
  unfold takeMailboxData consume
  dsimp only
  repeat' split
  all_goals exact ⟨rfl, rfl⟩

/-- A link command is one event. -/
theorem CountsChanges.linkCommand {c : Command} (ha : c ≠ .apply) (hw : c ≠ .withdraw) (s : State) :
    CountsChanges s (c.run s) := by
  have hrefused : ∀ r v, CountsChanges s (respond r v s) := fun r v => .of_links rfl
  have hevent : ∀ {f : State → State} (r v), SameChanges s (f s) → CountsChanges s (respond r v (Machine.counting f s)) :=
    fun r v h => (CountsChanges.counting h).congr rfl rfl
  cases c with
  | apply => exact absurd rfl ha
  | withdraw => exact absurd rfl hw
  | linkAdd =>
    simp only [Command.run, linkAdd]
    split
    · exact hrefused _ _
    · split
      · exact hrefused _ _
      · split
        · exact hrefused _ _
        · exact hevent (f := openLink _ _) _ _ (.of_tset rfl (by rfl))
  | linkRemove =>
    simp only [Command.run, linkRemove]
    split
    · rename_i h
      obtain ⟨_, _, _, hframe⟩ := removeLink_frame (namesOpen_lt h) s
      exact hevent _ _ (.of_tset (congrArg State.links hframe) (by rfl))
    · exact hrefused _ _
  | linkHold =>
    simp only [Command.run, linkHold]
    split
    · exact hrefused _ _
    · split
      · exact hrefused _ _
      · exact hevent _ _ (.of_tset rfl (by rfl))
  | linkResume =>
    simp only [Command.run, linkResume]
    split
    · exact hrefused _ _
    · exact hevent _ _ (.of_tset rfl (by rfl))
  | rebuild =>
    simp only [Command.run, rebuild]
    split
    · exact hrefused _ _
    · split
      · exact hrefused _ _
      · split
        · exact hrefused _ _
        · exact .of_links rfl
  | confirm =>
    simp only [Command.run, confirm]
    split
    · exact hrefused _ _
    · split
      · exact hrefused _ _
      · exact hevent _ _ (.of_tset rfl (by rfl))
  | decline =>
    simp only [Command.run, decline]
    split
    · exact hrefused _ _
    · rename_i h
      obtain ⟨_, _, hframe⟩ := discardOffer_frame (lt32 (offerRefusal_open h)) s
      exact hevent _ _ (.of_tset (congrArg State.links hframe) (by rfl))

/-- A command word: APPLY and WITHDRAW, where they are accepted, leave their side of TRANSPARENT. -/
theorem CountsIfStays.takeCommand (x : Word) (s : State) : CountsIfStays s (takeCommand x s) := by
  have hrefused : ∀ r v, CountsIfStays s (respond r v s) := fun r v => (CountsChanges.of_links rfl).ifStays
  unfold Machine.takeCommand
  split
  · exact hrefused _ _
  · rename_i c _
    split
    · exact hrefused _ _
    · rename_i hscreen
      by_cases ha : c = .apply
      · subst ha
        show CountsIfStays s (applyCommand s)
        unfold applyCommand
        split
        · exact hrefused _ _
        · intro hstays
          have hleft : FilterState.applying = .transparent := hstays.1 (transparent_of_screen_apply hscreen)
          cases hleft
      · by_cases hw : c = .withdraw
        · subst hw
          exact fun hstays => absurd (hstays.2 rfl) (active_of_screen ha hscreen)
        · exact (CountsChanges.linkCommand ha hw s).ifStays

/-- A mailbox burst: its data words are plain, and it carries one command at most. -/
theorem CountsIfStays.mailbox (b : WriteBurst) (w : Nat) (s : State) :
    CountsIfStays s (Machine.takeSnooped .anchor b w 8 12 (mailboxActs b w) s) := by
  have hdata : ∀ f ∈ mailboxData b w, PlainAct f := by
    intro f hf
    obtain ⟨word, x, rfl⟩ := mem_mailboxData hf
    exact plainAct_takeMailboxData word x
  have hone : ((codeWord b w).map Machine.takeCommand).toList.Pairwise fun f g => PlainAct f ∨ PlainAct g := by
    cases codeWord b w with
    | none => exact .nil
    | some x => exact List.pairwise_singleton _ _
  refine .takeSnooped (pairwise_plain_append hdata hone) (fun f hf u => ?_) .anchor b w 8 12 s
  rcases mem_mailboxActs hf with ⟨word, x, rfl⟩ | ⟨x, rfl⟩
  · exact (plainAct_takeMailboxData word x).ifStays u
  · exact .takeCommand x u

/-! ### Estimate records and descriptors (R12, R13) -/

/-- An overrun report is plain. -/
theorem plainAct_reportWrite (r : Nat) : PlainAct (reportWrite r) := by
  intro s
  obtain ⟨_, _, _, _, h⟩ := reportWrite_frame r s
  rw [h]
  exact ⟨rfl, rfl⟩

/-- An estimate arrival is one event. -/
theorem CountsChanges.arrival (r : Nat) (x : Word) (s : State) : CountsChanges s (arrival r x s) := by
  unfold Machine.arrival
  dsimp only
  split
  · rename_i k _
    refine .counting ?_
    unfold takeEstimate
    dsimp only
    split <;> exact .of_tset (k := k) rfl rfl
  · exact .of_links rfl

/-- A burst into a record: its header words and its report are plain, and it carries one arrival at most. -/
theorem CountsIfStays.estimate (b : WriteBurst) (r w : Nat) (s : State) :
    CountsIfStays s (Machine.takeSnooped .estimate b w 0 6 (estimateActs b r w s) s) := by
  have hreport := plainAct_reportWrite r
  have hheaders : ∀ f ∈ headerActs b r w, PlainAct f := headerActs_all PlainAct fun _ _ _ => ⟨rfl, rfl⟩
  have harrival : ∀ x u, CountsIfStays u (Machine.arrival r x u) := fun x u => (CountsChanges.arrival r x u).ifStays
  have hacts : ∀ acts : List (State → State), (∀ f ∈ acts, f = reportWrite r ∨ ∃ x, f = Machine.arrival r x) →
      acts.Pairwise (fun f g => PlainAct f ∨ PlainAct g) →
      CountsIfStays s (Machine.takeSnooped .estimate b w 0 6 (headerActs b r w ++ acts) s) := by
    intro acts hmem hone
    refine .takeSnooped (pairwise_plain_append hheaders hone) (fun f hf u => ?_) .estimate b w 0 6 s
    rcases List.mem_append.1 hf with hf | hf
    · exact (hheaders f hf).ifStays u
    · rcases hmem f hf with rfl | ⟨x, rfl⟩
      · exact hreport.ifStays u
      · exact harrival x u
  unfold estimateActs
  split
  · rename_i x _
    unfold arriveAndReport
    split
    · exact hacts _ (by simp) (by simp [hreport])
    · exact hacts _ (by simp) (by simp [hreport])
  · exact hacts _ (by simp) (by simp)

/-- The acts of a write into a descriptor are plain. -/
theorem plainAct_transmitActs {b : WriteBurst} {i w : Nat} : ∀ f ∈ transmitActs b i w, PlainAct f := by
  intro f hf s
  refine ⟨?_, (SameSettings.transmitActs f hf s).1⟩
  rcases List.mem_append.1 hf with hf | hf
  · simp only [captureActs, List.mem_filterMap] at hf
    obtain ⟨j, _, hj⟩ := hf
    repeat' split at hj
    all_goals cases hj
    all_goals rfl
  · simp only [Option.mem_toList, Option.map_eq_some_iff] at hf
    obtain ⟨x, _, rfl⟩ := hf
    obtain ⟨_, _, _, _, h⟩ := transition_frame i x s
    rw [h]

/-! ### The decoder -/

/-- A discarded write leaves the Link Table. -/
theorem discardWrite_links (g : GuardWindow) (b : WriteBurst) (s : State) : (discardWrite g b s).links = s.links := by
  unfold discardWrite
  dsimp only
  split <;> rfl

/-- A write at its arrival. -/
theorem CountsIfStays.takeWrite (b : WriteBurst) (s : State) : CountsIfStays s (takeWrite b s) := by
  have hdiscard : ∀ g, CountsIfStays s (discardWrite g b s) := fun g => (CountsChanges.of_links (discardWrite_links g b s)).ifStays
  have hpasses : ∀ m, CountsIfStays s (forward m s) := fun m => (CountsChanges.of_links rfl).ifStays
  unfold Machine.takeWrite
  split
  · split
    · exact hdiscard _
    · split
      · exact (CountsIfStays.mailbox b _ s).congr ⟨rfl, rfl⟩ ⟨rfl, rfl⟩
      · split
        · split
          · exact (CountsChanges.of_links rfl).ifStays
          · exact hdiscard _
        · exact hpasses _
  · exact hdiscard _
  · exact hdiscard _
  · exact hdiscard _
  · exact hdiscard _
  · exact (CountsIfStays.estimate b _ _ s).congr ⟨rfl, rfl⟩ ⟨rfl, rfl⟩
  · split
    · rename_i i w _ _
      have hplain := plainAct_transmitActs (b := b) (i := i) (w := w)
      have hone := pairwise_plain_append hplain (r := []) .nil
      rw [List.append_nil] at hone
      exact (CountsIfStays.takeSnooped hone (fun f hf u => (hplain f hf).ifStays u) .transmit b w 0 2 s).congr ⟨rfl, rfl⟩ ⟨rfl, rfl⟩
    · exact hpasses _
  · exact hpasses _

/-- A read at its arrival: the latch of a read through a link's window is one event (R170). -/
theorem CountsChanges.takeRead (r : ReadBurst) (s : State) : CountsChanges s (takeRead r s) := by
  unfold Machine.takeRead
  split
  · split <;> exact .of_links rfl
  · exact .of_links rfl
  · rename_i k selector offset _
    have hlatch : CountsChanges s (latchRead k selector offset s) := by
      unfold latchRead
      split
      · obtain ⟨_, _, h⟩ := setLatch_frame k selector (s.cellSlot k selector) s
        exact .counting (.of_tset (congrArg State.links h) (by rfl))
      · exact .of_links rfl
    exact hlatch.congr rfl rfl
  all_goals exact .of_links rfl

/-- A transaction at its arrival. -/
theorem CountsIfStays.take (x : Transaction) (s : State) : CountsIfStays s (x.take s) := by
  cases x with
  | write b => exact .takeWrite b s
  | read r => exact (CountsChanges.takeRead r s).ifStays

/-- A write that comes to the port, accepted or presented. -/
theorem CountsIfStays.writeArrival (b : WriteBurst) (s : State) : CountsIfStays s (writeArrival b s) := by
  unfold Machine.writeArrival
  split
  · exact (CountsIfStays.takeWrite b s).congr ⟨rfl, rfl⟩ ⟨settle_links _, settle_filter _⟩
  · exact (CountsChanges.of_links (present_links _ s)).ifStays

/-- A read that comes to the port, accepted or presented. -/
theorem CountsChanges.readArrival (r : ReadBurst) (s : State) : CountsChanges s (readArrival r s) := by
  unfold Machine.readArrival
  split
  · exact (CountsChanges.takeRead r s).congr rfl (settle_links _)
  · exact .of_links (present_links _ s)

/-- The end of the processor's burst, and the arrival of the transaction presented. -/
theorem CountsIfStays.processorBurst (s : State) : CountsIfStays s (acceptPresented (processorDone s)) := by
  have hdone : (processorDone s).links = s.links ∧ (processorDone s).filter = s.filter :=
    ⟨finishBurst_links s, (SameSettings.finishBurst s).1⟩
  unfold acceptPresented
  split
  · rename_i x _ _
    exact (CountsIfStays.take x { processorDone s with
      path := { (processorDone s).path with presented := none, completions := [] } }).congr ⟨hdone.1.symm, hdone.2.symm⟩ ⟨rfl, rfl⟩
  · exact (CountsChanges.of_links hdone.1).ifStays

/-! ### The commands -/

/-- A link's act at a start is one event (R143). -/
theorem CountsChanges.startEvent (k : Nat) (s : State) : CountsChanges s (startEvent k s) := by
  unfold Machine.startEvent
  split
  · exact (CountsChanges.counting (SameChanges.actAtStart k { s with owed := s.owed.filter (· != k) })).congr rfl (settle_links _)
  · exact .of_links rfl

/-- An event that is taken where it is due. -/
theorem CountsChanges.guarded {p : Bool} {s u : State} (h : CountsChanges s u) : CountsChanges s (if p then settle u else s) := by
  split
  · exact h.congr rfl (settle_links u)
  · exact .of_links rfl

/-- Settles O12: each command is one event, and the change count follows the event's effect, which leaves CHANGES to it. -/
theorem changeCount : Obligations.ChangeCount := by
  intro c s t k hreset ht hstays
  refine (show CountsIfStays s t from ?_) hstays k
  cases c with
  | hardwareReset n => exact absurd rfl (hreset n)
  | resetDeassert zc =>
    cases ht
    split
    · exact (CountsChanges.of_links rfl).ifStays
    · split <;> exact (CountsChanges.of_links rfl).ifStays
  | aliasRead r | processorRead r => cases ht; exact (CountsChanges.readArrival r s).ifStays
  | processorBurstDone =>
    cases ht
    split
    · exact (CountsIfStays.processorBurst s).congr ⟨rfl, rfl⟩ ⟨settle_links _, settle_filter _⟩
    · exact (CountsChanges.of_links rfl).ifStays
  | zcEdge level =>
    cases ht
    split
    · exact (CountsChanges.of_links rfl).ifStays
    · split
      · exact ((CountsChanges.counting (SameChanges.edge (takeSample level s))).congr rfl (settle_links _)).ifStays
      · exact (CountsChanges.of_links rfl).ifStays
  | captureWindowMiss => cases ht; exact (CountsChanges.counting (SameChanges.missWindow s)).guarded.ifStays
  | sliceBoundary => cases ht; split <;> exact (CountsChanges.of_links rfl).ifStays
  | gatherEnd k | offerExpiry k | flip k => cases ht; exact (CountsChanges.startEvent k s).ifStays
  | jobStart =>
    cases ht
    refine (CountsChanges.guarded (.of_links ?_)).ifStays
    unfold startJob
    split <;> rfl
  | allocateAfterWait =>
    cases ht
    obtain ⟨_, _, h⟩ := allocate_frame s
    exact (CountsChanges.guarded (.of_links (by rw [h]))).ifStays
  | notchReadDone => cases ht; exact (CountsChanges.onBurstDone (fun ws v => .of_links (notchRead_links ws v)) s).ifStays
  | baseLoadingWriteDone => cases ht; exact (CountsChanges.onBurstDone (fun _ v => .of_links (baseLoadingWritten_links v)) s).ifStays
  | baseHeaderWriteDone => cases ht; exact (CountsChanges.onBurstDone (f := fun _ => baseHeaderWritten) (fun _ v => .of_links rfl) s).ifStays
  | headerReadDone => cases ht; exact (CountsChanges.onBurstDone (fun ws v => .of_links (headerRead_links ws v)) s).ifStays
  | snrBurstDone => cases ht; exact (CountsChanges.onBurstDone SameChanges.snrRead s).ifStays
  | candidateBurstDone => cases ht; exact (CountsChanges.onBurstDone SameChanges.candidateRead s).ifStays
  | loadingWriteDone => cases ht; exact (CountsChanges.onBurstDone (fun _ v => .of_links (loadingWritten_links v)) s).ifStays
  | headerWriteDone => cases ht; exact (CountsChanges.onBurstDone (fun _ => SameChanges.headerWritten) s).ifStays
  | noticeWriteDone => cases ht; exact (CountsChanges.onBurstDone (fun _ v => .of_links (noticeWritten_links v)) s).ifStays
  | endedClientBurstDone => cases ht; exact (CountsChanges.onBurstDone (fun _ v => .of_links (readyHeaderRead_links v)) s).ifStays
  | apply b | withdraw b | linkAdd b | linkRemove b | linkHold b | linkResume b | rebuild b | confirm b | decline b
  | badCodeCommand b | cmdArgWrite b | noticeConsumerWrite b | configWrite b | processorWrite b | discardedWrite b
  | estimateHeaderWrite b | estimateArrival b | descriptorRefCapture b | descriptorNodeCapture b | commit b
  | descriptorDone b | descriptorHostOwned b | descriptorRejected b => cases ht; exact .writeArrival b s

end Sys2Proof.Machine
end

section
/-! PROOFS. Every step keeps the laws of references, of pins and of the pool (R27, R33, R65, R83, R85 to R87, R90, R92, R96). All three are
parts of `CountsOk`, which the operations keep one by one; here a command and an idle step are put together from them. -/
namespace Sys2Proof.Machine

variable {r p q : Prop} {s t : State}

/-- An event that is taken where it is due. -/
theorem CountsOk.guarded {c : Bool} {u : State} (h : CountsOk r p q s) (hu : CountsOk r p q u) :
    CountsOk r p q (if c then Machine.settle u else s) := by
  split
  · exact hu.settle
  · exact h

/-! ### The end of a burst -/

/-- The processor's burst completes, and the presented transaction arrives. -/
theorem CountsOk.processorBurst (h : CountsOk r p q s) : CountsOk r p q (Machine.acceptPresented (processorDone s)) := by
  have hdone : CountsOk r p q (processorDone s) := h.finishBurst.frameRfl rfl rfl rfl rfl rfl (Or.inr rfl)
  exact hdone.acceptPresented

/-- The Base Writer's header completes: it enters OPERATING, and so keeps the configuration legal only where the filter state was not
TRANSPARENT (R39). -/
theorem CountsOk.baseHeaderDone (h : CountsOk r p q s) (hactive : p → s.portIs .baseHeader = true → s.filter ≠ .transparent) :
    CountsOk r p q (Machine.onBurstDone .baseHeader (fun _ => Machine.baseHeaderWritten) s) := by
  unfold Machine.onBurstDone
  split
  · rename_i hport
    have hbase : s.portIs .baseHeader = true := (Bool.and_eq_true_iff.1 hport).2
    have hwritten : CountsOk r p q (Machine.baseHeaderWritten (Machine.finishBurst s)) :=
      h.finishBurst.baseHeaderWritten fun hp => by
        rw [(SameSettings.finishBurst s).1]
        exact hactive hp hbase
    exact (CountsOk.counting hwritten).settle
  · exact h

/-- In TRANSPARENT the Base Writer has no burst on the port (R32). -/
theorem active_of_baseHeader (h : s.EmptyIfTransparent) (hport : s.portIs .baseHeader = true) : s.filter ≠ .transparent := by
  intro hf
  have hempty := (emptyIfTransparent_iff s).1 h hf
  rw [hempty.portIs (by decide) (by decide)] at hport
  cases hport

/-! ### The step -/

/-- A sample of ZC_IN, and the edge that it is (R43). -/
theorem CountsOk.zcEdge (h : CountsOk r p q s) {level : Bool} (ht : execZcEdge level s = .next t) : CountsOk r p q t := by
  have hsample : CountsOk r p q (takeSample level s) := h.frameRfl rfl rfl rfl rfl rfl (Or.inr rfl)
  cases ht
  split
  · exact h
  · split
    · exact (CountsOk.counting hsample.edge).settle
    · exact hsample

/-- Every command keeps the counts and, as far as they are asked for, the configuration, the pins and the pool. -/
theorem exec_keeps_counts {c : Instr} (h : CountsOk r p q s)
    (hactive : p → s.portIs .baseHeader = true → s.filter ≠ .transparent) (ht : exec c s = .next t) : CountsOk r p q t := by
  cases c with
  | hardwareReset n => cases ht; exact .reset' rfl rfl rfl rfl h.deps
  | resetDeassert zc =>
    cases ht
    split
    · exact h
    · split <;> exact h.frameRfl rfl rfl rfl rfl rfl (Or.inr rfl)
  | aliasRead b | processorRead b => cases ht; exact h.readArrival b
  | processorBurstDone => cases ht; exact h.guarded h.processorBurst
  | zcEdge level => exact h.zcEdge ht
  | captureWindowMiss => cases ht; exact h.guarded (CountsOk.counting h.missWindow)
  | sliceBoundary =>
    cases ht
    split
    · exact h.frameRfl rfl rfl rfl rfl rfl (Or.inr rfl)
    · exact h
  | gatherEnd k | offerExpiry k | flip k => cases ht; exact h.startEvent k
  | jobStart => cases ht; exact h.guarded h.startJob
  | allocateAfterWait => cases ht; exact h.guarded h.allocate
  | notchReadDone => cases ht; exact h.onBurstDone _ fun ws _ hu => hu.notchRead ws
  | baseLoadingWriteDone => cases ht; exact h.onBurstDone _ fun _ _ hu => hu.baseLoadingWritten
  | baseHeaderWriteDone => cases ht; exact h.baseHeaderDone hactive
  | headerReadDone => cases ht; exact h.onBurstDone _ fun ws _ hu => hu.headerRead ws
  | snrBurstDone => cases ht; exact h.onBurstDone _ fun ws _ hu => hu.snrRead ws
  | candidateBurstDone => cases ht; exact h.onBurstDone _ fun ws _ hu => hu.candidateRead ws
  | loadingWriteDone => cases ht; exact h.onBurstDone _ fun _ _ hu => hu.loadingWritten
  | headerWriteDone => cases ht; exact h.onBurstDone _ fun _ _ hu => hu.headerWritten
  | noticeWriteDone => cases ht; exact h.onBurstDone _ fun _ _ hu => hu.noticeWritten
  | endedClientBurstDone => cases ht; exact h.onBurstDone _ fun _ _ hu => hu.readyHeaderRead
  | apply b | withdraw b | linkAdd b | linkRemove b | linkHold b | linkResume b | rebuild b | confirm b | decline b
  | badCodeCommand b | cmdArgWrite b | noticeConsumerWrite b | configWrite b | processorWrite b | discardedWrite b
  | estimateHeaderWrite b | estimateArrival b | descriptorRefCapture b | descriptorNodeCapture b | commit b
  | descriptorDone b | descriptorHostOwned b | descriptorRejected b => cases ht; exact h.writeArrival b

/-- An idle step keeps them: the event that is due does, and a tick changes the time alone. -/
theorem CountsOk.idle (h : CountsOk r p q s) : CountsOk r p q (Machine.idle s) := by
  have htick : CountsOk r p q { s with tick := s.tick + 1 } := h.frameRfl rfl rfl rfl rfl rfl (Or.inr rfl)
  unfold Machine.idle
  split
  · exact htick
  · split
    · exact h.frameRfl rfl rfl rfl rfl rfl (Or.inr rfl)
    · split
      · exact (CountsOk.counting h.missWindow).settle
      · split
        · exact h.startEvent _
        · split
          · exact h.startJob.settle
          · exact htick

/-- Every step keeps what `CountsOk` asks for; the pins need an empty TRANSPARENT beside it. -/
theorem step_keeps_counts (h : CountsOk r p q s) (hempty : p → s.EmptyIfTransparent) (ht : step s = .next t) : CountsOk r p q t := by
  unfold step at ht
  split at ht
  · cases ht
    exact h.idle
  · rename_i rest _
    have hfront : CountsOk r p q { s with pending := rest } := h.frameRfl rfl rfl rfl rfl rfl (Or.inr rfl)
    exact exec_keeps_counts hfront (fun hp hport => active_of_baseHeader (s := s) (hempty hp) hport) ht

/-! ### The laws that the statements name -/

/-- The law of references alone. -/
theorem countsOk_refs (hfree : s.FreeOk) (href : s.RefLaw) : CountsOk True False False s where
  free := hfree
  ref _ := href
  cfg := False.elim
  pin := False.elim
  deps := False.elim
  names := False.elim
  fits := False.elim

/-- The law of pins alone, with a legal configuration outside TRANSPARENT. -/
theorem countsOk_pins (hcfg : s.ConfigOk) (hfree : s.FreeOk) (hpin : s.PinLaw) : CountsOk False True False s where
  free := hfree
  ref := False.elim
  cfg _ := hcfg
  pin _ := hpin
  deps := False.elim
  names := False.elim
  fits := False.elim

/-- Settles O9: the part of `CountsOk` that counts the references, kept by every step. -/
theorem refLawKept : Obligations.RefLawKept := by
  intro s t ⟨hfree, href⟩ ht
  have hkept := step_keeps_counts (countsOk_refs hfree href) False.elim ht
  exact ⟨hkept.free, hkept.ref trivial⟩

/-- Settles O10: the part of `CountsOk` that counts the pins, and then the whole of it, kept by every step. -/
theorem pinLawKept : Obligations.PinLawKept := by
  constructor
  · intro s t ⟨hempty, hcfg, hfree, hpin⟩ ht
    have hkept := step_keeps_counts (countsOk_pins hcfg hfree hpin) (fun _ => hempty) ht
    exact ⟨hkept.cfg trivial, hkept.free, hkept.pin trivial⟩
  · intro s t ⟨hempty, hcfg, hfree, href, hpin, hpool⟩ ht
    have hkept := step_keeps_counts (countsOk_of hcfg hfree href hpin hpool) (fun _ => hempty) ht
    exact ⟨hkept.cfg trivial, hkept.free, hkept.ref trivial, hkept.pin trivial, poolLaw_of hkept⟩

end Sys2Proof.Machine
end

section
/-! PROOFS. Estimate Intake and the Build Queue: the admission of a request, the requests that a REBUILD offers, and the header words of a
burst into an estimate record (R15 to R17, R104, R111, R114, R115). -/
namespace Sys2Proof.Machine

/-! ### The admission of one request (R111) -/

/-- An entry is for a request's link and slice. -/
theorem sameSlice_iff (e r : BuildReq) : e.sameSlice r = true ↔ e.link = r.link ∧ e.slice = r.slice := by
  simp [BuildReq.sameSlice]

/-- Where no entry is for the request's link and slice, a place at the tail decides. -/
theorem enqueue_fresh {r : BuildReq} {q : List BuildReq} (h : ∀ e ∈ q, ¬(e.link = r.link ∧ e.slice = r.slice)) :
    enqueue r q = if q.length < 16 then some (q ++ [r]) else none := by
  have hnone : ¬ q.any (·.sameSlice r) = true := by
    rw [List.any_eq_true]
    rintro ⟨e, he, hsame⟩
    exact h e he ((sameSlice_iff e r).1 hsame)
  exact if_neg hnone

/-- Entries for other links and slices stay as they are. -/
theorem map_replace_others {r : BuildReq} {q : List BuildReq} (h : ∀ e ∈ q, ¬(e.link = r.link ∧ e.slice = r.slice)) :
    (q.map fun e => if e.sameSlice r then r else e) = q :=
  (List.map_congr_left fun e he => if_neg fun hsame => h e he ((sameSlice_iff e r).1 hsame)).trans (List.map_id' q)

/-- The one entry for the request's link and slice is replaced in its place. -/
theorem enqueue_inPlace {r e : BuildReq} {before after : List BuildReq} (hlink : e.link = r.link) (hslice : e.slice = r.slice)
    (hothers : ∀ x ∈ before ++ after, ¬(x.link = r.link ∧ x.slice = r.slice)) :
    enqueue r (before ++ e :: after) = some (before ++ r :: after) := by
  have hsame : e.sameSlice r = true := (sameSlice_iff e r).2 ⟨hlink, hslice⟩
  have hany : (before ++ e :: after).any (·.sameSlice r) = true := List.any_eq_true.2 ⟨e, by simp, hsame⟩
  unfold enqueue
  rw [if_pos hany, List.map_append, List.map_cons, if_pos hsame,
    map_replace_others fun x hx => hothers x (List.mem_append_left _ hx),
    map_replace_others fun x hx => hothers x (List.mem_append_right _ hx)]

/-- Settles O22: by whether an entry for the request's link and slice is there. -/
theorem queueAdmission : Obligations.QueueAdmission := by
  refine fun r q => ⟨enqueue_fresh, ?_⟩
  rintro before after e rfl hlink hslice hothers
  exact enqueue_inPlace hlink hslice hothers

/-! ### The requests of a REBUILD (R115) -/

/-- A list of requests offered in order: those of a first part are admitted one by one, and the first of the rest is refused. -/
theorem offerAll_splits (offered queue : List BuildReq) (n : Nat) : ∃ admitted rest queue', admitted ++ rest = offered
    ∧ admitted.foldlM (fun q r => enqueue r q) queue = some queue'
    ∧ (∀ r rs, rest = r :: rs → enqueue r queue' = none)
    ∧ offerAll offered queue n = (queue', n + admitted.length, !rest.isEmpty) := by
  induction offered generalizing queue n with
  | nil => exact ⟨[], [], queue, rfl, rfl, nofun, rfl⟩
  | cons r offered ih =>
    unfold offerAll
    split
    · rename_i next hadmit
      obtain ⟨admitted, rest, queue', rfl, hfold, hrefused, hoffer⟩ := ih next (n + 1)
      refine ⟨r :: admitted, rest, queue', rfl, ?_, hrefused, ?_⟩
      · rw [List.foldlM_cons, hadmit]
        exact hfold
      · rw [hoffer, List.length_cons, Nat.add_right_comm, Nat.add_assoc]
    · rename_i hrefuse
      refine ⟨[], r :: offered, queue, rfl, rfl, ?_, rfl⟩
      rintro _ _ ⟨⟩
      exact hrefuse

/-- The slice mask of a REBUILD is bits 7 to 0 of ARG1. -/
theorem testBit_mask_iff (arg1 : Word) (i : Nat) : (bits arg1 0 8).testBit i = true ↔ i < 8 ∧ arg1.getLsbD i = true := by
  rw [bits_low, Nat.testBit_mod_two_pow, Bool.and_eq_true, decide_eq_true_eq, BitVec.testBit_toNat]

/-- The request of a REBUILD for one slice, if the slice is selected and its summary has a latest record. -/
def sliceRequest (k : Nat) (arg1 : Word) (L : Link) (i : Nat) : Option BuildReq :=
  if i < 8 ∧ arg1.getLsbD i = true then
    L.summary[i]?.bind fun m => m.last.map fun (record, seq) => ⟨k, i, record, seq, .request⟩
  else none

/-- A slice that gives a request is selected, and the request is for it, with its latest record. -/
theorem sliceRequest_eq_some_iff {k i : Nat} {arg1 : Word} {L : Link} {r : BuildReq} :
    sliceRequest k arg1 L i = some r ↔ ∃ m record seq, r = ⟨k, i, record, seq, .request⟩
      ∧ i < 8 ∧ arg1.getLsbD i = true ∧ L.summary[i]? = some m ∧ m.last = some (record, seq) := by
  unfold sliceRequest
  rw [ite_eq_iff]
  simp only [reduceCtorEq, and_false, or_false, Option.bind_eq_some_iff, Option.map_eq_some_iff, Prod.exists]
  constructor
  · rintro ⟨⟨hi, hset⟩, m, hm, record, seq, hlast, rfl⟩
    exact ⟨m, record, seq, rfl, hi, hset, hm, hlast⟩
  · rintro ⟨m, record, seq, rfl, hi, hset, hm, hlast⟩
    exact ⟨⟨hi, hset⟩, m, hm, record, seq, hlast, rfl⟩

/-- The requests of a REBUILD are those of its slices, in ascending order. -/
theorem rebuildRequests_eq (k slices : Nat) (arg1 : Word) (L : Link) :
    rebuildRequests k (bits arg1 0 8) slices L = (List.range slices).filterMap (sliceRequest k arg1 L) := by
  unfold rebuildRequests
  congr 1
  funext i
  unfold sliceRequest
  simp only [testBit_mask_iff]
  cases L.summary[i]? <;> rfl

/-- Each slice gives the requests of a REBUILD one at most, for itself. -/
theorem mem_rebuildRequests {k slices : Nat} {arg1 : Word} {L : Link} {r : BuildReq} :
    r ∈ rebuildRequests k (bits arg1 0 8) slices L ↔ ∃ m record seq, r = ⟨k, r.slice, record, seq, .request⟩
      ∧ r.slice < slices ∧ r.slice < 8 ∧ arg1.getLsbD r.slice = true ∧ L.summary[r.slice]? = some m
      ∧ m.last = some (record, seq) := by
  rw [rebuildRequests_eq, List.mem_filterMap]
  constructor
  · rintro ⟨i, hi, hr⟩
    obtain ⟨m, record, seq, rfl, hselected⟩ := sliceRequest_eq_some_iff.1 hr
    exact ⟨m, record, seq, rfl, List.mem_range.1 hi, hselected⟩
  · rintro ⟨m, record, seq, hr, hi, hselected⟩
    exact ⟨r.slice, List.mem_range.2 hi, sliceRequest_eq_some_iff.2 ⟨m, record, seq, hr, hselected⟩⟩

/-- The requests of a REBUILD ascend strictly in slice. -/
theorem rebuildRequests_ascending (k slices : Nat) (arg1 : Word) (L : Link) :
    (rebuildRequests k (bits arg1 0 8) slices L).Pairwise fun x y => x.slice < y.slice := by
  rw [rebuildRequests_eq]
  refine List.Pairwise.filterMap _ (fun i j hij x hx y hy => ?_) List.pairwise_lt_range
  obtain ⟨_, _, _, rfl, _⟩ := sliceRequest_eq_some_iff.1 hx
  obtain ⟨_, _, _, rfl, _⟩ := sliceRequest_eq_some_iff.1 hy
  exact hij

/-! ### REBUILD (R114, R115) -/

section
variable {s : State} (hopen : (s.link s.arg0.toNat).isOpen = true)
include hopen

/-- REBUILD of a link in FALLBACK. -/
theorem rebuild_fallback (hm : (s.link s.arg0.toNat).mode = .fallback) : rebuild s = respond .wrongState 0 s := by
  unfold rebuild
  rw [(namesOpen_iff s s.arg0).2 hopen]
  exact if_pos hm

variable (hm : (s.link s.arg0.toNat).mode ≠ .fallback)
include hm

/-- REBUILD without a lock. -/
theorem rebuild_notLocked (hl : s.tracker.state ≠ .locked ∧ s.tracker.state ≠ .holdover) : rebuild s = respond .notLocked 0 s := by
  have hunlocked : s.tracker.state.isLocked = false := by
    rw [← Bool.not_eq_true, isLocked_iff, not_or]
    exact hl
  unfold rebuild
  rw [(namesOpen_iff s s.arg0).2 hopen, hunlocked]
  exact if_neg hm

/-- REBUILD past its checks: what becomes of its requests. -/
theorem rebuild_offers (hl : s.tracker.state = .locked ∨ s.tracker.state = .holdover) :
    ∃ admitted rest queue, admitted ++ rest = rebuildRequests s.arg0.toNat (bits s.arg1 0 8) s.shadow.slices (s.link s.arg0.toNat)
      ∧ admitted.foldlM (fun q r => enqueue r q) s.buildQueue = some queue
      ∧ (∀ r rs, rest = r :: rs → enqueue r queue = none)
      ∧ rebuild s = respond (if rest.isEmpty then .ok else .queueFull) admitted.length { s with buildQueue := queue } := by
  obtain ⟨admitted, rest, queue, hsplit, hfold, hrefused, hoffer⟩ := offerAll_splits
    (rebuildRequests s.arg0.toNat (bits s.arg1 0 8) s.shadow.slices (s.link s.arg0.toNat)) s.buildQueue 0
  refine ⟨admitted, rest, queue, hsplit, hfold, hrefused, ?_⟩
  unfold rebuild
  rw [(namesOpen_iff s s.arg0).2 hopen, (isLocked_iff _).2 hl]
  refine (if_neg hm).trans ?_
  dsimp only [Bool.not_true]
  rw [hoffer, Nat.zero_add]
  cases rest <;> rfl

end

/-- Settles O21: the refusals in R114's order, and then the requests offered up to the first that is refused. -/
theorem rebuildOffers : Obligations.RebuildOffers := by
  rintro s b _ hburst hf rfl
  have hexec : exec (.rebuild b) s = .next (passOn b (rebuild (s.afterData b))) :=
    exec_command_operating (c := .rebuild) hburst hf rfl (by decide)
  refine ⟨badLink s b 7 hburst hf (by decide) (by decide), fun _ hopen hm => ?_, fun _ hopen hm hl => ?_, fun _ hopen hm hl => ?_⟩
  all_goals rw [← afterData_link s b] at hopen hm
  · rw [hexec, rebuild_fallback hopen hm]
    rfl
  · rw [hexec, rebuild_notLocked hopen hm (by rwa [afterData_tracker])]
    rfl
  · obtain ⟨admitted, rest, queue, hsplit, hfold, hrefused, hrebuild⟩ := rebuild_offers hopen hm (by rwa [afterData_tracker])
    rw [afterData_shadow, afterData_link] at hsplit
    refine ⟨admitted, rest, queue, ?_, fun r => ?_, by rwa [afterData_buildQueue] at hfold, hrefused, ?_⟩
    · rw [hsplit]
      exact rebuildRequests_ascending ..
    · rw [hsplit]
      exact mem_rebuildRequests
    · rw [hexec, hrebuild]
      rfl

/-! ### Header words without an arrival (R104, R105, R130) -/

/-- A burst whose commit word is no arrival does not write that word in full with VALID 1. -/
theorem not_valid_of_commitWord_none {b : WriteBurst} {w : Nat} (h : commitWord b w = none) :
    w ≠ 0 ∨ b.fullAt b.base = none ∨ ∃ x, b.fullAt b.base = some x ∧ x.getLsbD 31 = false := by
  by_contra hc
  obtain ⟨rfl, hfull, hvalid⟩ : w = 0 ∧ b.fullAt b.base ≠ none ∧ ∀ x, b.fullAt b.base = some x → x.getLsbD 31 ≠ false := by
    simpa only [not_or, not_exists, not_and, not_not] using hc
  obtain ⟨x, hx⟩ := Option.ne_none_iff_exists'.1 hfull
  rw [commitWord_full hx (by simpa using hvalid x hx)] at h
  cases h

/-- A burst that is no arrival, into a record without a job: its header words and its GUARD notice alone. -/
theorem takeSnooped_headersAlone {s : State} {b : WriteBurst} {r w : Nat} {guard : State → State}
    (hg : PartialGuard s .estimate b w 0 6 guard) (hw : commitWord b w = none) (hj : ∀ j, s.engine.job = some j → j.record ≠ r) :
    takeSnooped .estimate b w 0 6 (estimateActs b r w s) s = guard (s.afterHeaders b r w) := by
  have hreport : ∀ v : State, v.engine.job = s.engine.job → reportWrite r v = v := fun v => reportWrite_eq (Or.inl ⟨hj, rfl⟩)
  have hheaders : (s.afterHeaders b r w).engine.job = s.engine.job := by
    obtain ⟨headers, hh⟩ := afterHeaders_frame s b r w
    rw [hh]
  have hguard : (guard (s.afterHeaders b r w)).engine.job = s.engine.job := by
    obtain ⟨l, q, n, hi⟩ := hg.intakeAct (s.afterHeaders b r w)
    rw [hi]
    exact hheaders
  rcases takeSnooped_report (r := r) hg (not_valid_of_commitWord_none hw) with h | h
  · rw [h, hreport _ hguard]
  · rw [h, hreport _ hheaders]

/-- Settles O39: the shadow's words spelled, and the acts of a burst that is no arrival. -/
theorem headerWordsShadowed : Obligations.HeaderWordsShadowed := by
  intro s b r w ha hp hr
  refine ⟨_, rfl, rfl, rfl, rfl, rfl, rfl, afterHeaders_spelled hp, fun guard hg hw hj => ?_⟩
  have hrow : ∀ row, row = .processorWrite b ∨ row = .estimateHeaderWrite b ∨ row = .estimateArrival b →
      exec row s = .next (passOn b (guard (s.afterHeaders b r w))) := fun row h => by
    rw [exec_estimateRow h, writeArrival_estimate ha hp, takeSnooped_headersAlone hg hw hj]
  rw [afterHeaders_spelled hp] at hrow
  exact ⟨hrow _ (Or.inr (Or.inl rfl)), hrow _ (Or.inl rfl)⟩

end Sys2Proof.Machine
end

section
/-! PROOFS. The Loading Engine: job start, the header check, and the writing of a job's slot (R94, R98, R117, R118, R125, R127, R131, R134). -/
namespace Sys2Proof.Machine

/-! ### The end of a burst -/

/-- The state as a burst on the port has completed: its words are in memory, and the port is FREE (R3, R22). -/
def State.landed (s : State) (m : MemBurst) : State :=
  { s with memory := m.applyTo s.memory, path := { s.path with port := none } }

/-- The end of a burst whose event is worked out, and leaves the Link Table. -/
theorem onPort_done_as {u : PortUse} {m : MemBurst} {f : List Word → State → State} {s t : State} (h : OnPort s u m)
    (hf : f (m.dataFrom s.memory) (s.landed m) = t) (ht : t.links = s.links) : onBurstDone u f s = settle t := by
  rw [← hf] at ht ⊢
  rw [onPort_done h]
  exact congrArg settle (counting_eq ht)

/-- The event of a burst's end leaves everything but the Link Table, the pool, the engine, the path and the notices as it was. -/
def EngineEvent (s t : State) : Prop := ∃ v p e y n, t = { s with links := v, pool := p, engine := e, path := y, notices := n }

/-- What the event of an engine's burst leaves as it was. -/
theorem EngineEvent.same {f : State → State} {s t : State} {m : MemBurst} (h : EngineEvent (s.landed m) (f (s.landed m)))
    (ht : t = settle (counting f (s.landed m))) :
    SameTracker s t ∧ SameMailbox s t ∧ SameIntake s t ∧ SameApplier s t ∧ t.memory = m.applyTo s.memory := by
  obtain ⟨v, p, e, y, n, h⟩ := h
  subst ht
  simp only [SameTracker, SameMailbox, SameIntake, SameApplier, settle_tracker, settle_tick, settle_zcLevel, settle_zcSampledAt,
    settle_filter, settle_shadow, settle_result, settle_arg0, settle_arg1, settle_arg2, settle_buildQueue, settle_headers,
    settle_pinTable, settle_applier_notchMask, settle_applier_notched, settle_applier_phase, settle_applier_pos, settle_memory,
    counting_tracker, counting_tick, counting_zcLevel, counting_zcSampledAt, counting_filter, counting_shadow, counting_result,
    counting_arg0, counting_arg1, counting_arg2, counting_buildQueue, counting_headers, counting_pinTable, counting_applier,
    counting_memory, h]
  exact ⟨⟨rfl, rfl, rfl, rfl⟩, ⟨rfl, rfl, rfl, rfl, rfl, rfl⟩, ⟨rfl, rfl, rfl⟩, ⟨rfl, rfl, rfl, rfl⟩, rfl⟩

/-- The end of a burst on the port, up to its event. -/
theorem onPort_done_event {u : PortUse} {m : MemBurst} {f : List Word → State → State} {s : State} (h : OnPort s u m) :
    onBurstDone u f s = settle (counting (f (m.dataFrom s.memory)) (s.landed m)) := onPort_done h

/-! ### Job start (R112, R117) -/

/-- The queue's head becomes the job in LOAD, with nothing read. -/
theorem startJob_head {s : State} {r : BuildReq} {rest : List BuildReq} (hj : s.engine.job = none) (hq : s.buildQueue = r :: rest) :
    startJob s =
      { s with
        buildQueue := rest
        engine :=
          { job := some (Job.ofRequest r)
            buffer := []
            ready := if s.portIs .ended then none else some ⟨.headerRead, .read (s.shadow.estBase + r.record * 512) 8⟩ } } := by
  unfold startJob
  rw [hj, hq]
  rfl

/-- A new job whose header read is not ready yet has it made ready (R117). -/
theorem readyHeaderRead_waiting {s : State} {j : Job} (hj : s.engine.job = some j) (hstage : j.stage = .load) (hmean : j.mean = none)
    (hready : s.engine.ready = none) : readyHeaderRead s =
      { s with engine := { s.engine with ready := some ⟨.headerRead, .read (s.shadow.estBase + j.record * 512) 8⟩ } } := by
  unfold readyHeaderRead
  rw [withJob_some hj, if_pos ⟨hstage, hmean, hready⟩]
  unfold State.setJob
  rw [← hj]
  rfl

/-! ### A slot for the job (R91, R94, R125, R127) -/

/-- The write of loading words 8i to 8i + 7 of a slot, with every byte enabled. -/
theorem loadingBurst_eq (s : State) (n i : Nat) : s.loadingBurst n i =
    ⟨.loadingWrite, .write (s.shadow.poolBase + n * 256 + (8 + 8 * i))
      ((List.range 8).map fun c => ⟨bufferWord s.engine.buffer (8 * i + c), 15⟩)⟩ := rfl

/-- The first write of a slot: loading words 0 to 7. -/
theorem loadingBurst_first (s : State) (n : Nat) : s.loadingBurst n 0 =
    ⟨.loadingWrite, .write (s.shadow.poolBase + n * 256 + 8) ((List.range 8).map fun i => ⟨bufferWord s.engine.buffer i, 15⟩)⟩ := by
  rw [loadingBurst_eq]
  simp only [Nat.mul_zero, Nat.add_zero, Nat.zero_add]

/-- The Free List's head is the job's slot: BUILDING, under its next issue, owned as the job says, its first write ready. -/
theorem allocate_head {s : State} {j : Job} {n : Nat} {rest : List Nat} (hj : s.engine.job = some j) (hl : s.pool.freeList = n :: rest) :
    allocate s =
      { s with
        pool :=
          { slots := tset s.pool.slots n
              { s.slot n with
                state := .building
                issue := (s.slot n).issue + 1
                ownerLink := j.link
                ownerNode := (s.link j.link).node
                slice := j.slice }
            freeList := rest }
        engine := { s.engine with
          job := some { j with slot := some n, stage := .write, pos := 0 }
          ready := some ⟨.loadingWrite, .write (s.shadow.poolBase + n * 256 + 8)
            ((List.range 8).map fun i => ⟨bufferWord s.engine.buffer i, 15⟩)⟩ } } := by
  unfold allocate
  rw [hj, hl]
  simp only [loadingBurst_first]

/-- A job in ALLOCATE without a slot waits for one. -/
theorem jobWaits_of {s : State} {j : Job} (hj : s.engine.job = some j) (hstage : j.stage = .allocate) (hslot : j.slot = none) :
    s.jobWaits = true := by
  unfold State.jobWaits
  rw [hj]
  simp only [hstage, hslot]
  rfl

/-- Settles O54: the head of the queue, the two ends of an ended client's burst, and the head of the Free List. -/
theorem jobStarts : Obligations.JobStarts := by
  intro s
  refine ⟨fun r rest hreset hj hq => ?_, fun m j hport hj hstage hmean hready => ?_, fun m hport hj => ?_,
    fun j n rest hreset hj hstage hslot hl => ?_⟩
  · have hdue : (!s.inReset && s.jobDue) = true := by
      rw [hreset, (jobDue_iff s).2 ⟨hj, by rw [hq]; exact List.cons_ne_nil _ _⟩]
      rfl
    exact congrArg Host.Outcome.next ((if_pos hdue).trans (congrArg settle (startJob_head hj hq)))
  · exact congrArg Host.Outcome.next
      (onPort_done_as hport (readyHeaderRead_waiting (s := s.landed m) hj hstage hmean hready) rfl)
  · exact congrArg Host.Outcome.next (onPort_done_as hport (withJob_none (s := s.landed m) hj) rfl)
  · have htake : (!s.inReset && s.jobWaits && !s.pool.freeList.isEmpty) = true := by
      rw [hreset, jobWaits_of hj hstage hslot, hl]
      rfl
    exact congrArg Host.Outcome.next ((if_pos htake).trans (congrArg settle (allocate_head hj hl)))

/-! ### The header check (R118, R131) -/

/-- The four comparisons of the header check. -/
theorem headerOk_iff (j : Job) (node : BitVec 8) (ws : List Word) : headerOk j node ws = true ↔
    (ws.getD 0 0).getLsbD 31 = true ∧ (ws.getD 0 0).extractLsb' 0 16 = j.seq ∧ (ws.getD 1 0).extractLsb' 0 8 = node
      ∧ (ws.getD 2 0).toNat % 256 = j.slice := by
  unfold headerOk estSlice
  rw [bits_low, Bool.and_eq_true, Bool.and_eq_true, Bool.and_eq_true, beq_iff_eq, beq_iff_eq, beq_iff_eq, and_assoc, and_assoc]
  rfl

/-- A header that passes: MEAN is set, and the first SNR read is ready. -/
theorem headerRead_passes {s : State} {j : Job} {ws : List Word} (hj : s.engine.job = some j)
    (hok : headerOk j (s.link j.link).node ws = true) : headerRead ws s =
      { s with engine := { s.engine with
          job := some { j with mean := some (estMean (ws.getD 4 0)), pos := 0 }
          ready := some ⟨.snrRead, .read (s.shadow.estBase + j.record * 512 + 8) 8⟩ } } := by
  unfold headerRead
  rw [withJob_some hj, if_pos hok]
  rfl

/-- A header that fails: the job ends OVERRUN, and BUILD_FAILED is raised. -/
theorem headerRead_fails {s : State} {j : Job} {ws : List Word} (hj : s.engine.job = some j)
    (hok : headerOk j (s.link j.link).node ws = false) :
    headerRead ws s = raise (.buildFailed j.link .header j.slice j.record j.seq j.reason j.stage) (dropJob s) := by
  unfold headerRead
  rw [withJob_some hj, if_neg (by rw [hok]; exact Bool.false_ne_true)]
  exact withJob_some hj

/-- The end of a job that holds no slot leaves the pool. -/
theorem dropJob_noSlot {s : State} {j : Job} (hj : s.engine.job = some j) (hslot : j.slot = none) : (dropJob s).pool = s.pool := by
  unfold dropJob
  rw [hj]
  simp only [hslot]
  rfl

/-- Settles O55: the header check on the words read, and the job's end where it fails. -/
theorem headerChecked : Obligations.HeaderChecked := by
  intro s a j w ok hport hj hw hok
  have hget : ∀ i, i < 8 → (readWords s.memory a 8).getD i 0 = w i := fun i hi => by rw [hw, readWords_getD _ _ _ hi]
  have hcheck : headerOk j (s.link j.link).node (readWords s.memory a 8) = ok := by
    rw [Bool.eq_iff_iff, headerOk_iff, hok, hget 0 (by decide), hget 1 (by decide), hget 2 (by decide)]
  refine ⟨fun h => ?_, fun h => ?_⟩
  · have hread := headerRead_passes (s := s.landed (.read a 8)) hj (hcheck.trans h)
    rw [hget 4 (by decide)] at hread
    exact congrArg Host.Outcome.next (onPort_done_as hport hread rfl)
  · have hread := headerRead_fails (s := s.landed (.read a 8)) hj (hcheck.trans h)
    obtain ⟨htracker, hmailbox, hintake, happlier, hmemory⟩ := EngineEvent.same (f := headerRead _)
      (by obtain ⟨p, e, y, n, hf⟩ := headerRead_frame (readWords s.memory a 8) (s.landed (.read a 8)); exact ⟨_, p, e, y, n, hf⟩) rfl
    refine ⟨_, congrArg Host.Outcome.next (onPort_done_event hport), ?_, ?_, ?_, fun hslot => ?_, htracker, hmailbox, hintake, happlier,
      fun k => congrArg (readByte · k) hmemory⟩
    · rw [settle_engine_job]
      exact (congrArg (fun u => u.engine.job) hread).trans (job_dropJob _)
    · rw [settle_links, counting_eq (headerRead_links _ _)]
      exact headerRead_links _ _
    · rw [settle_notices_staging]
      refine (congrArg (fun u => u.notices.staging) hread).trans (raise_staging_congr _ ?_ ?_ ?_)
      all_goals
        obtain ⟨p, y, hdrop⟩ := dropJob_frame (s.landed (.read a 8))
        rw [hdrop]
        rfl
    · rw [settle_pool]
      exact (congrArg (fun u => u.pool) hread).trans (dropJob_noSlot (s := s.landed (.read a 8)) hj hslot)

/-! ### WRITE (R98, R127) -/

/-- A field of 8 bits in the low byte of a word. -/
theorem put_byte (n : Nat) : put 0 8 n = BitVec.ofNat 32 (n % 256) := by
  unfold put
  rw [Nat.pow_zero, Nat.mul_one]
  rfl

/-- A byte in the low byte of a word. -/
theorem put_byte_toNat (x : BitVec 8) : put 0 8 x.toNat = x.setWidth 32 := by
  rw [put_byte, Nat.mod_eq_of_lt x.isLt, BitVec.ofNat_toNat]

/-- The header burst of a job's slot, word by word (R98). -/
theorem headerBurst_eq (s : State) (j : Job) (n : Nat) : s.headerBurst j n = ⟨.headerWrite, .write (s.shadow.poolBase + n * 256)
    ([BitVec.ofNat 32 (n % 256), (s.slot n).issue.setWidth 32, (s.slot n).ownerNode.setWidth 32,
      BitVec.ofNat 32 ((s.slot n).slice % 256), BitVec.ofNat 32 (j.total % 65536),
      BitVec.ofNat 32 (s.shadow.carriers % 65536), j.signature, (s.link j.link).expectedSet.setWidth 32].map fun w => ⟨w, 15⟩)⟩ := by
  unfold State.headerBurst headerWords Shadow.slotWord
  rw [put_byte, put_byte_toNat, put_byte_toNat, put_byte, put_low, put_low, put_byte_toNat]
  rfl

/-- A loading-word burst that leaves words of the slot to write: the next is made ready. -/
theorem loadingWritten_next {s : State} {j : Job} {n : Nat} (hj : s.engine.job = some j) (hn : j.slot = some n)
    (hmore : j.pos + 1 < s.shadow.carriers / 64) :
    loadingWritten s = s.setJob { j with pos := j.pos + 1 } (some (s.loadingBurst n (j.pos + 1))) := by
  unfold loadingWritten
  rw [withJob_some hj]
  simp only [hn, if_pos hmore]

/-- The last loading-word burst: the header is formed. -/
theorem loadingWritten_last {s : State} {j : Job} {n : Nat} (hj : s.engine.job = some j) (hn : j.slot = some n)
    (hlast : s.shadow.carriers / 64 ≤ j.pos + 1) : loadingWritten s = formHeader j n s := by
  unfold loadingWritten
  rw [withJob_some hj]
  simp only [hn, if_neg (Nat.not_lt.2 hlast)]

/-- Settles O58: the places of a loading word, and a burst's end by what is left to write. -/
theorem slotWritten : Obligations.SlotWritten := by
  refine ⟨fun buffer i c hc => bufferWord_place buffer i hc, fun s m j n hport hj hn => ⟨fun hmore => ?_, fun hlast _ => ?_⟩⟩
  · have hnext := loadingWritten_next (s := s.landed m) hj hn hmore
    rw [loadingBurst_eq] at hnext
    exact congrArg Host.Outcome.next (onPort_done_as hport hnext rfl)
  · have hform := loadingWritten_last (s := s.landed m) hj hn hlast
    unfold formHeader at hform
    rw [headerBurst_eq] at hform
    exact congrArg Host.Outcome.next (onPort_done_as hport hform rfl)

end Sys2Proof.Machine
end

section
/-! PROOFS. The ends of a job with a result: UNCHANGED, and the slot handed to Switchover (R121, R124, R128, R138 to R142). -/
namespace Sys2Proof.Machine

/-! ### The records of an event that changes one link's (R72) -/

/-- An event that changes one link's record counts one change there at most, and leaves the other records. -/
theorem link_counting_one {f : State → State} {s : State} {k : Nat} {M : Link} (h : (f s).links = tset s.links k M) (j : Nat) :
    (counting f s).link j = if k = j ∧ j < 32 then Link.counted (s.link k) M else s.link j := by
  rw [counting_one h]
  exact tget_tset ..

/-- A record with a cell is one of the table. -/
theorem lt_of_cell {s : State} {k i n : Nat} (h : (s.link k).cells[i]? = some n) : k < 32 := by
  by_contra hge
  rw [link_beyond s (Nat.not_lt.1 hge)] at h
  cases h

/-- A record whose LAST_ISSUED advances counts one change. -/
theorem counted_renumbered {L M : Link} (h : M.lastIssued = L.lastIssued + 1) :
    Link.counted L M = { M with changes := L.changes + 1 } := by
  refine counted_changed fun he => ?_
  have hsame : L.lastIssued = M.lastIssued := by simpa using congrArg Link.lastIssued he
  rw [h] at hsame
  bv_omega

/-! ### The job is gone (R116, R121, R128) -/

/-- The taking of a build result starts no job. -/
theorem sameJob_takeResult (k i n : Nat) (s : State) : SameJob s (takeResult k i n s) := by
  have hoffer : ∀ u, SameJob u (offerTest k u) := fun u => by
    obtain ⟨L, x, h⟩ := offerTest_frame k u
    exact .of (by rw [h])
  have hnew : SameJob s (newPendingSet k i n s) := ((sameJob_setPending k i n s).trans (.of rfl)).trans (hoffer _)
  unfold takeResult
  split
  · split
    · exact hnew
    · exact (sameJob_setPending k i n s).trans (hoffer _)
    · exact hnew
    · exact sameJob_setNext k i n s
  · exact .refl s

/-- After the hand-off there is no job. -/
theorem job_handOff (j : Job) (n : Nat) (s : State) : (handOff j n s).engine.job = none := (sameJob_takeResult _ _ _ _).none rfl

/-- The hand-off of a job whose record has moved on, in a state whose engine has, is the same hand-off. -/
theorem handOff_congr {j i : Job} {n : Nat} {s u : State} {e : Engine} (hu : u = { s with engine := e }) (hlink : i.link = j.link)
    (hslice : i.slice = j.slice) (hmean : i.mean = j.mean) : handOff i n u = handOff j n s := by
  subst hu
  unfold handOff setBuildMean
  rw [hlink, hslice, hmean]
  rfl

/-- The end UNCHANGED of a job whose record has moved on, in a state whose engine has, is the same end. -/
theorem endUnchanged_congr {j i : Job} {s u : State} {e : Engine} (hu : u = { s with engine := e }) (hlink : i.link = j.link)
    (hslice : i.slice = j.slice) (hmean : i.mean = j.mean) : endUnchanged i u = endUnchanged j s := by
  subst hu
  unfold endUnchanged setBuildMean
  rw [hlink, hslice, hmean]
  rfl

/-! ### UNCHANGED (R121, R124) -/

/-- The record with BUILD_MEAN of the job's slice set. -/
def Link.withMean (L : Link) (j : Job) : Link := { L with summary := L.summary.modify j.slice fun p => { p with buildMean := j.mean } }

section Ends
variable {f : State → State} {s t : State} {m : MemBurst} {j : Job} {n : Nat}

/-- A job that ends UNCHANGED sets BUILD_MEAN and leaves the pool, the notices and the other links. -/
theorem ends_unchanged (hk : j.link < 32) (hf : f (s.landed m) = endUnchanged j (s.landed m)) (ht : t = settle (counting f (s.landed m))) :
    t.engine.job = none ∧ t.pool = s.pool ∧ SameNotices s t ∧ t.link j.link = Link.counted (s.link j.link) ((s.link j.link).withMean j)
      ∧ OtherLinks j.link s t := by
  have hlink := link_counting_one (f := f) (s := s.landed m) (k := j.link) (M := (s.link j.link).withMean j) (by rw [hf]; rfl)
  subst ht
  refine ⟨?_, ?_, ?_, ?_, fun i hi => ?_⟩
  · rw [settle_engine_job, counting_engine, hf]
    rfl
  · rw [settle_pool, counting_pool, hf]
    rfl
  · simp only [SameNotices, settle_notices_staging, settle_notices_overflow, settle_notices_producer, settle_notices_consumer,
      settle_notices_classes, settle_notices_urgentCount, counting_notices, hf]
    exact ⟨rfl, rfl, rfl, rfl, rfl, rfl⟩
  · rw [settle_link, hlink, if_pos ⟨rfl, hk⟩]
    rfl
  · rw [settle_link, hlink, if_neg fun h => hi h.1.symm]
    rfl

/-- A job that hands its slot over leaves the other links. -/
theorem ends_otherLinks (hf : f (s.landed m) = handOff j n (s.landed m)) (ht : t = settle (counting f (s.landed m))) :
    OtherLinks j.link s t := by
  intro i hi
  obtain ⟨M, p, e, y, x, hframe⟩ := handOff_frame j n (s.landed m)
  rw [ht, settle_link, link_counting_one (k := j.link) (M := M) (by rw [hf, hframe]), if_neg fun h => hi h.1.symm]
  rfl

/-- A job that hands its slot over is gone. -/
theorem ends_job (hf : f (s.landed m) = handOff j n (s.landed m)) (ht : t = settle (counting f (s.landed m))) :
    t.engine.job = none := by
  rw [ht, settle_engine_job, counting_engine, hf]
  exact job_handOff _ _ _

end Ends

/-! ### The record that a result leaves (R138 to R142) -/

/-- The record as it is offered. -/
def Link.offered (L : Link) : Link := { L with swState := .offered, gatherLeft := 0, offerAge := 0, effective := 0 }

/-- The record as a result joins its pending set. -/
def Link.joined (L : Link) (slice n : Nat) : Link := { L with pendingSet := L.pendingSet.set slice (some n) }

/-- The record as its pending set begins or is overtaken, under a new number, with the gather window before it. -/
def Link.regathered (L : Link) (slice n gather : Nat) : Link :=
  { L with
    pendingSet := L.pendingSet.set slice (some n), pendingSetNo := L.lastIssued + 1, lastIssued := L.lastIssued + 1
    swState := .gathering, gatherLeft := gather, offerAge := 0, effective := 0 }

/-- The offer test passes: GATHER_LEFT is 0, or every pending entry is present. -/
theorem offerDue_iff {L : Link} (h : L.swState = .gathering) : L.offerDue = true ↔ L.gatherLeft = 0 ∨ none ∉ L.pendingSet := by
  unfold Link.offerDue
  rw [h, Bool.and_eq_true, Bool.or_eq_true, beq_iff_eq, beq_iff_eq, all_present_iff]
  exact and_iff_right rfl

/-- A state that differs from s, of what an offer reads and changes, in the record N of link k alone. -/
structure Stands (s : State) (k : Nat) (N : Link) (w : State) : Prop where
  links : w.links = tset s.links k N
  notices : w.notices = s.notices
  shadow : w.shadow = s.shadow
  tracker : w.tracker = s.tracker

section Handed
variable {f : State → State} {s t w : State} {m : MemBurst} {j : Job} {n k : Nat} {N : Link}

theorem Stands.link (h : Stands s k N w) (hk : k < 32) : w.link k = N := by
  unfold State.link
  rw [h.links]
  exact tget_tset_same _ _ _ hk

/-- A result that is taken without the offer test. -/
theorem Stands.taken (h : Stands s k N w) (hk : k < 32) (hf : f (s.landed m) = w) (ht : t = settle (counting f (s.landed m))) :
    t.link k = Link.counted (s.link k) N ∧ t.notices.staging = s.notices.staging := by
  subst ht
  constructor
  · rw [settle_link, link_counting_one (s := s.landed m) (k := k) (M := N) (by rw [hf, h.links]; rfl), if_pos ⟨rfl, hk⟩]
    rfl
  · rw [settle_notices_staging, counting_notices, hf, h.notices]

/-- A result after which the offer test fails. -/
theorem Stands.notOffered (h : Stands s k N w) (hk : k < 32) (hf : f (s.landed m) = offerTest k w)
    (ht : t = settle (counting f (s.landed m))) (hdue : N.offerDue = false) :
    t.link k = Link.counted (s.link k) N ∧ t.notices.staging = s.notices.staging := by
  rw [offerTest_fails (by rw [h.link hk]; exact hdue)] at hf
  exact h.taken hk hf ht

/-- A result after which the offer test succeeds. -/
theorem Stands.offered (h : Stands s k N w) (hk : k < 32) (hf : f (s.landed m) = offerTest k w)
    (ht : t = settle (counting f (s.landed m))) (hdue : N.offerDue = true) :
    t.link k = Link.counted (s.link k) N.offered
      ∧ t.notices.staging = (raise (.offer k N.node N.pendingSetNo N.pendingMask) s).notices.staging := by
  rw [offerTest_due (by rw [h.link hk]; exact hdue), h.link hk] at hf
  subst ht
  constructor
  · rw [settle_link, link_counting_one (s := s.landed m) (k := k) (M := N.offered), if_pos ⟨rfl, hk⟩]
    · rfl
    · rw [hf]
      exact (congrArg (tset · k N.offered) h.links).trans (tset_tset _ _ _ _)
  · rw [settle_notices_staging, counting_notices, hf]
    exact raise_staging_congr _ h.notices h.shadow h.tracker

/-- The engine is idle and BUILD_MEAN set, as Switchover takes the result. -/
theorem link_endJob_setBuildMean (hk : j.link < 32) : (endJob (setBuildMean j (s.landed m))).link j.link = (s.link j.link).withMean j :=
  tget_tset_same _ _ _ hk

/-- A GATHERING link takes the result into its pending set, and the offer test follows (R139, R142). -/
theorem handOff_gathering (hopen : (s.link j.link).isOpen = true) (hmode : (s.link j.link).mode ≠ .fallback)
    (hsw : (s.link j.link).swState = .gathering) : ∃ w, handOff j n (s.landed m) = offerTest j.link w
      ∧ Stands s j.link (((s.link j.link).withMean j).joined j.slice n) w := by
  obtain ⟨p, e, h, _⟩ := takeResult_gathering (i := j.slice) (n := n) (lt32 hopen) _
    (link_endJob_setBuildMean (s := s) (m := m) (lt32 hopen)) hopen hmode hsw
  exact ⟨_, h, tset_tset _ _ _ _, rfl, rfl, rfl⟩

/-- A CONFIRMED link takes the result into its next set (R141). -/
theorem handOff_confirmed (hopen : (s.link j.link).isOpen = true) (hmode : (s.link j.link).mode ≠ .fallback)
    (hsw : (s.link j.link).swState = .confirmed) : ∃ w, handOff j n (s.landed m) = w
      ∧ Stands s j.link { (s.link j.link).withMean j with nextSet := (s.link j.link).nextSet.set j.slice (some n) } w := by
  obtain ⟨p, e, h, _⟩ := takeResult_confirmed (i := j.slice) (n := n) (lt32 hopen) _
    (link_endJob_setBuildMean (s := s) (m := m) (lt32 hopen)) hopen hmode hsw
  exact ⟨_, h, tset_tset _ _ _ _, rfl, rfl, rfl⟩

/-- A STEADY or OFFERED link takes the result under a new set number, and the offer test follows (R138, R140, R142). -/
theorem handOff_new (hopen : (s.link j.link).isOpen = true) (hmode : (s.link j.link).mode ≠ .fallback)
    (hsw : (s.link j.link).swState = .steady ∨ (s.link j.link).swState = .offered) : ∃ w, handOff j n (s.landed m) = offerTest j.link w
      ∧ Stands s j.link (((s.link j.link).withMean j).regathered j.slice n s.shadow.gather) w := by
  obtain ⟨p, e, h, _⟩ := takeResult_new (i := j.slice) (n := n) (lt32 hopen) _
    (link_endJob_setBuildMean (s := s) (m := m) (lt32 hopen)) hopen hmode hsw
  exact ⟨_, h, tset_tset _ _ _ _, rfl, rfl, rfl⟩

/-- A slot of the pool that is not FREE is handed over as the statements say (R128, R138 to R142). -/
theorem ends_handsResult (hn : s.PoolLaws → s.filter ≠ .transparent → n < s.shadow.poolSlots ∧ (0 < n → (s.slot n).state ≠ .free))
    (hf : f (s.landed m) = handOff j n (s.landed m)) (ht : t = settle (counting f (s.landed m))) : HandsResult s t j n := by
  rintro L M rfl hopen hmode hpending hnext rfl
  have hk := lt32 hopen
  refine ⟨ends_job hf ht, ends_otherLinks hf ht, fun hlaws hon => ?_, fun hsw => ?_, fun hsw hdue => ?_, fun hsw hdue => ?_, fun hsw => ?_⟩
  · rw [ht, settle_pool, counting_pool, hf]
    exact freeList_handOff (s.landed m) j n hlaws hon hopen hmode (hn hlaws hon) hpending hnext
  · obtain ⟨w, hw, hstands⟩ := handOff_confirmed (m := m) (n := n) hopen hmode hsw
    exact hstands.taken hk (hf.trans hw) ht
  · obtain ⟨w, hw, hstands⟩ := handOff_gathering (m := m) (n := n) hopen hmode hsw
    exact hstands.notOffered hk (hf.trans hw) ht
      (Bool.eq_false_iff.2 fun h => hdue ((offerDue_iff (L := ((s.link j.link).withMean j).joined j.slice n) hsw).1 h))
  · obtain ⟨w, hw, hstands⟩ := handOff_gathering (m := m) (n := n) hopen hmode hsw
    obtain ⟨hlink, hstaging⟩ := hstands.offered hk (hf.trans hw) ht
      ((offerDue_iff (L := ((s.link j.link).withMean j).joined j.slice n) hsw).2 hdue)
    rw [counted_switched (by rw [hsw]; exact fun h => (by cases h))] at hlink
    exact ⟨hlink, _, fun i hi => pendingMask_bit _ i hi, hstaging⟩
  · obtain ⟨w, hw, hstands⟩ := handOff_new (m := m) (n := n) hopen hmode hsw
    have hiff := offerDue_iff (L := ((s.link j.link).withMean j).regathered j.slice n s.shadow.gather) rfl
    cases hdue : (((s.link j.link).withMean j).regathered j.slice n s.shadow.gather).offerDue with
    | true =>
      obtain ⟨hlink, hstaging⟩ := hstands.offered hk (hf.trans hw) ht hdue
      rw [counted_renumbered rfl] at hlink
      exact ⟨true, iff_of_true rfl (hiff.1 hdue), hlink, fun h => absurd h (by decide),
        fun _ => ⟨_, fun i hi => pendingMask_bit _ i hi, hstaging⟩⟩
    | false =>
      obtain ⟨hlink, hstaging⟩ := hstands.notOffered hk (hf.trans hw) ht hdue
      rw [counted_renumbered rfl] at hlink
      exact ⟨false, iff_of_false Bool.false_ne_true fun h => Bool.false_ne_true (hdue.symm.trans (hiff.2 h)), hlink, fun _ => hstaging,
        fun h => absurd h (by decide)⟩

end Handed

/-! ### NEW (R128) -/

/-- Under the laws of the pool the job's slot is BUILDING, a slot of the pool. -/
theorem jobSlot_building {s : State} {j : Job} {n : Nat} (hj : s.engine.job = some j) (hn : j.slot = some n) (hlaws : s.PoolLaws)
    (hon : s.filter ≠ .transparent) : n < s.shadow.poolSlots ∧ (0 < n → (s.slot n).state ≠ .free) := by
  obtain ⟨_, _, _, _, hpool⟩ := hlaws
  obtain ⟨_, _, _, _, hslot, _⟩ := hpool hon
  obtain ⟨_, hlt, hbuilding⟩ := hslot j n hj hn
  exact ⟨hlt, fun _ => by rw [hbuilding]; decide⟩

/-- Settles O51: the header's event is the hand-off of the job's slot, which is BUILDING. -/
theorem resultTaken : Obligations.ResultTaken := by
  intro s m j n hport hj hn
  have hf : headerWritten (s.landed m) = handOff j n (s.landed m) := headerWritten_eq hj hn
  obtain ⟨htracker, hmailbox, hintake, happlier, hmemory⟩ := EngineEvent.same (f := headerWritten) (headerWritten_frame (s.landed m)) rfl
  exact ⟨_, congrArg Host.Outcome.next (onPort_done_event hport), ends_job hf rfl, ends_otherLinks hf rfl,
    ends_handsResult (jobSlot_building hj hn) hf rfl, hmemory, htracker, hmailbox, hintake, happlier⟩

end Sys2Proof.Machine
end

section
/-! PROOFS. The Loading Engine: the loading values of an SNR burst, the candidates of MATCH, and what follows them (R119 to R126). -/
namespace Sys2Proof.Machine

/-! ### The loading values (R119, R120, R182) -/

/-- The last of the numbers 1 to n with a property, or 0, is the largest. -/
theorem foldl_last (p : Nat → Prop) [DecidablePred p] (n : Nat) {r : Nat}
    (hr : r = (List.range' 1 n).foldl (fun best b => if p b then b else best) 0) :
    (r = 0 ∨ r ≤ n ∧ p r) ∧ ∀ b, 1 ≤ b → b ≤ n → p b → b ≤ r := by
  induction n generalizing r with
  | zero => exact ⟨.inl hr, fun b h1 h0 _ => by omega⟩
  | succ n ih =>
    obtain ⟨hlast, hmax⟩ := ih rfl
    rw [List.range'_concat, List.foldl_append, List.foldl_cons, List.foldl_nil, Nat.one_mul, Nat.add_comm 1 n] at hr
    by_cases hp : p (n + 1)
    · rw [if_pos hp] at hr
      subst hr
      exact ⟨.inr ⟨Nat.le_refl _, hp⟩, fun b _ hb _ => hb⟩
    · rw [if_neg hp, ← hr] at *
      refine ⟨hlast.imp_right fun h => ⟨Nat.le_succ_of_le h.1, h.2⟩, fun b h1 hb hpb => hmax b h1 ?_ hpb⟩
      rcases Nat.lt_or_eq_of_le hb with h | h
      · omega
      · exact absurd (h ▸ hpb) hp

/-- The loading value of an SNR is the largest b of 1 to 10 whose THRb + MARGIN the SNR reaches, or 0. -/
theorem loadingOf_largest (c : Shadow) (snr : Nat) :
    (c.loadingOf snr = 0 ∨ c.loadingOf snr ≤ 10 ∧ c.threshold (c.loadingOf snr) + c.margin ≤ snr)
      ∧ ∀ b, 1 ≤ b → b ≤ 10 → c.threshold b + c.margin ≤ snr → b ≤ c.loadingOf snr :=
  foldl_last (fun b => c.threshold b + c.margin ≤ snr) 10 rfl

/-- A loading value fits its four bits. -/
theorem loadingOf_toNat (c : Shadow) (snr : Nat) : (BitVec.ofNat 4 (c.loadingOf snr)).toNat = c.loadingOf snr := by
  rw [BitVec.toNat_ofNat]
  apply Nat.mod_eq_of_lt
  obtain ⟨h | ⟨h, _⟩, _⟩ := loadingOf_largest c snr <;> omega

/-- The SNR of a carrier of a burst, in the words read. -/
theorem snrAt_readWords (m : Memory) (a : Nat) {i : Nat} (hi : i < 32) :
    snrAt (readWords m a 8) i = bits (readWord m (a + i / 4)) (8 * (i % 4)) 8 := by
  unfold snrAt
  rw [readWords_getD _ _ _ (by omega)]

/-- The loading value of a carrier of a burst. -/
theorem loadBurst_value {s : State} {pos i : Nat} {ws : List Word} {v : BitVec 4} (h : (s.loadBurst pos ws)[i]? = some v) :
    i < 32 ∧ v = BitVec.ofNat 4 (s.loadingValue (32 * pos + i) (snrAt ws i)) := by
  unfold State.loadBurst at h
  rw [List.getElem?_map] at h
  have hi : i < 32 := by
    by_contra hge
    rw [List.getElem?_eq_none (by rw [List.length_range]; omega)] at h
    cases h
  rw [List.getElem?_range hi] at h
  exact ⟨hi, (Option.some.inj h).symm⟩

/-- A notched carrier has loading value 0. -/
theorem loadingValue_notched {s : State} {c : Nat} (h : s.applier.isNotched c = true) (snr : Nat) : s.loadingValue c snr = 0 := if_pos h

/-- A carrier that is not notched has the loading value of its SNR. -/
theorem loadingValue_open {s : State} {c : Nat} (h : s.applier.isNotched c = false) (snr : Nat) :
    s.loadingValue c snr = s.shadow.loadingOf snr := if_neg (by rw [h]; exact Bool.false_ne_true)

/-! ### ALLOCATE (R91, R94, R125, R126) -/

/-- The job takes the Free List's head. -/
theorem enterAllocate_takes {s : State} {j : Job} {n : Nat} {rest : List Nat} (hj : s.engine.job = some j)
    (hl : s.pool.freeList = n :: rest) : enterAllocate s =
      { s with
        pool :=
          { slots := tset s.pool.slots n
              { s.slot n with
                state := .building
                issue := (s.slot n).issue + 1
                ownerLink := j.link
                ownerNode := (s.link j.link).node
                slice := j.slice }
            freeList := rest }
        engine := { s.engine with
          job := some { j with slot := some n, stage := .write, pos := 0 }
          ready := some ⟨.loadingWrite, .write (s.shadow.poolBase + n * 256 + 8)
            ((List.range 8).map fun i => ⟨bufferWord s.engine.buffer i, 15⟩)⟩ } } := by
  unfold enterAllocate
  rw [withJob_some hj]
  dsimp only
  rw [hl]
  exact allocate_head (s := s.setJob { j with stage := .allocate } none) (j := { j with stage := .allocate }) rfl hl

/-- With the Free List empty the job waits, and POOL_EMPTY is raised. -/
theorem enterAllocate_waits {s : State} {j : Job} (hj : s.engine.job = some j) (hl : s.pool.freeList = []) : enterAllocate s =
    raise (.poolEmpty j.link j.slice j.record (s.pool.slots.toList.filter fun r => r.state == .retiring).length)
      { s with engine := { s.engine with job := some { j with stage := .allocate }, ready := none } } := by
  unfold enterAllocate
  rw [withJob_some hj]
  dsimp only
  rw [hl]
  rfl

/-! ### The candidates (R122, R123) -/

/-- The first candidate worth reading has its first read ready. -/
theorem examineFrom_reads {s : State} {j : Job} {i x n : Nat} {issue : BitVec 8} (hj : s.engine.job = some j)
    (hnext : s.nextCandidate j.total j.signature (j.candidates.drop i) i = some x) (hx : j.candidates[x]? = some (n, issue)) :
    examineFrom i s =
      { s with engine := { s.engine with
          job := some { j with stage := .matching, candIx := x, pos := 0 }
          ready := some ⟨.candidateRead, .read (s.shadow.poolBase + n * 256 + 8) 8⟩ } } := by
  have hn : (j.candidates.map Prod.fst).getD x 0 = n := by
    rw [List.getD_eq_getElem?_getD, List.getElem?_map, hx]
    rfl
  unfold examineFrom
  rw [withJob_some hj, hnext]
  dsimp only
  rw [hn]
  rfl

/-- With no candidate worth reading the job comes to ALLOCATE. -/
theorem examineFrom_ends {s : State} {j : Job} {i : Nat} (hj : s.engine.job = some j)
    (h : ∀ x ∈ j.candidates.drop i, ¬((s.slot x.1).total = j.total ∧ (s.slot x.1).signature = j.signature)) :
    examineFrom i s = enterAllocate s := by
  unfold examineFrom
  rw [withJob_some hj, nextCandidate_none i h]

/-! ### After the last SNR burst (R119, R121, R122) -/

/-- The job with TOTAL and SIGNATURE computed from the build buffer. -/
def Job.summed (j : Job) (total : Nat) (signature : Word) : Job := { j with total := total, signature := signature }

/-- The engine with the build buffer complete. -/
def State.built (s : State) (j : Job) (buffer : List (BitVec 4)) (total : Nat) (signature : Word) : State :=
  { s with engine := { job := some (j.summed total signature), buffer := buffer, ready := none } }

/-- An SNR burst that leaves carriers to load: the next read is ready. -/
theorem snrRead_next {s : State} {j : Job} {ws : List Word} (hj : s.engine.job = some j) (hmore : j.pos + 1 < s.shadow.carriers / 32) :
    snrRead ws s =
      { s with engine :=
        { job := some { j with pos := j.pos + 1 }
          buffer := s.engine.buffer ++ s.loadBurst j.pos ws
          ready := some ⟨.snrRead, .read (s.shadow.estBase + j.record * 512 + (8 + 8 * (j.pos + 1))) 8⟩ } } := by
  unfold snrRead
  rw [withJob_some hj]
  dsimp only
  rw [if_pos hmore]
  rfl

/-- After the last SNR burst MATCH begins. -/
theorem snrRead_last {s : State} {j : Job} {ws : List Word} {buffer : List (BitVec 4)} {total : Nat} {signature : Word}
    (hj : s.engine.job = some j) (hlast : s.shadow.carriers / 32 ≤ j.pos + 1) (hbuffer : buffer = s.engine.buffer ++ s.loadBurst j.pos ws)
    (htotal : total = (buffer.map BitVec.toNat).sum)
    (hsum : signature = ((List.range (s.shadow.carriers / 8)).map (bufferWord buffer)).foldr (· + ·) 0) :
    snrRead ws s = enterMatch (s.built j buffer total signature) := by
  subst hbuffer htotal hsum
  unfold snrRead
  rw [withJob_some hj]
  dsimp only
  rw [if_neg (Nat.not_lt.2 hlast), sumWords_foldr]
  rfl

section Match
variable {s : State} {j : Job} {buffer : List (BitVec 4)} {total : Nat} {signature : Word}

/-- TOTAL below the base total with slot 0 in force: the job ends UNCHANGED. -/
theorem enterMatch_unchanged (hbelow : total < (s.slot 0).total) (hcell : (s.link j.link).cells[j.slice]? = some 0) :
    enterMatch (s.built j buffer total signature) = endUnchanged j s := by
  unfold enterMatch
  rw [withJob_some rfl]
  exact (if_pos hbelow).trans ((if_pos hcell).trans (endUnchanged_congr rfl rfl rfl rfl))

/-- TOTAL below the base total with another slot in force: slot 0 is handed over. -/
theorem enterMatch_base (hbelow : total < (s.slot 0).total) (hcell : (s.link j.link).cells[j.slice]? ≠ some 0) :
    enterMatch (s.built j buffer total signature) = handOff j 0 s := by
  unfold enterMatch
  rw [withJob_some rfl]
  exact (if_pos hbelow).trans ((if_neg hcell).trans (handOff_congr rfl rfl rfl rfl))

/-- The job in MATCH, its candidates noted. -/
def Job.matching (j : Job) (candidates : List (Nat × BitVec 8)) : Job :=
  { j with stage := .matching, candidates := candidates, pos := 0, candIx := 0 }

/-- The engine in MATCH, its build buffer complete. -/
def State.inMatch (s : State) (j : Job) (buffer : List (BitVec 4)) : State :=
  { s with engine := { job := some j, buffer := buffer, ready := none } }

variable {L : Link} {cands : List (Nat × BitVec 8)} (hbase : (s.slot 0).total ≤ total) (hL : L = s.link j.link)
  (hcands : cands = ((L.cells[j.slice]?.toList ++ L.cells.eraseIdx j.slice ++ L.pendingSet.filterMap id
    ++ L.nextSet.filterMap id).eraseDups.map fun n => (n, (s.slot n).issue)))
include hbase hL hcands

/-- TOTAL not below the base total: the candidates are noted, and examined from the first. -/
theorem enterMatch_examines : enterMatch (s.built j buffer total signature) =
    examineFrom 0 (s.inMatch ((j.summed total signature).matching cands) buffer) := by
  subst hL
  rw [← candidateSlots_eq] at hcands
  subst hcands
  unfold enterMatch
  rw [withJob_some rfl]
  exact if_neg (Nat.not_lt.2 hbase)

/-- The first candidate of equal TOTAL and SIGNATURE is read. -/
theorem enterMatch_reads {i n : Nat} {issue : BitVec 8} (hi : cands[i]? = some (n, issue))
    (hequal : (s.slot n).total = total ∧ (s.slot n).signature = signature)
    (hbefore : ∀ k x, k < i → cands[k]? = some x → ¬((s.slot x.1).total = total ∧ (s.slot x.1).signature = signature)) :
    enterMatch (s.built j buffer total signature) =
      { s with engine :=
        { job := some { (j.summed total signature).matching cands with candIx := i }
          buffer := buffer
          ready := some ⟨.candidateRead, .read (s.shadow.poolBase + n * 256 + 8) 8⟩ } } := by
  have hnext := nextCandidate_some (s := s.inMatch ((j.summed total signature).matching cands) buffer) 0 hi hequal hbefore
  rw [Nat.zero_add] at hnext
  exact (enterMatch_examines hbase hL hcands).trans (examineFrom_reads rfl hnext hi)

variable (hnone : ∀ x ∈ cands, ¬((s.slot x.1).total = total ∧ (s.slot x.1).signature = signature))
include hnone

/-- With no candidate of equal TOTAL and SIGNATURE the job comes to ALLOCATE. -/
theorem enterMatch_allocates : enterMatch (s.built j buffer total signature) =
    enterAllocate (s.inMatch ((j.summed total signature).matching cands) buffer) :=
  (enterMatch_examines hbase hL hcands).trans (examineFrom_ends rfl hnone)

end Match

/-- Under a legal configuration slot 0 is a slot of the pool. -/
theorem baseSlot_legal {s : State} (hlaws : s.PoolLaws) (hon : s.filter ≠ .transparent) :
    0 < s.shadow.poolSlots ∧ (0 < 0 → (s.slot 0).state ≠ .free) := by
  have hsize := poolSlots_range (hlaws.1.resolve_left hon)
  exact ⟨by omega, fun h => absurd h (Nat.lt_irrefl 0)⟩

/-- Settles O56: the loading values of the burst, and after the last of them the ends and the candidates of MATCH. -/
theorem snrLoaded : Obligations.SnrLoaded := by
  intro s a j hport hj
  refine ⟨s.loadBurst j.pos (readWords s.memory a 8), by simp [State.loadBurst], fun i v snr c hv hc hsnr => ?_, fun hmore => ?_,
    fun total sum buffer L cands hlast hbuffer htotal hsum hL hcands => ?_⟩
  · obtain ⟨hi, hval⟩ := loadBurst_value hv
    rw [← hc, snrAt_readWords _ _ hi, ← hsnr] at hval
    refine ⟨fun hn => ?_, fun hn => ?_⟩
    · rw [hval, loadingValue_notched hn]
      rfl
    · rw [hval, loadingValue_open hn, loadingOf_toNat]
      exact loadingOf_largest _ _
  · exact congrArg Host.Outcome.next (onPort_done_as hport (snrRead_next (s := s.landed (.read a 8)) hj hmore) rfl)
  · have hread : snrRead _ (s.landed (.read a 8)) = _ := snrRead_last (s := s.landed (.read a 8)) hj hlast hbuffer htotal hsum
    obtain ⟨htracker, hmailbox, hintake, happlier, hmemory⟩ := EngineEvent.same (f := snrRead (readWords s.memory a 8))
      (snrRead_frame _ (s.landed (.read a 8))) rfl
    have hsame : ∀ k, readByte _ k = readByte s.memory k := fun k => congrArg (readByte · k) hmemory
    refine ⟨fun hbelow hcell => ?_, fun hbelow hcell => ?_, fun hbase i n issue hi htot hsig hbefore => ?_, fun hbase hnone => ?_⟩
    · rw [hL] at hcell ⊢
      have hf := hread.trans (enterMatch_unchanged (s := s.landed (.read a 8)) hbelow hcell)
      obtain ⟨hjob, hpool, hnotices, hlink, hothers⟩ := ends_unchanged (lt_of_cell hcell) hf rfl
      exact ⟨_, congrArg Host.Outcome.next (onPort_done_event hport), hjob, hpool, hnotices, hlink, hothers, htracker, hmailbox, hintake,
        hsame⟩
    · rw [hL] at hcell
      have hf := hread.trans (enterMatch_base (s := s.landed (.read a 8)) hbelow hcell)
      exact ⟨_, congrArg Host.Outcome.next (onPort_done_event hport), ends_job hf rfl, ends_otherLinks hf rfl,
        ends_handsResult baseSlot_legal hf rfl, htracker, hmailbox, hintake, happlier, hsame⟩
    · exact congrArg Host.Outcome.next (onPort_done_as hport
        (hread.trans (enterMatch_reads (s := s.landed (.read a 8)) hbase hL hcands hi ⟨htot, hsig⟩ hbefore)) rfl)
    · have hallocate := hread.trans (enterMatch_allocates (s := s.landed (.read a 8)) hbase hL hcands hnone)
      refine ⟨fun n rest hl => ?_, fun hl => ?_⟩
      · have htakes := hallocate.trans (enterAllocate_takes (s := (s.landed (.read a 8)).inMatch _ buffer) rfl hl)
        exact congrArg Host.Outcome.next (onPort_done_as hport htakes rfl)
      · have hwaits := hallocate.trans (enterAllocate_waits (s := (s.landed (.read a 8)).inMatch _ buffer) rfl hl)
        exact congrArg Host.Outcome.next (onPort_done_as hport hwaits rfl)

end Sys2Proof.Machine
end

section
/-! PROOFS. The Loading Engine: a candidate's words compared, and what follows a match, a void match and a difference (R122 to R126). -/
namespace Sys2Proof.Machine

/-! ### The words of a candidate (R123) -/

/-- Words read are the words computed where they agree one by one. -/
theorem readWords_eq_iff (m : Memory) (a n : Nat) (w : Nat → Word) :
    readWords m a n = (List.range n).map w ↔ ∀ i, i < n → readWord m (a + i) = w i := by
  unfold readWords
  simp only [List.map_inj_left, List.mem_range]

section Candidate
variable {s : State} {j : Job} {ws : List Word} {n : Nat} {issue : BitVec 8} (hj : s.engine.job = some j)
  (hc : j.candidates[j.candIx]? = some (n, issue))
include hj hc

/-- Equal words with more to read: the next burst is ready. -/
theorem candidateRead_more (heq : ws = (List.range 8).map fun i => bufferWord s.engine.buffer (8 * j.pos + i))
    (hmore : j.pos + 1 < s.shadow.carriers / 64) : candidateRead ws s =
      s.setJob { j with pos := j.pos + 1 } (some (s.shadow.candidateBurst n (j.pos + 1))) := by
  unfold candidateRead
  rw [withJob_some hj]
  simp only [hc, if_pos heq, if_pos hmore]

/-- Equal words to the end: the match is re-checked. -/
theorem candidateRead_matches (heq : ws = (List.range 8).map fun i => bufferWord s.engine.buffer (8 * j.pos + i))
    (hlast : s.shadow.carriers / 64 ≤ j.pos + 1) : candidateRead ws s = useMatch n issue s := by
  unfold candidateRead
  rw [withJob_some hj]
  simp only [hc, if_pos heq, if_neg (Nat.not_lt.2 hlast)]

/-- A word that differs: the later candidates are examined. -/
theorem candidateRead_differs (hne : ws ≠ (List.range 8).map fun i => bufferWord s.engine.buffer (8 * j.pos + i)) :
    candidateRead ws s = examineFrom (j.candIx + 1) s := by
  unfold candidateRead
  rw [withJob_some hj]
  simp only [hc, if_neg hne]

end Candidate

/-! ### The match re-checked (R124) -/

/-- An entry of the link names the slot. -/
theorem names_iff (L : Link) (n : Nat) : L.names n = true ↔ n ∈ L.cells ∨ some n ∈ L.pendingSet ∨ some n ∈ L.nextSet := by
  unfold Link.names
  rw [Bool.or_eq_true, Bool.or_eq_true, List.contains_iff_mem, List.contains_iff_mem, List.contains_iff_mem, or_assoc]

section Match
variable {s : State} {j : Job} {n : Nat} {issue : BitVec 8} (hj : s.engine.job = some j)
include hj

/-- A match in the slice's cell is in force: the job ends UNCHANGED. -/
theorem useMatch_inForce (hissue : (s.slot n).issue = issue) (hcell : (s.link j.link).cells[j.slice]? = some n) :
    useMatch n issue s = endUnchanged j s := by
  unfold useMatch
  rw [withJob_some hj, if_pos ⟨hissue, (names_iff _ _).2 (.inl (List.mem_of_getElem? hcell))⟩, if_pos hcell]

/-- A match that another entry names is handed over. -/
theorem useMatch_found (hissue : (s.slot n).issue = issue) (hnamed : (s.link j.link).names n = true)
    (hcell : (s.link j.link).cells[j.slice]? ≠ some n) : useMatch n issue s = handOff j n s := by
  unfold useMatch
  rw [withJob_some hj, if_pos ⟨hissue, hnamed⟩, if_neg hcell]

/-- A match under another issue, or that no entry names any more, is void. -/
theorem useMatch_void (h : (s.slot n).issue ≠ issue ∨ (s.link j.link).names n = false) :
    useMatch n issue s = examineFrom (j.candIx + 1) s := by
  have hvoid : ¬((s.slot n).issue = issue ∧ (s.link j.link).names n = true) := fun ⟨hissue, hnamed⟩ =>
    h.elim (fun hne => hne hissue) fun hno => Bool.false_ne_true (hno.symm.trans hnamed)
  unfold useMatch
  rw [withJob_some hj, if_neg hvoid]

end Match

/-- A slot that an entry of the link names is a slot of the pool, and not FREE. -/
theorem named_legal {s : State} {k n : Nat} (hnamed : (s.link k).names n = true) (hlaws : s.PoolLaws) (hon : s.filter ≠ .transparent) :
    n < s.shadow.poolSlots ∧ (0 < n → (s.slot n).state ≠ .free) := by
  have hentry : ∀ l : List (Option Nat), some n ∈ l → ∃ i : Nat, l.getD i none = some n := fun l hl => by
    obtain ⟨i, hi⟩ := List.mem_iff_getElem?.1 hl
    exact ⟨i, by rw [List.getD_eq_getElem?_getD, hi]; rfl⟩
  have hrefs : 0 < refs s.links n := by
    rcases (names_iff _ _).1 hnamed with h | h | h
    · obtain ⟨i, hi⟩ := List.mem_iff_getElem?.1 h
      exact cell_refs (lt_of_cell hi) h
    · obtain ⟨i, hi⟩ := hentry _ h
      exact refs_pending hi
    · obtain ⟨i, hi⟩ := hentry _ h
      exact refs_next hi
  obtain ⟨hlt, _, hstate, _⟩ := (Ready.of hlaws hon).ok.slotOf trivial hon hrefs
  exact ⟨hlt, fun h0 => (hstate h0).1⟩

/-! ### The later candidates (R123) -/

/-- The first later candidate of equal TOTAL and SIGNATURE is the next that the job comes to. -/
theorem nextCandidate_later {s : State} {total : Nat} {signature : Word} {cs : List (Nat × BitVec 8)} {c : Nat × BitVec 8} {first i : Nat}
    (hle : first ≤ i) (hc : cs[i]? = some c) (hequal : (s.slot c.1).total = total ∧ (s.slot c.1).signature = signature)
    (hbefore : ∀ k x, first ≤ k → k < i → cs[k]? = some x → ¬((s.slot x.1).total = total ∧ (s.slot x.1).signature = signature)) :
    s.nextCandidate total signature (cs.drop first) first = some i := by
  have hget : ∀ m, (cs.drop first)[m]? = cs[first + m]? := fun m => List.getElem?_drop
  rw [nextCandidate_some (m := i - first) first (by rw [hget, Nat.add_sub_cancel' hle]; exact hc) hequal fun k x hk hx =>
    hbefore (first + k) x (Nat.le_add_right _ _) (by omega) (by rw [← hget]; exact hx), Nat.add_sub_cancel' hle]

/-- Settles O57: the words compared, the match re-checked, and the later candidates or a slot. -/
theorem candidateCompared : Obligations.CandidateCompared := by
  intro s a n issue j L equal hport hj hc hL hequal
  subst hL
  have hwords : equal = true ↔ readWords s.memory a 8 = (List.range 8).map fun i => bufferWord s.engine.buffer (8 * j.pos + i) :=
    hequal.trans (readWords_eq_iff _ _ _ _).symm
  obtain ⟨htracker, hmailbox, hintake, happlier, hmemory⟩ := EngineEvent.same (f := candidateRead (readWords s.memory a 8))
    (candidateRead_frame _ (s.landed (.read a 8))) rfl
  have hsame : ∀ k, readByte _ k = readByte s.memory k := fun k => congrArg (readByte · k) hmemory
  have hmatch := fun heq hlast => candidateRead_matches (s := s.landed (.read a 8)) hj hc (hwords.1 heq) hlast
  refine ⟨fun heq hmore => ?_, fun heq hlast hissue hcell => ?_, fun heq hlast hissue hcell hnamed => ?_, fun hvoid => ?_⟩
  · exact congrArg Host.Outcome.next
      (onPort_done_as hport (candidateRead_more (s := s.landed (.read a 8)) hj hc (hwords.1 heq) hmore) rfl)
  · have hf := (hmatch heq hlast).trans (useMatch_inForce (s := s.landed (.read a 8)) hj hissue hcell)
    obtain ⟨hjob, hpool, hnotices, hlink, hothers⟩ := ends_unchanged (lt_of_cell hcell) hf rfl
    exact ⟨_, congrArg Host.Outcome.next (onPort_done_event hport), hjob, hpool, hnotices, hlink, hothers, htracker, hmailbox, hintake,
      hsame⟩
  · have hnames := (names_iff _ _).2 hnamed
    have hf := (hmatch heq hlast).trans (useMatch_found (s := s.landed (.read a 8)) hj hissue hnames hcell)
    exact ⟨_, congrArg Host.Outcome.next (onPort_done_event hport), ends_job hf rfl, ends_otherLinks hf rfl,
      ends_handsResult (named_legal hnames) hf rfl, htracker, hmailbox, hintake, happlier, hsame⟩
  · have hexamine : candidateRead (readWords s.memory a 8) (s.landed (.read a 8)) = examineFrom (j.candIx + 1) (s.landed (.read a 8)) := by
      have hdiffers := fun hne => candidateRead_differs (s := s.landed (.read a 8)) (ws := readWords s.memory a 8) hj hc hne
      cases equal with
      | false => exact hdiffers fun heq => Bool.false_ne_true (hwords.2 heq)
      | true =>
        obtain ⟨hlast, hno⟩ := hvoid.resolve_left (Bool.noConfusion ·)
        refine (hmatch rfl hlast).trans (useMatch_void (s := s.landed (.read a 8)) hj (hno.imp_right fun ⟨hcells, hpending, hnext⟩ => ?_))
        refine Bool.eq_false_iff.2 fun hnames => ?_
        rcases (names_iff _ _).1 hnames with h | h | h
        · exact hcells h
        · exact hpending h
        · exact hnext h
    refine ⟨fun i n' issue' hi hcand htot hsig hbefore => ?_, fun hnone => ⟨fun f rest hl => ?_, fun hl => ?_⟩⟩
    · have hnext := nextCandidate_later (s := s.landed (.read a 8)) hi hcand ⟨htot, hsig⟩ hbefore
      exact congrArg Host.Outcome.next (onPort_done_as hport
        (hexamine.trans (examineFrom_reads (s := s.landed (.read a 8)) hj hnext hcand)) rfl)
    · have htakes := (examineFrom_ends (s := s.landed (.read a 8)) hj hnone).trans (enterAllocate_takes hj hl)
      exact congrArg Host.Outcome.next (onPort_done_as hport (hexamine.trans htakes) rfl)
    · have hwaits := (examineFrom_ends (s := s.landed (.read a 8)) hj hnone).trans (enterAllocate_waits hj hl)
      exact congrArg Host.Outcome.next (onPort_done_as hport (hexamine.trans hwaits) rfl)

end Sys2Proof.Machine
end

section
/-! PROOFS. The answers to an offer in OPERATING: CONFIRM and DECLINE (R72, R93, R94, R126, R146 to R148). -/
namespace Sys2Proof.Machine

/-! ### The checks (R146, R148) -/

section
variable {s : State} (hopen : (s.link s.arg0.toNat).isOpen = true)
include hopen

/-- Check 2: no set of the link is on offer. -/
theorem offerRefusal_notOffered (hsw : (s.link s.arg0.toNat).swState ≠ .offered) : s.offerRefusal = some .notOffered := by
  unfold State.offerRefusal
  rw [(namesOpen_iff s s.arg0).2 hopen]
  exact if_pos hsw

variable (hsw : (s.link s.arg0.toNat).swState = .offered)
include hsw

/-- Check 3: another set is on offer. -/
theorem offerRefusal_stale (hset : s.arg1.toNat ≠ (s.link s.arg0.toNat).pendingSetNo.toNat) : s.offerRefusal = some .stale := by
  unfold State.offerRefusal
  rw [(namesOpen_iff s s.arg0).2 hopen]
  exact (if_neg (not_not_intro hsw)).trans (if_pos hset)

/-- The three checks pass. -/
theorem offerRefusal_none (hset : s.arg1.toNat = (s.link s.arg0.toNat).pendingSetNo.toNat) : s.offerRefusal = none := by
  unfold State.offerRefusal
  rw [(namesOpen_iff s s.arg0).2 hopen]
  exact (if_neg (not_not_intro hsw)).trans (if_neg (not_not_intro hset))

end

/-- Check 4 of CONFIRM, with the starts ahead counted mod 65,536. -/
theorem effectiveOk_iff {s : State} {d : Nat} (hd : d = (s.arg2.toNat + 65536 - s.tracker.halfCount.toNat) % 65536) :
    s.effectiveOk = true ↔ s.arg2.toNat ≤ 65535 ∧ 1 ≤ d ∧ d ≤ 200 := by
  have hahead : (s.arg2.setWidth 16 - s.tracker.halfCount).toNat = d := by
    rw [BitVec.toNat_sub, BitVec.toNat_setWidth, hd]
    omega
  unfold State.effectiveOk
  dsimp only
  rw [hahead, Bool.and_eq_true, Bool.and_eq_true, decide_eq_true_iff, decide_eq_true_iff, decide_eq_true_iff, and_assoc]

/-- A refusal of the first three checks is the answer of CONFIRM and of DECLINE. -/
theorem run_offerRefused {c : Command} {s : State} {r : ResultCode} (hc : c = .confirm ∨ c = .decline) (h : s.offerRefusal = some r) :
    c.run s = respond r 0 s := by
  rcases hc with rfl | rfl
  · rw [Command.run, confirm, h]
  · rw [Command.run, decline, h]

/-- The codes of the two commands. -/
theorem ofCode_answer {code : Nat} (h : code = 8 ∨ code = 9) :
    ∃ c, Command.ofCode code = some c ∧ (c = .confirm ∨ c = .decline) ∧ (code = 8 → c = .confirm) := by
  rcases h with rfl | rfl
  · exact ⟨.confirm, rfl, Or.inl rfl, fun _ => rfl⟩
  · exact ⟨.decline, rfl, Or.inr rfl, fun h => absurd h (by decide)⟩

/-- CONFIRM's last refusal. -/
theorem confirm_late {s : State} (h : s.offerRefusal = none) (hlate : s.effectiveOk = false) : confirm s = respond .late 0 s := by
  unfold confirm
  rw [h, hlate]
  rfl

/-- Settles O23: the checks in their order, the first that fails giving the code. -/
theorem offerAnswerRefused : Obligations.OfferAnswerRefused := by
  rintro s b code _ d r hburst hf hcode rfl - hopen hd hrefused
  obtain ⟨c, hc, hanswer, hconfirm⟩ := ofCode_answer hcode
  rw [exec_command_operating hburst hf hc (by rcases hanswer with rfl | rfl <;> decide)]
  rw [← afterData_link s b] at hopen hrefused
  have hrun : c.run (s.afterData b) = respond r 0 (s.afterData b) := by
    rcases hrefused with ⟨hsw, rfl⟩ | ⟨hsw, hset, rfl⟩ | ⟨hsw, hset, h8, hlate, rfl⟩
    · exact run_offerRefused hanswer (offerRefusal_notOffered hopen hsw)
    · exact run_offerRefused hanswer (offerRefusal_stale hopen hsw hset)
    · rw [hconfirm h8]
      refine confirm_late (offerRefusal_none hopen hsw hset) ?_
      rw [← Bool.not_eq_true, effectiveOk_iff (d := d) (by rw [afterData_tracker]; exact hd)]
      omega
  rw [hrun]
  rfl

/-! ### CONFIRM (R147) -/

/-- CONFIRM of the set on offer: CONFIRMED with EFFECTIVE, and one change counted. -/
theorem confirm_confirms {s : State} (h : s.offerRefusal = none) (heffective : s.effectiveOk = true)
    (hsw : (s.link s.arg0.toNat).swState = .offered) : confirm s = respond .ok 0
      { s with
        links := tset s.links s.arg0.toNat
          { s.link s.arg0.toNat with
            swState := .confirmed
            effective := s.arg2.setWidth 16
            changes := (s.link s.arg0.toNat).changes + 1 } } := by
  unfold confirm
  rw [h, heffective, counting_one (f := fun t => t.setLink s.arg0.toNat
    { t.link s.arg0.toNat with swState := .confirmed, effective := s.arg2.setWidth 16 }) rfl,
    counted_switched (by rw [hsw]; exact fun h => by cases h)]
  rfl

/-! ### DECLINE (R148) -/

/-- The record with its pending set discarded: STEADY, its waits at 0, the set number and STREAK kept. -/
def Link.declined (L : Link) : Link := { L.toSteady with pendingSet := L.pendingSet.map fun _ => none }

/-- DECLINE of an OFFERED link in one event, up to the slots it frees. -/
theorem counting_discardOffer {s : State} {k : Nat} (hk : k < 32) (hsw : (s.link k).swState = .offered) :
    counting (discardOffer k) s =
      { s with
        links := tset s.links k { (s.link k).declined with changes := (s.link k).changes + 1 }
        pool := (discardOffer k s).pool
        engine := (discardOffer k s).engine } := by
  obtain ⟨p, e, hframe⟩ := discardOffer_frame hk s
  have hlinks : (discardOffer k s).links = tset s.links k (s.link k).declined := by
    rw [hframe]
    rfl
  rw [counting_one hlinks, counted_switched (by rw [hsw]; exact fun h => by cases h), hframe]

/-- What DECLINE frees: the pending entries' slots, in ascending slice order. -/
theorem fate_discardOffer {s : State} (h : Ready s) {k : Nat} (hk : k < 32) :
    Fate s (s.freed ((s.link k).pendingSet.filterMap id)) (discardOffer k s) := by
  have hset := (fate_clearPendings h hk).trans (Fate.setLink (k := k) (L := ((clearPendings k s).link k).toSteady) rfl)
  rwa [List.append_nil] at hset

/-- A DECLINE burst for the set on offer: the set discarded after the data words, RESULT, and the burst passes. -/
theorem exec_decline {s : State} {b : WriteBurst} {k : Nat} (hburst : CommandBurst s b 9) (hf : s.filter = .operating)
    (harg : (s.afterData b).arg0.toNat = k) (h : (s.afterData b).offerRefusal = none) :
    exec (.decline b) s = .next (passOn b (respond .ok 0 (counting (discardOffer k) (s.afterData b)))) := by
  refine (exec_command_operating (c := .decline) hburst hf rfl (by decide)).trans ?_
  rw [Command.run, decline, h, harg]

/-- Settles O24: the answers where the three checks pass, and what becomes of the slots that DECLINE frees. -/
theorem offerAnswered : Obligations.OfferAnswered := by
  intro s b k hf harg hk hopen hsw hset
  have hnone : (s.afterData b).offerRefusal = none := by
    apply offerRefusal_none
    all_goals rwa [harg, afterData_link]
  constructor
  case left =>
    intro d hburst hmax hd hlo hhi
    have heffective := (effectiveOk_iff (s := s.afterData b) (by rw [afterData_tracker]; exact hd)).2 ⟨hmax, hlo, hhi⟩
    refine (exec_command_operating (c := .confirm) hburst hf rfl (by decide)).trans ?_
    rw [Command.run, confirm_confirms hnone heffective (by rwa [harg, afterData_link]), harg, afterData_link, afterData_links]
    rfl
  case right =>
    intro hburst
    have hexec := exec_decline hburst hf harg hnone
    rw [counting_discardOffer hk (by rwa [afterData_link])] at hexec
    have hfate : s.PoolLaws → Fate s (s.freed ((s.link k).pendingSet.filterMap id)) (discardOffer k (s.afterData b)) := by
      intro hlaws
      have hready : Ready (s.afterData b) := Ready.of (poolLaws_afterData hlaws b) (by rw [afterData_filter, hf]; decide)
      have hdiscard := (fate_afterData s b).trans (fate_discardOffer hready hk)
      rw [List.nil_append, afterData_link] at hdiscard
      simpa only [State.freed, afterData_slot] using hdiscard
    generalize discardOffer k (s.afterData b) = u at *
    refine ⟨_, hexec, ?_, ?record, ?others, ?_, ?_, ?_, ?_, ?_, ?_, ?_, ?_, ?_, ?_, ?freed⟩
    case record => simp [passOn, forward, State.link, tget_tset_same _ _ _ hk, Link.declined, Link.toSteady]
    case others =>
      intro j hj
      simp [passOn, forward, State.link, tget_tset_ne _ _ _ (Ne.symm hj)]
    case freed =>
      intro hlaws
      refine (hfate hlaws).freedJoin (settle_pool _) (settle_engine_job _) fun p hp => settle_engine_ready _ hp
    all_goals simp [passOn, forward, SameTracker, SameIntake, SameApplier, SameMemory, SameNotices]

end Sys2Proof.Machine
end

section
/-! PROOFS. What a link does at a half-cycle start beyond counting: its gather ends, its offer expires, and the fallback that an expiry
brings (R72, R129, R142 to R145). -/
namespace Sys2Proof.Machine

/-! ### The event of a link's act (R143, log 10) -/

/-- The state in which a link acts at the last start: it no longer owes its act. -/
def State.acting (s : State) (k : Nat) : State := { s with owed := s.owed.filter (· != k) }

/-- The event of a link that owes its act, as the three rows give it. -/
theorem startEvent_acting {s : State} {k : Nat} (hr : s.inReset = false) (howed : k ∈ s.owed) :
    startEvent k s = settle (counting (actAtStart k) (s.acting k)) := startEvent_owed hr howed

/-- What a link's act leaves as it was. -/
theorem act_same {s t : State} {k : Nat} (ht : t = settle (counting (actAtStart k) (s.acting k))) :
    OtherLinks k s t ∧ SameTracker s t ∧ SameMailbox s t ∧ SameApplier s t ∧ SameMemory s t
      ∧ t.headers = s.headers ∧ t.pinTable = s.pinTable := by
  obtain ⟨M, p, e, y, q, n, c, h⟩ := actAtStart_frame k (s.acting k)
  subst ht
  refine ⟨fun j hj => ?_, ?_⟩
  · rw [settle_link, link_counting_one (k := k) (M := M) (by rw [h]), if_neg fun h => hj h.1.symm]
    rfl
  · simp [SameTracker, SameMailbox, SameApplier, SameMemory, h]
    simp [State.acting]

/-- A link's act that leaves its record M, with CHANGES one on. -/
theorem act_link {s t : State} {k : Nat} {M : Link} (hk : k < 32) (ht : t = settle (counting (actAtStart k) (s.acting k)))
    (hlinks : (actAtStart k (s.acting k)).links = tset s.links k M) (hsw : (s.link k).swState ≠ M.swState) :
    t.link k = { M with changes := (s.link k).changes + 1 } := by
  subst ht
  rw [settle_link, link_counting_one (s := s.acting k) hlinks, if_pos ⟨rfl, hk⟩]
  exact counted_switched hsw

/-- A link's act raises what its effect raises. -/
theorem act_staging {s t u : State} {k : Nat} (ht : t = settle (counting (actAtStart k) (s.acting k)))
    (hact : actAtStart k (s.acting k) = u) : t.notices.staging = u.notices.staging := by
  rw [ht, settle_notices_staging, counting_notices, hact]

/-- The slots that a link's act frees join the Free List as the statements say. -/
theorem act_freedJoin {s t u : State} {k : Nat} {F : List Nat} (ht : t = settle (counting (actAtStart k) (s.acting k)))
    (hpool : (actAtStart k (s.acting k)).pool = u.pool) (hengine : (actAtStart k (s.acting k)).engine = u.engine) (h : Fate s F u) :
    FreedJoin s t F := by
  subst ht
  refine h.freedJoin ?_ ?_ fun b hb => settle_engine_ready _ ?_
  · rw [settle_pool, counting_pool, hpool]
  · rw [settle_engine_job, counting_engine, hengine]
  · rw [counting_engine, hengine, hb]

/-- The laws of the pool take no account of the acts that the links owe. -/
theorem Ready.acting {s : State} (h : Ready s) (k : Nat) : Ready (s.acting k) :=
  ⟨h.ok.frameRfl rfl rfl rfl rfl rfl (Or.inr rfl), h.on⟩

theorem fate_acting (s : State) (k : Nat) : Fate s [] (s.acting k) := Fate.stay rfl (fun _ => rfl) rfl rfl

/-! ### The end of a gather (R142) -/

/-- A gather whose window or whose empty places are at an end: the set is offered. -/
theorem actAtStart_offers {s : State} {k : Nat} (hopen : (s.link k).isOpen = true) (hsw : (s.link k).swState = .gathering)
    (hend : (s.link k).gatherLeft ≤ 1 ∨ none ∉ (s.link k).pendingSet) :
    actAtStart k s = raise (.offer k (s.link k).node (s.link k).pendingSetNo (s.link k).pendingMask)
      (s.setLink k (s.link k).offered) := by
  have hlink := link_setLink_same s { s.link k with gatherLeft := (s.link k).gatherLeft - 1 } (lt32 hopen)
  have hdue : ({ s.link k with gatherLeft := (s.link k).gatherLeft - 1 } : Link).offerDue = true :=
    (offerDue_iff (L := { s.link k with gatherLeft := (s.link k).gatherLeft - 1 }) hsw).2 (hend.imp_left Nat.sub_eq_zero_of_le)
  rw [actAtStart_gathering hopen hsw, offerTest_due (by rw [hlink]; exact hdue), hlink]
  simp only [State.setLink, tset_tset]
  rfl

/-- Settles O48: the act is the offer, and the record's switch state changes. -/
theorem gatherEnds : Obligations.GatherEnds := by
  intro s k hr howed hopen hsw hend
  refine ⟨(s.link k).pendingMask, fun i hi => pendingMask_bit _ i hi, congrArg Host.Outcome.next ?_⟩
  have hact := actAtStart_offers (s := s.acting k) hopen hsw hend
  have hlinks : (actAtStart k (s.acting k)).links = tset s.links k (s.link k).offered := by
    rw [hact]
    rfl
  rw [startEvent_acting hr howed, counting_one (s := s.acting k) hlinks, hact]
  refine congrArg settle (congrArg (fun M => raise _ { s.acting k with links := tset s.links k M }) ?_)
  exact counted_switched (L := s.link k) (by rw [hsw]; exact fun h => by cases h)

/-! ### With no job waiting, the Free List grows at its tail (R93) -/

/-- With no job waiting for a slot before, none waits after, and the Free List has grown at its tail alone. -/
def Grows (s t : State) : Prop := s.jobWaits = false → t.jobWaits = false ∧ s.pool.freeList <+: t.pool.freeList

theorem Grows.trans {s t u : State} (h : Grows s t) (h' : Grows t u) : Grows s u := fun hw =>
  ⟨(h' (h hw).1).1, (h hw).2.trans (h' (h hw).1).2⟩

theorem Grows.of {s t : State} (he : t.engine = s.engine) (hl : t.pool.freeList = s.pool.freeList) : Grows s t := fun hw =>
  ⟨(jobWaits_congr he).trans hw, by rw [hl]⟩

theorem Grows.after {s t u : State} (h : Grows t u) (he : t.engine = s.engine) (hl : t.pool.freeList = s.pool.freeList) : Grows s u :=
  (Grows.of he hl).trans h

theorem Grows.refl (s : State) : Grows s s := .of rfl rfl

theorem grows_joinFree (n : Nat) (s : State) : Grows s (joinFree n s) := fun hw => by
  rw [joinFree_idle n hw]
  exact ⟨hw, List.prefix_append _ _⟩

theorem grows_releaseRef (n : Nat) (s : State) : Grows s (releaseRef n s) := by
  unfold releaseRef
  dsimp only
  split
  · exact (grows_joinFree _ _).after rfl rfl
  · exact .of rfl rfl

theorem grows_releasePin (n : Nat) (s : State) : Grows s (releasePin n s) := by
  unfold releasePin
  dsimp only
  split
  · exact (grows_joinFree _ _).after rfl rfl
  · exact .of rfl rfl

theorem grows_takeRef (n : Nat) (s : State) : Grows s (takeRef n s) := .of rfl rfl

theorem grows_setLink (s : State) (k : Nat) (L : Link) : Grows s (s.setLink k L) := .of rfl rfl

theorem grows_setCell (k i n : Nat) (s : State) : Grows s (setCell k i n s) := by
  unfold setCell
  split
  · split
    · exact .refl s
    · exact (grows_setLink _ _ _).trans ((grows_takeRef _ _).trans (grows_releaseRef _ _))
  · exact .refl s

theorem grows_clearPending (k i : Nat) (s : State) : Grows s (clearPending k i s) := by
  unfold clearPending
  split
  · exact (grows_setLink _ _ _).trans (grows_releaseRef _ _)
  · exact .refl s

theorem grows_clearNext (k i : Nat) (s : State) : Grows s (clearNext k i s) := by
  unfold clearNext
  split
  · exact (grows_setLink _ _ _).trans (grows_releaseRef _ _)
  · exact .refl s

theorem grows_releaseLatch (k : Nat) (s : State) : Grows s (releaseLatch k s) := by
  unfold releaseLatch
  split
  · exact (grows_setLink _ _ _).trans (grows_releasePin _ _)
  · exact .refl s

/-- A job that is dropped waits no more, and its slot joins the list. -/
theorem grows_cancelJobOf (k : Nat) (s : State) : Grows s (cancelJobOf k s) := by
  unfold cancelJobOf
  split
  · rename_i j hj
    split
    · obtain ⟨hengine, hlist⟩ := dropJob_some hj
      exact fun _ => ⟨by rw [State.jobWaits, hengine]; rfl, by rw [hlist]; exact List.prefix_append _ _⟩
    · exact .refl s
  · exact .refl s

theorem grows_forSlices {f : Nat → State → State} (hf : ∀ i s, Grows s (f i s)) (b : Nat) (s : State) :
    Grows s (forSlices b f s) := by
  induction b with
  | zero => exact .refl s
  | succ b ih =>
    rw [forSlices_succ]
    exact ih.trans (hf b _)

theorem grows_fallbackItem (k : Nat) (x : FallbackItem) (s : State) : Grows s (fallbackItem k x s) := by
  cases x with
  | cell =>
    show Grows s (clearNextCell k s)
    unfold clearNextCell
    split
    · exact grows_setCell _ _ _ _
    · exact .refl s
  | latch => exact grows_releaseLatch _ _
  | job => exact grows_cancelJobOf _ _

theorem grows_fallbackItems (k : Nat) (order : List FallbackItem) (s : State) :
    Grows s (order.foldl (fun t x => fallbackItem k x t) s) := by
  induction order generalizing s with
  | nil => exact .refl s
  | cons x order ih => exact (grows_fallbackItem k x s).trans (ih _)

theorem grows_fallBack (k : Nat) (order : List FallbackItem) (s : State) : Grows s (fallBack k order s) :=
  ((grows_fallbackItems k order s).trans (grows_forSlices (fun i => grows_setCell k i 0) _ _)).trans
    ((grows_releaseLatch k _).trans (grows_cancelJobOf k _))

theorem grows_clearEntries (k : Nat) (s : State) : Grows s (clearNexts k (clearPendings k s)) :=
  (grows_forSlices (grows_clearPending k) _ _).trans (grows_forSlices (grows_clearNext k) _ _)

theorem grows_raise (x : NoticeBody) (s : State) : Grows s (raise x s) := .of rfl rfl

/-- The releases of a fallback put their slots behind those that stand on the list, in whatever order they are taken (R145, log 11). -/
theorem grows_enterFallback (k : Nat) (s : State) : Grows s (enterFallback k s) := by
  have hstart : Grows s { dropQueueOf k (s.setLink k { s.link k with mode := .fallback }) with choices := s.choices + 1 } :=
    .of rfl rfl
  exact ((hstart.trans (grows_fallBack k (Config.fallbackOrder s.choices) _)).trans (grows_clearEntries k _)).trans (grows_raise _ _)

/-! ### An expiry, up to the fallback (R144) -/

/-- The record after its offer has expired: its pending set discarded, STREAK one on. -/
def Link.expired (L : Link) : Link := { L.declined with streak := L.streak + 1 }

/-- The record after the expiry that brings FALLBACK: the cells at slot 0, no next entry and no latch either. -/
def Link.fallen (L : Link) : Link :=
  { L.expired with mode := .fallback, cells := L.cells.map fun _ => 0, nextSet := L.nextSet.map fun _ => none, latch := none }

/-- The entry to FALLBACK clears the pending entries again, which the expiry has left absent. -/
theorem expired_fallback (L : Link) :
    { L.expired with
      mode := .fallback
      cells := L.expired.cells.map fun _ => 0
      pendingSet := L.expired.pendingSet.map fun _ => none
      nextSet := L.expired.nextSet.map fun _ => none
      latch := none } = L.fallen := by
  simp [Link.fallen, Link.expired, Link.declined, Link.toSteady]

/-- An expiry but for the fallback that it may bring. -/
def lapse (k : Nat) (s : State) : State :=
  raise (.offerExpired k (s.link k).pendingSetNo (s.link k).pendingMask ((s.link k).streak + 1))
    ((clearPendings k s).setLink k (s.link k).expired)

section
variable {k : Nat} (hk : k < 32) (s : State)
include hk

theorem link_clearPendings : (clearPendings k s).link k = { s.link k with pendingSet := (s.link k).pendingSet.map fun _ => none } := by
  obtain ⟨p, e, h⟩ := clearPendings_frame hk s
  rw [h]
  exact tget_tset_same _ _ _ hk

theorem lapse_frame : ∃ p e, lapse k s = raise (.offerExpired k (s.link k).pendingSetNo (s.link k).pendingMask ((s.link k).streak + 1))
    { s with links := tset s.links k (s.link k).expired, pool := p, engine := e } := by
  obtain ⟨p, e, h⟩ := clearPendings_frame hk s
  refine ⟨p, e, ?_⟩
  rw [lapse, h]
  simp only [State.setLink, tset_tset]

/-- The X-th expiry brings FALLBACK. -/
theorem expireOffer_lapse : expireOffer k s =
    if (s.link k).streak + 1 = s.shadow.maxExpiries then enterFallback k (lapse k s) else lapse k s := by
  unfold expireOffer
  dsimp only
  rw [link_raise, link_setLink_same _ _ hk, link_clearPendings hk s]
  rfl

end

/-- What an expiry frees before a fallback: its pending entries' slots, in ascending slice order. -/
theorem fate_lapse {s : State} (h : Ready s) {k : Nat} (hk : k < 32) :
    Fate s (s.freed ((s.link k).pendingSet.filterMap id)) (lapse k s) := by
  have hset : Fate (clearPendings k s) [] ((clearPendings k s).setLink k (s.link k).expired) :=
    Fate.setLink (by rw [link_clearPendings hk s]; rfl)
  have hraise : Fate ((clearPendings k s).setLink k (s.link k).expired) [] (lapse k s) := Fate.stay rfl (fun _ => rfl) rfl rfl
  have hall := (fate_clearPendings h hk).trans (hset.trans hraise)
  rwa [List.append_nil, List.append_nil] at hall

/-- An expiry starts no job. -/
theorem sameJob_lapse (k : Nat) (s : State) : SameJob s (lapse k s) :=
  (sameJob_forSlices (fun i u => sameJob_clearPending k i u) _ _).trans (.of rfl)

/-! ### The expiry at a start (R143 to R145) -/

/-- The state in which the offer of a link that acts expires: its age is counted. -/
def State.aged (s : State) (k : Nat) : State := (s.acting k).setLink k { s.link k with offerAge := (s.link k).offerAge + 1 }

section
variable {s : State} {k : Nat}

theorem link_aged (hk : k < 32) : (s.aged k).link k = { s.link k with offerAge := (s.link k).offerAge + 1 } :=
  link_setLink_same _ _ hk

/-- The expiry of an offer that has aged, up to the slots released. -/
theorem lapse_aged (hk : k < 32) : ∃ p e, lapse k (s.aged k) =
    raise (.offerExpired k (s.link k).pendingSetNo (s.link k).pendingMask ((s.link k).streak + 1))
      { s.acting k with links := tset s.links k (s.link k).expired, pool := p, engine := e } := by
  obtain ⟨p, e, h⟩ := lapse_frame hk (s.aged k)
  have hlinks : tset (s.aged k).links k ((s.aged k).link k).expired = tset s.links k (s.link k).expired := by
    rw [link_aged hk]
    exact tset_tset _ _ _ _
  refine ⟨p, e, h.trans ?_⟩
  rw [hlinks, link_aged hk]
  rfl

/-- What an offer that reaches T_CONF frees, from a state that satisfies the laws of the pool. -/
theorem fate_aged (hopen : (s.link k).isOpen = true) (hlaws : s.PoolLaws) (hon : s.filter ≠ .transparent) :
    Fate s (s.freed ((s.link k).pendingSet.filterMap id)) (lapse k (s.aged k)) := by
  have hk := lt32 hopen
  have hready : Ready (s.aged k) := ⟨((Ready.of hlaws hon).acting k).ok.plain hopen hopen rfl rfl rfl rfl, hon⟩
  have haged : Fate s [] (s.aged k) := (fate_acting s k).trans (Fate.setLink (s := s.acting k) (k := k) rfl)
  have hall := haged.trans (fate_lapse hready hk)
  rw [List.nil_append, link_aged hk] at hall
  exact hall

/-- The act of an OFFERED link at T_CONF. -/
theorem actAtStart_aged (hopen : (s.link k).isOpen = true) (hsw : (s.link k).swState = .offered)
    (hage : s.shadow.offerLife ≤ (s.link k).offerAge + 1) : actAtStart k (s.acting k) =
      if (s.link k).streak + 1 = s.shadow.maxExpiries then enterFallback k (lapse k (s.aged k)) else lapse k (s.aged k) := by
  refine (actAtStart_expires (s := s.acting k) hopen hsw hage).trans ((expireOffer_lapse (lt32 hopen) (s.aged k)).trans ?_)
  rw [link_aged (lt32 hopen)]
  rfl

/-- The entry to FALLBACK after an expiry, up to the slots released: what it leaves of the record, the queue, the job and the notices. -/
theorem enterFallback_lapse (hk : k < 32) : ∃ u, enterFallback k (lapse k (s.aged k)) = u
    ∧ u.links = tset s.links k (s.link k).fallen
    ∧ u.buildQueue = s.buildQueue.filter (fun q => q.link != k)
    ∧ (∀ j, s.engine.job = some j → j.link = k → u.engine.job = none)
    ∧ u.notices.staging = (raise (.linkFallback k (s.link k).node ((s.link k).streak + 1))
      (raise (.offerExpired k (s.link k).pendingSetNo (s.link k).pendingMask ((s.link k).streak + 1)) s)).notices.staging := by
  have hjob := sameJob_lapse k (s.aged k)
  obtain ⟨p, e, hlapse⟩ := lapse_aged (s := s) hk
  obtain ⟨v, p', e', y, c, henter, hv, hnone⟩ := enterFallback_eq hk (lapse k (s.aged k))
  have hlink : (lapse k (s.aged k)).link k = (s.link k).expired := by
    rw [hlapse]
    exact tget_tset_same _ _ _ hk
  refine ⟨_, henter, ?_, ?_, fun j hj hl => hnone fun i hi => ?_, ?_⟩
  · show v = _
    rw [hv, hlink, expired_fallback, hlapse]
    exact tset_tset _ _ _ _
  · rw [hlapse]
    rfl
  · obtain ⟨i', hi', hlinked, _⟩ := hjob i hi
    obtain rfl : j = i' := Option.some.inj (hj.symm.trans hi')
    rw [hlinked, hl]
  · rw [hlink, hlapse]
    rfl

end

/-- Settles O49: the expiry, and where STREAK reaches X the fallback after it, whose releases follow the expiry's. -/
theorem offerExpires : Obligations.OfferExpires := by
  intro s k hr howed hopen hsw hage
  have hk := lt32 hopen
  have hact := actAtStart_aged hopen hsw hage
  refine ⟨_, (s.link k).pendingMask, congrArg Host.Outcome.next (startEvent_acting hr howed), fun i hi => pendingMask_bit _ i hi,
    ?short, ?falls, act_same rfl⟩
  case short =>
    intro hne
    rw [if_neg hne] at hact
    obtain ⟨p, e, hlapse⟩ := lapse_aged (s := s) hk
    refine ⟨act_link (M := (s.link k).expired) hk rfl ?_ ?_, ?_, ?_, fun hlaws hon => ?_⟩
    · rw [hact, hlapse]
      rfl
    · rw [hsw]
      exact fun h => by cases h
    · rw [settle_buildQueue, counting_buildQueue, hact, hlapse]
      rfl
    · rw [act_staging rfl hact, hlapse]
      rfl
    · exact act_freedJoin rfl (congrArg State.pool hact) (congrArg State.engine hact) (fate_aged hopen hlaws hon)
  case falls =>
    intro heq
    rw [if_pos heq] at hact
    have hgrows := grows_enterFallback k (lapse k (s.aged k))
    obtain ⟨u, henter, hlinks, hqueue, hjob, hstaging⟩ := enterFallback_lapse (s := s) hk
    rw [henter] at hact hgrows
    refine ⟨act_link (M := (s.link k).fallen) hk rfl ?_ ?_, ?_, fun j hj hl => ?_, ?_, fun hlaws hon hw => ?_⟩
    · rw [hact, hlinks]
    · rw [hsw]
      exact fun h => by cases h
    · rw [settle_buildQueue, counting_buildQueue, hact, hqueue]
    · rw [settle_engine_job, counting_engine, hact, hjob j hj hl]
    · rw [act_staging rfl hact, hstaging]
    · obtain ⟨hlist, hengine⟩ := (fate_aged hopen hlaws hon).quiet (Or.inl hw)
      obtain ⟨-, later, hlater⟩ := hgrows ((jobWaits_congr hengine).trans hw)
      exact ⟨later, by rw [settle_pool, counting_pool, hact, ← hlater, hlist]⟩

end Sys2Proof.Machine
end

section
/-! PROOFS. The flip at a half-cycle start: the pending set goes into the cells, and the next set becomes the pending set (R72, R93, R94,
R126, R142, R143, R149, R150). -/
namespace Sys2Proof.Machine

/-! ### The records of a flip -/

/-- The record as its pending set has gone into the cells: in force under its number, STREAK 0 (R149). -/
def Link.flipped (L : Link) (cells : List Nat) : Link :=
  { L with
    cells := cells, activeSet := L.pendingSetNo, streak := 0, pendingSet := L.pendingSet.map fun _ => none, effective := 0, offerAge := 0 }

/-- The record as its next set becomes the pending set under the next number, with the gather window before it (R150). -/
def Link.promoted (L : Link) (gather : Nat) : Link :=
  Link.startGather (Link.issueNumber { L with pendingSet := L.nextSet, nextSet := L.nextSet.map fun _ => none }) gather

/-- A promoted set is offered at once with G 0 or every entry present. -/
theorem promoted_offerDue (L : Link) (gather : Nat) : (L.promoted gather).offerDue = true ↔ gather = 0 ∨ none ∉ L.nextSet :=
  offerDue_iff (L := L.promoted gather) rfl

/-! ### What follows the cells (R150) -/

/-- What a notice does to the Notice Writer depends on the Notice Writer, the shadow and the tracker alone (R174, R175). -/
theorem raise_notices_congr (x : NoticeBody) {s t : State} (hn : t.notices = s.notices) (hs : t.shadow = s.shadow)
    (hT : t.tracker = s.tracker) : (raise x t).notices = (raise x s).notices := by
  have hadmits : t.admits = s.admits := by
    unfold State.admits State.unconsumed
    rw [hn, hs]
  unfold raise
  rw [hadmits, hn, hT]

section
variable {s w : State} {k : Nat} {N : Link}

/-- Without next entries the link is STEADY. -/
theorem Stands.promote_none (h : Stands s k N w) (hk : k < 32) (hnone : ∀ n, some n ∉ N.nextSet) :
    Stands s k N.toSteady (promoteNext k w) := by
  have hany : ¬ N.nextSet.any Option.isSome = true := fun hany => by
    obtain ⟨n, hn⟩ := (any_present_iff _).1 hany
    exact hnone n hn
  have hpromote : promoteNext k w = w.setLink k N.toSteady := by
    unfold promoteNext
    dsimp only
    rw [h.link hk, if_neg hany]
  rw [hpromote]
  exact ⟨(congrArg (tset · k N.toSteady) h.links).trans (tset_tset _ _ _ _), h.notices, h.shadow, h.tracker⟩

/-- With a next entry the next set is promoted, and the offer test follows. -/
theorem Stands.promote_some (h : Stands s k N w) (hk : k < 32) {n : Nat} (hn : some n ∈ N.nextSet) :
    ∃ u, promoteNext k w = offerTest k u ∧ Stands s k (N.promoted s.shadow.gather) u := by
  refine ⟨w.setLink k (N.promoted s.shadow.gather), ?_,
    (congrArg (tset · k (N.promoted s.shadow.gather)) h.links).trans (tset_tset _ _ _ _), h.notices, h.shadow, h.tracker⟩
  unfold promoteNext
  dsimp only
  rw [h.link hk, if_pos ((any_present_iff _).2 ⟨n, hn⟩), h.shadow]
  rfl

/-- The offer test fails: the record stays. -/
theorem Stands.offerTest_waits (h : Stands s k N w) (hk : k < 32) (hdue : N.offerDue = false) : Stands s k N (offerTest k w) := by
  rw [offerTest_fails (by rw [h.link hk]; exact hdue)]
  exact h

/-- The offer test passes: the record is offered, and OFFER raised. -/
theorem Stands.offerTest_offers (h : Stands s k N w) (hk : k < 32) (hdue : N.offerDue = true) :
    Stands (raise (.offer k N.node N.pendingSetNo N.pendingMask) s) k N.offered (offerTest k w) := by
  rw [offerTest_due (by rw [h.link hk]; exact hdue), h.link hk]
  exact ⟨(congrArg (tset · k N.offered) h.links).trans (tset_tset _ _ _ _), raise_notices_congr _ h.notices h.shadow h.tracker,
    h.shadow, h.tracker⟩

end

/-! ### The flip at a start (R143, R149) -/

section
variable {s : State} {k : Nat}

/-- The flip up to the next set and the slots released: SWITCHED is raised, and the record is flipped, cell by cell. -/
theorem flipLink_acting (hk : k < 32) : ∃ cells w, (∀ i : Nat, (cells : List Nat)[i]? =
      match (s.link k).pendingSet.getD i none with
      | some n => (s.link k).cells[i]?.map fun _ => n
      | none => (s.link k).cells[i]?)
    ∧ flipLink k (s.acting k) = promoteNext k w
    ∧ Stands (raise (.switched k (s.link k).pendingSetNo (s.link k).pendingMask s.tracker.halfCount) s) k
      ((s.link k).flipped cells) w := by
  obtain ⟨cells, p, e, hcells, hflip⟩ := flipLink_eq hk (s.acting k)
  exact ⟨cells, _, hcells, hflip, rfl, rfl, rfl, rfl⟩

/-- A flip leaves the Build Queue. -/
theorem flipLink_buildQueue (hk : k < 32) : (flipLink k s).buildQueue = s.buildQueue := by
  obtain ⟨L, p, e, n, h⟩ := flipLink_frame hk s
  rw [h]

variable {r t : State} {M : Link}

/-- An act that changes the record's switch state, and raises what r shows. -/
theorem Stands.acted (hk : k < 32) (ht : t = settle (counting (actAtStart k) (s.acting k)))
    (h : Stands r k M (actAtStart k (s.acting k))) (hlinks : r.links = s.links) (hsw : (s.link k).swState ≠ M.swState) :
    t.link k = { M with changes := (s.link k).changes + 1 } ∧ t.notices.staging = r.notices.staging :=
  ⟨act_link hk ht (by rw [h.links, hlinks]) hsw, by rw [act_staging ht rfl, h.notices]⟩

end

/-- Settles O50: the cells first, and then by the next set: STEADY, a gather, or an offer at once. -/
theorem linkFlips : Obligations.LinkFlips := by
  intro s k hr howed hopen hsw heffective
  have hk := lt32 hopen
  have hact : actAtStart k (s.acting k) = flipLink k (s.acting k) := actAtStart_flips (s := s.acting k) hopen hsw heffective
  obtain ⟨cells, w, hcells, hflip, hstands⟩ := flipLink_acting (s := s) hk
  rw [← hact] at hflip
  obtain ⟨hothers, htracker, hmailbox, happlier, hmemory, hheaders, hpins⟩ := act_same (s := s) (k := k) rfl
  refine ⟨_, (s.link k).pendingMask, cells, congrArg Host.Outcome.next (startEvent_acting hr howed), fun i hi => pendingMask_bit _ i hi,
    hcells, ?steady, ?next, ?freed, hothers, htracker, hmailbox, ⟨?queue, hheaders, hpins⟩, happlier, hmemory⟩
  case steady =>
    intro hnone
    have hsteady := hstands.promote_none hk hnone
    rw [← hflip] at hsteady
    exact hsteady.acted hk rfl rfl (by rw [hsw]; exact fun h => by cases h)
  case next =>
    intro n hn
    obtain ⟨u, htest, hpromoted⟩ := hstands.promote_some hk hn
    rw [htest] at hflip
    have hiff := promoted_offerDue ((s.link k).flipped cells) s.shadow.gather
    cases hdue : (((s.link k).flipped cells).promoted s.shadow.gather).offerDue with
    | false =>
      have hgathers := hpromoted.offerTest_waits hk hdue
      rw [← hflip] at hgathers
      obtain ⟨hlink, hstaging⟩ := hgathers.acted hk rfl rfl (by rw [hsw]; exact fun h => by cases h)
      exact ⟨false, iff_of_false Bool.false_ne_true fun h => Bool.false_ne_true (hdue.symm.trans (hiff.2 h)), hlink, fun _ => hstaging,
        fun h => absurd h (by decide)⟩
    | true =>
      have hoffers := hpromoted.offerTest_offers hk hdue
      rw [← hflip] at hoffers
      obtain ⟨hlink, hstaging⟩ := hoffers.acted hk rfl rfl (by rw [hsw]; exact fun h => by cases h)
      exact ⟨true, iff_of_true rfl (hiff.1 hdue), hlink, fun h => absurd h (by decide),
        fun _ => ⟨_, fun i hi => pendingMask_bit _ i hi, hstaging⟩⟩
  case freed =>
    intro hlaws hon hlen
    obtain ⟨u, hpool, hengine, hfate⟩ := fate_flipLink ((Ready.of hlaws hon).acting k) (k := k) hopen hlen
    exact act_freedJoin rfl (by rw [hact, hpool]) (by rw [hact, hengine]) ((fate_acting s k).trans hfate)
  case queue => rw [settle_buildQueue, counting_buildQueue, hact, flipLink_buildQueue hk]; rfl

end Sys2Proof.Machine
end

section
/-! PROOFS. What a write into a transmit descriptor sets off (R13, R15): its captures, the pin it releases, the checks of a commit, and the
place of its GUARD notice among them (R16, R17, R157 to R165, log 12). -/
namespace Sys2Proof.Machine

/-! ### The captures of a burst (R157, R159) -/

/-- The address of a descriptor's word. -/
theorem place_transmit_base {s : State} {a i w : Nat} (h : s.place a = .transmit i w) : a = s.shadow.txBase + i * 8 + w := by
  have hout : ¬ (0x100 ≤ a ∧ a < 0x140) := fun ha => by
    rw [place_anchor s ha.1 ha.2] at h
    cases h
  have hfilter := place_transmit h
  rw [place_outside_anchor s (by omega), if_neg hfilter] at h
  unfold Shadow.place at h
  repeat' split at h
  all_goals cases h
  rename_i hin
  have hbase := (inWindow_iff ..).1 hin
  omega

/-- The capture that word k of a descriptor sets off, written in full by a burst; the descriptor's words begin at an address. -/
def captureOf (b : WriteBurst) (start i k : Nat) : Option (State → State) :=
  if k = 1 then (b.fullAt (start + 1)).map (captureRef i)
  else if k = 2 then (b.fullAt (start + 2)).map (captureNode i)
  else none

/-- A word that a burst does not cover sets off no capture. -/
theorem captureOf_outside {b : WriteBurst} {start k : Nat} (i : Nat)
    (h : start + k < b.base ∨ b.base + b.len.words ≤ start + k) : captureOf b start i k = none := by
  unfold captureOf
  split
  · subst k
    rw [fullAt_outside b h]
    rfl
  · split
    · subst k
      rw [fullAt_outside b h]
      rfl
    · rfl

/-- The captures of a burst are those of the descriptor's words that it covers. -/
theorem captureActs_covered {b : WriteBurst} {start i w : Nat} (hb : b.base = start + w) :
    captureActs b i w = (List.range b.len.words).filterMap fun j => captureOf b start i (w + j) := by
  unfold captureActs captureOf
  refine List.filterMap_congr fun j hj => ?_
  have hfull := fullAt_covered b (List.mem_range.1 hj)
  rw [hb, Nat.add_assoc] at hfull
  by_cases h1 : w + j = 1
  · rw [h1] at hfull ⊢
    rw [hfull]
    cases (b.beat j).isFull <;> rfl
  · by_cases h2 : w + j = 2
    · rw [h2] at hfull ⊢
      rw [hfull]
      cases (b.beat j).isFull <;> rfl
    · simp only [h1, h2, if_false, ite_self]

/-- Numbers from n on that a function maps to nothing add nothing to what it makes of those below n. -/
theorem filterMap_range_add {α : Type} {f : Nat → Option α} {n : Nat} (h : ∀ k, n ≤ k → f k = none) (m : Nat) :
    (List.range (n + m)).filterMap f = (List.range n).filterMap f := by
  have hnil : ((List.range m).map (n + ·)).filterMap f = [] := by
    rw [List.filterMap_eq_nil_iff]
    intro k hk
    obtain ⟨j, _, rfl⟩ := List.mem_map.1 hk
    exact h _ (Nat.le_add_right n j)
  rw [List.range_add, List.filterMap_append, hnil, List.append_nil]

/-- The captures of a burst: word 1 written in full, then word 2 written in full (R159). -/
theorem captureActs_eq {b : WriteBurst} {start i w : Nat} (hb : b.base = start + w) : captureActs b i w =
    ((b.fullAt (start + 1)).map (captureRef i)).toList ++ ((b.fullAt (start + 2)).map (captureNode i)).toList := by
  have hbelow : (List.range w).filterMap (captureOf b start i) = [] :=
    List.filterMap_eq_nil_iff.2 fun k hk => captureOf_outside i (Or.inl (by have := List.mem_range.1 hk; omega))
  have hall : ∀ k, w + b.len.words ≤ k → captureOf b start i k = none := fun k hk => captureOf_outside i (Or.inr (by omega))
  have htwo : ∀ k, 3 ≤ k → captureOf b start i k = none := fun k hk => by
    unfold captureOf
    rw [if_neg (by omega), if_neg (by omega)]
  calc captureActs b i w
      = (List.range (w + b.len.words)).filterMap (captureOf b start i) := by
        rw [captureActs_covered hb, List.range_add, List.filterMap_append, hbelow, List.filterMap_map]
        rfl
    _ = (List.range 3).filterMap (captureOf b start i) := by
        rw [← filterMap_range_add hall 3, Nat.add_comm, filterMap_range_add htwo]
    _ = ((b.fullAt (start + 1)).map (captureRef i)).toList ++ ((b.fullAt (start + 2)).map (captureNode i)).toList := by
        show [0, 1, 2].filterMap (captureOf b start i) = _
        cases h1 : b.fullAt (start + 1) <;> cases h2 : b.fullAt (start + 2) <;> simp [captureOf, h1, h2]

/-- An entry after the captures of words 1 and 2, where they are written in full (R159). -/
def PinEntry.captured (e : PinEntry) (word1 word2 : Option Word) : PinEntry :=
  { e with ref := (word1.map mapRefOf).or e.ref, node := (word2.map nodeOf).or e.node }

/-- An entry that is replaced by what it was. -/
theorem setPinEntry_self (s : State) (i : Nat) : s.setPinEntry i (s.pinEntry i) = s := by
  unfold State.setPinEntry State.pinEntry
  rw [tset_tget]

/-- An entry that is replaced twice; beyond the table neither changes anything (log 23). -/
theorem setPinEntry_twice (s : State) (i : Nat) (e e' : PinEntry) : (s.setPinEntry i e).setPinEntry i e' = s.setPinEntry i e' := by
  unfold State.setPinEntry
  rw [tset_tset]

/-- The captures of a burst change the descriptor's entry alone. -/
theorem runActs_captureActs {b : WriteBurst} {start i w : Nat} (hb : b.base = start + w) (s : State) :
    runActs (captureActs b i w) s = s.setPinEntry i ((s.pinEntry i).captured (b.fullAt (start + 1)) (b.fullAt (start + 2))) := by
  rw [captureActs_eq hb]
  cases b.fullAt (start + 1) with
  | none =>
    cases b.fullAt (start + 2) with
    | none => exact (setPinEntry_self s i).symm
    | some y => rfl
  | some x =>
    cases b.fullAt (start + 2) with
    | none => rfl
    | some y =>
      show captureNode i y (captureRef i x s) = _
      unfold captureNode captureRef
      rw [setPinEntry_twice, pinEntry_setPinEntry]
      by_cases hi : i < 64
      · rw [if_pos ⟨rfl, hi⟩]
        rfl
      · unfold State.setPinEntry
        rw [tset_beyond _ _ (Nat.not_lt.1 hi), tset_beyond _ _ (Nat.not_lt.1 hi)]

/-- The captures of a burst into a descriptor, spelled. -/
theorem afterCaptures_eq {s : State} {b : WriteBurst} {i w : Nat} (hp : s.place b.base = .transmit i w) : s.afterCaptures b i w =
    { s with
      choices := s.choices + 1
      pinTable := tset s.pinTable i ((s.pinEntry i).captured (b.fullAt (s.shadow.descriptorWord i 1))
        (b.fullAt (s.shadow.descriptorWord i 2))) } :=
  runActs_captureActs (place_transmit_base hp) { s with choices := s.choices + 1 }

/-- What holds of every capture holds of every act among a burst's captures. -/
theorem captureActs_all {b : WriteBurst} {i w : Nat} (P : (State → State) → Prop) (href : ∀ x, P (captureRef i x))
    (hnode : ∀ x, P (captureNode i x)) : ∀ f ∈ captureActs b i w, P f := by
  intro f hf
  unfold captureActs at hf
  rw [List.mem_filterMap] at hf
  obtain ⟨j, _, hj⟩ := hf
  repeat' split at hj
  all_goals cases hj
  · exact href _
  · exact hnode _

/-! ### What takes no account of the notices and of the counter of choices (log 12) -/

/-- The state with another Notice Writer and another counter of choices. -/
def State.aside (s : State) (n : NoticeWriter) (c : Nat) : State := { s with notices := n, choices := c }

section
variable (s : State) (n : NoticeWriter) (c : Nat)

/-- An allocation takes no account of the notices and the counter. -/
theorem allocate_aside : allocate (s.aside n c) = (allocate s).aside n c := by
  unfold allocate
  cases hj : s.engine.job with
  | none => simp only [State.aside, hj]
  | some j =>
    cases hl : s.pool.freeList with
    | nil => simp only [State.aside, hj, hl]
    | cons f rest =>
      simp only [State.aside, hj, hl]
      rfl

/-- Nor does the handing of a slot to a waiting job. -/
theorem handToWaiting_aside : handToWaiting (s.aside n c) = (handToWaiting s).aside n c := by
  unfold handToWaiting
  rw [show (s.aside n c).jobWaits = s.jobWaits from rfl, allocate_aside]
  split <;> rfl

/-- Nor does a slot's way to the Free List. -/
theorem joinFree_aside (m : Nat) : joinFree m (s.aside n c) = (joinFree m s).aside n c :=
  handToWaiting_aside { s with pool :=
    { slots := tset s.pool.slots m { s.slot m with state := .free }, freeList := s.pool.freeList ++ [m] } } n c

/-- Nor does the release of a pin. -/
theorem releasePin_aside (m : Nat) : releasePin m (s.aside n c) = (releasePin m s).aside n c := by
  by_cases h : (s.slot m).state = .retiring ∧ (s.slot m).pins ≤ 1
  · obtain ⟨hst, hpins⟩ := h
    rw [releasePin_last m hst hpins, releasePin_last (s := s.aside n c) m hst hpins]
    exact joinFree_aside (s.setSlot m { s.slot m with pins := (s.slot m).pins - 1 }) n c m
  · have hheld : (s.slot m).state ≠ .retiring ∨ 2 ≤ (s.slot m).pins := by
      rw [Classical.not_and_iff_not_or_not] at h
      exact h.imp_right Nat.lt_of_not_le
    rw [releasePin_held m hheld, releasePin_held (s := s.aside n c) m hheld]
    rfl

/-- Nor does the release of an entry's pin. -/
theorem unpin_aside (i : Nat) : unpin i (s.aside n c) = (unpin i s).aside n c := by
  unfold unpin
  rw [show (s.aside n c).pinEntry i = s.pinEntry i from rfl]
  cases (s.pinEntry i).pinned with
  | none => rfl
  | some m => exact releasePin_aside (s.setPinEntry i { s.pinEntry i with pinned := none }) n c m

end

/-- A notice raised before the release of an entry's pin is raised after it. -/
theorem unpin_raise (i : Nat) (x : NoticeBody) (s : State) : unpin i (raise x s) = raise x (unpin i s) := by
  obtain ⟨p, e, t, h⟩ := unpin_frame i s
  calc unpin i (raise x s) = (unpin i s).aside (raise x s).notices s.choices := unpin_aside s (raise x s).notices s.choices i
    _ = raise x (unpin i s) := by rw [h]; rfl

/-! ### The GUARD notice among the acts of a burst (R16, R17, log 12) -/

/-- Where the first acts of a burst take no account of a notice, its GUARD notice stands somewhere among the acts that follow them. -/
theorem takeSnooped_quiet {s : State} {g : GuardWindow} {b : WriteBurst} {w lo hi : Nat} {guard : State → State}
    {quiet acts : List (State → State)} (h : PartialGuard s g b w lo hi guard)
    (hq : ∀ f ∈ quiet, ∀ x u, f (raise x u) = raise x (f u)) (hk : ∀ f ∈ quiet ++ acts, ∀ t, (f t).filter = t.filter) :
    ∃ before after, before ++ after = acts ∧ takeSnooped g b w lo hi (quiet ++ acts) s
      = runActs after (guard (runActs before (runActs quiet { s with choices := s.choices + 1 }))) := by
  have hpass : ∀ l : List (State → State), (∀ f ∈ l, f ∈ quiet) → ∀ u, runActs l (guard u) = guard (runActs l u) := by
    intro l hl u
    rcases h.cases with rfl | ⟨x, rfl⟩
    · rfl
    · exact runActs_raise (fun f hf => hq f (hl f hf) x) u
  obtain ⟨before, after, hsplit, he⟩ := takeSnooped_partial h hk
  rw [he]
  rcases List.append_eq_append_iff.1 hsplit with ⟨rest, rfl, rfl⟩ | ⟨rest, rfl, rfl⟩
  · refine ⟨[], acts, rfl, ?_⟩
    rw [runActs_append, hpass rest fun f => List.mem_append_right _, runActs_append]
    rfl
  · exact ⟨rest, after, rfl, by rw [runActs_append]⟩

section
variable {s : State} {b : WriteBurst} {i w : Nat} {guard : State → State}

/-- The acts of a descriptor's burst after its captures are its control transition, with its GUARD notice somewhere among them. -/
theorem takeSnooped_captures (h : PartialGuard s .transmit b w 0 2 guard) :
    ∃ before after, before ++ after = ((controlWord b w).map (transition i)).toList
      ∧ takeSnooped .transmit b w 0 2 (transmitActs b i w) s = runActs after (guard (runActs before (s.afterCaptures b i w))) := by
  refine takeSnooped_quiet h (captureActs_all (fun f => ∀ x u, f (raise x u) = raise x (f u)) (fun _ _ _ => rfl) fun _ _ _ => rfl) ?_
  intro f hf t
  rcases List.mem_append.1 hf with hf | hf
  · exact captureActs_all (fun f => (f t).filter = t.filter) (fun _ => rfl) (fun _ => rfl) f hf
  · obtain ⟨x, _, rfl⟩ := Option.map_eq_some_iff.1 (Option.mem_toList.1 hf)
    obtain ⟨_, _, _, _, hframe⟩ := transition_frame i x t
    rw [hframe]

/-- A burst without a full control word: its captures and its GUARD notice alone. -/
theorem takeSnooped_noControl (h : PartialGuard s .transmit b w 0 2 guard) (hw : controlWord b w = none) :
    takeSnooped .transmit b w 0 2 (transmitActs b i w) s = guard (s.afterCaptures b i w) := by
  obtain ⟨before, after, hnil, he⟩ := takeSnooped_captures (i := i) h
  rw [hw] at hnil
  obtain ⟨rfl, rfl⟩ := List.append_eq_nil_iff.1 hnil
  exact he

/-- A burst with a full control word: its GUARD notice stands before the control transition or after it. -/
theorem takeSnooped_control {x : Word} (h : PartialGuard s .transmit b w 0 2 guard) (hw : controlWord b w = some x) :
    takeSnooped .transmit b w 0 2 (transmitActs b i w) s = transition i x (guard (s.afterCaptures b i w))
      ∨ takeSnooped .transmit b w 0 2 (transmitActs b i w) s = guard (transition i x (s.afterCaptures b i w)) := by
  obtain ⟨before, after, hone, he⟩ := takeSnooped_captures (i := i) h
  rw [hw] at hone
  rcases List.append_eq_singleton_iff.1 hone with ⟨rfl, rfl⟩ | ⟨rfl, rfl⟩
  · exact Or.inl he
  · exact Or.inr he

end

section
variable {s : State} {g : GuardWindow} {b : WriteBurst} {w lo hi : Nat} {guard : State → State}

/-- The GUARD notice and the release of an entry's pin may change places. -/
theorem PartialGuard.unpin (h : PartialGuard s g b w lo hi guard) (i : Nat) (u : State) :
    Machine.unpin i (guard u) = guard (Machine.unpin i u) := by
  rcases h.cases with rfl | ⟨x, rfl⟩
  · rfl
  · exact unpin_raise i x u

/-- The GUARD notice leaves the pin table. -/
theorem PartialGuard.pinEntry (h : PartialGuard s g b w lo hi guard) (i : Nat) (u : State) :
    (guard u).pinEntry i = u.pinEntry i := by
  rcases h.cases with rfl | ⟨x, rfl⟩ <;> rfl

/-- The GUARD notice and the replacement of an entry may change places. -/
theorem PartialGuard.setPinEntry (h : PartialGuard s g b w lo hi guard) (i : Nat) (e : PinEntry) (u : State) :
    (guard u).setPinEntry i e = guard (u.setPinEntry i e) := by
  rcases h.cases with rfl | ⟨x, rfl⟩ <;> rfl

/-- The GUARD notice leaves the outcome of a commit's checks. -/
theorem PartialGuard.checkCommit (h : PartialGuard s g b w lo hi guard) (e : PinEntry) (u : State) :
    (guard u).checkCommit e = u.checkCommit e := by
  rcases h.cases with rfl | ⟨x, rfl⟩ <;> rfl

/-- The GUARD notice and the acceptance of a commit may change places. -/
theorem PartialGuard.acceptCommit (h : PartialGuard s g b w lo hi guard) (i n : Nat) (u : State) :
    Machine.acceptCommit i n (guard u) = guard (Machine.acceptCommit i n u) := by
  rcases h.cases with rfl | ⟨x, rfl⟩ <;> rfl

end

/-! ### The control word (R14, R160, R163) -/

/-- The control word of a burst whose first word is the descriptor's (R160). -/
theorem controlWord_full {b : WriteBurst} {x : Word} (hx : b.fullAt b.base = some x) : controlWord b 0 = some x := by
  have h := fullAt_covered b (words_pos b.len)
  rw [Nat.add_zero, hx] at h
  unfold controlWord
  split at h
  · rename_i hfull
    rw [if_pos ⟨rfl, hfull⟩, h]
  · cases h

/-- The control word is the data of the burst's first beat. -/
theorem beat_of_controlWord {b : WriteBurst} {w : Nat} {x : Word} (h : controlWord b w = some x) : (b.beat 0).data = x := by
  unfold controlWord at h
  split at h
  · exact Option.some.inj h
  · cases h

/-- The words of a burst whose first is replaced by the beat it carries. -/
theorem words_set_beat (b : WriteBurst) : b.words.set 0 (b.beat 0) = b.words := by
  have hlen : 0 < b.words.length := by simpa [WriteBurst.words] using words_pos b.len
  have hget : b.words[0] = b.beat 0 := by simp [WriteBurst.words]
  rw [← hget, List.set_getElem_self]

/-- Without a full control word the burst is forwarded as written. -/
theorem sentBeats_noControl {s : State} {b : WriteBurst} {i w : Nat} (h : controlWord b w = none) : s.sentBeats b i w = b.words := by
  unfold State.sentBeats
  rw [h]

/-- The control word forwarded is decided in the state after the burst's captures. -/
theorem sentBeats_control {s : State} {b : WriteBurst} {i w : Nat} {x : Word} (hp : s.place b.base = .transmit i w)
    (h : controlWord b w = some x) :
    s.sentBeats b i w = b.words.set 0 ⟨(s.afterCaptures b i w).sentControl i x, (b.beat 0).be⟩ := by
  have hcaptured : s.afterCaptures b i w = (runActs (captureActs b i w) s).aside s.notices (s.choices + 1) := by
    rw [afterCaptures_eq hp, runActs_captureActs (place_transmit_base hp)]
    rfl
  have haside : ∀ t : State, (t.aside s.notices (s.choices + 1)).sentControl i x = t.sentControl i x := fun t => by
    unfold State.sentControl
    rw [unpin_aside]
    rfl
  unfold State.sentBeats
  rw [h, hcaptured, haside]
  rfl

/-- A control word that is forwarded as written leaves the burst as written. -/
theorem sentBeats_kept {s : State} {b : WriteBurst} {i w : Nat} {x : Word} (hp : s.place b.base = .transmit i w)
    (h : controlWord b w = some x) (hsent : (s.afterCaptures b i w).sentControl i x = x) : s.sentBeats b i w = b.words := by
  rw [sentBeats_control hp h, hsent, ← beat_of_controlWord h]
  exact words_set_beat b

/-- The OWNER of a control word, by its code (12.5). -/
theorem controlOwner_modem {x : Word} (h : x.extractLsb' 0 2 = 1) : controlOwner x = .modem := by
  unfold controlOwner bits
  rw [h]
  rfl

/-- The bits of a rewritten control word: OWNER's are set, REASON's are the code's, and the others are as written (R163). -/
theorem getLsbD_rejectedControl (x : Word) (c i : Nat) : (rejectedControl x c).getLsbD i =
    if i < 2 then true else if 8 ≤ i ∧ i < 12 then c.testBit (i - 8) else x.getLsbD i := by
  have hthree : ∀ j, j < 2 → (3 : Nat).testBit j = true := by decide
  have hfifteen : ∀ j, j < 4 → (15 : Nat).testBit j = true := by decide
  unfold rejectedControl
  rw [BitVec.getLsbD_or, BitVec.getLsbD_or, BitVec.getLsbD_and, BitVec.getLsbD_not, BitVec.getLsbD_or,
    getLsbD_put _ _ (by decide), getLsbD_put _ _ (by decide), getLsbD_put _ _ (by decide)]
  by_cases howner : i < 2
  · simp [howner, hthree i howner]
  · rw [if_neg howner]
    by_cases hlo : 8 ≤ i
    · by_cases hhi : i < 12
      · simp [howner, hlo, hhi, hfifteen (i - 8) (by omega)]
      · by_cases hi : i < 32
        · simp [howner, hhi, hi]
        · simp [howner, hhi, hi, BitVec.getLsbD_of_ge x i (Nat.not_lt.1 hi)]
    · simp [howner, hlo, show i < 32 by omega]

/-- OWNER of a rewritten control word is REJECTED. -/
theorem rejectedControl_owner (x : Word) (c : Nat) : (rejectedControl x c).extractLsb' 0 2 = 3 := by
  apply BitVec.eq_of_getLsbD_eq
  intro j hj
  rw [BitVec.getLsbD_extractLsb', getLsbD_rejectedControl, if_pos (by omega), decide_eq_true hj]
  exact (by decide : ∀ j, j < 2 → true = (3 : BitVec 2).getLsbD j) j hj

/-- REASON of a rewritten control word is the code. -/
theorem rejectedControl_reason (x : Word) (c : Nat) : (rejectedControl x c).extractLsb' 8 4 = BitVec.ofNat 4 c := by
  apply BitVec.eq_of_getLsbD_eq
  intro j hj
  rw [BitVec.getLsbD_extractLsb', getLsbD_rejectedControl, if_neg (by omega), if_pos (by omega), Nat.add_sub_cancel_left,
    BitVec.getLsbD_ofNat]

/-- A field of the control word that has no bit of OWNER and REASON is as written. -/
theorem rejectedControl_kept (x : Word) (c : Nat) {lo n : Nat} (h : 2 ≤ lo ∧ lo + n ≤ 8 ∨ 12 ≤ lo) :
    (rejectedControl x c).extractLsb' lo n = x.extractLsb' lo n := by
  apply BitVec.eq_of_getLsbD_eq
  intro j hj
  rw [BitVec.getLsbD_extractLsb', BitVec.getLsbD_extractLsb', getLsbD_rejectedControl, if_neg (by omega), if_neg (by omega)]

/-! ### The release of an entry's pin (R87, R89, R94, R165) -/

section
variable {s : State} {i n : Nat}

/-- Without a pin nothing is released. -/
theorem unpin_absent (h : (s.pinEntry i).pinned = none) : unpin i s = s := by
  unfold unpin
  rw [h]

/-- The entry's pin is made absent, and then released. -/
theorem unpin_present (h : (s.pinEntry i).pinned = some n) :
    unpin i s = releasePin n (s.setPinEntry i { s.pinEntry i with pinned := none }) := by
  unfold unpin
  rw [h]

/-- The captures of an entry stay as its pin is released. -/
theorem pinEntry_unpin (s : State) (i : Nat) : (unpin i s).pinEntry i = { s.pinEntry i with pinned := none } := by
  cases h : (s.pinEntry i).pinned with
  | none =>
    rw [unpin_absent h, ← h]
  | some n =>
    have hi : i < 64 := Nat.lt_of_not_le fun hi => by
      unfold State.pinEntry at h
      rw [tget_beyond _ _ hi] at h
      cases h
    obtain ⟨p, e, hrelease⟩ := releasePin_frame n (s.setPinEntry i { s.pinEntry i with pinned := none })
    rw [unpin_present h, hrelease]
    exact tget_tset_same _ _ _ hi

/-- The state with the pin of entry i absent, and the slot it was on with one pin less. -/
def State.unpinned (s : State) (i n : Nat) : State :=
  (s.setPinEntry i { s.pinEntry i with pinned := none }).setSlot n { s.slot n with pins := (s.slot n).pins - 1 }

/-- A slot that is not RETIRING, or has other pins, keeps its state. -/
theorem unpin_held (h : (s.pinEntry i).pinned = some n) (hheld : (s.slot n).state ≠ .retiring ∨ 2 ≤ (s.slot n).pins) :
    unpin i s = s.unpinned i n := by
  rw [unpin_present h]
  exact releasePin_held n hheld

/-- A RETIRING slot that loses its last pin goes to the Free List. -/
theorem unpin_last (h : (s.pinEntry i).pinned = some n) (hst : (s.slot n).state = .retiring) (hpins : (s.slot n).pins ≤ 1) :
    unpin i s = joinFree n (s.unpinned i n) := by
  rw [unpin_present h]
  exact releasePin_last n hst hpins

/-- The slot records as the slot that lost its pin becomes FREE. -/
theorem unpinned_freed (hn : n < 128) : tset (s.unpinned i n).pool.slots n { (s.unpinned i n).slot n with state := .free } =
    tset s.pool.slots n { s.slot n with pins := (s.slot n).pins - 1, state := .free } := by
  unfold State.unpinned
  rw [slot_setSlot, if_pos ⟨rfl, hn⟩]
  exact tset_tset ..

/-- A slot that lost a pin keeps its issue, and so does every other slot. -/
theorem unpinned_issue (f : Nat) : ((s.unpinned i n).slot f).issue = (s.slot f).issue := by
  unfold State.unpinned
  rw [slot_setSlot]
  split
  · rename_i hf
    rw [hf.1]
  · rfl

/-- With no job that waits the freed slot joins the Free List's tail. -/
theorem unpin_frees (h : (s.pinEntry i).pinned = some n) (hst : (s.slot n).state = .retiring) (hpins : (s.slot n).pins ≤ 1)
    (hwaits : s.jobWaits = false) (hn : n < 128) : unpin i s =
      { s with
        pinTable := tset s.pinTable i { s.pinEntry i with pinned := none }
        pool :=
          { slots := tset s.pool.slots n { s.slot n with pins := (s.slot n).pins - 1, state := .free }
            freeList := s.pool.freeList ++ [n] } } := by
  rw [unpin_last h hst hpins, joinFree_idle (s := s.unpinned i n) n hwaits, unpinned_freed hn]
  rfl

/-- A job that waits takes the head of the Free List that the freed slot joins, its first write ready. -/
theorem unpin_hands_on {j : Job} {f : Nat} {rest : List Nat} {slots : Vector SlotRec 128} (h : (s.pinEntry i).pinned = some n)
    (hst : (s.slot n).state = .retiring) (hpins : (s.slot n).pins ≤ 1) (hj : s.engine.job = some j) (hstage : j.stage = .allocate)
    (hslot : j.slot = none) (hn : n < 128) (hlist : s.pool.freeList ++ [n] = f :: rest)
    (hslots : slots = tset s.pool.slots n { s.slot n with pins := (s.slot n).pins - 1, state := .free }) : unpin i s =
      { s with
        pinTable := tset s.pinTable i { s.pinEntry i with pinned := none }
        pool :=
          { slots := tset slots f
              { tget slots SlotRec.reset f with
                state := .building
                issue := (s.slot f).issue + 1
                ownerLink := j.link
                ownerNode := (s.link j.link).node
                slice := j.slice }
            freeList := rest }
        engine :=
          { s.engine with
            job := some { j with stage := .write, slot := some f, pos := 0 }
            ready := some ⟨.loadingWrite, .write (s.shadow.poolBase + f * 256 + 8)
              ((List.range 8).map fun c => ⟨bufferWord s.engine.buffer c, 15⟩)⟩ } } := by
  rw [unpin_last h hst hpins,
    joinFree_waits (s := s.unpinned i n) hj hstage hslot hlist (hslots.trans (unpinned_freed hn).symm), unpinned_issue]
  rfl

end

/-! ### The checks of a commit (R161, R164) -/

section
variable {s v : State} {e : PinEntry}

/-- Where the Link Table is the same, so is each record. -/
theorem link_congr (h : v.links = s.links) (k : Nat) : v.link k = s.link k := by
  unfold State.link
  rw [h]

/-- The link of a captured node that one OPEN record alone has. -/
theorem nodeLink_unique {node : BitVec 8} {k : Nat} (hlinks : v.links = s.links) (he : e.node = some node)
    (hopen : (s.link k).isOpen = true) (hnode : (s.link k).node = node)
    (hunique : ∀ j, (s.link j).isOpen = true → (s.link j).node = node → j = k) : v.nodeLink e.node = some k := by
  simp only [← link_congr hlinks] at hopen hnode hunique
  rw [he]
  exact findNode_unique hopen hnode hunique

/-- A captured node that no OPEN record has, or that is absent, names no link. -/
theorem nodeLink_none (hlinks : v.links = s.links) (h : ∀ k, (s.link k).isOpen = true → e.node ≠ some (s.link k).node) :
    v.nodeLink e.node = none := by
  cases he : e.node with
  | none => rfl
  | some node =>
    refine findNode_none fun k hopen hnode => ?_
    rw [link_congr hlinks] at hopen hnode
    exact h k hopen (he.trans (congrArg some hnode.symm))

/-- The checks pass: check 4 on slot 0, or checks 5 and 6 on a slot that a cell of the node's link names. -/
theorem checkCommit_passes {r : MapRef} (hlinks : v.links = s.links) (hshadow : v.shadow = s.shadow) (hr : e.ref = some r)
    (hP : r.slot.toNat < s.shadow.poolSlots) (hissue : r.issue = (v.slot r.slot.toNat).issue)
    (hlast : r.slot = 0 ∨ ∃ k node, e.node = some node ∧ (s.link k).isOpen = true ∧ (s.link k).node = node
      ∧ (∀ j, (s.link j).isOpen = true → (s.link j).node = node → j = k) ∧ r.slot.toNat ∈ (s.link k).cells) :
    v.checkCommit e = .ok r.slot.toNat := by
  unfold State.checkCommit
  rw [hr]
  dsimp only
  rw [hshadow, if_neg (Nat.not_le.2 hP), if_neg (not_not_intro hissue)]
  rcases hlast with hzero | ⟨k, node, he, hopen, hnode, hunique, hcell⟩
  · rw [hzero]
    rfl
  · by_cases hzero : r.slot.toNat = 0
    · rw [if_pos hzero, hzero]
    · rw [if_neg hzero, nodeLink_unique hlinks he hopen hnode hunique]
      dsimp only
      rw [link_congr hlinks, if_pos (List.contains_iff_mem.2 hcell)]

/-- The first check that fails, with the link it names. -/
theorem checkCommit_fails {why : RejectReason} {link : Option Nat} (hlinks : v.links = s.links) (hshadow : v.shadow = s.shadow)
    (hfails : e.ref = none ∧ why = .noRef ∧ link = none
      ∨ ∃ r, e.ref = some r
        ∧ (s.shadow.poolSlots ≤ r.slot.toNat ∧ why = .badSlot ∧ link = none
          ∨ r.slot.toNat < s.shadow.poolSlots
            ∧ (r.issue ≠ (v.slot r.slot.toNat).issue ∧ why = .issue ∧ link = none
              ∨ r.issue = (v.slot r.slot.toNat).issue ∧ r.slot ≠ 0
                ∧ ((∀ k, (s.link k).isOpen = true → e.node ≠ some (s.link k).node) ∧ why = .unknownNode ∧ link = none
                  ∨ ∃ k node, e.node = some node ∧ (s.link k).isOpen = true ∧ (s.link k).node = node
                    ∧ (∀ j, (s.link j).isOpen = true → (s.link j).node = node → j = k)
                    ∧ r.slot.toNat ∉ (s.link k).cells ∧ why = .notInForce ∧ link = some k)))) :
    v.checkCommit e = .error (why, link) := by
  unfold State.checkCommit
  rcases hfails with ⟨hr, rfl, rfl⟩ | ⟨r, hr, hfails⟩
  · rw [hr]
  · rw [hr]
    dsimp only
    rw [hshadow]
    rcases hfails with ⟨hP, rfl, rfl⟩ | ⟨hP, ⟨hissue, rfl, rfl⟩ | ⟨hissue, hzero, hnode⟩⟩
    · rw [if_pos hP]
    · rw [if_neg (Nat.not_le.2 hP), if_pos hissue]
    · have hslot : r.slot.toNat ≠ 0 := fun h => hzero (BitVec.eq_of_toNat_eq h)
      rw [if_neg (Nat.not_le.2 hP), if_neg (not_not_intro hissue), if_neg hslot]
      rcases hnode with ⟨hnone, rfl, rfl⟩ | ⟨k, node, he, hopen, hnode, hunique, hcell, rfl, rfl⟩
      · rw [nodeLink_none hlinks hnone]
      · rw [nodeLink_unique hlinks he hopen hnode hunique]
        dsimp only
        rw [link_congr hlinks, if_neg fun h => hcell (List.contains_iff_mem.1 h)]

end

/-! ### Control transitions (R160 to R165) -/

section
variable {s : State} {i : Nat} {x : Word}

/-- A commit that passes its checks. -/
theorem transition_accepted {n : Nat} (hx : controlOwner x = .modem)
    (h : (unpin i s).checkCommit ((unpin i s).pinEntry i) = .ok n) : transition i x s = acceptCommit i n (unpin i s) := by
  unfold transition
  rw [hx]
  unfold commit
  dsimp only
  rw [h]

/-- A commit that fails a check. -/
theorem transition_rejected {why : RejectReason} {link : Option Nat} (hx : controlOwner x = .modem)
    (h : (unpin i s).checkCommit ((unpin i s).pinEntry i) = .error (why, link)) :
    transition i x s = rejectCommit i why link (unpin i s) := by
  unfold transition
  rw [hx]
  unfold commit
  dsimp only
  rw [h]

/-- The control word of an accepted commit is forwarded as written. -/
theorem sentControl_accepted {n : Nat} (hx : controlOwner x = .modem)
    (h : (unpin i s).checkCommit ((unpin i s).pinEntry i) = .ok n) : s.sentControl i x = x := by
  unfold State.sentControl
  rw [hx]
  dsimp only
  rw [h]

/-- The control word of a rejected commit is rewritten. -/
theorem sentControl_rejected {why : RejectReason} {link : Option Nat} (hx : controlOwner x = .modem)
    (h : (unpin i s).checkCommit ((unpin i s).pinEntry i) = .error (why, link)) :
    s.sentControl i x = rejectedControl x why.code := by
  unfold State.sentControl
  rw [hx]
  dsimp only
  rw [h]

/-- Under any other OWNER the entry's pin is released, and the control word is forwarded as written. -/
theorem transition_release (hx : x.extractLsb' 0 2 ≠ 1) : transition i x s = unpin i s ∧ s.sentControl i x = x := by
  have howner : controlOwner x ≠ .modem := fun h => by
    unfold controlOwner bits at h
    split at h
    case h_2 hone => exact hx (BitVec.eq_of_toNat_eq hone)
    all_goals cases h
  unfold transition State.sentControl
  cases hc : controlOwner x with
  | modem => exact absurd hc howner
  | hostOwned | done | rejected => exact ⟨rfl, rfl⟩

end

/-- An accepted burst into a descriptor: the acts of its words, and it passes as it is sent. -/
theorem writeArrival_transmit {s : State} {b : WriteBurst} {i w : Nat} (h : s.accepts = true) (hp : s.place b.base = .transmit i w)
    (hi : i < s.shadow.descriptors) : writeArrival b s = settle (forward (.write b.base (s.sentBeats b i w))
      (takeSnooped .transmit b w 0 2 (transmitActs b i w) s)) := by
  rw [writeArrival_accepts b h]
  unfold takeWrite
  rw [hp]
  dsimp only
  rw [if_pos hi]

/-- The captures and the release leave the link records and the configuration. -/
theorem unpin_afterCaptures_frame {s : State} {b : WriteBurst} {i w : Nat} (hp : s.place b.base = .transmit i w) :
    (unpin i (s.afterCaptures b i w)).links = s.links ∧ (unpin i (s.afterCaptures b i w)).shadow = s.shadow := by
  obtain ⟨p, e, t, h⟩ := unpin_frame i (s.afterCaptures b i w)
  rw [h, afterCaptures_eq hp]
  exact ⟨rfl, rfl⟩

end Sys2Proof.Machine
end

section
/-! PROOFS. The Transmit Ring Watch's statements: captures, commits accepted and rejected, and releases (R157 to R165). -/
namespace Sys2Proof.Machine

/-- Settles O43: the captures of words 1 and 2, and a burst without a full control word. -/
theorem descriptorCaptured : Obligations.DescriptorCaptured := by
  intro s b i w e ha hp hi he
  have hcaptured : e = (s.pinEntry i).captured (b.fullAt (s.shadow.descriptorWord i 1)) (b.fullAt (s.shadow.descriptorWord i 2)) := by
    rw [he]
    cases b.fullAt (s.shadow.descriptorWord i 1) <;> cases b.fullAt (s.shadow.descriptorWord i 2) <;> rfl
  have hafter := afterCaptures_eq hp
  rw [← hcaptured] at hafter
  refine ⟨hafter, fun guard hg hw => ?_⟩
  have harrival : writeArrival b s = passOn b
      (guard { s with choices := s.choices + 1, pinTable := tset s.pinTable i e }) := by
    rw [writeArrival_transmit ha hp hi, takeSnooped_noControl hg hw, sentBeats_noControl hw, hafter]
    rfl
  have hnext : exec (.processorWrite b) s = .next (passOn b
      (guard { s with choices := s.choices + 1, pinTable := tset s.pinTable i e })) := congrArg _ harrival
  exact ⟨hnext, hnext, hnext⟩

/-- Settles O44: the checks pass in the state after the captures and the release, and the GUARD notice changes places with the commit. -/
theorem commitAccepted : Obligations.CommitAccepted := by
  intro s u v b i x r guard ha hp hi hg hx howner hu hv href hP hissue hlast
  subst hu
  have hcontrol := controlWord_full hx
  have hmodem := controlOwner_modem howner
  obtain ⟨hlinks, hshadow⟩ := unpin_afterCaptures_frame hp
  have hcheck : (unpin i (s.afterCaptures b i 0)).checkCommit ((unpin i (s.afterCaptures b i 0)).pinEntry i) = .ok r.slot.toNat := by
    rw [pinEntry_unpin]
    rw [hv] at hissue
    exact checkCommit_passes hlinks hshadow href hP hissue hlast
  have hacts : takeSnooped .transmit b 0 0 2 (transmitActs b i 0) s = guard (acceptCommit i r.slot.toNat v) := by
    rw [hv]
    rcases takeSnooped_control (i := i) hg hcontrol with he | he
    · rw [he, transition_accepted hmodem (by rw [hg.unpin, hg.checkCommit, hg.pinEntry, hcheck]), hg.unpin, hg.acceptCommit]
    · rw [he, transition_accepted hmodem hcheck]
  show Host.Outcome.next (writeArrival b s) = _
  rw [writeArrival_transmit ha hp hi, hacts, sentBeats_kept hp hcontrol (sentControl_accepted hmodem hcheck)]
  rfl

/-- Settles O45: the rewritten control word bit by bit; and the first check that fails, in the state after the captures and the release,
with the GUARD notice before or after the commit. -/
theorem commitRejected : Obligations.CommitRejected := by
  refine ⟨fun x c _ => ⟨rejectedControl_owner x c, rejectedControl_reason x c, rejectedControl_kept x c (by decide),
    rejectedControl_kept x c (by decide)⟩, ?_⟩
  intro s u v w b i x why link guard stale ha hp hi hg hx howner hu hv hfails hstale hw
  subst hu
  have hcontrol := controlWord_full hx
  have hmodem := controlOwner_modem howner
  obtain ⟨hlinks, hshadow⟩ := unpin_afterCaptures_frame hp
  have hentry : v.pinEntry i = { (s.afterCaptures b i 0).pinEntry i with pinned := none } := by rw [hv, pinEntry_unpin]
  have hcheck : v.checkCommit (v.pinEntry i) = .error (why, link) := by
    rw [← hv] at hlinks hshadow
    rw [hentry]
    exact checkCommit_fails hlinks hshadow hfails
  have hreject : ∀ t : State, t.pinEntry i = v.pinEntry i →
      rejectCommit i why link t = stale (t.setPinEntry i { v.pinEntry i with ref := none }) := fun t ht => by
    unfold rejectCommit
    rw [ht, hentry, hstale]
  have hsent : s.sentBeats b i 0 = b.words.set 0 ⟨rejectedControl x why.code, (b.beat 0).be⟩ := by
    rw [sentBeats_control hp hcontrol, sentControl_rejected hmodem (by rw [← hv, hcheck])]
  have hexec : exec (.commit b) s = .next (settle (forward (.write b.base (s.sentBeats b i 0))
      (takeSnooped .transmit b 0 0 2 (transmitActs b i 0) s))) := congrArg Host.Outcome.next (writeArrival_transmit ha hp hi)
  rw [hexec, hsent]
  rcases takeSnooped_control (i := i) hg hcontrol with he | he
  · rw [he, transition_rejected hmodem (by rw [hg.unpin, hg.checkCommit, hg.pinEntry, ← hv, hcheck]), hg.unpin, ← hv,
      hreject _ (hg.pinEntry i v), hg.setPinEntry, hw]
    exact Or.inr rfl
  · rw [he, transition_rejected hmodem (by rw [← hv, hcheck]), ← hv, hreject v rfl, hw]
    exact Or.inl rfl

/-- Settles O46: a control transition under another OWNER is the release of the entry's pin, and the GUARD notice changes places with
it. -/
theorem descriptorReleased : Obligations.DescriptorReleased := by
  intro s u b i x row guard ha hp hi hg hx hrow hu
  have hcontrol := controlWord_full hx
  have howner : x.extractLsb' 0 2 ≠ 1 := by
    rcases hrow with ⟨h, -⟩ | ⟨h, -⟩ | ⟨h, -⟩ <;> rw [h] <;> decide
  have hexec : exec row s = .next (passOn b (guard (unpin i u))) := by
    have harrival : exec row s = .next (writeArrival b s) := by
      rcases hrow with ⟨-, rfl⟩ | ⟨-, rfl⟩ | ⟨-, rfl⟩ <;> rfl
    have hacts : takeSnooped .transmit b 0 0 2 (transmitActs b i 0) s = guard (unpin i u) := by
      rcases takeSnooped_control (i := i) hg hcontrol with he | he
      · rw [he, (transition_release howner).1, hg.unpin, hu]
      · rw [he, (transition_release howner).1, hu]
    rw [harrival, writeArrival_transmit ha hp hi, hacts, sentBeats_kept hp hcontrol (transition_release howner).2]
    rfl
  rw [afterCaptures_eq hp] at hu
  subst hu
  rw [hexec]
  refine ⟨fun h => by rw [unpin_absent h], fun n h => ⟨fun hheld => ?_, fun hst hpins hwaits hn => ?_, ?_⟩⟩
  · rw [unpin_held h hheld]
    rfl
  · rw [unpin_frees h hst hpins hwaits hn]
  · intro j f rest slots hst hpins hj hstage hslot hn hlist hslots
    rw [unpin_hands_on h hst hpins hj hstage hslot hn hlist hslots]
    rfl

end Sys2Proof.Machine
end

section
/-! PROOFS. Alias Translation: the slot that an alias read reaches, and the latch that an offset-0 read sets (R167 to R170). -/
namespace Sys2Proof.Machine

/-! ### The release of a RETIRING slot's last pin, spelled (R89, R93, R94) -/

section
variable {s : State} {m : Nat}

/-- A slot in RETIRING is one of the table. -/
theorem lt_of_retiring (h : (s.slot m).state = .retiring) : m < 128 := by
  by_contra hge
  unfold State.slot at h
  rw [tget_beyond _ _ (Nat.not_lt.1 hge)] at h
  cases h

/-- A change of a slot's PINS leaves every slot's issue. -/
theorem issue_setPins (pins f : Nat) : ((s.setSlot m { s.slot m with pins := pins }).slot f).issue = (s.slot f).issue := by
  rw [slot_setSlot]
  split
  · rename_i hf
    rw [← hf.1]
  · rfl

/-- The slot records as a slot whose PINS changed becomes FREE. -/
theorem slots_setPins_freed (hm : m < 128) (pins : Nat) :
    tset (s.setSlot m { s.slot m with pins := pins }).pool.slots m
        { (s.setSlot m { s.slot m with pins := pins }).slot m with state := .free } =
      tset s.pool.slots m { s.slot m with pins := pins, state := .free } := by
  rw [slot_setSlot, if_pos ⟨rfl, hm⟩]
  exact tset_tset ..

/-- With no job that waits the slot joins the Free List's tail. -/
theorem releasePin_frees (hst : (s.slot m).state = .retiring) (hpins : (s.slot m).pins ≤ 1) (hwaits : s.jobWaits = false) :
    releasePin m s =
      { s with pool :=
        { slots := tset s.pool.slots m { s.slot m with pins := (s.slot m).pins - 1, state := .free }
          freeList := s.pool.freeList ++ [m] } } := by
  rw [releasePin_last m hst hpins, joinFree_idle (s := s.setSlot m _) m hwaits, slots_setPins_freed (lt_of_retiring hst)]
  rfl

/-- A job that waits takes the head of the Free List that the slot joins, its first write ready. -/
theorem releasePin_hands_on {j : Job} {f : Nat} {rest : List Nat} {freed : Vector SlotRec 128}
    (hst : (s.slot m).state = .retiring) (hpins : (s.slot m).pins ≤ 1) (hj : s.engine.job = some j) (hstage : j.stage = .allocate)
    (hslot : j.slot = none) (hlist : s.pool.freeList ++ [m] = f :: rest)
    (hfreed : freed = tset s.pool.slots m { s.slot m with pins := (s.slot m).pins - 1, state := .free }) : releasePin m s =
      { s with
        pool :=
          { slots := tset freed f
              { tget freed SlotRec.reset f with
                state := .building
                issue := (s.slot f).issue + 1
                ownerLink := j.link
                ownerNode := (s.link j.link).node
                slice := j.slice }
            freeList := rest }
        engine :=
          { s.engine with
            job := some { j with stage := .write, slot := some f, pos := 0 }
            ready := some ⟨.loadingWrite, .write (s.shadow.poolBase + f * 256 + 8)
              ((List.range 8).map fun c => ⟨bufferWord s.engine.buffer c, 15⟩)⟩ } } := by
  rw [releasePin_last m hst hpins, joinFree_waits (s := s.setSlot m { s.slot m with pins := (s.slot m).pins - 1 }) hj hstage
    hslot hlist (hfreed.trans (slots_setPins_freed (lt_of_retiring hst) _).symm), issue_setPins]
  rfl

end

/-! ### The slot that an alias read reaches (R167) -/

section
variable {s : State} {r : ReadBurst} {k sel off n : Nat}

/-- The cell of the slice that the selector names, or slot 0, spelled. -/
theorem cellSlot_eq {slice : Option Nat}
    (hn : n = match slice with
      | some i => if (s.link k).isOpen = true ∧ i < s.shadow.slices then (s.link k).cells.getD i 0 else 0
      | none => 0)
    (hslice : slice = if sel < 8 then some sel else s.tracker.slice) : s.cellSlot k sel = n := by
  subst hn hslice
  rfl

/-- An offset of 1 or more under the latch's selector reaches the latched slot. -/
theorem aliasSlot_latched {l : Latch} (hoff : off ≠ 0) (hl : (s.link k).latch = some l) (hsel : l.selector = sel) :
    s.aliasSlot k sel off = l.slot := by
  unfold State.aliasSlot State.latchedSlot
  rw [hl]
  dsimp only
  rw [if_pos ⟨hoff, hsel⟩]
  rfl

/-- Offset 0, and any offset without a latch of the read's selector, reaches the cell's slot. -/
theorem aliasSlot_cell (h : off ≠ 0 → ∀ l, (s.link k).latch = some l → l.selector ≠ sel) :
    s.aliasSlot k sel off = s.cellSlot k sel := by
  unfold State.aliasSlot State.latchedSlot
  cases hl : (s.link k).latch with
  | none => rfl
  | some l =>
    dsimp only
    rw [if_neg fun hboth => h hboth.1 l hl hboth.2]
    rfl

/-! ### When a read sets the latch (R169, R170) -/

/-- A read sets a latch at offset 0, for an OPEN link, in LOCKED or HOLDOVER. -/
theorem latches_iff : s.latches k off = true ↔
    off = 0 ∧ (s.link k).isOpen = true ∧ (s.tracker.state = .locked ∨ s.tracker.state = .holdover) := by
  unfold State.latches
  rw [Bool.and_eq_true, Bool.and_eq_true, beq_iff_eq, isLocked_iff, and_assoc]

/-- An accepted alias read passes at the word of the slot that it reaches. -/
theorem exec_aliasRead (ha : s.accepts = true) (hp : s.place r.base = .aliasWin k sel off) : exec (.aliasRead r) s =
    .next (settle (forward (.read (s.shadow.poolBase + s.aliasSlot k sel off * 256 + off) r.len.words)
      (latchRead k sel off s))) := by
  have harrival : exec (.aliasRead r) s = .next (settle (takeRead r s)) := by
    rw [← readArrival_accepts r ha]
    rfl
  rw [harrival]
  unfold takeRead
  rw [hp]
  rfl

/-- A read that sets no latch changes nothing of the part. -/
theorem exec_aliasRead_passes (ha : s.accepts = true) (hp : s.place r.base = .aliasWin k sel off)
    (h : ¬ (off = 0 ∧ (s.link k).isOpen = true ∧ (s.tracker.state = .locked ∨ s.tracker.state = .holdover))) :
    exec (.aliasRead r) s =
      .next (settle (forward (.read (s.shadow.poolBase + s.aliasSlot k sel off * 256 + off) r.len.words) s)) := by
  have hquiet : latchRead k sel off s = s := if_neg (mt latches_iff.1 h)
  rw [exec_aliasRead ha hp, hquiet]

/-! ### The latch set (R170) -/

/-- A latch that changes is a change of the link's record (R72). -/
theorem counted_latch (L : Link) (x : Latch) : Link.counted L { L with latch := some x } =
    { L with latch := some x, changes := if L.latch = some x then L.changes else L.changes + 1 } := by
  by_cases h : L.latch = some x
  · rw [← h, counted_self, if_pos rfl]
  · rw [if_neg h]
    exact counted_changed fun he => h (congrArg Link.latch he)

/-- A read that sets the latch passes at the slot's first word; the record's latch and CHANGES are set, and what becomes of the pins is
what setting the latch does. -/
theorem exec_aliasRead_latches (ha : s.accepts = true) (hp : s.place r.base = .aliasWin k sel 0)
    (hopen : (s.link k).isOpen = true) (hlocked : s.tracker.state = .locked ∨ s.tracker.state = .holdover)
    (hn : s.cellSlot k sel = n) : exec (.aliasRead r) s =
      .next (settle (forward (.read (s.shadow.poolBase + n * 256) r.len.words)
        { setLatch k sel n s with
          links := tset s.links k
            { s.link k with
              latch := some ⟨sel, n⟩
              changes := if (s.link k).latch = some ⟨sel, n⟩ then (s.link k).changes else (s.link k).changes + 1 } })) := by
  have hlatch : latchRead k sel 0 s = counting (setLatch k sel n) s := by
    rw [← hn]
    exact if_pos (latches_iff.2 ⟨rfl, hopen, hlocked⟩)
  have hlinks : (setLatch k sel n s).links = tset s.links k { s.link k with latch := some ⟨sel, n⟩ } := by
    obtain ⟨p, e, h⟩ := setLatch_frame k sel n s
    rw [h]
  rw [exec_aliasRead ha hp, aliasSlot_cell fun h => absurd rfl h, hn, hlatch, counting_one hlinks, counted_latch]
  rfl

/-- The state with a link's latch set and its slot pinned; a pin of the latch before is not released yet. -/
def State.latchPinned (s : State) (k : Nat) (x : Latch) : State :=
  takePin x.slot (s.setLink k { s.link k with latch := some x })

/-- A link without a latch takes a pin on the slot. -/
theorem setLatch_first (hl : (s.link k).latch = none) : setLatch k sel n s = s.latchPinned k ⟨sel, n⟩ := by
  unfold setLatch
  rw [hl]
  rfl

/-- A latch on the slot already keeps its one pin. -/
theorem setLatch_stays {l : Latch} (hl : (s.link k).latch = some l) (hslot : l.slot = n) :
    setLatch k sel n s = s.setLink k { s.link k with latch := some ⟨sel, n⟩ } := by
  unfold setLatch
  rw [hl]
  exact if_pos hslot

/-- A latch on another slot takes the new pin, and then releases the old one. -/
theorem setLatch_moves {l : Latch} (hl : (s.link k).latch = some l) (hslot : l.slot ≠ n) :
    setLatch k sel n s = releasePin l.slot (s.latchPinned k ⟨sel, n⟩) := by
  unfold setLatch
  rw [hl]
  exact if_neg hslot

/-- A slot other than the one pinned is as it was. -/
theorem slot_latchPinned_ne {x : Latch} {m : Nat} (h : m ≠ x.slot) : (s.latchPinned k x).slot m = s.slot m :=
  (slot_setSlot ..).trans (if_neg fun hm => h hm.1.symm)

/-- The pin of a latch leaves every slot's issue. -/
theorem issue_latchPinned (x : Latch) (f : Nat) : ((s.latchPinned k x).slot f).issue = (s.slot f).issue :=
  issue_setPins (s := s.setLink k { s.link k with latch := some x }) _ f

/-- A latch leaves every link's node. -/
theorem node_latchPinned (x : Latch) (j : Nat) : ((s.latchPinned k x).link j).node = (s.link j).node := by
  unfold State.latchPinned takePin
  rw [link_setSlot, link_setLink]
  split
  · rename_i hj
    rw [← hj.1]
  · rfl

end

/-! ### A latch that moves (R89, R94, R170) -/

section
variable {s : State} {k sel n : Nat} {l : Latch} {slots freed : Vector SlotRec 128}

/-- The slot that the latch leaves is not RETIRING, or has other pins. -/
theorem setLatch_moves_held (hl : (s.link k).latch = some l) (hne : l.slot ≠ n)
    (hslots : slots = tset (tset s.pool.slots n { s.slot n with pins := (s.slot n).pins + 1 }) l.slot
      { s.slot l.slot with pins := (s.slot l.slot).pins - 1 })
    (h : (s.slot l.slot).state ≠ .retiring ∨ 2 ≤ (s.slot l.slot).pins) : setLatch k sel n s =
      { s with
        links := tset s.links k { s.link k with latch := some ⟨sel, n⟩ }
        pool := { s.pool with slots := slots } } := by
  have hold : (s.latchPinned k ⟨sel, n⟩).slot l.slot = s.slot l.slot := slot_latchPinned_ne hne
  rw [setLatch_moves hl hne, releasePin_held l.slot (by rwa [hold]), hold, hslots]
  rfl

/-- The slot that the latch leaves joins the Free List's tail. -/
theorem setLatch_moves_frees (hl : (s.link k).latch = some l) (hne : l.slot ≠ n)
    (hfreed : freed = tset (tset s.pool.slots n { s.slot n with pins := (s.slot n).pins + 1 }) l.slot
      { s.slot l.slot with pins := (s.slot l.slot).pins - 1, state := .free })
    (hst : (s.slot l.slot).state = .retiring) (hpins : (s.slot l.slot).pins ≤ 1) (hwaits : s.jobWaits = false) :
    setLatch k sel n s =
      { s with
        links := tset s.links k { s.link k with latch := some ⟨sel, n⟩ }
        pool := { slots := freed, freeList := s.pool.freeList ++ [l.slot] } } := by
  have hold : (s.latchPinned k ⟨sel, n⟩).slot l.slot = s.slot l.slot := slot_latchPinned_ne hne
  rw [setLatch_moves hl hne, releasePin_frees (s := s.latchPinned k ⟨sel, n⟩) (by rwa [hold]) (by rwa [hold]) hwaits, hold, hfreed]
  rfl

/-- The slot that the latch leaves joins the Free List, whose head goes to the job that waits. -/
theorem setLatch_moves_hands_on {j : Job} {f : Nat} {rest : List Nat} (hl : (s.link k).latch = some l) (hne : l.slot ≠ n)
    (hfreed : freed = tset (tset s.pool.slots n { s.slot n with pins := (s.slot n).pins + 1 }) l.slot
      { s.slot l.slot with pins := (s.slot l.slot).pins - 1, state := .free })
    (hst : (s.slot l.slot).state = .retiring) (hpins : (s.slot l.slot).pins ≤ 1) (hj : s.engine.job = some j)
    (hstage : j.stage = .allocate) (hslot : j.slot = none) (hlist : s.pool.freeList ++ [l.slot] = f :: rest) :
    setLatch k sel n s =
      { s with
        links := tset s.links k { s.link k with latch := some ⟨sel, n⟩ }
        pool :=
          { slots := tset freed f
              { tget freed SlotRec.reset f with
                state := .building
                issue := (s.slot f).issue + 1
                ownerLink := j.link
                ownerNode := (s.link j.link).node
                slice := j.slice }
            freeList := rest }
        engine :=
          { s.engine with
            job := some { j with stage := .write, slot := some f, pos := 0 }
            ready := some ⟨.loadingWrite, .write (s.shadow.poolBase + f * 256 + 8)
              ((List.range 8).map fun c => ⟨bufferWord s.engine.buffer c, 15⟩)⟩ } } := by
  have hold : (s.latchPinned k ⟨sel, n⟩).slot l.slot = s.slot l.slot := slot_latchPinned_ne hne
  rw [setLatch_moves hl hne, releasePin_hands_on (s := s.latchPinned k ⟨sel, n⟩) (freed := freed) (by rwa [hold])
    (by rwa [hold]) hj hstage hslot hlist (by rw [hold]; exact hfreed), issue_latchPinned, node_latchPinned]
  rfl

end

/-- Settles O47: the slot by the latch or the cell; a read that sets no latch; and one that does, by what the link's latch was and what
becomes of the slot that it leaves. -/
theorem aliasTranslated : Obligations.AliasTranslated := by
  intro s r k sel off n slice ha hp hslice hn
  have hcell := cellSlot_eq hn hslice
  refine ⟨fun l hoff hl hsel => ?_, fun hquiet => ?_, fun hoff hopen hlocked => ?_⟩
  · rw [exec_aliasRead_passes ha hp fun h => hoff h.1, aliasSlot_latched hoff hl hsel]
  · rcases hquiet with ⟨hoff, hother⟩ | ⟨rfl, hbarred⟩
    · rw [exec_aliasRead_passes ha hp fun h => hoff h.1, aliasSlot_cell fun _ => hother, hcell]
    · have hnot : ¬ ((0 : Nat) = 0 ∧ (s.link k).isOpen = true ∧ (s.tracker.state = .locked ∨ s.tracker.state = .holdover)) := by
        rcases hbarred with h | h | h <;> simp [h]
      rw [exec_aliasRead_passes ha hp hnot, aliasSlot_cell fun h => absurd rfl h, hcell]
  · subst hoff
    rw [exec_aliasRead_latches ha hp hopen hlocked hcell]
    refine ⟨fun hl => ?_, fun l hl hslot => ?_, fun l u slots hl hne hu hslots => ?_⟩
    · rw [setLatch_first hl, if_neg (by rw [hl]; exact fun h => by cases h)]
      rfl
    · have hsame : (s.link k).latch = some ⟨sel, n⟩ ↔ l.selector = sel := by
        rw [hl, ← hslot, Option.some.injEq, Latch.mk.injEq, and_iff_left rfl]
      rw [setLatch_stays hl hslot]
      simp only [hsame]
      rfl
    · have hmoved : (s.link k).latch ≠ some ⟨sel, n⟩ := fun h => by
        rw [hl, Option.some.injEq] at h
        exact hne (congrArg Latch.slot h)
      rw [if_neg hmoved]
      refine ⟨fun hheld => ?_, fun freed hst hpins hfreed => ?_⟩
      · rw [setLatch_moves_held hl hne hslots hheld, hu]
      · rw [hslots, tset_tset] at hfreed
        refine ⟨fun hwaits => ?_, fun j f rest hj hstage hslot hlist => ?_⟩
        · rw [setLatch_moves_frees hl hne hfreed hst hpins hwaits, hu]
        · rw [setLatch_moves_hands_on hl hne hfreed hst hpins hj hstage hslot hlist, hu]

end Sys2Proof.Machine
end

section
/-! PROOFS. Notices: their admission to staging, their four words, the completion of their burst, and the consumer index (R174 to R177,
R183, 12.6, 12.7). -/
namespace Sys2Proof.Machine

/-! ### Admission (R175) -/

/-- R175's two bounds: staging and ring together, and staging alone. -/
theorem admits_iff (s : State) : s.admits = true ↔
    s.notices.staging.length + s.unconsumed < s.shadow.entries - 1 ∧ s.notices.staging.length < 8 := by
  simp only [State.admits, Bool.and_eq_true, decide_eq_true_eq]

/-- A notice that is admitted is staged with its stamp, and that is all. -/
theorem raise_admitted (x : NoticeBody) {s : State} (h : s.admits = true) : raise x s =
    { s with notices := { s.notices with
        staging := s.notices.staging ++ [⟨x, s.tracker.halfCount, s.tracker.epoch⟩] } } := by
  unfold raise
  rw [if_pos h, h, Bool.not_true, Bool.or_false]

/-- A notice that is not admitted sets OVERFLOW, and that is all. -/
theorem raise_dropped (x : NoticeBody) {s : State} (h : s.admits = false) :
    raise x s = { s with notices := { s.notices with overflow := true } } := by
  unfold raise
  rw [h, if_neg Bool.false_ne_true, Bool.not_false, Bool.or_true]

/-- Settles O60: a raised notice by whether staging admits it. -/
theorem noticeAdmission : Obligations.NoticeAdmission := by
  rintro s x unconsumed rfl
  refine ⟨fun hroom hstaged => raise_admitted x ((admits_iff s).2 ⟨hroom, hstaged⟩), fun hfull => raise_dropped x ?_⟩
  rw [← Bool.not_eq_true, admits_iff]
  exact hfull

/-! ### Fields side by side (12.6) -/

/-- A halfword. -/
theorem put_half (a : Nat) : put 0 16 a = 0#16 ++ BitVec.ofNat 16 a := by
  rw [← fieldAt_word (_ ++ _), fieldAt_append]
  simp only [put_eq_fieldAt, fieldAt_zero, BitVec.zero_or]

/-- Two halfwords. -/
theorem put_halves (a b : Nat) : put 0 16 a ||| put 16 16 b = BitVec.ofNat 16 b ++ BitVec.ofNat 16 a := by
  rw [← fieldAt_word (_ ++ _), fieldAt_append]
  simp only [put_eq_fieldAt, Nat.reduceAdd]
  ac_rfl

/-- Two bytes. -/
theorem put_bytes2 (a b : Nat) : put 0 8 a ||| put 8 8 b = 0#16 ++ BitVec.ofNat 8 b ++ BitVec.ofNat 8 a := by
  rw [← fieldAt_word (_ ++ _), fieldAt_append]
  simp only [fieldAt_append]
  simp only [put_eq_fieldAt, fieldAt_zero, Nat.reduceAdd, BitVec.zero_or]
  ac_rfl

/-- Three bytes. -/
theorem put_bytes3 (a b c : Nat) : put 0 8 a ||| put 8 8 b ||| put 16 8 c =
    0#8 ++ BitVec.ofNat 8 c ++ BitVec.ofNat 8 b ++ BitVec.ofNat 8 a := by
  rw [← fieldAt_word (_ ++ _), fieldAt_append]
  simp only [fieldAt_append]
  simp only [put_eq_fieldAt, fieldAt_zero, Nat.reduceAdd, BitVec.zero_or]
  ac_rfl

/-- A halfword and a byte: the stamp. -/
theorem put_half_byte (a b : Nat) : put 0 16 a ||| put 16 8 b = 0#8 ++ BitVec.ofNat 8 b ++ BitVec.ofNat 16 a := by
  rw [← fieldAt_word (_ ++ _), fieldAt_append]
  simp only [fieldAt_append]
  simp only [put_eq_fieldAt, fieldAt_zero, Nat.reduceAdd, BitVec.zero_or]
  ac_rfl

/-- A bit vector is its number at its own width. -/
theorem ofNat_toNat_self {w : Nat} (x : BitVec w) : BitVec.ofNat w x.toNat = x := by
  rw [BitVec.ofNat_toNat, BitVec.setWidth_eq]

/-! ### The words of an entry (R174, R183) -/

/-- Entry word 0, in its fields. -/
theorem Notice.word0_eq (n : Notice) : n.word0 =
    0#8 ++ BitVec.ofNat 8 (n.body.link.getD 255) ++ 0#7 ++ (if n.body.class = .urgent then 1#1 else 0#1)
      ++ BitVec.ofNat 8 n.body.kind := by
  have hclass : (if n.body.class = .urgent then 1#1 else 0#1) = BitVec.ofBool (n.body.class == .urgent) := by
    cases n.body.class <;> rfl
  unfold Notice.word0
  rw [hclass, ← fieldAt_word (_ ++ _), fieldAt_append]
  simp only [fieldAt_append, put_flag]
  simp only [put_eq_fieldAt, fieldAt_zero, Nat.reduceAdd, BitVec.zero_or, BitVec.or_zero]
  ac_rfl

/-- Entry word 1, in its fields. -/
theorem Notice.word1_eq (n : Notice) : n.word1 = 0#8 ++ n.epoch ++ n.count := by
  unfold Notice.word1
  rw [put_half_byte, ofNat_toNat_self, ofNat_toNat_self]

/-- What an entry holds of its notice: the class, the code of the kind, the link, and the two payload words. -/
theorem spells_of {x : NoticeBody} {kind : BitVec 8} {cls : NoticeClass} {link : Option Nat} {word2 word3 : Word}
    (hclass : x.class = cls) (hkind : BitVec.ofNat 8 x.kind = kind) (hlink : x.link = link) (h2 : x.word2 = word2)
    (h3 : x.word3 = word3) : Spells x kind cls link word2 word3 := by
  refine ⟨hclass, fun count epoch => ?_⟩
  rw [Notice.words, Notice.word0_eq, Notice.word1_eq, hclass, hkind, hlink, h2, h3]

/-! ### Each kind's payload (R183, 12.6, 12.7) -/

/-- APPLY_DONE. -/
theorem spells_applyDone (total notched : Nat) : Spells (.applyDone total notched) 1 .urgent none
    (0#16 ++ BitVec.ofNat 16 total) (0#16 ++ BitVec.ofNat 16 notched) :=
  spells_of rfl rfl rfl (put_half total) (put_half notched)

/-- TRACK_LOCKED, with the code of its cause. -/
theorem spells_trackLocked {cause : LockCause} {code : BitVec 8} (h : BitVec.ofNat 8 cause.code = code) (period bridged : Nat) :
    Spells (.trackLocked cause period bridged) 2 .routine none (BitVec.ofNat 8 bridged ++ code ++ BitVec.ofNat 16 period) 0 := by
  refine spells_of rfl rfl rfl ?_ rfl
  rw [← h, ← fieldAt_word (_ ++ _), fieldAt_append, NoticeBody.word2]
  simp only [fieldAt_append]
  simp only [put_eq_fieldAt, Nat.reduceAdd]
  ac_rfl

/-- TRACK_HOLDOVER. -/
theorem spells_trackHoldover (period : Nat) (stray : BitVec 8) : Spells (.trackHoldover period stray) 3 .routine none
    (0#16 ++ BitVec.ofNat 16 period) (0#24 ++ stray) :=
  spells_of rfl rfl rfl (put_half period) (by rw [NoticeBody.word3, producerWord_eq, ofNat_toNat_self])

/-- TRACK_LOST. -/
theorem spells_trackLost (period : Nat) (stray : BitVec 8) : Spells (.trackLost period stray) 4 .urgent none
    (0#16 ++ BitVec.ofNat 16 period) (0#24 ++ stray) :=
  spells_of rfl rfl rfl (put_half period) (by rw [NoticeBody.word3, producerWord_eq, ofNat_toNat_self])

/-- OFFER. -/
theorem spells_offer (k : Nat) (node setNo mask : BitVec 8) : Spells (.offer k node setNo mask) 5 .urgent (some k)
    (0#8 ++ mask ++ setNo ++ node) 0 := by
  refine spells_of rfl rfl rfl ?_ rfl
  rw [NoticeBody.word2, put_bytes3, ofNat_toNat_self, ofNat_toNat_self, ofNat_toNat_self]

/-- SWITCHED. -/
theorem spells_switched (k : Nat) (setNo mask : BitVec 8) (count : BitVec 16) : Spells (.switched k setNo mask count) 6 .routine (some k)
    (0#16 ++ mask ++ setNo) (0#16 ++ count) := by
  refine spells_of rfl rfl rfl ?_ ?_
  · rw [NoticeBody.word2, put_bytes2, ofNat_toNat_self, ofNat_toNat_self]
  · rw [NoticeBody.word3, put_half, ofNat_toNat_self]

/-- OFFER_EXPIRED. -/
theorem spells_offerExpired (k : Nat) (setNo mask : BitVec 8) (streak : Nat) :
    Spells (.offerExpired k setNo mask streak) 7 .routine (some k) (0#8 ++ BitVec.ofNat 8 streak ++ mask ++ setNo) 0 := by
  refine spells_of rfl rfl rfl ?_ rfl
  rw [NoticeBody.word2, put_bytes3, ofNat_toNat_self, ofNat_toNat_self]

/-- LINK_FALLBACK. -/
theorem spells_linkFallback (k : Nat) (node : BitVec 8) (streak : Nat) : Spells (.linkFallback k node streak) 8 .urgent (some k)
    (0#16 ++ BitVec.ofNat 8 streak ++ node) 0 := by
  refine spells_of rfl rfl rfl ?_ rfl
  rw [NoticeBody.word2, put_bytes2, ofNat_toNat_self]

/-- BUILD_FAILED, with the codes of its reason, of the request's reason and of the stage. -/
theorem spells_buildFailed {why : BuildFailure} {reason : BuildReason} {stage : Stage} {whyCode : BitVec 8}
    {reasonCode stageCode : BitVec 4} (hwhy : BitVec.ofNat 8 why.code = whyCode) (hreason : BitVec.ofNat 4 reason.code = reasonCode)
    (hstage : BitVec.ofNat 4 stage.code = stageCode) (k slice record : Nat) (seq : BitVec 16) :
    Spells (.buildFailed k why slice record seq reason stage) 9 .routine (some k)
      (stageCode ++ reasonCode ++ BitVec.ofNat 8 record ++ BitVec.ofNat 8 slice ++ whyCode) (0#16 ++ seq) := by
  refine spells_of rfl rfl rfl ?_ ?_
  · rw [← hwhy, ← hreason, ← hstage, ← fieldAt_word (_ ++ _), fieldAt_append, NoticeBody.word2]
    simp only [fieldAt_append]
    simp only [put_eq_fieldAt, Nat.reduceAdd]
    ac_rfl
  · rw [NoticeBody.word3, put_half, ofNat_toNat_self]

/-- POOL_EMPTY. -/
theorem spells_poolEmpty (k slice record retiring : Nat) : Spells (.poolEmpty k slice record retiring) 10 .urgent (some k)
    (0#8 ++ BitVec.ofNat 8 retiring ++ BitVec.ofNat 8 record ++ BitVec.ofNat 8 slice) 0 :=
  spells_of rfl rfl rfl (put_bytes3 slice record retiring) rfl

/-- STALE_REF, with the code of its reason and its map reference as written, 0 where it has none. -/
theorem spells_staleRef {why : RejectReason} {code : BitVec 8} (hwhy : BitVec.ofNat 8 why.code = code) {ref : Option MapRef} {word : Word}
    (hnone : ref = none → word = 0) (hsome : ∀ r, ref = some r → word = 0#16 ++ r.issue ++ r.slot) (k : Option Nat) (descriptor : Nat)
    (node : Option (BitVec 8)) : Spells (.staleRef k descriptor why ref node) 11 .routine k
      (0#6 ++ BitVec.ofBool ref.isSome ++ BitVec.ofBool node.isSome ++ node.getD 0 ++ code ++ BitVec.ofNat 8 descriptor) word := by
  have hnode : BitVec.ofNat 8 ((node.map BitVec.toNat).getD 0) = node.getD 0 := by
    cases node with
    | none => rfl
    | some x => exact ofNat_toNat_self x
  refine spells_of rfl rfl rfl ?_ ?_
  · rw [← hwhy, ← hnode, ← fieldAt_word (_ ++ _), fieldAt_append, NoticeBody.word2]
    simp only [fieldAt_append, put_flag]
    simp only [put_eq_fieldAt, fieldAt_zero, Nat.reduceAdd, BitVec.zero_or]
    ac_rfl
  · cases ref with
    | none => rw [hnone rfl]; rfl
    | some r =>
      rw [hsome r rfl, NoticeBody.word3]
      simp only [Option.map_some, Option.getD_some]
      rw [put_bytes2, ofNat_toNat_self, ofNat_toNat_self]

/-- GUARD, with the codes of its window and its reason. -/
theorem spells_guardWrite {window : GuardWindow} {why : GuardReason} {windowCode whyCode : BitVec 8}
    (hwindow : BitVec.ofNat 8 window.code = windowCode) (hwhy : BitVec.ofNat 8 why.code = whyCode) (addr : BitVec 16) :
    Spells (.guardWrite window addr why) 12 .routine none (0#16 ++ whyCode ++ windowCode) (0#16 ++ addr) := by
  refine spells_of rfl rfl rfl ?_ ?_
  · rw [NoticeBody.word2, put_bytes2, hwindow, hwhy]
  · rw [NoticeBody.word3, put_half, ofNat_toNat_self]

/-- ESTIMATE_IGNORED, with the code of its reason. -/
theorem spells_estimateIgnored {why : IgnoreReason} {code : BitVec 8} (hwhy : BitVec.ofNat 8 why.code = code) (k : Option Nat)
    (record : Nat) (seq : BitVec 16) (node : BitVec 8) (meas : BitVec 16) :
    Spells (.estimateIgnored k record why seq node meas) 13 .routine k (0#8 ++ node ++ code ++ BitVec.ofNat 8 record) (meas ++ seq) := by
  refine spells_of rfl rfl rfl ?_ ?_
  · rw [NoticeBody.word2, put_bytes3, hwhy, ofNat_toNat_self]
  · rw [NoticeBody.word3, put_halves, ofNat_toNat_self, ofNat_toNat_self]

/-! ### The end of a notice's burst (R176) -/

/-- The head of staging is written: it leaves, and the entry takes its class. -/
theorem noticeWritten_head {s : State} {x : Notice} {rest : List Notice} (h : s.notices.staging = x :: rest) : noticeWritten s =
    { s with notices := { s.notices with
        staging := rest
        classes := tset s.notices.classes s.notices.producer x.body.class
        urgentCount := if x.body.class = .urgent then s.notices.urgentCount + 1 else s.notices.urgentCount
        producer := (s.notices.producer + 1) % s.shadow.entries } } := by
  unfold noticeWritten
  rw [h]

/-- Settles O59: the words of each kind, the burst of the staged head, and its end. -/
theorem NoticeWriter.noticeWritten : Obligations.NoticeWritten := by
  refine ⟨spells_applyDone, fun period bridged => ⟨spells_trackLocked rfl period bridged, spells_trackLocked rfl period bridged⟩,
    fun period stray => ⟨spells_trackHoldover period stray, spells_trackLost period stray⟩, spells_offer, spells_switched,
    spells_offerExpired, spells_linkFallback, fun k why slice record seq reason stage => ?_, spells_poolEmpty,
    fun k descriptor why ref node => ?_, fun window addr why => ?_, fun k record why seq node meas => ?_,
    fun s x rest hstaged hready hport => formNotice_ready_staged hready hstaged hport, fun s m x rest hm hstaged => ?_⟩
  · exact spells_buildFailed (by cases why <;> rfl) (by cases reason <;> rfl) (by cases stage <;> rfl) k slice record seq
  · exact spells_staleRef (by cases why <;> rfl) (by rintro rfl; rfl) (by rintro r rfl; rfl) k descriptor node
  · exact spells_guardWrite (by cases window <;> rfl) (by cases why <;> rfl) addr
  · exact spells_estimateIgnored (by cases why <;> rfl) k record seq node meas
  · exact congrArg Host.Outcome.next (onPort_done_as hm (noticeWritten_head hstaged) rfl)

/-! ### The consumer index (R177) -/

/-- A one-word burst that writes NOTICE_CONSUMER in full is a mailbox burst without a partial write. -/
theorem mailboxBurst_consumer {s : State} {b : WriteBurst} {x : Word} (ha : s.accepts = true) (hlen : b.len = .one)
    (hbase : b.base = 0x108) (hx : b.fullAt 0x108 = some x) : MailboxBurst s b := by
  refine ⟨ha, by omega, by omega, Or.inr ?_⟩
  have hfull : (b.beat 0).isFull = true := by
    have hword := fullAt_covered b (i := 0) (words_pos _)
    rw [Nat.add_zero, hbase, hx] at hword
    by_contra hpartial
    rw [if_neg hpartial] at hword
    cases hword
  unfold lowestPartial
  rw [hlen, Option.map_eq_none_iff, List.find?_eq_none]
  intro i hi
  obtain rfl : i = 0 := Nat.lt_one_iff.1 (List.mem_range.1 hi)
  rw [hfull, Bool.not_true, Bool.and_false]
  exact Bool.false_ne_true

/-- Settles O26: the one word is taken as the consumer index, and the burst passes. -/
theorem consumerMoves : Obligations.ConsumerMoves := by
  rintro s b x d unconsumed ha hlen hbase hx rfl rfl
  have hburst := mailboxBurst_consumer ha hlen hbase hx
  have hnone : ∀ a, 0x108 < a → b.fullAt a = none := fun a h => by
    have hwords : b.len.words = 1 := by rw [hlen]; rfl
    exact fullAt_outside b (by omega)
  refine congrArg Host.Outcome.next ?_
  rw [writeArrival_data hburst (hnone _ (by decide)), afterData_eq s hburst.2.1, hnone 0x109 (by decide), hnone 0x10A (by decide),
    hnone 0x10B (by decide), hx]
  dsimp only [Option.getD_none]
  rw [consume_notices]

end Sys2Proof.Machine
end

section
/-! PROOFS. Every step keeps NOTE_IRQ at its level (R175, R178): a step ends by deciding it, or leaves all that it is decided from. -/
namespace Sys2Proof.Machine

/-- NOTE_IRQ, and all that its level is decided from, are as they were. -/
def SameIrq (s t : State) : Prop :=
  t.noteIrq = s.noteIrq ∧ t.shadow = s.shadow ∧ t.filter = s.filter ∧ t.notices = s.notices

/-- NOTE_IRQ stays at its level. -/
theorem SameIrq.irqOk {s t : State} (h : SameIrq s t) (hs : s.IrqOk) : t.IrqOk := by
  obtain ⟨hirq, hshadow, hfilter, hnotices⟩ := h
  unfold State.IrqOk
  rw [hirq, hshadow, hfilter, hnotices]
  exact hs

/-- The event decides NOTE_IRQ at its end, or leaves it with all that it is decided from. -/
def IrqDecided (s t : State) : Prop := SameIrq s t ∨ ∃ u, t = settle u

theorem IrqDecided.refl (s : State) : IrqDecided s s := Or.inl ⟨rfl, rfl, rfl, rfl⟩

/-- An event that is due settles, and one that is not changes nothing (log 5). -/
theorem IrqDecided.ofDue (p : Bool) (s u : State) : IrqDecided s (if p then settle u else s) := by
  cases p with
  | true => exact Or.inr ⟨u, rfl⟩
  | false => exact .refl s

/-- Either way NOTE_IRQ is at its level after the event. -/
theorem IrqDecided.irqOk {s t : State} (h : IrqDecided s t) (hs : s.IrqOk) : t.IrqOk := by
  obtain hsame | ⟨u, rfl⟩ := h
  · exact hsame.irqOk hs
  · exact settle_irqOk u

/-- A transaction presented at a busy port. -/
theorem SameIrq.present (x : Transaction) (s : State) : SameIrq s (present x s) := by
  simp [SameIrq]

/-- A write that comes to the port, accepted or presented. -/
theorem IrqDecided.writeArrival (b : WriteBurst) (s : State) : IrqDecided s (writeArrival b s) := by
  unfold Machine.writeArrival
  split
  · exact Or.inr ⟨_, rfl⟩
  · exact Or.inl (.present _ s)

/-- A read that comes to the port, accepted or presented. -/
theorem IrqDecided.readArrival (r : ReadBurst) (s : State) : IrqDecided s (readArrival r s) := by
  unfold Machine.readArrival
  split
  · exact Or.inr ⟨_, rfl⟩
  · exact Or.inl (.present _ s)

/-- The end of an internal burst, if it is on the port. -/
theorem IrqDecided.onBurstDone (u : PortUse) (f : List Word → State → State) (s : State) : IrqDecided s (onBurstDone u f s) :=
  .ofDue _ s _

/-- The act of a link at a start, if it owes one. -/
theorem IrqDecided.startEvent (k : Nat) (s : State) : IrqDecided s (startEvent k s) := .ofDue _ s _

/-- A sample of ZC_IN, with its edge if it is one: the sample alone is nothing to NOTE_IRQ. -/
theorem IrqDecided.zcEdge {level : Bool} {s t : State} (ht : execZcEdge level s = .next t) : IrqDecided s t := by
  cases ht
  split
  · exact .refl s
  · split
    · exact Or.inr ⟨_, rfl⟩
    · exact Or.inl ⟨rfl, rfl, rfl, rfl⟩

/-- The deassertion of RESET_N leaves NOTE_IRQ alone (R42, R43). -/
theorem SameIrq.resetDeassert {zc : Bool} {s t : State} (ht : execResetDeassert zc s = .next t) : SameIrq s t := by
  cases ht
  split
  · exact ⟨rfl, rfl, rfl, rfl⟩
  · split <;> exact ⟨rfl, rfl, rfl, rfl⟩

/-- After hardware reset the filter state is TRANSPARENT and NOTE_IRQ deasserted (R42). -/
theorem irqOk_hardwareReset {n : Nat} {s t : State} (ht : execHardwareReset n s = .next t) : t.IrqOk := by
  cases ht
  exact (irqOk_iff _).2 (irqLevel_transparent rfl).symm

/-- Every command but hardware reset decides NOTE_IRQ, or leaves it with all that it is decided from. -/
theorem exec_irqDecided {c : Instr} {s t : State} (hreset : ∀ n, c ≠ .hardwareReset n) (ht : exec c s = .next t) : IrqDecided s t := by
  cases c with
  | hardwareReset n => exact absurd rfl (hreset n)
  | resetDeassert zc => exact Or.inl (.resetDeassert ht)
  | aliasRead r | processorRead r => cases ht; exact .readArrival r s
  | processorBurstDone | captureWindowMiss | jobStart | allocateAfterWait => cases ht; exact .ofDue _ s _
  | zcEdge level => exact .zcEdge ht
  | sliceBoundary => cases ht; exact Or.inl (by split <;> exact ⟨rfl, rfl, rfl, rfl⟩)
  | gatherEnd k | offerExpiry k | flip k => cases ht; exact .startEvent k s
  | notchReadDone | baseLoadingWriteDone | baseHeaderWriteDone | headerReadDone | snrBurstDone | candidateBurstDone
  | loadingWriteDone | headerWriteDone | noticeWriteDone | endedClientBurstDone => cases ht; exact .onBurstDone _ _ s
  | apply b | withdraw b | linkAdd b | linkRemove b | linkHold b | linkResume b | rebuild b | confirm b | decline b
  | badCodeCommand b | cmdArgWrite b | noticeConsumerWrite b | configWrite b | processorWrite b | discardedWrite b
  | estimateHeaderWrite b | estimateArrival b | descriptorRefCapture b | descriptorNodeCapture b | commit b
  | descriptorDone b | descriptorHostOwned b | descriptorRejected b => cases ht; exact .writeArrival b s

/-- An idle step takes an event that settles, or lets a boundary or a tick pass, which NOTE_IRQ does not depend on (log 4). -/
theorem idle_irqDecided (s : State) : IrqDecided s (idle s) := by
  unfold idle
  split
  · exact Or.inl ⟨rfl, rfl, rfl, rfl⟩
  · split
    · exact Or.inl ⟨rfl, rfl, rfl, rfl⟩
    · split
      · exact Or.inr ⟨_, rfl⟩
      · split
        · exact .startEvent _ s
        · split
          · exact Or.inr ⟨_, rfl⟩
          · exact Or.inl ⟨rfl, rfl, rfl, rfl⟩

/-- Every command keeps NOTE_IRQ at its level. -/
theorem exec_keeps_irqOk {c : Instr} {s t : State} (h : s.IrqOk) (ht : exec c s = .next t) : t.IrqOk := by
  by_cases hreset : ∃ n, c = .hardwareReset n
  · obtain ⟨n, rfl⟩ := hreset
    exact irqOk_hardwareReset ht
  · exact (exec_irqDecided (fun n hc => hreset ⟨n, hc⟩) ht).irqOk h

/-- Settles O8: a command or an idle step decides NOTE_IRQ, or leaves it with all that it is decided from. -/
theorem irqLawKept : Obligations.IrqLawKept := by
  intro s t h ht
  unfold step at ht
  split at ht
  · cases ht
    exact (idle_irqDecided s).irqOk h
  · rename_i rest _
    exact exec_keeps_irqOk (s := { s with pending := rest }) h ht

end Sys2Proof.Machine
end
